-- ==== Sys2Proof/Word.lean ====
section
/-! DEFINITION. The byte a serial port carries, and the fixed-size tables the records of the DT410 are kept in. -/

namespace Sys2Proof

/-- One byte of a frame (R175, R199). -/
abbrev Byte := BitVec 8

/-- A fixed number of like records (sixteen stations, six slots, twelve plans, twenty-four service codes). -/
abbrev Tab (n : Nat) (α : Type) := Vector α n

/-- The record at an index. -/
def tabGet {n : Nat} {α : Type} (t : Tab n α) (i : Fin n) : α := t[i.val]

/-- The table with the record at one index replaced. -/
def tabSet {n : Nat} {α : Type} (t : Tab n α) (i : Fin n) (x : α) : Tab n α := t.set i.val x

/-- The table whose record at each index a function gives. -/
def tabOf {n : Nat} {α : Type} (f : Fin n → α) : Tab n α := Vector.ofFn f

/-- One value for each of the levels 1 to 4 or the speed classes 1 to 4. -/
structure ByFour (α : Type) where
  one : α
  two : α
  three : α
  four : α
deriving DecidableEq, Repr, Inhabited

end Sys2Proof
end

