-- ==== Sys2Proof/Config.lean ====
section
/-! DEFINITION. What is fixed for every DT410 (capacities, ranges, default values, the level factors of R119), the
set of tunnel constants (R196), and the free values: what the manual leaves open. -/

namespace Sys2Proof

/-- The tunnel constants, one set for the whole part (R196). SET_CONSTANTS carries the same set, unclamped (R197). -/
structure Constants where
  tunnelLen : Nat
  ce1 : Nat
  ce2 : Nat
  ce3 : Nat
  ce4 : Nat
  eyeTol : Nat
  clearMin : Nat
  lenMin : Nat
  lenMax : Nat
  admitSpacing : Nat
  armLead : Nat
  commitLead : Nat
  grantTimeout : Nat
  startWarn : Nat
  exitBlockTime : Nat
  stallWindows : Nat
  speed : ByFour Nat
deriving DecidableEq, Repr, Inhabited

namespace Config

/-- The default of every tunnel constant (R196). -/
def defaultConstants : Constants :=
  { tunnelLen := 24000, ce1 := 0, ce2 := 0, ce3 := 0, ce4 := 0, eyeTol := 150, clearMin := 40,
    lenMin := 2000, lenMax := 6500, admitSpacing := 7000, armLead := 400, commitLead := 300,
    grantTimeout := 20, startWarn := 5, exitBlockTime := 8, stallWindows := 20,
    speed := ⟨1400, 1900, 2400, 2900⟩ }

/-- The default INTENSITY codes of levels 1 to 4 (R87). -/
def defaultLevels : ByFour Nat := ⟨1024, 2048, 3072, 4095⟩

/-- L_TABLE: the brush factor of each level (R119). -/
def levelFactor : ByFour Nat := ⟨192, 256, 320, 384⟩

/-- The tunnel queue holds at most 12 car records (R3). -/
def queueMax : Nat := 12
/-- A lane queue holds at most 4 tickets (R66). -/
def laneMax : Nat := 4
/-- The credit list holds at most 16 credits (R82). -/
def creditMax : Nat := 16
/-- The incident list holds at most 8 records (R154). -/
def incidentMax : Nat := 8
/-- The plan store holds 96 entries (R50). -/
def storeMax : Nat := 96
/-- A ticket's list holds at most 12 entries (R64, R74). -/
def ticketMax : Nat := 12
/-- A transmit queue holds at most 8 frames, of which notices may be 7 (R177, R178). -/
def txMax : Nat := 8
/-- The most notices a transmit queue takes (R178). -/
def noticeMax : Nat := 7
/-- The top of a four-byte amount or count (5.1 of the scope file, R165). -/
def amountMax : Nat := 4294967295
/-- The top of a per-plan tickets-sold count (R165). -/
def planCountMax : Nat := 65535
/-- The top of a position and of the entry count (R5, R43). -/
def positionMax : Nat := 65535
/-- The top of a measured length (R44). -/
def lengthMax : Nat := 16383
/-- The retry timer's time in milliseconds (R95). -/
def retryTime : Nat := 500
/-- The gap timer's time in milliseconds (R175). -/
def gapTime : Nat := 20
/-- The start byte of every frame (R175, R177). -/
def startByte : Byte := 0xC5

/-- FREE VALUE (log entry 1): the repeat count that the INCIDENT notice of a DISCARDED raise carries. R157 says that
the notice carries the raise's kind and fields and no number, and states no repeat count. -/
opaque discardedRepeat : Nat → BitVec 8

/-- FREE VALUE (log entry 1): the time that the INCIDENT notice of a DISCARDED raise carries; see `discardedRepeat`. -/
opaque discardedTime : Nat → BitVec 32

/-- FREE VALUE (log entry 26): the terminal reference that LANE_STATUS sends for a lane without a last-sale record. R202
gives 0 for the absent sale number, and R199 gives a terminal reference no value for absent. -/
opaque absentReference : Nat → BitVec 16

end Config

end Sys2Proof
end

