-- ==== Sys2Proof/Syntax.lean ====
section
/-! DEFINITION. The commands of the DT410: one constructor of `Instr` for each row of spec/opcode_table.json. A request
row stands for a frame that has completed its sum test on a port (R180), with the fields of R201 as numbers; an event
row stands for an edge, a pulse, a scan, a timer expiry or a byte (5.6 of the scope file). -/

namespace Sys2Proof

/-- The five serial ports (R174). -/
inductive Port where
  | p0 | p1 | p2 | p3 | p4
deriving DecidableEq, Repr

/-- The three lanes. -/
inductive Lane where
  | a | b | c
deriving DecidableEq, Repr

/-- The four optional check eyes. -/
inductive CheckEye where
  | ce1 | ce2 | ce3 | ce4
deriving DecidableEq, Repr

/-- Why a part of a frame is discarded (R176, R180). -/
inductive DiscardCause where
  /-- a length byte outside 1 to 64 -/
  | badLength
  /-- the sum test failed -/
  | badSum
  /-- a byte received with its stop bit low -/
  | framing
  /-- a completed frame whose kind is 0x70 or above -/
  | kindNotRequest
deriving DecidableEq, Repr

/-- What the start-up event follows (R193). -/
inductive ResetCause where
  | powerOn | resetPin
deriving DecidableEq, Repr

/-- The two switches of a brush arm (R135). -/
inductive Switch where
  | bumper | overtravel
deriving DecidableEq, Repr

/-- A (service code, level) pair as a request gives it. -/
structure RawPair where
  code : Nat
  level : Nat
deriving DecidableEq, Repr

/-- The description of a purchase that QUOTE, SELL and the new-sale ATTACH carry (R68, R201); credit 0 is none. -/
structure Purchase where
  plan : Nat
  addOns : List RawPair
  credit : Nat
deriving DecidableEq, Repr

/-- The brush fields of a SET_STATION request (R201). -/
structure RawBrush where
  slot : Nat
  k : Nat
  brMin : Nat
  brMax : Nat
  icA : Nat
  icB : Nat
  jamMargin : Nat
  slackMargin : Nat
  jamN : Nat
  slackN : Nat
  jamBlank : Nat
  qualifier : Nat
  signals : Nat
deriving DecidableEq, Repr

/-- The two forms of SET_STATION: 21 bytes with the level table, 33 bytes with the brush fields (R201). -/
inductive RawGear where
  | levels (t : ByFour Nat)
  | brush (b : RawBrush)
deriving DecidableEq, Repr

/-- The station record as SET_STATION carries it (R88, R201). -/
structure RawStation where
  code : Nat
  kind : Nat
  sp : Nat
  pre : Nat
  post : Nat
  mode : Nat
  proofWait : Nat
  retries : Nat
  gear : RawGear
deriving DecidableEq, Repr

/-- The two forms of CAR_LIST (R185). -/
inductive CarListForm where
  | summary
  | record (tag part : Nat)
deriving DecidableEq, Repr

/-- The commands. A lane operand that is an `Option` is absent in a lane port's frame and present in the console's and
the office's (R182, R201). -/
inductive Instr where
  -- status reads
  | tunnelStatus (p : Port)
  | carList (p : Port) (form : CarListForm)
  | incidentList (p : Port) (index : Nat)
  | creditList (p : Port) (index : Nat)
  | laneStatus (p : Port) (lane : Option Nat)
  | stationStatus (p : Port) (station : Option Nat)
  | planListSummary (p : Port)
  | planListPlan (p : Port) (plan : Nat)
  | planListService (p : Port) (code : Nat)
  | tallyRead (p : Port) (part : Nat) (take : Bool) (clear : Bool)
  -- sales
  | quote (p : Port) (buy : Purchase)
  | sell (p : Port) (lane : Option Nat) (buy : Purchase) (ref : Nat)
  | void (p : Port) (sale : Nat)
  | addService (p : Port) (sale : Nat) (code : Nat) (level : Nat)
  | attachLane (p : Port) (tag : Nat) (lane : Nat)
  | attachNewSale (p : Port) (tag : Nat) (buy : Purchase) (ref : Nat)
  -- console operation
  | ackIncident (p : Port) (number : Nat)
  | ackIncidentAll (p : Port)
  | restart (p : Port)
  | laneReset (p : Port) (lane : Nat)
  | laneEnable (p : Port) (lane : Nat)
  | laneDisable (p : Port) (lane : Nat)
  | tunnelClear (p : Port)
  | stationOff (p : Port) (station : Nat)
  | stationOn (p : Port) (station : Nat)
  | stationReset (p : Port) (station : Nat)
  -- tunnel control
  | claim (p : Port)
  | yield (p : Port)
  | openTunnel (p : Port)
  | drain (p : Port)
  | stop (p : Port)
  | pause (p : Port)
  | resume (p : Port)
  | forceSpeed (p : Port) (cls : Nat)
  | releaseSpeed (p : Port)
  -- office settings
  | definePlan (p : Port) (plan : Nat) (name : List Nat) (price : Nat) (cls : Nat) (list : List RawPair)
  | erasePlan (p : Port) (plan : Nat)
  | publish (p : Port) (plan : Nat)
  | withdraw (p : Port) (plan : Nat)
  | setService (p : Port) (code : Nat) (presence : Nat) (price : Nat) (limit : Nat)
  | setStation (p : Port) (station : Nat) (rec : RawStation)
  | setConstants (p : Port) (consts : Constants)
  | setResponse (p : Port) (kind : Nat) (cls : Nat)
  | issueCredit (p : Port) (value : Nat) (plan : Nat)
  | save (p : Port)
  -- the Port Unit
  | unknownKind (p : Port) (kind : Nat)
  | frameDiscarded (p : Port) (cause : DiscardCause)
  | gapTimerExpiry (p : Port)
  | txStart (p : Port)
  | txFrameSent (p : Port)
  -- tracking and the entrance
  | encoderPulse
  | checkEyeBlockingEdge (k : CheckEye)
  | checkEyeClearEdge (k : CheckEye)
  | exitEyeBlockingEdge
  | exitEyeClearEdge
  | entranceEyeBlockingEdge
  | entranceEyeClearEdge
  | loopOccupied (l : Lane)
  | loopVacant (l : Lane)
  -- equipment inputs
  | proofAssert (i : Fin 16)
  | proofDeassert (i : Fin 16)
  | bumperOvertravelEdge (slot : Fin 6) (line : Switch) (active : Bool)
  | estopLoopOpen
  | estopLoopClose
  | reset
  | startUp (cause : ResetCause)
  -- timers, windows, scans
  | grantTimerExpiry
  | startTimerExpiry
  | exitBlockTimerExpiry
  | proofTimerExpiry (i : Fin 16)
  | retryTimerExpiry (i : Fin 16)
  | gateWindowEnd
  | scanComplete (samples : Tab 6 (BitVec 12))
  | secondsTick
  | saveComplete (verified : Bool)
  | byteReceived (p : Port) (byte : Byte)
deriving DecidableEq, Repr

end Sys2Proof
end

