-- ==== Sys2Proof/Decode.lean ====
section
/-! DEFINITION. The bytes of a request frame: the request kinds (R200), the field widths (R199), the payload layouts and
the form test (R201), read by `decodeRequest` and written by `encodeRequest`. The opcode table gives no row any bits, so
`decodeTableWord` spells no command. -/

namespace Sys2Proof

/-- The request kinds of R200. -/
inductive ReqKind where
  | tunnelStatus | carList | incidentList | creditList | laneStatus | stationStatus | planList | tallyRead
  | quote | sell | void | addService | attach
  | ackIncident | restart | laneReset | laneEnable | laneDisable | tunnelClear | stationOff | stationOn | stationReset
  | claim | yield | openTunnel | drain | stop | pause | resume | forceSpeed | releaseSpeed
  | definePlan | erasePlan | publish | withdraw | setService | setStation | setConstants | setResponse | issueCredit
  | save
deriving DecidableEq, Repr

/-- The KIND byte of each request (R200). -/
def kindByte : ReqKind → Nat
  | .tunnelStatus => 0x01 | .carList => 0x02 | .incidentList => 0x03 | .creditList => 0x04
  | .laneStatus => 0x05 | .stationStatus => 0x06 | .planList => 0x07 | .tallyRead => 0x08
  | .quote => 0x10 | .sell => 0x11 | .void => 0x12 | .addService => 0x13 | .attach => 0x14
  | .ackIncident => 0x20 | .restart => 0x21 | .laneReset => 0x22 | .laneEnable => 0x23
  | .laneDisable => 0x24 | .tunnelClear => 0x25 | .stationOff => 0x26 | .stationOn => 0x27
  | .stationReset => 0x28
  | .claim => 0x30 | .yield => 0x31 | .openTunnel => 0x32 | .drain => 0x33 | .stop => 0x34
  | .pause => 0x35 | .resume => 0x36 | .forceSpeed => 0x37 | .releaseSpeed => 0x38
  | .definePlan => 0x40 | .erasePlan => 0x41 | .publish => 0x42 | .withdraw => 0x43
  | .setService => 0x44 | .setStation => 0x45 | .setConstants => 0x46 | .setResponse => 0x47
  | .issueCredit => 0x48 | .save => 0x49

/-- The request that a KIND byte names, if it names one (R200). -/
def kindOfByte (n : Nat) : Option ReqKind :=
  match n with
  | 0x01 => some .tunnelStatus | 0x02 => some .carList | 0x03 => some .incidentList
  | 0x04 => some .creditList | 0x05 => some .laneStatus | 0x06 => some .stationStatus
  | 0x07 => some .planList | 0x08 => some .tallyRead
  | 0x10 => some .quote | 0x11 => some .sell | 0x12 => some .void | 0x13 => some .addService
  | 0x14 => some .attach
  | 0x20 => some .ackIncident | 0x21 => some .restart | 0x22 => some .laneReset
  | 0x23 => some .laneEnable | 0x24 => some .laneDisable | 0x25 => some .tunnelClear
  | 0x26 => some .stationOff | 0x27 => some .stationOn | 0x28 => some .stationReset
  | 0x30 => some .claim | 0x31 => some .yield | 0x32 => some .openTunnel | 0x33 => some .drain
  | 0x34 => some .stop | 0x35 => some .pause | 0x36 => some .resume | 0x37 => some .forceSpeed
  | 0x38 => some .releaseSpeed
  | 0x40 => some .definePlan | 0x41 => some .erasePlan | 0x42 => some .publish
  | 0x43 => some .withdraw | 0x44 => some .setService | 0x45 => some .setStation
  | 0x46 => some .setConstants | 0x47 => some .setResponse | 0x48 => some .issueCredit
  | 0x49 => some .save
  | _ => none

/-- P1, P2 and P3 are the lane ports (R174). -/
def Port.isLane : Port → Bool
  | .p1 | .p2 | .p3 => true
  | .p0 | .p4 => false

/-! ### Field widths (R199): two and four bytes go most significant byte first -/

/-- A one-byte field. -/
def b1 (n : Nat) : List Byte := [BitVec.ofNat 8 n]

/-- A two-byte field. -/
def b2 (n : Nat) : List Byte := [BitVec.ofNat 8 (n / 256), BitVec.ofNat 8 n]

/-- A four-byte field. -/
def b4 (n : Nat) : List Byte :=
  [BitVec.ofNat 8 (n / 16777216), BitVec.ofNat 8 (n / 65536), BitVec.ofNat 8 (n / 256), BitVec.ofNat 8 n]

/-- A service list or add-on list as its (code, level) byte pairs. -/
def pairBytes (l : List RawPair) : List Byte := l.flatMap fun q => b1 q.code ++ b1 q.level

/-! ### Reading fields -/

/-- Reads a one-byte field. -/
def rd1 : List Byte → Option (Nat × List Byte)
  | x :: r => some (x.toNat, r)
  | [] => none

/-- Reads a two-byte field. -/
def rd2 : List Byte → Option (Nat × List Byte)
  | x :: y :: r => some (x.toNat * 256 + y.toNat, r)
  | _ => none

/-- Reads a given number of one-byte fields. -/
def rdBytes : Nat → List Byte → Option (List Nat × List Byte)
  | 0, r => some ([], r)
  | k + 1, r => do
    let (x, r) ← rd1 r
    let (xs, r) ← rdBytes k r
    some (x :: xs, r)

/-- Reads a given number of (code, level) pairs. -/
def rdPairs : Nat → List Byte → Option (List RawPair × List Byte)
  | 0, r => some ([], r)
  | k + 1, r => do
    let (c, r) ← rd1 r
    let (l, r) ← rd1 r
    let (xs, r) ← rdPairs k r
    some (⟨c, l⟩ :: xs, r)

/-- The payload must end where the last field does: a payload of another length fits no form (R201). -/
def rdEnd {α : Type} (x : α) : List Byte → Option α
  | [] => some x
  | _ => none

/-- A payload of no bytes. -/
def rdNone (c : Instr) (r : List Byte) : Option Instr := rdEnd c r

/-- A payload of one byte. -/
def rdOne (c : Nat → Instr) (r : List Byte) : Option Instr := do
  let (x, r) ← rd1 r
  rdEnd (c x) r

/-- Plan, add-on count, add-on pairs, credit number (R201). -/
def rdPurchase (r : List Byte) : Option (Purchase × List Byte) := do
  let (plan, r) ← rd1 r
  let (k, r) ← rd1 r
  let (adds, r) ← rdPairs k r
  let (credit, r) ← rd2 r
  some (⟨plan, adds, credit⟩, r)

/-- The four two-byte values of a level table or of SPEED_TABLE. -/
def rdFour (r : List Byte) : Option (ByFour Nat × List Byte) := do
  let (x1, r) ← rd2 r
  let (x2, r) ← rd2 r
  let (x3, r) ← rd2 r
  let (x4, r) ← rd2 r
  some (⟨x1, x2, x3, x4⟩, r)

/-- The twenty bytes of the brush fields (R201). -/
def rdBrush (r : List Byte) : Option (RawBrush × List Byte) := do
  let (slot, r) ← rd1 r
  let (k, r) ← rd2 r
  let (brMin, r) ← rd2 r
  let (brMax, r) ← rd2 r
  let (icA, r) ← rd2 r
  let (icB, r) ← rd2 r
  let (jamMargin, r) ← rd2 r
  let (slackMargin, r) ← rd2 r
  let (jamN, r) ← rd1 r
  let (slackN, r) ← rd1 r
  let (jamBlank, r) ← rd1 r
  let (qualifier, r) ← rd1 r
  let (signals, r) ← rd1 r
  some (⟨slot, k, brMin, brMax, icA, icB, jamMargin, slackMargin, jamN, slackN, jamBlank, qualifier, signals⟩, r)

/-- SET_STATION: the form is chosen by length, 21 or 33 bytes (R201). -/
def rdStation (p : Port) (bytes : List Byte) : Option Instr := do
  let (station, r) ← rd1 bytes
  let (code, r) ← rd1 r
  let (kind, r) ← rd1 r
  let (sp, r) ← rd2 r
  let (pre, r) ← rd2 r
  let (post, r) ← rd2 r
  let (mode, r) ← rd1 r
  let (proofWait, r) ← rd2 r
  let (retries, r) ← rd1 r
  if bytes.length = 21 then do
    let (t, r) ← rdFour r
    rdEnd (.setStation p station ⟨code, kind, sp, pre, post, mode, proofWait, retries, .levels t⟩) r
  else do
    let (b, r) ← rdBrush r
    rdEnd (.setStation p station ⟨code, kind, sp, pre, post, mode, proofWait, retries, .brush b⟩) r

/-- SET_CONSTANTS: the constants in the order of section 11.4, the three times and STALL_WINDOWS in one byte (R201). -/
def rdConstants (p : Port) (r : List Byte) : Option Instr := do
  let (tunnelLen, r) ← rd2 r
  let (ce1, r) ← rd2 r
  let (ce2, r) ← rd2 r
  let (ce3, r) ← rd2 r
  let (ce4, r) ← rd2 r
  let (eyeTol, r) ← rd2 r
  let (clearMin, r) ← rd2 r
  let (lenMin, r) ← rd2 r
  let (lenMax, r) ← rd2 r
  let (admitSpacing, r) ← rd2 r
  let (armLead, r) ← rd2 r
  let (commitLead, r) ← rd2 r
  let (grantTimeout, r) ← rd1 r
  let (startWarn, r) ← rd1 r
  let (exitBlockTime, r) ← rd1 r
  let (stallWindows, r) ← rd1 r
  let (speed, r) ← rdFour r
  rdEnd (.setConstants p ⟨tunnelLen, ce1, ce2, ce3, ce4, eyeTol, clearMin, lenMin, lenMax, admitSpacing, armLead,
    commitLead, grantTimeout, startWarn, exitBlockTime, stallWindows, speed⟩) r

/-- ATTACH: tag, selector, and the form the selector names (R201). -/
def rdAttach (p : Port) (r : List Byte) : Option Instr := do
  let (tag, r) ← rd1 r
  let (selector, r) ← rd1 r
  match selector with
  | 0 => rdOne (fun lane => .attachLane p tag lane) r
  | 1 => do
    let (buy, r) ← rdPurchase r
    let (ref, r) ← rd2 r
    rdEnd (.attachNewSale p tag buy ref) r
  | _ => none

/-- SELL: a lane byte first from the console, none from a lane port (R201). -/
def rdSell (p : Port) (r : List Byte) : Option Instr := do
  let (lane, r) ← (if p.isLane then some (none, r) else (rd1 r).map fun q => (some q.1, q.2))
  let (buy, r) ← rdPurchase r
  let (ref, r) ← rd2 r
  rdEnd (.sell p lane buy ref) r

/-- DEFINE_PLAN: plan, name length and characters, price, speed class, list count and pairs (R201). -/
def rdDefine (p : Port) (r : List Byte) : Option Instr := do
  let (plan, r) ← rd1 r
  let (m, r) ← rd1 r
  let (name, r) ← rdBytes m r
  let (price, r) ← rd2 r
  let (cls, r) ← rd1 r
  let (count, r) ← rd1 r
  let (list, r) ← rdPairs count r
  rdEnd (.definePlan p plan name price cls list) r

/-- CAR_LIST: selector 0 alone, or selector 1 with tag and part (R201). -/
def rdCarList (p : Port) (r : List Byte) : Option Instr := do
  let (selector, r) ← rd1 r
  match selector with
  | 0 => rdEnd (.carList p .summary) r
  | 1 => do
    let (tag, r) ← rd1 r
    let (part, r) ← rd1 r
    rdEnd (.carList p (.record tag part)) r
  | _ => none

/-- STATION_STATUS: selector 0 alone, or selector 1 with the station (R201). -/
def rdStationStatus (p : Port) (r : List Byte) : Option Instr := do
  let (selector, r) ← rd1 r
  match selector with
  | 0 => rdEnd (.stationStatus p none) r
  | 1 => rdOne (fun i => .stationStatus p (some i)) r
  | _ => none

/-- PLAN_LIST: selector 0 alone, 1 with the plan, 2 with the code (R201). -/
def rdPlanList (p : Port) (r : List Byte) : Option Instr := do
  let (selector, r) ← rd1 r
  match selector with
  | 0 => rdEnd (.planListSummary p) r
  | 1 => rdOne (fun n => .planListPlan p n) r
  | 2 => rdOne (fun n => .planListService p n) r
  | _ => none

/-- TALLY_READ: part and flags; unassigned flag bits are ignored (R199, R201). -/
def rdTally (p : Port) (r : List Byte) : Option Instr := do
  let (part, r) ← rd1 r
  let (flags, r) ← rd1 r
  rdEnd (.tallyRead p part (flags.testBit 0) (flags.testBit 1)) r

/-- QUOTE: the purchase alone (R201). -/
def rdQuote (p : Port) (r : List Byte) : Option Instr := do
  let (buy, r) ← rdPurchase r
  rdEnd (.quote p buy) r

/-- VOID: the sale number (R201). -/
def rdVoid (p : Port) (r : List Byte) : Option Instr := do
  let (sale, r) ← rd2 r
  rdEnd (.void p sale) r

/-- ADD_SERVICE: sale number, code, level (R201). -/
def rdAddService (p : Port) (r : List Byte) : Option Instr := do
  let (sale, r) ← rd2 r
  let (code, r) ← rd1 r
  let (level, r) ← rd1 r
  rdEnd (.addService p sale code level) r

/-- ACK_INCIDENT: an incident number, or 0 for ALL (R201). -/
def rdAck (p : Port) (r : List Byte) : Option Instr := do
  let (n, r) ← rd1 r
  rdEnd (if n = 0 then .ackIncidentAll p else .ackIncident p n) r

/-- LANE_STATUS: no byte from a lane port, the lane from the console and the office (R201). -/
def rdLaneStatus (p : Port) (r : List Byte) : Option Instr :=
  if p.isLane then rdNone (.laneStatus p none) r else rdOne (fun l => .laneStatus p (some l)) r

/-- SET_SERVICE: code, presence, price, class limit (R201). -/
def rdSetService (p : Port) (r : List Byte) : Option Instr := do
  let (code, r) ← rd1 r
  let (presence, r) ← rd1 r
  let (price, r) ← rd2 r
  let (limit, r) ← rd1 r
  rdEnd (.setService p code presence price limit) r

/-- SET_RESPONSE: kind, class (R201). -/
def rdSetResponse (p : Port) (r : List Byte) : Option Instr := do
  let (kind, r) ← rd1 r
  let (cls, r) ← rd1 r
  rdEnd (.setResponse p kind cls) r

/-- ISSUE_CREDIT: value in two bytes, plan (R199, R201). -/
def rdIssueCredit (p : Port) (r : List Byte) : Option Instr := do
  let (value, r) ← rd2 r
  let (plan, r) ← rd1 r
  rdEnd (.issueCredit p value plan) r

/-- The command that a completed frame of a request kind spells on a port: test 5 of R180 against the payload lengths
and selectors of R201, `none` where the payload fits no form. R201 has no row for ERASE_PLAN, PUBLISH and WITHDRAW, which
carry a plan number by R53 to R55: their payload is that number in one byte (DEDUCED, log entry 25). -/
def decodeRequest (p : Port) (k : ReqKind) (r : List Byte) : Option Instr :=
  match k with
  | .tunnelStatus => rdNone (.tunnelStatus p) r
  | .carList => rdCarList p r
  | .incidentList => rdOne (fun n => .incidentList p n) r
  | .creditList => rdOne (fun n => .creditList p n) r
  | .laneStatus => rdLaneStatus p r
  | .stationStatus => rdStationStatus p r
  | .planList => rdPlanList p r
  | .tallyRead => rdTally p r
  | .quote => rdQuote p r
  | .sell => rdSell p r
  | .void => rdVoid p r
  | .addService => rdAddService p r
  | .attach => rdAttach p r
  | .ackIncident => rdAck p r
  | .restart => rdNone (.restart p) r
  | .laneReset => rdOne (fun n => .laneReset p n) r
  | .laneEnable => rdOne (fun n => .laneEnable p n) r
  | .laneDisable => rdOne (fun n => .laneDisable p n) r
  | .tunnelClear => rdNone (.tunnelClear p) r
  | .stationOff => rdOne (fun n => .stationOff p n) r
  | .stationOn => rdOne (fun n => .stationOn p n) r
  | .stationReset => rdOne (fun n => .stationReset p n) r
  | .claim => rdNone (.claim p) r
  | .yield => rdNone (.yield p) r
  | .openTunnel => rdNone (.openTunnel p) r
  | .drain => rdNone (.drain p) r
  | .stop => rdNone (.stop p) r
  | .pause => rdNone (.pause p) r
  | .resume => rdNone (.resume p) r
  | .forceSpeed => rdOne (fun n => .forceSpeed p n) r
  | .releaseSpeed => rdNone (.releaseSpeed p) r
  | .definePlan => rdDefine p r
  | .erasePlan => rdOne (fun n => .erasePlan p n) r
  | .publish => rdOne (fun n => .publish p n) r
  | .withdraw => rdOne (fun n => .withdraw p n) r
  | .setService => rdSetService p r
  | .setStation => rdStation p r
  | .setConstants => rdConstants p r
  | .setResponse => rdSetResponse p r
  | .issueCredit => rdIssueCredit p r
  | .save => rdNone (.save p) r

/-! ### Writing a request frame -/

/-- The purchase as R201 lays it out. -/
def purchaseBytes (q : Purchase) : List Byte :=
  b1 q.plan ++ b1 q.addOns.length ++ pairBytes q.addOns ++ b2 q.credit

/-- Four two-byte values. -/
def fourBytes (t : ByFour Nat) : List Byte := b2 t.one ++ b2 t.two ++ b2 t.three ++ b2 t.four

/-- The brush fields as R201 lays them out. -/
def brushBytes (b : RawBrush) : List Byte :=
  b1 b.slot ++ b2 b.k ++ b2 b.brMin ++ b2 b.brMax ++ b2 b.icA ++ b2 b.icB ++ b2 b.jamMargin ++ b2 b.slackMargin ++
    b1 b.jamN ++ b1 b.slackN ++ b1 b.jamBlank ++ b1 b.qualifier ++ b1 b.signals

/-- The level table or the brush fields. -/
def gearBytes : RawGear → List Byte
  | .levels t => fourBytes t
  | .brush b => brushBytes b

/-- A station record from SP on (R188, R201). -/
def geometryBytes (r : RawStation) : List Byte :=
  b2 r.sp ++ b2 r.pre ++ b2 r.post ++ b1 r.mode ++ b2 r.proofWait ++ b1 r.retries ++ gearBytes r.gear

/-- A whole station record after the station number (R201). -/
def stationBytes (r : RawStation) : List Byte := b1 r.code ++ b1 r.kind ++ geometryBytes r

/-- The tunnel constants in 36 bytes (R201). -/
def constantBytes (c : Constants) : List Byte :=
  b2 c.tunnelLen ++ b2 c.ce1 ++ b2 c.ce2 ++ b2 c.ce3 ++ b2 c.ce4 ++ b2 c.eyeTol ++ b2 c.clearMin ++ b2 c.lenMin ++
    b2 c.lenMax ++ b2 c.admitSpacing ++ b2 c.armLead ++ b2 c.commitLead ++ b1 c.grantTimeout ++ b1 c.startWarn ++
    b1 c.exitBlockTime ++ b1 c.stallWindows ++ fourBytes c.speed

/-- The lane byte of a console or office frame, and nothing in a lane port's (R201). -/
def laneBytes : Option Nat → List Byte
  | none => []
  | some l => b1 l

/-- The TALLY_READ flags: bit 0 take, bit 1 clear (R201). -/
def tallyFlags (take clear : Bool) : Nat := (if take then 1 else 0) + (if clear then 2 else 0)

/-- The kind and the payload of a request's frame (R200, R201); `none` for a command that is not a request. -/
def encodeRequest (c : Instr) : Option (ReqKind × List Byte) :=
  match c with
  | .tunnelStatus _ => some (.tunnelStatus, [])
  | .carList _ .summary => some (.carList, b1 0)
  | .carList _ (.record tag part) => some (.carList, b1 1 ++ b1 tag ++ b1 part)
  | .incidentList _ i => some (.incidentList, b1 i)
  | .creditList _ i => some (.creditList, b1 i)
  | .laneStatus _ lane => some (.laneStatus, laneBytes lane)
  | .stationStatus _ none => some (.stationStatus, b1 0)
  | .stationStatus _ (some i) => some (.stationStatus, b1 1 ++ b1 i)
  | .planListSummary _ => some (.planList, b1 0)
  | .planListPlan _ n => some (.planList, b1 1 ++ b1 n)
  | .planListService _ n => some (.planList, b1 2 ++ b1 n)
  | .tallyRead _ part take clear => some (.tallyRead, b1 part ++ b1 (tallyFlags take clear))
  | .quote _ buy => some (.quote, purchaseBytes buy)
  | .sell _ lane buy ref => some (.sell, laneBytes lane ++ purchaseBytes buy ++ b2 ref)
  | .void _ sale => some (.void, b2 sale)
  | .addService _ sale code level => some (.addService, b2 sale ++ b1 code ++ b1 level)
  | .attachLane _ tag lane => some (.attach, b1 tag ++ b1 0 ++ b1 lane)
  | .attachNewSale _ tag buy ref => some (.attach, b1 tag ++ b1 1 ++ purchaseBytes buy ++ b2 ref)
  | .ackIncident _ n => some (.ackIncident, b1 n)
  | .ackIncidentAll _ => some (.ackIncident, b1 0)
  | .restart _ => some (.restart, [])
  | .laneReset _ l => some (.laneReset, b1 l)
  | .laneEnable _ l => some (.laneEnable, b1 l)
  | .laneDisable _ l => some (.laneDisable, b1 l)
  | .tunnelClear _ => some (.tunnelClear, [])
  | .stationOff _ i => some (.stationOff, b1 i)
  | .stationOn _ i => some (.stationOn, b1 i)
  | .stationReset _ i => some (.stationReset, b1 i)
  | .claim _ => some (.claim, [])
  | .yield _ => some (.yield, [])
  | .openTunnel _ => some (.openTunnel, [])
  | .drain _ => some (.drain, [])
  | .stop _ => some (.stop, [])
  | .pause _ => some (.pause, [])
  | .resume _ => some (.resume, [])
  | .forceSpeed _ c => some (.forceSpeed, b1 c)
  | .releaseSpeed _ => some (.releaseSpeed, [])
  | .definePlan _ plan name price cls list =>
    some (.definePlan, b1 plan ++ b1 name.length ++ name.flatMap b1 ++ b2 price ++ b1 cls ++ b1 list.length ++
      pairBytes list)
  | .erasePlan _ n => some (.erasePlan, b1 n)
  | .publish _ n => some (.publish, b1 n)
  | .withdraw _ n => some (.withdraw, b1 n)
  | .setService _ code presence price limit =>
    some (.setService, b1 code ++ b1 presence ++ b2 price ++ b1 limit)
  | .setStation _ i r => some (.setStation, b1 i ++ stationBytes r)
  | .setConstants _ c => some (.setConstants, constantBytes c)
  | .setResponse _ kind cls => some (.setResponse, b1 kind ++ b1 cls)
  | .issueCredit _ value plan => some (.issueCredit, b2 value ++ b1 plan)
  | .save _ => some (.save, [])
  | .unknownKind _ _ | .frameDiscarded _ _ | .gapTimerExpiry _ | .txStart _ | .txFrameSent _ | .encoderPulse
  | .checkEyeBlockingEdge _ | .checkEyeClearEdge _ | .exitEyeBlockingEdge | .exitEyeClearEdge
  | .entranceEyeBlockingEdge | .entranceEyeClearEdge | .loopOccupied _ | .loopVacant _ | .proofAssert _
  | .proofDeassert _ | .bumperOvertravelEdge _ _ _ | .estopLoopOpen | .estopLoopClose | .reset | .startUp _
  | .grantTimerExpiry | .startTimerExpiry | .exitBlockTimerExpiry | .proofTimerExpiry _ | .retryTimerExpiry _
  | .gateWindowEnd | .scanComplete _ | .secondsTick | .saveComplete _ | .byteReceived _ _ => none

/-- The port a request arrives on; `none` for a command that is not a request. -/
def requestPort (c : Instr) : Option Port :=
  match c with
  | .tunnelStatus p | .carList p _ | .incidentList p _ | .creditList p _ | .laneStatus p _ | .stationStatus p _
  | .planListSummary p | .planListPlan p _ | .planListService p _ | .tallyRead p _ _ _ | .quote p _ | .sell p _ _ _
  | .void p _ | .addService p _ _ _ | .attachLane p _ _ | .attachNewSale p _ _ _ | .ackIncident p _
  | .ackIncidentAll p | .restart p | .laneReset p _ | .laneEnable p _ | .laneDisable p _ | .tunnelClear p
  | .stationOff p _ | .stationOn p _ | .stationReset p _ | .claim p | .yield p | .openTunnel p | .drain p | .stop p
  | .pause p | .resume p | .forceSpeed p _ | .releaseSpeed p | .definePlan p _ _ _ _ _ | .erasePlan p _ | .publish p _
  | .withdraw p _ | .setService p _ _ _ _ | .setStation p _ _ | .setConstants p _ | .setResponse p _ _
  | .issueCredit p _ _ | .save p => some p
  | .unknownKind _ _ | .frameDiscarded _ _ | .gapTimerExpiry _ | .txStart _ | .txFrameSent _ | .encoderPulse
  | .checkEyeBlockingEdge _ | .checkEyeClearEdge _ | .exitEyeBlockingEdge | .exitEyeClearEdge
  | .entranceEyeBlockingEdge | .entranceEyeClearEdge | .loopOccupied _ | .loopVacant _ | .proofAssert _
  | .proofDeassert _ | .bumperOvertravelEdge _ _ _ | .estopLoopOpen | .estopLoopClose | .reset | .startUp _
  | .grantTimerExpiry | .startTimerExpiry | .exitBlockTimerExpiry | .proofTimerExpiry _ | .retryTimerExpiry _
  | .gateWindowEnd | .scanComplete _ | .secondsTick | .saveComplete _ | .byteReceived _ _ => none

/-- The sum of a list of bytes, as a number (R175). -/
def byteSum (l : List Byte) : Nat := (l.map BitVec.toNat).sum

/-- The CHECK byte that makes LEN, KIND, payload and CHECK add up to a multiple of 256 (R175, R177). -/
def checkByte (body : List Byte) : Byte := BitVec.ofNat 8 (256 - (body.length + byteSum body) % 256)

/-- A whole frame of a body (KIND and payload): start byte, LEN, body, CHECK (R177). -/
def frameBytes (body : List Byte) : List Byte :=
  Config.startByte :: BitVec.ofNat 8 body.length :: (body ++ [checkByte body])

/-- The command a table word spells. spec/opcode_table.json gives bits to no row, so no word spells a command. -/
def decodeTableWord (_nbits _w : Nat) : Option Instr := none

end Sys2Proof
end

