-- ==== Sys2Proof/Machine/State.lean ====
section
/-! DEFINITION. The state of the DT410: one structure for each block of the part (chapter 2 of the scope file), the
input and output lines, the command queue, and the state right after power-on. -/

namespace Sys2Proof.Machine

/-! ### Small enumerations, with the codes of R199 given in Machine/Flags.lean -/

/-- One value for each lane. -/
structure PerLane (α : Type) where
  a : α
  b : α
  c : α
deriving DecidableEq, Repr, Inhabited

/-- One value for each port. -/
structure PerPort (α : Type) where
  p0 : α
  p1 : α
  p2 : α
  p3 : α
  p4 : α
deriving DecidableEq, Repr

/-- One value for each eye the Tracking Unit reads: CE1 to CE4 and the exit eye. -/
structure PerEye (α : Type) where
  ce1 : α
  ce2 : α
  ce3 : α
  ce4 : α
  exit : α
deriving DecidableEq, Repr

/-- The five eyes of the Tracking Unit (section 1.4). -/
inductive Eye where
  | ce1 | ce2 | ce3 | ce4 | exit
deriving DecidableEq, Repr

/-- The debounce state of an eye (R8, R37). -/
inductive Debounce where
  | armed
  | blocked
  | settling (clear : Nat)
deriving DecidableEq, Repr

/-- The state of a plan (R48). -/
inductive PlanState where
  | empty | draft | onSale | withdrawn
deriving DecidableEq, Repr, Inhabited

/-- The lane of a ticket: A, B, C, or CONSOLE for a ticket sold by ATTACH (R64). -/
inductive TicketLane where
  | lane (l : Lane)
  | console
deriving DecidableEq, Repr

/-- The kinds of station (R87). -/
inductive StationKind where
  | spray | brush | air
deriving DecidableEq, Repr, Inhabited

/-- The activation modes (R87). -/
inductive Activation where
  | direct | proofStart | proofHold
deriving DecidableEq, Repr, Inhabited

/-- The collision qualifier modes (R136). -/
inductive Qualifier where
  | any | all
deriving DecidableEq, Repr, Inhabited

/-- The states of a station (section 5.3). -/
inductive StationState where
  | idle | arming | retryWait | ready | firing | held | fault | offLine
deriving DecidableEq, Repr

/-- The miss marks (R103). -/
inductive MissMark where
  | slack | proof | offline
deriving DecidableEq, Repr

/-- The miss reasons (R99). -/
inductive MissReason where
  | fault | offline | notReady | late | pause | halt | slack | proof
deriving DecidableEq, Repr

/-- The state of a schedule entry; a MISSED entry, and no other, holds a reason (R99). -/
inductive EntryState where
  | pending | active | held | interrupted | done
  | missed (r : MissReason)
deriving DecidableEq, Repr

/-- The kinds of incident (R153). -/
inductive IncidentKind where
  | estop | brushCollision | carMissing | conveyorStall | queueOverflow | phantom | tailgate | exitBlocked
  | stationFault | unpaidEntry | shortObject
deriving DecidableEq, Repr

/-- The incident classes (R153). -/
inductive IncidentClass where
  | notice | pause | halt
deriving DecidableEq, Repr, Inhabited

/-- One class for each incident kind: the response table (R153). -/
structure Response where
  estop : IncidentClass
  brushCollision : IncidentClass
  carMissing : IncidentClass
  conveyorStall : IncidentClass
  queueOverflow : IncidentClass
  phantom : IncidentClass
  tailgate : IncidentClass
  exitBlocked : IncidentClass
  stationFault : IncidentClass
  unpaidEntry : IncidentClass
  shortObject : IncidentClass
deriving DecidableEq, Repr, Inhabited

/-- The target mode (R140). -/
inductive TargetMode where
  | running | draining
deriving DecidableEq, Repr

/-- The pre-halt mode (R140). -/
inductive PreHalt where
  | stopped | running | draining
deriving DecidableEq, Repr

/-- The tunnel state, with the target mode where STARTING and PAUSED hold one and the pre-halt mode where HALTED holds
one: each is absent in every other state (R140). -/
inductive Tunnel where
  | stopped
  | starting (target : TargetMode)
  | running
  | draining
  | paused (target : TargetMode)
  | halted (pre : PreHalt)
deriving DecidableEq, Repr

/-- The state of a receive path (R175). -/
inductive RxState where
  | hunt | length | body | check
deriving DecidableEq, Repr

/-- The outcome of the last completed write (R190). -/
inductive SaveOutcome where
  | none | done | failed
deriving DecidableEq, Repr

/-! ### The Port Unit -/

/-- A frame waiting in a transmit queue: its KIND byte and its payload (R177). -/
structure Frame where
  kind : Byte
  payload : List Byte
deriving DecidableEq, Repr

/-- A receive path (R175): its state, LEN, the bytes still expected, the assembly buffer, and the gap timer with the
milliseconds it was started from. -/
structure RxPath where
  state : RxState
  len : Nat
  expected : Nat
  buf : List Byte
  gap : Option Nat
deriving DecidableEq, Repr

/-- What the Port Unit holds for a port (R175, R177, R178). -/
structure PortUnit where
  rx : RxPath
  tx : List Frame
  sending : Bool
  overflow : Bool
deriving DecidableEq, Repr

/-! ### The Sales Unit -/

/-- A (service code, level) pair of a plan or a ticket. -/
structure SvcLevel where
  code : Nat
  level : Nat
deriving DecidableEq, Repr, Inhabited

/-- A plan record (R48); its list is the run of `len` plan store entries that the packing assigns to it (R50). -/
structure Plan where
  state : PlanState
  name : List Nat
  price : Nat
  cls : Nat
  len : Nat
deriving DecidableEq, Repr, Inhabited

/-- A service table entry (R58). -/
structure Service where
  price : Option Nat
  limit : Nat
deriving DecidableEq, Repr, Inhabited

/-- A ticket (R64). -/
structure Ticket where
  sale : Nat
  lane : TicketLane
  plan : Nat
  list : List SvcLevel
  cls : Nat
  paid : Nat
  credit : Option Nat
  ref : Nat
  addOns : Nat
deriving DecidableEq, Repr

/-- A lane's last-sale record (R67). -/
structure LastSale where
  sale : Nat
  ref : Nat
deriving DecidableEq, Repr

/-- A credit (R82). -/
structure Credit where
  number : Nat
  value : Nat
  origin : Option Nat
  plan : Option Nat
deriving DecidableEq, Repr, Inhabited

/-- The two counts kept for a plan (R165). -/
structure PlanTally where
  sold : Nat
  revenue : Nat
deriving DecidableEq, Repr, Inhabited

/-- The tally set: 24 plan counts and 15 further counts (R165). -/
structure Tally where
  plans : Tab 12 PlanTally
  lanes : PerLane Nat
  console : Nat
  addOns : Nat
  addOnRevenue : Nat
  voids : Nat
  voidValue : Nat
  exitComplete : Nat
  exitShort : Nat
  exitUnticketed : Nat
  issued : Nat
  redeemed : Nat
  dropped : Nat
  halts : Nat
deriving DecidableEq, Repr, Inhabited

/-- A read copy and its copy counter (R171). -/
structure CopyUnit where
  copy : Option (Nat × Tally)
  counter : Nat
deriving DecidableEq, Repr

/-- What the Sales Unit holds. -/
structure Sales where
  plans : Tab 12 Plan
  store : List SvcLevel
  services : Tab 24 Service
  lanes : PerLane (List Ticket)
  lastSale : PerLane (Option LastSale)
  credits : List Credit
  saleCounter : Nat
  creditCounter : Nat
  tally : Tally
  consoleCopy : CopyUnit
  officeCopy : CopyUnit
deriving DecidableEq, Repr

/-! ### The Entrance Unit -/

/-- An outstanding grant: the lane and the sale number named in its GRANT notice (R30, R33). -/
structure Grant where
  lane : Lane
  sale : Nat
deriving DecidableEq, Repr

/-- The measured record: its tag, the entry count and the clear-edge count (R43), which is 0 before the first clear edge
(log entry 23). -/
structure Measure where
  tag : Nat
  entry : Nat
  clearEdge : Nat
deriving DecidableEq, Repr

/-- What the Entrance Unit holds; the grant timer holds the seconds it was started from. -/
structure Entrance where
  enabled : PerLane Bool
  grant : Option Grant
  pointer : Lane
  grantTimer : Option Nat
  eye : Debounce
  measured : Option Measure
deriving DecidableEq, Repr

/-! ### The Tracking Unit -/

/-- A schedule entry (R99). -/
structure Entry where
  station : Fin 16
  level : Nat
  state : EntryState
  mark : Option MissMark
deriving DecidableEq, Repr

/-- A car record (section 1.1). -/
structure Car where
  tag : Nat
  front : Nat
  length : Option Nat
  ticket : Option Ticket
  cls : Nat
  passed : PerEye Bool
  tailgate : Bool
  schedule : List Entry
deriving DecidableEq, Repr

/-- What the Tracking Unit holds: the tunnel queue oldest first, the next-tag counter, the debounce states (absent for a
check eye that is not fitted, R7), the exit match, and the exit-block timer with the seconds it was started from. -/
structure Tracking where
  queue : List Car
  nextTag : Nat
  eyes : PerEye (Option Debounce)
  exitMatch : Option Nat
  exitTimer : Option Nat
deriving DecidableEq, Repr

/-! ### The Station Sequencer -/

/-- A set of the collision signals (R136). -/
structure Signals where
  current : Bool
  bumper : Bool
  overtravel : Bool
deriving DecidableEq, Repr, Inhabited

/-- The brush fields of a BRUSH station's record (R87). -/
structure BrushRec where
  slot : Fin 6
  k : Nat
  brMin : Nat
  brMax : Nat
  icA : Nat
  icB : Nat
  jamMargin : Nat
  slackMargin : Nat
  jamN : Nat
  slackN : Nat
  jamBlank : Nat
  qualifier : Qualifier
  signals : Signals
deriving DecidableEq, Repr, Inhabited

/-- The kind of a station with the fields that kind holds: the level table of SPRAY and AIR, the brush fields of BRUSH
(R87). -/
inductive Gear where
  | spray (t : ByFour Nat)
  | air (t : ByFour Nat)
  | brush (b : BrushRec)
deriving DecidableEq, Repr, Inhabited

/-- A station record (R87). -/
structure StationRec where
  code : Nat
  sp : Nat
  pre : Nat
  post : Nat
  mode : Activation
  proofWait : Nat
  retries : Nat
  gear : Gear
deriving DecidableEq, Repr, Inhabited

/-- A station's state machine (R91); each timer holds the milliseconds it was started from. -/
structure StationUnit where
  state : StationState
  fails : Nat
  proofTimer : Option Nat
  retryTimer : Option Nat
  recheck : Bool
deriving DecidableEq, Repr

/-- What the Station Sequencer holds beside the schedules. -/
structure Sequencer where
  table : Tab 16 StationRec
  units : Tab 16 StationUnit
deriving DecidableEq, Repr

/-! ### The Pacing Unit and the Current Monitor -/

/-- A BRUSH station's command, expected current and thresholds (R120, R123). -/
structure Pace where
  cmd : Nat
  expected : Nat
  overAt : Nat
  underAt : Nat
deriving DecidableEq, Repr

/-- What the Pacing Unit holds (chapter 6); a station that is not BRUSH has no command. -/
structure Pacing where
  gate : Nat
  v : Nat
  acc : Nat
  vAvg : Nat
  stall : Nat
  resolved : Nat
  forced : Option Nat
  brushes : Tab 16 (Option Pace)
deriving DecidableEq, Repr

/-- What the Current Monitor holds for a slot (R127). -/
structure Slot where
  sample : Nat
  blank : Nat
  jam : Nat
  slack : Nat
  latch : Bool
deriving DecidableEq, Repr

/-! ### The Tunnel Supervisor -/

/-- An incident record (R154). -/
structure Incident where
  number : Nat
  kind : IncidentKind
  cls : IncidentClass
  station : Option (Fin 16)
  eye : Option Eye
  tag : Option Nat
  lane : Option Lane
  signals : Option Signals
  repeats : Nat
  time : Nat
deriving DecidableEq, Repr

/-- What the Tunnel Supervisor holds; the start timer holds the seconds it was started from. -/
structure Supervisor where
  tunnel : Tunnel
  manual : Bool
  startTimer : Option Nat
  incidents : List Incident
  incidentCounter : Nat
  seconds : Nat
  response : Response
  holder : Option Port
  consts : Constants
deriving DecidableEq, Repr

/-! ### The Settings Store -/

/-- The items of the stored image (R189). -/
structure Image where
  plans : Tab 12 Plan
  store : List SvcLevel
  services : Tab 24 Service
  table : Tab 16 StationRec
  consts : Constants
  response : Response
  credits : List Credit
  tally : Tally
  saleCounter : Nat
  creditCounter : Nat
deriving DecidableEq, Repr, Inhabited

end Sys2Proof.Machine

/-- FREE VALUE (log entry 16): what the stored image holds after a write that was cut short or failed its verify. R192 and
R195 say that no valid copy is left, and not what the image then holds. -/
opaque Sys2Proof.Config.spoiledImage : Nat → Sys2Proof.Machine.Image

namespace Sys2Proof.Machine

/-- What the Settings Store holds: the stored image, its validity marker, the snapshot of the write in progress (present
exactly in save state WRITING), the last outcome, the reset cause and the STORE_DEFAULTED flag (chapter 11). -/
structure Settings where
  image : Image
  marker : Bool
  writing : Option Image
  lastOutcome : SaveOutcome
  cause : ResetCause
  defaulted : Bool
deriving DecidableEq, Repr

/-! ### Lines -/

/-- The levels of the input lines (section 12.4). -/
structure Inputs where
  eyes : PerEye Bool
  entrance : Bool
  loops : PerLane Bool
  proofs : Tab 16 Bool
  bumpers : Tab 6 Bool
  overtravels : Tab 6 Bool
  estopClosed : Bool
deriving DecidableEq, Repr

/-- The three lines of a station (R92). -/
structure StationLines where
  arm : Bool
  fire : Bool
  intensity : Nat
deriving DecidableEq, Repr

/-- The levels of the output lines (section 12.4). -/
structure Outputs where
  arms : PerLane Bool
  green : Bool
  drive : Bool
  horn : Bool
  speed : Nat
  stations : Tab 16 StationLines
deriving DecidableEq, Repr

/-! ### The machine -/

/-- The whole state. `held` says that the reset pin is asserted or the supply is down (R193); `free` counts the free
values taken (the model's own field, log entry 1); `pending` is the queue of commands that wait, first in, first out. -/
structure State where
  held : Bool
  inputs : Inputs
  out : Outputs
  ports : PerPort PortUnit
  sales : Sales
  ent : Entrance
  trk : Tracking
  seq : Sequencer
  pace : Pacing
  mon : Tab 6 Slot
  sup : Supervisor
  store : Settings
  free : Nat
  pending : List Instr
deriving DecidableEq, Repr

/-- Why the machine would stop with a fault. The manual gives every command an effect in every state, so there is none
and no command of this model ends in a fault. -/
inductive Fault where
deriving DecidableEq, Repr

/-- Why a command has no meaning. -/
inductive Refusal where
  /-- The command has no meaning in this model yet. Raised by no arm of `exec`: every command has its meaning. Safe. -/
  | notModelled (mnemonic : String)
deriving DecidableEq, Repr

/-! ### Start-up values (R193, R194) -/

/-- An EMPTY plan (R48). -/
def Plan.blank : Plan := { state := .empty, name := [], price := 0, cls := 4, len := 0 }

/-- The default service table entry (R58). -/
def Service.blank : Service := { price := none, limit := 4 }

/-- The default station record (R87). -/
def StationRec.blank : StationRec :=
  { code := 0, sp := 0, pre := 0, post := 0, mode := .direct, proofWait := 1500, retries := 2,
    gear := .spray Config.defaultLevels }

/-- The default response table (R153). -/
def Response.standard : Response :=
  { estop := .halt, brushCollision := .halt, carMissing := .halt, conveyorStall := .halt, queueOverflow := .halt,
    phantom := .halt, tailgate := .halt, exitBlocked := .pause, stationFault := .notice, unpaidEntry := .notice,
    shortObject := .notice }

/-- The tally set with every count 0 (R165). -/
def Tally.zero : Tally :=
  { plans := Vector.replicate 12 ⟨0, 0⟩, lanes := ⟨0, 0, 0⟩, console := 0, addOns := 0, addOnRevenue := 0, voids := 0,
    voidValue := 0, exitComplete := 0, exitShort := 0, exitUnticketed := 0, issued := 0, redeemed := 0, dropped := 0,
    halts := 0 }

/-- The defaults that every owning block takes when the validity marker is cleared (R193). -/
def Image.defaults : Image :=
  { plans := Vector.replicate 12 Plan.blank, store := [], services := Vector.replicate 24 Service.blank,
    table := Vector.replicate 16 StationRec.blank, consts := Config.defaultConstants,
    response := Response.standard, credits := [], tally := Tally.zero, saleCounter := 1, creditCounter := 1 }

/-- A receive path in HUNT with its buffer empty and its gap timer stopped (R175). -/
def RxPath.idle : RxPath := { state := .hunt, len := 0, expected := 0, buf := [], gap := none }

/-- A port at start-up: HUNT, an empty queue, a free transmitter, the flag clear (R175, R177, R178). -/
def PortUnit.idle : PortUnit := { rx := RxPath.idle, tx := [], sending := false, overflow := false }

/-- A station at start-up (R91). -/
def StationUnit.idle : StationUnit :=
  { state := .idle, fails := 0, proofTimer := none, retryTimer := none, recheck := false }

/-- A slot at start-up (R127). -/
def Slot.idle : Slot := { sample := 0, blank := 0, jam := 0, slack := 0, latch := false }

/-- The lines of a station that is not in use: all off (R92). -/
def StationLines.off : StationLines := { arm := false, fire := false, intensity := 0 }

/-- Every output line off, every analogue output 0 (R193). -/
def Outputs.off : Outputs :=
  { arms := ⟨false, false, false⟩, green := false, drive := false, horn := false, speed := 0,
    stations := Vector.replicate 16 StationLines.off }

/-- The input lines of a quiet site: every eye clear, every loop vacant, every proof, BUMPER and OVERTRAVEL input
inactive, the E-stop loop closed (log entry 2). -/
def Inputs.quiet : Inputs :=
  { eyes := ⟨false, false, false, false, false⟩, entrance := false, loops := ⟨false, false, false⟩,
    proofs := Vector.replicate 16 false, bumpers := Vector.replicate 6 false,
    overtravels := Vector.replicate 6 false, estopClosed := true }

/-- The machine right after the start-up event of a power-on (R193, R194), with an image that no write has made valid (log
entry 3) and the input lines of a quiet site (log entry 2). -/
def State.reset : State :=
  { held := false
    inputs := Inputs.quiet
    out := { Outputs.off with speed := 2900 }
    ports := ⟨PortUnit.idle, PortUnit.idle, PortUnit.idle, PortUnit.idle, PortUnit.idle⟩
    sales :=
      { plans := Image.defaults.plans, store := [], services := Image.defaults.services, lanes := ⟨[], [], []⟩,
        lastSale := ⟨none, none, none⟩, credits := [], saleCounter := 1, creditCounter := 1, tally := Tally.zero,
        consoleCopy := ⟨none, 1⟩, officeCopy := ⟨none, 1⟩ }
    ent :=
      { enabled := ⟨true, true, true⟩, grant := none, pointer := .c, grantTimer := none, eye := .armed,
        measured := none }
    trk :=
      { queue := [], nextTag := 1, eyes := ⟨none, none, none, none, some .armed⟩, exitMatch := none,
        exitTimer := none }
    seq := { table := Image.defaults.table, units := Vector.replicate 16 StationUnit.idle }
    pace :=
      { gate := 0, v := 0, acc := 0, vAvg := 0, stall := 0, resolved := 4, forced := none,
        brushes := Vector.replicate 16 none }
    mon := Vector.replicate 6 Slot.idle
    sup :=
      { tunnel := .stopped, manual := false, startTimer := none, incidents := [], incidentCounter := 1, seconds := 0,
        response := Response.standard, holder := none, consts := Config.defaultConstants }
    store :=
      { image := Image.defaults, marker := false, writing := none, lastOutcome := .none, cause := .powerOn, defaulted := true }
    free := 0
    pending := [] }

end Sys2Proof.Machine
end

