-- ==== Sys2Proof/Machine/Operands.lean ====
section
/-! DEFINITION. The operand forms: which record a byte of a request names, clamping (5.3 and 5.4 of the scope file),
saturating counts, the counters that allocate numbers, and access to the fixed groups of records. -/

namespace Sys2Proof.Machine

/-! ### Groups of records -/

/-- The value of a lane. -/
def PerLane.get {α : Type} (t : PerLane α) : Lane → α
  | .a => t.a
  | .b => t.b
  | .c => t.c

/-- The group with one lane's value replaced. -/
def PerLane.set {α : Type} (t : PerLane α) (l : Lane) (x : α) : PerLane α :=
  match l with
  | .a => { t with a := x }
  | .b => { t with b := x }
  | .c => { t with c := x }

/-- The value of a port. -/
def PerPort.get {α : Type} (t : PerPort α) : Port → α
  | .p0 => t.p0
  | .p1 => t.p1
  | .p2 => t.p2
  | .p3 => t.p3
  | .p4 => t.p4

/-- The group with one port's value replaced. -/
def PerPort.set {α : Type} (t : PerPort α) (p : Port) (x : α) : PerPort α :=
  match p with
  | .p0 => { t with p0 := x }
  | .p1 => { t with p1 := x }
  | .p2 => { t with p2 := x }
  | .p3 => { t with p3 := x }
  | .p4 => { t with p4 := x }

/-- The value of an eye. -/
def PerEye.get {α : Type} (t : PerEye α) : Eye → α
  | .ce1 => t.ce1
  | .ce2 => t.ce2
  | .ce3 => t.ce3
  | .ce4 => t.ce4
  | .exit => t.exit

/-- The group with one eye's value replaced. -/
def PerEye.set {α : Type} (t : PerEye α) (k : Eye) (x : α) : PerEye α :=
  match k with
  | .ce1 => { t with ce1 := x }
  | .ce2 => { t with ce2 := x }
  | .ce3 => { t with ce3 := x }
  | .ce4 => { t with ce4 := x }
  | .exit => { t with exit := x }

/-- The value of a level or speed class 1 to 4. -/
def fourAt {α : Type} (t : ByFour α) (n : Nat) : α :=
  match n with
  | 0 | 1 => t.one
  | 2 => t.two
  | 3 => t.three
  | _ => t.four

/-- A function applied to each of the four values. -/
def fourEach {α β : Type} (f : α → β) (t : ByFour α) : ByFour β := ⟨f t.one, f t.two, f t.three, f t.four⟩

/-- The class of an incident kind (R153). -/
def Response.get (r : Response) : IncidentKind → IncidentClass
  | .estop => r.estop
  | .brushCollision => r.brushCollision
  | .carMissing => r.carMissing
  | .conveyorStall => r.conveyorStall
  | .queueOverflow => r.queueOverflow
  | .phantom => r.phantom
  | .tailgate => r.tailgate
  | .exitBlocked => r.exitBlocked
  | .stationFault => r.stationFault
  | .unpaidEntry => r.unpaidEntry
  | .shortObject => r.shortObject

/-- The response table with the class of one kind replaced (R153). -/
def Response.set (r : Response) (k : IncidentKind) (c : IncidentClass) : Response :=
  match k with
  | .estop => { r with estop := c }
  | .brushCollision => { r with brushCollision := c }
  | .carMissing => { r with carMissing := c }
  | .conveyorStall => { r with conveyorStall := c }
  | .queueOverflow => { r with queueOverflow := c }
  | .phantom => { r with phantom := c }
  | .tailgate => { r with tailgate := c }
  | .exitBlocked => { r with exitBlocked := c }
  | .stationFault => { r with stationFault := c }
  | .unpaidEntry => { r with unpaidEntry := c }
  | .shortObject => { r with shortObject := c }

/-- The five eyes in the order of R15. -/
def allEyes : List Eye := [.ce1, .ce2, .ce3, .ce4, .exit]

/-- The three lanes. -/
def allLanes : List Lane := [.a, .b, .c]

/-- The sixteen stations in number order. -/
def allStations : List (Fin 16) := [0, 1, 2, 3, 4, 5, 6, 7, 8, 9, 10, 11, 12, 13, 14, 15]

/-- The six slots in number order. -/
def allSlots : List (Fin 6) := [0, 1, 2, 3, 4, 5]

/-- The twelve plans in number order. -/
def allPlans : List (Fin 12) := [0, 1, 2, 3, 4, 5, 6, 7, 8, 9, 10, 11]

/-- A check eye as an eye. -/
def eyeOfCheck : CheckEye → Eye
  | .ce1 => .ce1
  | .ce2 => .ce2
  | .ce3 => .ce3
  | .ce4 => .ce4

/-! ### Numbers -/

/-- clamp(x, a, b): x raised to a if below, lowered to b if above (5.4 of the scope file). -/
def clampTo (x lo hi : Nat) : Nat := if x < lo then lo else if hi < x then hi else x

/-- A count that rises by n and holds at the top of its range (5.3 of the scope file). -/
def satAdd (top x n : Nat) : Nat := min top (x + n)

/-- The value after n of a counter of 1 to top: top is followed by 1. -/
def nextCount (top n : Nat) : Nat := if n < top then n + 1 else 1

/-- The first value from n on that no listed number equals, tried at most `tries` times. -/
def firstFree (top : Nat) (used : List Nat) : Nat → Nat → Nat
  | 0, n => n
  | tries + 1, n => if used.contains n then firstFree top used tries (nextCount top n) else n

/-- Allocation from a counter (R2, R65, R83, R154): the number allocated and the counter's new value. -/
def allocate (top : Nat) (used : List Nat) (counter : Nat) : Nat × Nat :=
  let n := firstFree top used used.length counter
  (n, nextCount top n)

/-- The list with the first element that passes a test changed. -/
def updateFirst {α : Type} (p : α → Bool) (f : α → α) : List α → List α
  | [] => []
  | x :: xs => if p x then f x :: xs else x :: updateFirst p f xs

/-- The list with the last element that passes a test changed. -/
def updateLast {α : Type} (p : α → Bool) (f : α → α) (l : List α) : List α :=
  (updateFirst p f l.reverse).reverse

/-! ### Which record a request names -/

/-- Lanes A, B and C are coded 0, 1 and 2 (R199). -/
def laneOfByte : Nat → Option Lane
  | 0 => some .a
  | 1 => some .b
  | 2 => some .c
  | _ => none

/-- The lane of a lane port (R174). -/
def laneOfPort : Port → Option Lane
  | .p1 => some .a
  | .p2 => some .b
  | .p3 => some .c
  | .p0 | .p4 => none

/-- The port of a lane (R30). -/
def portOfLane : Lane → Port
  | .a => .p1
  | .b => .p2
  | .c => .p3

/-- The lane a request concerns: the port's own, or the one it names (R68, R182). -/
def laneOperand (p : Port) (lane : Option Nat) : Option Lane :=
  match laneOfPort p with
  | some l => some l
  | none => lane.bind laneOfByte

/-- A lane port's frame holds no lane, the console's and the office's holds one (R201). -/
def laneForm (p : Port) (lane : Option Nat) : Bool := lane.isSome != p.isLane

/-- Plan numbers are 1 to 12 (R48). -/
def planIndex (n : Nat) : Option (Fin 12) := if h : 1 ≤ n ∧ n ≤ 12 then some ⟨n - 1, by omega⟩ else none

/-- Service codes are 1 to 24 (R58). -/
def codeIndex (n : Nat) : Option (Fin 24) := if h : 1 ≤ n ∧ n ≤ 24 then some ⟨n - 1, by omega⟩ else none

/-- Station numbers are 0 to 15. -/
def stationIndex (n : Nat) : Option (Fin 16) := if h : n < 16 then some ⟨n, h⟩ else none

/-- Brush slots are 0 to 5. -/
def slotIndex (n : Nat) : Option (Fin 6) := if h : n < 6 then some ⟨n, h⟩ else none

/-- The incident kinds are coded 1 to 11 (R199). -/
def kindOperand : Nat → Option IncidentKind
  | 1 => some .estop
  | 2 => some .brushCollision
  | 3 => some .carMissing
  | 4 => some .conveyorStall
  | 5 => some .queueOverflow
  | 6 => some .phantom
  | 7 => some .tailgate
  | 8 => some .exitBlocked
  | 9 => some .stationFault
  | 10 => some .unpaidEntry
  | 11 => some .shortObject
  | _ => none

/-- The incident classes are coded 0 to 2 (R199). -/
def classOperand : Nat → Option IncidentClass
  | 0 => some .notice
  | 1 => some .pause
  | 2 => some .halt
  | _ => none

/-- The station kinds are coded 0 to 2 (R199). -/
def stationKindOperand : Nat → Option StationKind
  | 0 => some .spray
  | 1 => some .brush
  | 2 => some .air
  | _ => none

/-- The activation modes are coded 0 to 2 (R199). -/
def activationOperand : Nat → Option Activation
  | 0 => some .direct
  | 1 => some .proofStart
  | 2 => some .proofHold
  | _ => none

/-- The qualifier modes are coded 0 and 1 (R199). -/
def qualifierOperand : Nat → Option Qualifier
  | 0 => some .any
  | 1 => some .all
  | _ => none

/-- A signal set byte: bit 0 CURRENT, bit 1 BUMPER, bit 2 OVERTRAVEL (R199); a higher bit names no signal of R87, and R88
refuses it (log entry 4). -/
def signalsOperand (n : Nat) : Option Signals :=
  if n < 8 then some ⟨n.testBit 0, n.testBit 1, n.testBit 2⟩ else none

/-- An optional plan number: 0 is none (R199). -/
def optionalPlan (n : Nat) : Option Nat := if n = 0 then none else some n

/-- The classes a kind allows (R153). -/
def allowedClass (k : IncidentKind) (c : IncidentClass) : Bool :=
  match k, c with
  | .estop, .halt | .brushCollision, .halt | .carMissing, .halt | .conveyorStall, .halt | .queueOverflow, .halt => true
  | .phantom, _ | .tailgate, _ | .stationFault, _ => true
  | .exitBlocked, .pause | .exitBlocked, .halt => true
  | .unpaidEntry, .notice | .unpaidEntry, .pause | .shortObject, .notice | .shortObject, .pause => true
  | _, _ => false

end Sys2Proof.Machine
end

