-- ==== Sys2Proof/Machine/Flags.lean ====
section
/-! DEFINITION. The codes of R199 and R200 and the flag bytes of R202: every byte that reports a state, a class, a mark or
a set of flags. -/

namespace Sys2Proof.Machine

/-- The result codes (R181, R200). -/
inductive Result where
  | ok | unknownKind | notPermitted | badValue | state | full | notFound | duplicate | tooLate | busy | noControl
  | occupied
deriving DecidableEq, Repr

/-- The value of a result code (R200). -/
def resultCode : Result → Nat
  | .ok => 0x00 | .unknownKind => 0x01 | .notPermitted => 0x02 | .badValue => 0x03
  | .state => 0x04 | .full => 0x05 | .notFound => 0x06 | .duplicate => 0x07
  | .tooLate => 0x08 | .busy => 0x09 | .noControl => 0x0A | .occupied => 0x0B

/-- The byte of an absent station or enumeration (R199). -/
def absentByte : Nat := 0xFF

/-- One bit of a flag byte. -/
def flagBit (i : Nat) (x : Bool) : Nat := if x then 2 ^ i else 0

def laneCode : Lane → Nat
  | .a => 0 | .b => 1 | .c => 2

def ticketLaneCode : TicketLane → Nat
  | .lane l => laneCode l
  | .console => 3

/-- P0 is coded 0 and P4 is coded 4; the lane ports never hold control (R199, R161). -/
def portCode : Port → Nat
  | .p0 => 0 | .p1 => 1 | .p2 => 2 | .p3 => 3 | .p4 => 4

def tunnelCode : Tunnel → Nat
  | .stopped => 0 | .starting _ => 1 | .running => 2 | .draining => 3 | .paused _ => 4 | .halted _ => 5

def targetCode : TargetMode → Nat
  | .running => 2 | .draining => 3

def preHaltCode : PreHalt → Nat
  | .stopped => 0 | .running => 2 | .draining => 3

def kindCode : StationKind → Nat
  | .spray => 0 | .brush => 1 | .air => 2

def activationCode : Activation → Nat
  | .direct => 0 | .proofStart => 1 | .proofHold => 2

def qualifierCode : Qualifier → Nat
  | .any => 0 | .all => 1

def stationStateCode : StationState → Nat
  | .idle => 0 | .arming => 1 | .retryWait => 2 | .ready => 3 | .firing => 4 | .held => 5 | .fault => 6
  | .offLine => 7

def entryStateCode : EntryState → Nat
  | .pending => 0 | .active => 1 | .held => 2 | .interrupted => 3 | .done => 4 | .missed _ => 5

def markCode : Option MissMark → Nat
  | none => 0 | some .slack => 1 | some .proof => 2 | some .offline => 3

def missReasonCode : MissReason → Nat
  | .fault => 1 | .offline => 2 | .notReady => 3 | .late => 4 | .pause => 5 | .halt => 6 | .slack => 7 | .proof => 8

/-- The miss reason nibble of an entry: 0 for none (R199). -/
def reasonCode : EntryState → Nat
  | .missed r => missReasonCode r
  | .pending | .active | .held | .interrupted | .done => 0

def planStateCode : PlanState → Nat
  | .empty => 0 | .draft => 1 | .onSale => 2 | .withdrawn => 3

def incidentKindCode : IncidentKind → Nat
  | .estop => 1 | .brushCollision => 2 | .carMissing => 3 | .conveyorStall => 4 | .queueOverflow => 5 | .phantom => 6
  | .tailgate => 7 | .exitBlocked => 8 | .stationFault => 9 | .unpaidEntry => 10 | .shortObject => 11

def classCode : IncidentClass → Nat
  | .notice => 0 | .pause => 1 | .halt => 2

def eyeCode : Eye → Nat
  | .ce1 => 1 | .ce2 => 2 | .ce3 => 3 | .ce4 => 4 | .exit => 5

def causeCode : ResetCause → Nat
  | .powerOn => 0 | .resetPin => 1

def outcomeCode : SaveOutcome → Nat
  | .none => 0 | .done => 1 | .failed => 2

/-- A signal set (R199). -/
def signalsByte (g : Signals) : Nat := flagBit 0 g.current + flagBit 1 g.bumper + flagBit 2 g.overtravel

/-- The eyes-passed byte (R199). -/
def passedByte (e : PerEye Bool) : Nat :=
  flagBit 0 e.ce1 + flagBit 1 e.ce2 + flagBit 2 e.ce3 + flagBit 3 e.ce4 + flagBit 4 e.exit

/-- The lane enable flags of TUNNEL_STATUS (R202). -/
def enableByte (e : PerLane Bool) : Nat := flagBit 0 e.a + flagBit 1 e.b + flagBit 2 e.c

/-- The target mode byte: 0xFF where the state holds none (R202). -/
def targetByte : Tunnel → Nat
  | .starting t | .paused t => targetCode t
  | .stopped | .running | .draining | .halted _ => absentByte

/-- The pre-halt mode byte: 0xFF where the state holds none (R202). -/
def preHaltByte : Tunnel → Nat
  | .halted m => preHaltCode m
  | .stopped | .starting _ | .running | .draining | .paused _ => absentByte

/-- The mode byte of a TUNNEL_STATE notice: the target or pre-halt mode of the new state, 0xFF absent (R202). -/
def modeByte : Tunnel → Nat
  | .starting t | .paused t => targetCode t
  | .halted m => preHaltCode m
  | .stopped | .running | .draining => absentByte

/-- A code, or 0 for none (R199: one-byte quantities whose range starts at 1, numbers, lengths). -/
def orZero (x : Option Nat) : Nat := x.getD 0

/-- A code, or 0xFF for none (R199: stations and enumerations). -/
def orAbsent (x : Option Nat) : Nat := x.getD absentByte

end Sys2Proof.Machine
end

