-- ==== Sys2Proof/Machine/Formats.lean ====
section
/-! DEFINITION. The layouts of answers, records and notices (R199, R202), and what a notice carries (R183). -/

namespace Sys2Proof.Machine

/-- The answer of a request: its result code and its result fields (R181). -/
structure Answer where
  code : Result
  fields : List Byte
deriving DecidableEq, Repr

/-- An OK answer. -/
def answerOk (fields : List Byte) : Answer := { code := .ok, fields := fields }

/-- A refusal that carries no result field. -/
def refusal (r : Result) : Answer := { code := r, fields := [] }

/-- The frame of an answer: kind KIND + 0x80, the result code, the result fields (R181, R202). -/
def answerFrame (kind : Nat) (a : Answer) : Frame :=
  { kind := BitVec.ofNat 8 (kind + 0x80), payload := b1 (resultCode a.code) ++ a.fields }

/-! ### What caused a change of tunnel state, and what a notice says -/

/-- The cause that a TUNNEL_STATE notice names (R141, R202). -/
inductive Cause where
  | request (k : ReqKind)
  | incident (number : Nat)
  | startTimer
  | queueEmpty
deriving DecidableEq, Repr

/-- The action of an INCIDENT notice (R157). -/
inductive Action where
  | raised | repeated | discarded | removed
deriving DecidableEq, Repr

/-- The outcome of a CAR_EXIT notice (R18, R163). -/
inductive ExitOutcome where
  | complete | short | unticketed | cleared
deriving DecidableEq, Repr

/-- The reason of a WITHDRAWN notice (R33). -/
inductive WithdrawReason where
  | timeout | tunnelState | headRemoved | laneReset | laneDisabled
deriving DecidableEq, Repr

/-- A notice (R183). -/
inductive Notice where
  | tunnelState (new old : Tunnel) (manual incident : Bool) (cause : Cause)
  | incident (action : Action) (kind : IncidentKind) (r : Incident)
  | carExit (tag : Nat) (sale plan : Option Nat) (outcome : ExitOutcome) (credit : Option Nat)
  | controlLost (holder : Port)
  | saveDone
  | saveFailed
  | grant (lane : Lane) (sale ref : Nat)
  | withdrawn (lane : Lane) (sale : Nat) (reason : WithdrawReason)
  | admitted (sale tag : Nat)
deriving DecidableEq, Repr

def actionCode : Action → Nat
  | .raised => 0 | .repeated => 1 | .discarded => 2 | .removed => 3

def exitOutcomeCode : ExitOutcome → Nat
  | .complete => 0 | .short => 1 | .unticketed => 2 | .cleared => 3

def withdrawCode : WithdrawReason → Nat
  | .timeout => 0 | .tunnelState => 1 | .headRemoved => 2 | .laneReset => 3 | .laneDisabled => 4

/-- The cause type byte (R202). -/
def causeType : Cause → Nat
  | .request _ => 0 | .incident _ => 1 | .startTimer => 2 | .queueEmpty => 3

/-- The cause value byte: the request kind, the incident number, or 0 (R202). -/
def causeValue : Cause → Nat
  | .request k => kindByte k | .incident n => n | .startTimer => 0 | .queueEmpty => 0

/-- The flags of MANUAL and INCIDENT (R202). -/
def reasonFlags (manual incident : Bool) : Nat := flagBit 0 manual + flagBit 1 incident

/-- An incident record in 13 bytes (R202). -/
def incidentBytes (r : Incident) : List Byte :=
  b1 r.number ++ b1 (incidentKindCode r.kind) ++ b1 (classCode r.cls) ++ b1 (orAbsent (r.station.map Fin.val)) ++
    b1 (orZero (r.eye.map eyeCode)) ++ b1 (orZero r.tag) ++ b1 (orAbsent (r.lane.map laneCode)) ++
    b1 (orZero (r.signals.map signalsByte)) ++ b1 r.repeats ++ b4 r.time

/-- The KIND byte of a notice (R200). -/
def noticeKind : Notice → Nat
  | .tunnelState .. => 0xF0 | .incident .. => 0xF1 | .carExit .. => 0xF2 | .controlLost _ => 0xF3 | .saveDone => 0xF4
  | .saveFailed => 0xF5 | .grant .. => 0xF6 | .withdrawn .. => 0xF7 | .admitted .. => 0xF8

/-- The payload of a notice (R202). -/
def noticePayload : Notice → List Byte
  | .tunnelState new old manual incident cause =>
    b1 (tunnelCode new) ++ b1 (tunnelCode old) ++ b1 (modeByte new) ++ b1 (reasonFlags manual incident) ++
      b1 (causeType cause) ++ b1 (causeValue cause)
  | .incident action kind r => b1 (actionCode action) ++ b1 (incidentKindCode kind) ++ incidentBytes r
  | .carExit tag sale plan outcome credit =>
    b1 tag ++ b2 (orZero sale) ++ b1 (orZero plan) ++ b1 (exitOutcomeCode outcome) ++ b2 (orZero credit)
  | .controlLost holder => b1 (portCode holder)
  | .saveDone => []
  | .saveFailed => []
  | .grant lane sale ref => b1 (laneCode lane) ++ b2 sale ++ b2 ref
  | .withdrawn lane sale reason => b1 (laneCode lane) ++ b2 sale ++ b1 (withdrawCode reason)
  | .admitted sale tag => b2 sale ++ b1 tag

/-- The frame of a notice. -/
def noticeFrame (n : Notice) : Frame := { kind := BitVec.ofNat 8 (noticeKind n), payload := noticePayload n }

/-- A frame of kind 0xF0 or above is a notice: no answer kind lies there (R200). -/
def Frame.isNotice (f : Frame) : Bool := 0xF0 ≤ f.kind.toNat

/-- The bytes a frame is sent as (R177). -/
def wireBytes (f : Frame) : List Byte := frameBytes (f.kind :: f.payload)

/-! ### Records -/

/-- A ticket's or a plan's list as (code, level) byte pairs. -/
def svcBytes (l : List SvcLevel) : List Byte := l.flatMap fun q => b1 q.code ++ b1 q.level

/-- A credit in 9 bytes (R202). -/
def creditBytes (c : Credit) : List Byte :=
  b2 c.number ++ b4 c.value ++ b2 (orZero c.origin) ++ b1 (orZero c.plan)

/-- A ticket in CAR_LIST part 1; a sale number of 0 alone where there is none (R202). -/
def ticketBytes : Option Ticket → List Byte
  | none => b2 0
  | some t =>
    b2 t.sale ++ b1 (ticketLaneCode t.lane) ++ b1 t.plan ++ b1 t.cls ++ b4 t.paid ++ b2 (orZero t.credit) ++ b2 t.ref ++
      b1 t.addOns ++ b1 t.list.length ++ svcBytes t.list

/-- A schedule entry in 3 bytes (R202). -/
def entryBytes (e : Entry) : List Byte :=
  b1 e.station.val ++ b1 (entryStateCode e.state * 16 + e.level) ++ b1 (markCode e.mark * 16 + reasonCode e.state)

/-- An add-on price: a presence byte and the price, 0xFF 0xFF where absent (R199). -/
def priceBytes : Option Nat → List Byte
  | none => b1 0 ++ b2 0xFFFF
  | some p => b1 1 ++ b2 p

/-- The kind of a station. -/
def Gear.kind : Gear → StationKind
  | .spray _ => .spray
  | .air _ => .air
  | .brush _ => .brush

/-- The brush fields of a station, if it is BRUSH. -/
def Gear.brush? : Gear → Option BrushRec
  | .brush b => some b
  | .spray _ | .air _ => none

/-- A stored station record as the fields SET_STATION carries (R201). -/
def rawOfStation (r : StationRec) : RawStation :=
  { code := r.code, kind := kindCode r.gear.kind, sp := r.sp, pre := r.pre, post := r.post,
    mode := activationCode r.mode, proofWait := r.proofWait, retries := r.retries,
    gear := match r.gear with
      | .spray t | .air t => .levels t
      | .brush b =>
        .brush ⟨b.slot.val, b.k, b.brMin, b.brMax, b.icA, b.icB, b.jamMargin, b.slackMargin, b.jamN, b.slackN,
          b.jamBlank, qualifierCode b.qualifier, signalsByte b.signals⟩ }

/-- The two counts of a plan (R202). -/
def planTallyBytes (t : PlanTally) : List Byte := b2 t.sold ++ b4 t.revenue

/-- The counts of one part of the tally set (R202). -/
def tallyBytes (t : Tally) (part : Nat) : List Byte :=
  match part with
  | 1 => (allPlans.take 6).flatMap fun i => planTallyBytes (tabGet t.plans i)
  | 2 => (allPlans.drop 6).flatMap fun i => planTallyBytes (tabGet t.plans i)
  | _ =>
    b4 t.lanes.a ++ b4 t.lanes.b ++ b4 t.lanes.c ++ b4 t.console ++ b4 t.addOns ++ b4 t.addOnRevenue ++ b4 t.voids ++
      b4 t.voidValue ++ b4 t.exitComplete ++ b4 t.exitShort ++ b4 t.exitUnticketed ++ b4 t.issued ++ b4 t.redeemed ++
      b4 t.dropped ++ b4 t.halts

end Sys2Proof.Machine
end

