-- ==== Sys2Proof/Machine/Ops.lean ====
section
/-! DEFINITION. The shared operations: the points along the tunnel (R90), the pacing formulas (R119 to R123), what every
output line and brush command is (R26, R92, R113, R120, R141), the transmit queues (R178, R179), the handling of a request
by the Port Unit (R180), the tally counts (R165) and the issue of a credit (R83). -/

namespace Sys2Proof.Machine

/-! ### Points along the tunnel (R90) -/

/-- Window open WO. -/
def windowOpen (r : StationRec) : Nat := r.sp - r.pre

/-- Window close WC. -/
def windowClose (r : StationRec) : Nat := r.sp + r.post

/-- The arm point, floored at 0. -/
def armPoint (c : Constants) (r : StationRec) : Nat := windowOpen r - c.armLead

/-- The commit point, floored at 0. -/
def commitPoint (c : Constants) (r : StationRec) : Nat := windowOpen r - c.commitLead

/-- The car is past close at the station: its length is known and front - length ≥ WC. -/
def pastClose (r : StationRec) (car : Car) : Bool :=
  match car.length with
  | none => false
  | some len => windowClose r + len ≤ car.front

/-- The car overlaps the station: front ≥ WO and not past close. -/
def overlaps (r : StationRec) (car : Car) : Bool := windowOpen r ≤ car.front && !pastClose r car

/-- The car wants the station: a PENDING entry, the arm point reached, not past close (R93). -/
def wants (c : Constants) (r : StationRec) (i : Fin 16) (car : Car) : Bool :=
  car.schedule.any (fun e => e.station == i && e.state == .pending) && armPoint c r ≤ car.front && !pastClose r car

/-- Some car record wants the station (R93). -/
def wanted (s : State) (i : Fin 16) : Bool :=
  s.trk.queue.any (wants s.sup.consts (tabGet s.seq.table i) i)

/-- The levels of the ACTIVE entries held for a station in the tunnel queue. -/
def activeLevels (s : State) (i : Fin 16) : List Nat :=
  s.trk.queue.flatMap fun car =>
    (car.schedule.filter fun e => e.station == i && e.state == .active).map Entry.level

/-- The number of ACTIVE entries held for a station (R91). -/
def activeCount (s : State) (i : Fin 16) : Nat := (activeLevels s i).length

/-- The highest of a list of levels, 0 for none. -/
def highest (l : List Nat) : Nat := l.foldr max 0

/-- The conveyor drive line is on in RUNNING and DRAINING alone (R140). -/
def Tunnel.runs : Tunnel → Bool
  | .running | .draining => true
  | .stopped | .starting _ | .paused _ | .halted _ => false

/-- The horn sounds in STARTING alone (R141). -/
def Tunnel.warns : Tunnel → Bool
  | .starting _ => true
  | .stopped | .running | .draining | .paused _ | .halted _ => false

/-! ### Pacing formulas -/

/-- The resolved class: the lowest class in the tunnel queue, 4 when it is empty (R112). -/
def resolvedClass (s : State) : Nat := (s.trk.queue.map Car.cls).foldr min 4

/-- The conveyor speed output: SPEED_TABLE of the forced class, else of the resolved class (R113). -/
def speedOutput (s : State) : Nat := fourAt s.sup.consts.speed (s.pace.forced.getD (resolvedClass s))

/-- The raw command floor(v_avg × K × L_TABLE[Lmax] / 65536) (R119). -/
def rawCommand (vAvg k lmax : Nat) : Nat := vAvg * k * fourAt Config.levelFactor lmax / 65536

/-- Lmax: the highest level among the ACTIVE entries, 2 when there are none (R119). -/
def lmaxOf (levels : List Nat) : Nat := if levels.isEmpty then 2 else highest levels

/-- The command of a BRUSH station (R120). -/
def brushCommand (tunnel : Tunnel) (st : StationState) (b : BrushRec) (raw : Nat) : Nat :=
  if tunnel.runs then
    match st with
    | .firing => clampTo raw b.brMin b.brMax
    | .arming | .ready => b.brMin
    | .idle | .retryWait | .held | .fault | .offLine => 0
  else 0

/-- The expected current and the thresholds of a command (R123). -/
def paceOfCommand (b : BrushRec) (cmd : Nat) : Pace :=
  let e := min 4095 (b.icA + cmd * b.icB / 4096)
  { cmd := cmd, expected := e, overAt := min 4095 (e + b.jamMargin), underAt := e - b.slackMargin }

/-- The command and the thresholds of a station as the present state gives them; none for SPRAY and AIR (R121, R124). -/
def paceOf (s : State) (i : Fin 16) : Option Pace :=
  (tabGet s.seq.table i).gear.brush?.map fun b =>
    paceOfCommand b (brushCommand s.sup.tunnel (tabGet s.seq.units i).state b
      (rawCommand s.pace.vAvg b.k (lmaxOf (activeLevels s i))))

/-! ### Output lines -/

/-- The ARM line is on in ARMING, READY, FIRING and HELD (R92). -/
def armOn : StationState → Bool
  | .arming | .ready | .firing | .held => true
  | .idle | .retryWait | .fault | .offLine => false

/-- The INTENSITY of a SPRAY or AIR station: its level table at the highest ACTIVE level while FIRING, 0 otherwise
(R92). -/
def sprayIntensity (st : StationState) (t : ByFour Nat) (levels : List Nat) : Nat :=
  if st = .firing then fourAt t (highest levels) else 0

/-- The three lines of a station (R92, R122); FIRE is unused for BRUSH. -/
def linesOf (s : State) (i : Fin 16) : StationLines :=
  let st := (tabGet s.seq.units i).state
  match (tabGet s.seq.table i).gear with
  | .spray t | .air t =>
    { arm := armOn st, fire := decide (st = .firing), intensity := sprayIntensity st t (activeLevels s i) }
  | .brush _ => { arm := armOn st, fire := false, intensity := ((paceOf s i).map Pace.cmd).getD 0 }

/-- The lane holds the grant. -/
def holdsGrant (s : State) (l : Lane) : Bool :=
  match s.ent.grant with
  | some g => decide (g.lane = l)
  | none => false

/-- Every output line as the present state gives it: arms and signal (R26), drive and horn (R141), speed (R113), station
lines (R92). -/
def outputsOf (s : State) : Outputs :=
  { arms := ⟨holdsGrant s .a, holdsGrant s .b, holdsGrant s .c⟩
    green := s.ent.grant.isSome
    drive := s.sup.tunnel.runs
    horn := s.sup.tunnel.warns
    speed := speedOutput s
    stations := tabOf (linesOf s) }

/-- The end of an event: the resolved class, the brush commands and thresholds and every output line take the values the
present state gives them. R92, R113, R121, R124 and R141 put each of these changes in the event that causes it. -/
def driveLines (s : State) : State :=
  { s with
    pace.resolved := resolvedClass s
    pace.brushes := tabOf (paceOf s)
    out := outputsOf s }

/-- One event: taken by a running part, ignored while the reset pin is held or the supply is down (R193). -/
def event (f : State → State) (s : State) : State := if s.held then s else driveLines (f s)

/-- A change of level of an input line. The line keeps the level whether or not the part runs (the start-up event reads
it, R194); a command that gives a line the level it has is no edge and changes nothing (log entry 5). -/
def lineEdge (now level : Bool) (setLine : State → State) (f : State → State) (s : State) : State :=
  if now = level then s else event f (setLine s)

/-! ### Transmit queues -/

/-- A change of what the Port Unit holds for one port. -/
def updatePort (p : Port) (f : PortUnit → PortUnit) (s : State) : State :=
  { s with ports := s.ports.set p (f (s.ports.get p)) }

/-- A notice joins a queue of fewer than 8 frames and fewer than 7 notices, else it is lost and the flag is set (R178). -/
def enqueueNotice (f : Frame) (u : PortUnit) : PortUnit :=
  if u.tx.length < Config.txMax ∧ (u.tx.filter Frame.isNotice).length < Config.noticeMax then
    { u with tx := u.tx ++ [f] }
  else { u with overflow := true }

/-- The frames without their first notice, if they hold one. -/
def dropFirstNotice : List Frame → Option (List Frame)
  | [] => none
  | f :: r => if f.isNotice then some r else (dropFirstNotice r).map (f :: ·)

/-- The queue without its oldest notice that is not in transmission; the frame in transmission is the head (R177, R179). -/
def displaceNotice (u : PortUnit) : Option (List Frame) :=
  if u.sending then
    match u.tx with
    | [] => none
    | f :: r => (dropFirstNotice r).map (f :: ·)
  else dropFirstNotice u.tx

/-- An answer joins the tail; in a full queue it displaces the oldest notice not in transmission (R179). -/
def enqueueAnswer (f : Frame) (u : PortUnit) : PortUnit :=
  if u.tx.length < Config.txMax then { u with tx := u.tx ++ [f] }
  else
    match displaceNotice u with
    | some r => { u with tx := r ++ [f], overflow := true }
    | none => u

/-- The answer of a request completing now will have a place (R179). -/
def roomForAnswer (u : PortUnit) : Bool := u.tx.length < Config.txMax || (displaceNotice u).isSome

/-- A notice to one port (R178). -/
def notify (p : Port) (n : Notice) (s : State) : State := updatePort p (enqueueNotice (noticeFrame n)) s

/-- A notice to P0 and to P4 (R183). -/
def notifyBoth (n : Notice) (s : State) : State := notify .p4 n (notify .p0 n s)

/-- An answer to a port (R179). -/
def sendAnswer (p : Port) (k : Nat) (a : Answer) (s : State) : State :=
  updatePort p (enqueueAnswer (answerFrame k a)) s

/-- A completed frame leaves its receive path in HUNT with its buffer empty (R175). -/
def frameDone (p : Port) (s : State) : State := updatePort p (fun u => { u with rx := RxPath.idle }) s

/-! ### Handling a request (R180) -/

/-- The role test (R182). -/
def permitted (k : ReqKind) (p : Port) : Bool :=
  match k with
  | .tunnelStatus | .planList | .laneStatus => true
  | .carList | .incidentList | .stationStatus | .creditList | .tallyRead => !p.isLane
  | .quote | .sell | .void | .addService => p != .p4
  | .attach | .ackIncident | .restart | .laneReset | .laneEnable | .laneDisable | .tunnelClear | .stationOff
  | .stationOn | .stationReset => p == .p0
  | .claim | .yield | .openTunnel | .drain | .stop | .pause | .resume | .forceSpeed | .releaseSpeed => !p.isLane
  | .definePlan | .erasePlan | .publish | .withdraw | .setService | .setStation | .setConstants | .setResponse
  | .issueCredit | .save => p == .p4

/-- The event of a request's completion: the tests of R180 in order (the kind named already), then the owner, whose
answer joins the port's queue. `form` is the outcome of test 5. -/
def respond (p : Port) (k : ReqKind) (form : Bool) (owner : State → State × Answer) (s : State) : State :=
  if s.held then s
  else if roomForAnswer (s.ports.get p) then
    if permitted k p then
      if form then sendAnswer p (kindByte k) (owner (frameDone p s)).2 (owner (frameDone p s)).1
      else sendAnswer p (kindByte k) (refusal .badValue) (frameDone p s)
    else sendAnswer p (kindByte k) (refusal .notPermitted) (frameDone p s)
  else frameDone p s

/-- An owner whose effect ends with the output lines following the state it leaves. -/
def driven (owner : State → State × Answer) (s : State) : State × Answer :=
  (driveLines (owner s).1, (owner s).2)

/-- An owner that reads and changes nothing. -/
def reading (f : State → Answer) (s : State) : State × Answer := (s, f s)

/-- A refusal leaves every record unchanged (R181). -/
def refuse (r : Result) (s : State) : State × Answer := (s, refusal r)

/-! ### Tunnel state seen by the requests -/

/-- The incident list holds a PAUSE-class record: the INCIDENT pause reason (R140). -/
def pauseListed (s : State) : Bool := s.sup.incidents.any fun r => r.cls == .pause

/-- The incident list holds a HALT-class record. -/
def haltListed (s : State) : Bool := s.sup.incidents.any fun r => r.cls == .halt

/-- A SAVE write is in progress (R190). -/
def saving (s : State) : Bool := s.store.writing.isSome

/-- The port holds tunnel control (R161). -/
def holdsControl (s : State) (p : Port) : Bool := decide (s.sup.holder = some p)

/-! ### Tally counts (R165): every count saturates -/

/-- A change of the tally set. -/
def updateTally (f : Tally → Tally) (s : State) : State := { s with sales.tally := f s.sales.tally }

/-- A four-byte count raised by n. -/
def raiseCount (x n : Nat) : Nat := satAdd Config.amountMax x n

/-- A plan's revenue raised (R166, R167). -/
def tallyRevenue (i : Fin 12) (n : Nat) (t : Tally) : Tally :=
  let q := tabGet t.plans i
  { t with plans := tabSet t.plans i { q with revenue := raiseCount q.revenue n } }

/-- A plan's tickets sold raised by 1 (R166). -/
def tallySold (i : Fin 12) (t : Tally) : Tally :=
  let q := tabGet t.plans i
  { t with plans := tabSet t.plans i { q with sold := satAdd Config.planCountMax q.sold 1 } }

/-- The tickets sold of a ticket's lane raised by 1 (R166). -/
def tallyLane (l : TicketLane) (t : Tally) : Tally :=
  match l with
  | .lane l => { t with lanes := t.lanes.set l (raiseCount (t.lanes.get l) 1) }
  | .console => { t with console := raiseCount t.console 1 }

/-- The add-on count and revenue raised (R166, R167). -/
def tallyAddOns (n value : Nat) (t : Tally) : Tally :=
  { t with addOns := raiseCount t.addOns n, addOnRevenue := raiseCount t.addOnRevenue value }

/-- The void count and value raised for one ticket (R168). -/
def tallyVoid (paid : Nat) (t : Tally) : Tally :=
  { t with voids := raiseCount t.voids 1, voidValue := raiseCount t.voidValue paid }

/-- The exit count of an outcome raised by 1; a CLEARED record raises none (R169). -/
def tallyExit (o : ExitOutcome) (t : Tally) : Tally :=
  match o with
  | .complete => { t with exitComplete := raiseCount t.exitComplete 1 }
  | .short => { t with exitShort := raiseCount t.exitShort 1 }
  | .unticketed => { t with exitUnticketed := raiseCount t.exitUnticketed 1 }
  | .cleared => t

/-! ### Credits -/

/-- An issue (R83): the oldest of 16 credits is dropped first, then the number is allocated, then the credit joins the
tail. The new number and the dropped number are returned. -/
def issueCredit (value : Nat) (origin plan : Option Nat) (s : State) : State × Nat × Option Nat :=
  let full : Bool := Config.creditMax ≤ s.sales.credits.length
  let dropped : Option Nat := if full then s.sales.credits.head?.map Credit.number else none
  let kept := if full then s.sales.credits.tail else s.sales.credits
  let n := allocate 9999 (kept.map Credit.number) s.sales.creditCounter
  let t := s.sales.tally
  ({ s with
      sales.credits := kept ++ [{ number := n.1, value := value, origin := origin, plan := plan }]
      sales.creditCounter := n.2
      sales.tally := { t with
        dropped := raiseCount t.dropped (if full then 1 else 0)
        issued := raiseCount t.issued 1 } }, n.1, dropped)

end Sys2Proof.Machine
end

