-- ==== Sys2Proof/Machine/Arbiter.lean ====
section
/-! DEFINITION. The shared operations of the Entrance Unit: admission (R27), eligibility (R28), the merge arbiter (R29,
R30), the withdrawal of a grant (R33, R36) and its consumption (R39). -/

namespace Sys2Proof.Machine

/-- The newest record leaves room for the next car: the queue is empty, or the newest record has a known length and a
front of at least ADMIT_SPACING (R27). -/
def spacingMet (s : State) : Bool :=
  match s.trk.queue.getLast? with
  | none => true
  | some car => car.length.isSome && s.sup.consts.admitSpacing ≤ car.front

/-- Admission is open (R27). -/
def admissionOpen (s : State) : Bool :=
  decide (s.sup.tunnel = .running) && decide (s.trk.queue.length < Config.queueMax) && s.ent.grant.isNone &&
    decide (s.ent.eye = .armed) && spacingMet s

/-- The lane is eligible: enabled, with a ticket waiting and its loop occupied (R28). -/
def eligible (s : State) (l : Lane) : Bool :=
  s.ent.enabled.get l && !(s.sales.lanes.get l).isEmpty && s.inputs.loops.get l

/-- The search order after a pointer (R30). -/
def searchOrder : Lane → List Lane
  | .a => [.b, .c, .a]
  | .b => [.c, .a, .b]
  | .c => [.a, .b, .c]

/-- The grant of the entrance to a lane for its head ticket (R30). -/
def issueGrant (l : Lane) (t : Ticket) (s : State) : State :=
  notify (portOfLane l) (.grant l t.sale t.ref)
    { s with
      ent.grant := some { lane := l, sale := t.sale }
      ent.pointer := l
      ent.grantTimer := some s.sup.consts.grantTimeout }

/-- The first eligible lane in the search order, with its head ticket. -/
def nextGrant (s : State) : Option (Lane × Ticket) :=
  ((searchOrder s.ent.pointer).find? (eligible s)).bind fun l => (s.sales.lanes.get l).head?.map fun t => (l, t)

/-- The arbiter's evaluation of admission and eligibility (R29). -/
def arbitrate (s : State) : State :=
  if admissionOpen s then
    match nextGrant s with
    | some (l, t) => issueGrant l t s
    | none => s
  else s

/-- No grant is outstanding and the grant timer is stopped. -/
def clearGrant (s : State) : State := { s with ent.grant := none, ent.grantTimer := none }

/-- The withdrawal of the grant, if one is outstanding, and the evaluation that follows it (R33). -/
def withdrawGrant (reason : WithdrawReason) (s : State) : State :=
  match s.ent.grant with
  | none => s
  | some g => arbitrate (notify (portOfLane g.lane) (.withdrawn g.lane g.sale reason) (clearGrant s))

/-- The withdrawal of the grant if the named lane holds it (R25, R36). -/
def withdrawLane (l : Lane) (reason : WithdrawReason) (s : State) : State :=
  if holdsGrant s l then withdrawGrant reason s else s

end Sys2Proof.Machine
end

