-- ==== Sys2Proof/Machine/Sequencer.lean ====
section
/-! DEFINITION. The shared operations of the Station Sequencer (chapter 5): moves of a station with their effect on its
slot (R91, R128, R129), arming and attempts (R93, R94, R97), schedules (R99, R100), entries becoming ACTIVE (R101),
closes (R102), marks (R103), finalisation (R105), and the changes of tunnel state (R106 to R109). -/

namespace Sys2Proof.Machine

/-! ### Stations and slots -/

/-- A change of one station's unit. -/
def updateUnit (i : Fin 16) (f : StationUnit → StationUnit) (s : State) : State :=
  { s with seq.units := tabSet s.seq.units i (f (tabGet s.seq.units i)) }

/-- A change of one slot. -/
def updateSlot (k : Fin 6) (f : Slot → Slot) (s : State) : State :=
  { s with mon := tabSet s.mon k (f (tabGet s.mon k)) }

/-- A slot is watched while its BRUSH station is in ARMING, READY or FIRING (R128). -/
def watchedState : StationState → Bool
  | .arming | .ready | .firing => true
  | .idle | .retryWait | .held | .fault | .offLine => false

/-- IDLE, FAULT and OFF_LINE: every move to one of them stops the timers and clears the recheck flag (R91). -/
def restState : StationState → Bool
  | .idle | .fault | .offLine => true
  | .arming | .retryWait | .ready | .firing | .held => false

/-- What a slot becomes when its station moves: counts and latch cleared on leaving the watched states (R128), the
blank count set on entering ARMING from IDLE or RETRY_WAIT (R129). -/
def slotOnMove (old new : StationState) (jamBlank : Nat) (x : Slot) : Slot :=
  let y := if watchedState old && !watchedState new then { x with jam := 0, slack := 0, latch := false } else x
  if new = .arming ∧ (old = .idle ∨ old = .retryWait) then { y with blank := jamBlank } else y

/-- The Current Monitor is told of a move of a BRUSH station (R91). -/
def tellMonitor (i : Fin 16) (old new : StationState) (s : State) : State :=
  match (tabGet s.seq.table i).gear.brush? with
  | none => s
  | some b => updateSlot b.slot (slotOnMove old new b.jamBlank) s

/-- A station after a move (R91). -/
def unitOnMove (new : StationState) (u : StationUnit) : StationUnit :=
  if restState new then { u with state := new, proofTimer := none, retryTimer := none, recheck := false }
  else { u with state := new }

/-- A move of a station. -/
def moveStation (i : Fin 16) (new : StationState) (s : State) : State :=
  tellMonitor i (tabGet s.seq.units i).state new (updateUnit i (unitOnMove new) s)

/-! ### Entries -/

/-- A change of every car record. -/
def mapQueue (f : Car → Car) (s : State) : State := { s with trk.queue := s.trk.queue.map f }

/-- A change of every entry of a car record. -/
def mapEntries (f : Entry → Entry) (car : Car) : Car := { car with schedule := car.schedule.map f }

/-- An entry that is neither DONE nor MISSED. -/
def isOpen : EntryState → Bool
  | .pending | .active | .held | .interrupted => true
  | .done | .missed _ => false

/-- The reason that a mark gives (R102). -/
def markReason : MissMark → MissReason
  | .slack => .slack
  | .proof => .proof
  | .offline => .offline

/-- How an entry ends at a close (R102); `late` where a forward correction makes the close (R104). -/
def closedState (late : Bool) (st : StationState) (e : Entry) : EntryState :=
  match e.state with
  | .active =>
    match e.mark with
    | none => .done
    | some m => .missed (markReason m)
  | .pending =>
    if late then .missed .late
    else
      match st with
      | .fault => .missed .fault
      | .offLine => .missed .offline
      | .idle | .arming | .retryWait | .ready | .firing | .held => .missed .notReady
  | .held => .missed .pause
  | .interrupted => .missed .halt
  | .done => .done
  | .missed r => .missed r

/-- A mark on an entry that has none (R103). -/
def putMark (m : MissMark) (e : Entry) : Entry :=
  match e.mark with
  | none => { e with mark := some m }
  | some _ => e

/-- A mark on every ACTIVE entry of a station, and on its HELD entries where `heldToo` (R103). -/
def markEntries (i : Fin 16) (m : MissMark) (heldToo : Bool) (s : State) : State :=
  mapQueue (mapEntries fun e =>
    if e.station = i ∧ (e.state = .active ∨ (heldToo = true ∧ e.state = .held)) then putMark m e else e) s

/-! ### Becoming ready, arming, unwanted stations -/

/-- A READY or FIRING station makes every PENDING entry of an overlapping car ACTIVE, and is FIRING when it holds an
ACTIVE entry (R101). -/
def activate (i : Fin 16) (s : State) : State :=
  let r := tabGet s.seq.table i
  let st := (tabGet s.seq.units i).state
  if st = .ready ∨ st = .firing then
    let s' := mapQueue (fun car =>
      if overlaps r car then
        mapEntries (fun e => if e.station = i ∧ e.state = .pending then { e with state := .active } else e) car
      else car) s
    if st = .ready ∧ 0 < activeCount s' i then moveStation i .firing s' else s'
  else s

/-- Entry into READY: the proof timer is stopped and the overlapping cars are served at once (R94, R101). -/
def becomeReady (i : Fin 16) (s : State) : State :=
  activate i (moveStation i .ready (updateUnit i (fun u => { u with proofTimer := none }) s))

/-- An attempt begins on entry into ARMING (R94). -/
def beginAttempt (i : Fin 16) (s : State) : State :=
  let r := tabGet s.seq.table i
  if r.mode = .direct ∨ tabGet s.inputs.proofs i = true then becomeReady i s
  else updateUnit i (fun u => { u with proofTimer := some r.proofWait }) s

/-- An IDLE station goes to ARMING with its failed-attempt count 0 (R93). -/
def armStation (i : Fin 16) (s : State) : State :=
  beginAttempt i (moveStation i .arming (updateUnit i (fun u => { u with fails := 0 }) s))

/-- The arming test (R93): an IDLE station that is wanted while the tunnel is RUNNING or DRAINING arms. -/
def testArm (i : Fin 16) (s : State) : State :=
  if (tabGet s.seq.units i).state = .idle ∧ s.sup.tunnel.runs = true ∧ wanted s i = true then armStation i s else s

/-- The arming test of every station. -/
def testArmAll (s : State) : State := allStations.foldl (fun s i => testArm i s) s

/-- The test of R97: ARMING, RETRY_WAIT or READY with no ACTIVE entry and not wanted goes to IDLE. -/
def testUnwanted (i : Fin 16) (s : State) : State :=
  let st := (tabGet s.seq.units i).state
  if (st = .arming ∨ st = .retryWait ∨ st = .ready) ∧ activeCount s i = 0 ∧ wanted s i = false then
    moveStation i .idle s
  else s

/-- A FIRING station whose last ACTIVE entry has ended goes to READY if wanted, else to IDLE (R102). -/
def endFiring (i : Fin 16) (s : State) : State :=
  if (tabGet s.seq.units i).state = .firing ∧ activeCount s i = 0 then
    moveStation i (if wanted s i then .ready else .idle) s
  else s

/-- What the ending of entries does to the stations that held them (R97, R102). -/
def afterEnded (ended : List (Fin 16)) (s : State) : State :=
  allStations.foldl (fun s i => if ended.contains i then testUnwanted i (endFiring i s) else s) s

/-! ### Positions -/

/-- The entry is open and its car is past close at its station. -/
def closesNow (s : State) (car : Car) (e : Entry) : Bool :=
  isOpen e.state && pastClose (tabGet s.seq.table e.station) car

/-- The car with its entries ended where it is past close (R102). -/
def closeCar (s : State) (late : Bool) (car : Car) : Car :=
  mapEntries (fun e =>
    if closesNow s car e then { e with state := closedState late (tabGet s.seq.units e.station).state e } else e) car

/-- The stations at which an entry of a selected car ends now. -/
def closingStations (s : State) (sel : Car → Bool) : List (Fin 16) :=
  s.trk.queue.flatMap fun car => if sel car then (car.schedule.filter (closesNow s car)).map Entry.station else []

/-- The closes of the selected cars, with their effect on the stations (R102). -/
def closeWindows (late : Bool) (sel : Car → Bool) (s : State) : State :=
  afterEnded (closingStations s sel) (mapQueue (fun car => if sel car then closeCar s late car else car) s)

/-- The test of R101 for every station. -/
def activateAll (s : State) : State := allStations.foldl (fun s i => activate i s) s

/-- The positions of every car judged at an encoder pulse: closes, entries becoming ACTIVE, arming (R90, R93, R101,
R102). -/
def judgePulse (s : State) : State := testArmAll (activateAll (closeWindows false (fun _ => true) s))

/-- A tracking correction of one car: a forward correction is judged like a pulse, with LATE for the PENDING entries it
closes; a backward correction closes nothing and arms nothing (R104). -/
def judgeCorrection (tag : Nat) (forward : Bool) (s : State) : State :=
  if forward then testArmAll (activateAll (closeWindows true (fun car => car.tag == tag) s)) else activateAll s

/-- The setting of a car's length (R90, R102). -/
def judgeLength (tag : Nat) (s : State) : State :=
  testArmAll (activateAll (closeWindows false (fun car => car.tag == tag) s))

/-! ### Schedules -/

/-- The station serves the code; an unassigned station serves none (R87, R100). -/
def serves (s : State) (code : Nat) (i : Fin 16) : Bool := code != 0 && (tabGet s.seq.table i).code == code

/-- The serving stations of a code (R75). -/
def servingStations (s : State) (code : Nat) : List (Fin 16) := allStations.filter (serves s code)

/-- Station-position order: by SP, then by station number (R99). -/
def positionLe (s : State) (x y : Entry) : Bool :=
  let a := (tabGet s.seq.table x.station).sp
  let b := (tabGet s.seq.table y.station).sp
  a < b || (a == b && x.station.val ≤ y.station.val)

/-- An entry inserted at its place in station-position order (R99). -/
def insertEntry (s : State) (e : Entry) : List Entry → List Entry
  | [] => [e]
  | x :: xs => if positionLe s e x then e :: x :: xs else x :: insertEntry s e xs

/-- Entries in station-position order (R88, R99). -/
def orderSchedule (s : State) (l : List Entry) : List Entry := l.foldr (insertEntry s) []

/-- A new PENDING entry (R100). -/
def newEntry (level : Nat) (i : Fin 16) : Entry := { station := i, level := level, state := .pending, mark := none }

/-- The entries of a ticket's list at the serving stations that a test lets through, in station-position order (R79,
R100). -/
def buildSchedule (s : State) (reachable : Fin 16 → Bool) (list : List SvcLevel) : List Entry :=
  orderSchedule s (list.flatMap fun q => ((servingStations s q.code).filter reachable).map (newEntry q.level))

/-- The car's front is below the station's commit point (R75). -/
def belowCommit (s : State) (front : Nat) (i : Fin 16) : Bool :=
  front < commitPoint s.sup.consts (tabGet s.seq.table i)

/-! ### Finalisation -/

/-- Every open entry becomes MISSED with reason LATE (R105). -/
def finaliseCar (car : Car) : Car :=
  mapEntries (fun e => if isOpen e.state then { e with state := .missed .late } else e) car

/-! ### Changes of tunnel state -/

/-- A station at the entry into PAUSED (R106). -/
def holdStation (s : State) (i : Fin 16) : State :=
  match (tabGet s.seq.units i).state with
  | .ready | .firing =>
    moveStation i .held (updateUnit i (fun u => { u with proofTimer := none, recheck := false }) s)
  | .arming | .retryWait => moveStation i .idle s
  | .idle | .held | .fault | .offLine => s

/-- The entry into PAUSED (R106). -/
def holdAll (s : State) : State :=
  mapQueue (mapEntries fun e => if e.state = .active then { e with state := .held } else e)
    (allStations.foldl holdStation s)

/-- A station at the entry into HALTED (R108). -/
def dropStation (s : State) (i : Fin 16) : State :=
  match (tabGet s.seq.units i).state with
  | .fault | .offLine => s
  | .idle | .arming | .retryWait | .ready | .firing | .held => moveStation i .idle s

/-- The entry into HALTED (R108). -/
def dropAll (s : State) : State :=
  mapQueue (mapEntries fun e =>
      if e.state = .active ∨ e.state = .held then { e with state := .interrupted } else e)
    (allStations.foldl dropStation s)

/-- The entry into STOPPED: every HELD station goes to IDLE (R108). -/
def stopAll (s : State) : State :=
  allStations.foldl (fun s i => if (tabGet s.seq.units i).state = .held then moveStation i .idle s else s) s

/-- A HELD station at the entry into RUNNING or DRAINING (R107, first step). -/
def resumeStation (s : State) (i : Fin 16) : State :=
  if (tabGet s.seq.units i).state = .held then
    let s' := moveStation i (if 0 < activeCount s i then .firing else .ready) s
    let r := tabGet s.seq.table i
    if r.mode = .proofHold ∧ tabGet s.inputs.proofs i = false then
      updateUnit i (fun u => { u with recheck := true, proofTimer := some r.proofWait }) s'
    else s'
  else s

/-- An INTERRUPTED entry at the first run after a halt: PENDING if its car overlaps its station, else MISSED with reason
HALT (R109). -/
def reviveCar (s : State) (car : Car) : Car :=
  mapEntries (fun e =>
    if e.state = .interrupted then
      if overlaps (tabGet s.seq.table e.station) car then { e with state := .pending }
      else { e with state := .missed .halt }
    else e) car

/-- The test of R101 for the READY stations alone, as the third step of R107 makes it. -/
def activateReady (s : State) : State :=
  allStations.foldl (fun s i => if (tabGet s.seq.units i).state = .ready then activate i s else s) s

/-- The entry into RUNNING or DRAINING from STARTING (R107, R109). -/
def resumeAll (s : State) : State :=
  let s := mapQueue (mapEntries fun e => if e.state = .held then { e with state := .active } else e) s
  let s := allStations.foldl resumeStation s
  let s := mapQueue (reviveCar s) s
  let s := allStations.foldl (fun s i => if (tabGet s.seq.units i).state = .ready then testUnwanted i s else s) s
  activateReady (testArmAll s)

end Sys2Proof.Machine
end

