-- ==== Sys2Proof/Machine/Tunnel.lean ====
section
/-! DEFINITION. The shared operations of the Tunnel Supervisor: a change of tunnel state and what each block does at it
(R141), the effect of an incident's class (R148, R150), raising (R155, R156), removal (R157, R160). -/

namespace Sys2Proof.Machine

/-- The mode the tunnel was in or heading for when it halts (R150). -/
def preHaltOf : Tunnel → PreHalt
  | .stopped => .stopped
  | .running | .starting .running | .paused .running => .running
  | .draining | .starting .draining | .paused .draining => .draining
  | .halted m => m

/-- A target mode as a tunnel state. -/
def tunnelOfTarget : TargetMode → Tunnel
  | .running => .running
  | .draining => .draining

/-- The start timer at a change: started from START_WARN on entry into STARTING, stopped otherwise (R143). -/
def startTimerAt (new : Tunnel) (s : State) : Option Nat :=
  if new.warns then some s.sup.consts.startWarn else none

/-- The exit-block timer at a change: started on entry into RUNNING or DRAINING while the exit eye is blocked, kept by a
move between the two, stopped by leaving them (R21). -/
def exitTimerAt (old new : Tunnel) (s : State) : Option Nat :=
  if new.runs then
    if old.runs then s.trk.exitTimer
    else if s.inputs.eyes.exit then some s.sup.consts.exitBlockTime else s.trk.exitTimer
  else none

/-- The stall count at a change: 0 on entry into RUNNING or DRAINING from another state (R125). -/
def stallAt (old new : Tunnel) (s : State) : Nat := if new.runs && !old.runs then 0 else s.pace.stall

/-- What the Station Sequencer does at a change (R106 to R108). -/
def sequencerAt (old new : Tunnel) (s : State) : State :=
  match new with
  | .paused _ => holdAll s
  | .halted _ => dropAll s
  | .stopped => stopAll s
  | .running | .draining => if old.runs then s else resumeAll s
  | .starting _ => s

/-- What the Entrance Unit does at a change (R35). -/
def entranceAt (new : Tunnel) (s : State) : State :=
  if new = .running then arbitrate s else withdrawGrant .tunnelState s

/-- A change of tunnel state: the notices to P0 and P4, the timers, and the announcement to the blocks (R141). -/
def changeTunnel (new : Tunnel) (cause : Cause) (s : State) : State :=
  let old := s.sup.tunnel
  let s1 := { s with
    sup.tunnel := new
    sup.startTimer := startTimerAt new s
    trk.exitTimer := exitTimerAt old new s
    pace.stall := stallAt old new s }
  let s2 := notifyBoth (.tunnelState new old s1.sup.manual (pauseListed s1) cause) s1
  entranceAt new (sequencerAt old new s2)

/-- A HALT-class raise: HALTED from any other state, MANUAL cleared, the halts tally raised (R150). -/
def haltTunnel (cause : Cause) (s : State) : State :=
  match s.sup.tunnel with
  | .halted _ => s
  | .stopped | .starting _ | .running | .draining | .paused _ =>
    let t := s.sales.tally
    changeTunnel (.halted (preHaltOf s.sup.tunnel)) cause
      { s with sup.manual := false, sales.tally := { t with halts := raiseCount t.halts 1 } }

/-- PAUSED from RUNNING, DRAINING or STARTING, with the target mode kept (R147, R148). -/
def pauseTunnel (cause : Cause) (s : State) : State :=
  match s.sup.tunnel with
  | .running => changeTunnel (.paused .running) cause s
  | .draining => changeTunnel (.paused .draining) cause s
  | .starting t => changeTunnel (.paused t) cause s
  | .stopped | .paused _ | .halted _ => s

/-- The effect of a raise's class (R148, R150); a NOTICE has none. -/
def classEffect (c : IncidentClass) (number : Nat) (s : State) : State :=
  match c with
  | .notice => s
  | .pause => pauseTunnel (.incident number) s
  | .halt => haltTunnel (.incident number) s

/-! ### Raising -/

/-- What a block asks the Supervisor to raise (R154). -/
structure Raise where
  kind : IncidentKind
  station : Option (Fin 16)
  eye : Option Eye
  tag : Option Nat
  lane : Option Lane
  signals : Option Signals
deriving DecidableEq, Repr

/-- A raise of a kind with every field absent. -/
def plainRaise (k : IncidentKind) : Raise :=
  { kind := k, station := none, eye := none, tag := none, lane := none, signals := none }

/-- The stronger of two classes: HALT, then PAUSE, then NOTICE (R155). -/
def strongerClass (a b : IncidentClass) : IncidentClass :=
  match a, b with
  | .halt, _ | _, .halt => .halt
  | .pause, _ | _, .pause => .pause
  | .notice, .notice => .notice

/-- The record has the raise's kind, station, eye and lane (R155). -/
def sameSubject (q : Raise) (r : Incident) : Bool :=
  r.kind == q.kind && r.station == q.station && r.eye == q.eye && r.lane == q.lane

/-- A record merged with a raise of the same subject (R155). -/
def mergeSubject (q : Raise) (c : IncidentClass) (now : Nat) (r : Incident) : Incident :=
  { r with cls := strongerClass r.cls c, tag := q.tag, signals := q.signals, repeats := satAdd 255 r.repeats 1, time := now }

/-- A record of a full list merged with a raise of its class: the repeat count and the time alone change (R156). -/
def mergeOverflow (now : Nat) (r : Incident) : Incident := { r with repeats := satAdd 255 r.repeats 1, time := now }

/-- A change of the incident list. -/
def setIncidents (l : List Incident) (s : State) : State := { s with sup.incidents := l }

/-- A new record at the tail of the list, with its RAISED notice and the class effect (R155, R157). -/
def listNew (q : Raise) (c : IncidentClass) (s : State) : State :=
  let n := allocate 255 (s.sup.incidents.map Incident.number) s.sup.incidentCounter
  let r : Incident :=
    { number := n.1, kind := q.kind, cls := c, station := q.station, eye := q.eye, tag := q.tag, lane := q.lane,
      signals := q.signals, repeats := 1, time := s.sup.seconds }
  classEffect c n.1 (notifyBoth (.incident .raised q.kind r)
    { s with sup.incidents := s.sup.incidents ++ [r], sup.incidentCounter := n.2 })

/-- A merge into the oldest record of the same subject (R155). -/
def mergeInto (q : Raise) (c : IncidentClass) (r : Incident) (s : State) : State :=
  classEffect c r.number (notifyBoth (.incident .repeated q.kind (mergeSubject q c s.sup.seconds r))
    (setIncidents (updateFirst (sameSubject q) (mergeSubject q c s.sup.seconds) s.sup.incidents) s))

/-- A merge into the newest record of a class (R156). -/
def mergeNewest (k c : IncidentClass) (q : Raise) (s : State) : State :=
  match (s.sup.incidents.filter fun r => r.cls == k).getLast? with
  | none => s
  | some r =>
    classEffect c r.number (notifyBoth (.incident .repeated q.kind (mergeOverflow s.sup.seconds r))
      (setIncidents (updateLast (fun r => r.cls == k) (mergeOverflow s.sup.seconds) s.sup.incidents) s))

/-- The oldest record of a class leaves, with its REMOVED notice, and the raise takes a new record (R156, R157). -/
def displace (k c : IncidentClass) (q : Raise) (s : State) : State :=
  match s.sup.incidents.find? fun r => r.cls == k with
  | none => s
  | some r =>
    listNew q c (notifyBoth (.incident .removed r.kind r)
      (setIncidents (s.sup.incidents.eraseP fun r => r.cls == k) s))

/-- A NOTICE raise lost to a full list, with its DISCARDED notice; the notice's repeat count and time are free values
(R156, R157; log entry 1). -/
def discardRaise (q : Raise) (s : State) : State :=
  let r : Incident :=
    { number := 0, kind := q.kind, cls := .notice, station := q.station, eye := q.eye, tag := q.tag, lane := q.lane,
      signals := q.signals, repeats := (Config.discardedRepeat s.free).toNat,
      time := (Config.discardedTime s.free).toNat }
  notifyBoth (.incident .discarded q.kind r) { s with free := s.free + 1 }

/-- The list holds a record of the class. -/
def listsClass (c : IncidentClass) (s : State) : Bool := s.sup.incidents.any fun r => r.cls == c

/-- A raise that finds 8 records and merges into none (R156). -/
def raiseOverflow (q : Raise) (c : IncidentClass) (s : State) : State :=
  match c with
  | .notice => discardRaise q s
  | .pause =>
    if listsClass .notice s then displace .notice c q s
    else if listsClass .pause s then mergeNewest .pause c q s
    else mergeNewest .halt c q s
  | .halt =>
    if listsClass .notice s then displace .notice c q s
    else if listsClass .halt s then mergeNewest .halt c q s
    else displace .pause c q s

/-- A raise (R155 to R157). -/
def raiseIncident (q : Raise) (s : State) : State :=
  let c := s.sup.response.get q.kind
  match s.sup.incidents.find? (sameSubject q) with
  | some r => mergeInto q c r s
  | none => if s.sup.incidents.length < Config.incidentMax then listNew q c s else raiseOverflow q c s

/-! ### Removal -/

/-- The REMOVED notices of departing records, in order (R157). -/
def tellRemoved (gone : List Incident) (s : State) : State :=
  gone.foldl (fun s r => notifyBoth (.incident .removed r.kind r) s) s

/-- The effect of removals on the tunnel, applied once after the last (R160): with no PAUSE-class record left and MANUAL
clear, a PAUSED tunnel goes to STARTING, the cause naming the last PAUSE-class record removed. -/
def afterRemoval (gone : List Incident) (s : State) : State :=
  match (gone.filter fun r => r.cls == .pause).getLast?, s.sup.tunnel with
  | some r, .paused t =>
    if pauseListed s || s.sup.manual then s else changeTunnel (.starting t) (.incident r.number) s
  | _, _ => s

/-- The removal of every record that passes a test (R23, R158, R159). -/
def removeIncidents (p : Incident → Bool) (s : State) : State :=
  let gone := s.sup.incidents.filter p
  afterRemoval gone (tellRemoved gone (setIncidents (s.sup.incidents.filter fun r => !p r) s))

end Sys2Proof.Machine
end

