-- ==== Sys2Proof/Machine/Monitor.lean ====
section
/-! DEFINITION. The Current Monitor (chapter 7): the scan (R127 to R134), the collision test (R136, R137) and its raise
(R138). -/

namespace Sys2Proof.Machine

/-- The BRUSH station that a slot belongs to (R127). -/
def brushOfSlot (s : State) (k : Fin 6) : Option (Fin 16 × BrushRec) :=
  allStations.findSome? fun i => (tabGet s.seq.table i).gear.brush?.bind fun b => if b.slot = k then some (i, b) else none

/-- The over and under thresholds that the monitor holds for a station (R124). -/
def thresholdsOf (s : State) (i : Fin 16) : Nat × Nat :=
  match tabGet s.pace.brushes i with
  | some q => (q.overAt, q.underAt)
  | none => (4095, 0)

/-- The jam watch of one sample (R131). -/
def jamWatch (overAt jamN sample : Nat) (x : Slot) : Slot :=
  if overAt ≤ sample then
    let n := satAdd 15 x.jam 1
    { x with jam := n, latch := x.latch || decide (jamN ≤ n) }
  else { x with jam := 0 }

/-- Blanking, then the jam watch where the slot is not blanked (R129, R130). -/
def blankOrJam (overAt jamN sample : Nat) (x : Slot) : Slot :=
  if 0 < x.blank then { x with blank := x.blank - 1 } else jamWatch overAt jamN sample x

/-- The slack watch of one sample: the slot, and whether a slack mark is due (R133). -/
def slackWatch (running : Bool) (underAt slackN sample : Nat) (x : Slot) : Slot × Bool :=
  if running && sample ≤ underAt then
    if slackN ≤ x.slack + 1 then ({ x with slack := 0 }, true) else ({ x with slack := x.slack + 1 }, false)
  else ({ x with slack := 0 }, false)

/-- The slack watch runs for the station (R133). -/
def slackRuns (s : State) (i : Fin 16) (b : BrushRec) : Bool :=
  decide ((tabGet s.seq.units i).state = .firing) && decide (0 < activeCount s i) && b.slackMargin != 0

/-- A slot that holds the scan's sample, after steps 1 to 3 of R130, and whether a slack mark is due. -/
def scanSlot (s : State) (k : Fin 6) (x : Slot) : Slot × Bool :=
  match brushOfSlot s k with
  | none => ({ x with blank := x.blank - 1 }, false)
  | some (i, b) =>
    if watchedState (tabGet s.seq.units i).state then
      slackWatch (slackRuns s i b) (thresholdsOf s i).2 b.slackN x.sample
        (blankOrJam (thresholdsOf s i).1 b.jamN x.sample x)
    else ({ x with blank := x.blank - 1 }, false)

/-- A slot with a new last sample (R127). -/
def withSample (n : BitVec 12) (x : Slot) : Slot := { x with sample := n.toNat }

/-- Every slot after steps 1 to 3 of a scan (R127, R130). -/
def scanSlots (samples : Tab 6 (BitVec 12)) (s : State) : Tab 6 (Slot × Bool) :=
  tabOf fun k => scanSlot s k (withSample (tabGet samples k) (tabGet s.mon k))

/-- The slack mark of a slot whose slack is due (R133). -/
def slackMark (s : State) (k : Fin 6) : State :=
  match brushOfSlot s k with
  | none => s
  | some (i, _) => markEntries i .slack false s

/-- The signals present for a slot (R131, R135). -/
def signalsOf (s : State) (k : Fin 6) : Signals :=
  { current := (tabGet s.mon k).latch, bumper := tabGet s.inputs.bumpers k, overtravel := tabGet s.inputs.overtravels k }

/-- The collision test on the signals present, the enabled signals and the qualifier mode (R136). -/
def qualifies (q : Qualifier) (enabled present : Signals) : Bool :=
  match q with
  | .any =>
    (enabled.current && present.current) || (enabled.bumper && present.bumper) ||
      (enabled.overtravel && present.overtravel)
  | .all =>
    (enabled.current || enabled.bumper || enabled.overtravel) && (!enabled.current || present.current) &&
      (!enabled.bumper || present.bumper) && (!enabled.overtravel || present.overtravel)

/-- The tag of the frontmost car record with an ACTIVE entry for the station (R138). -/
def frontmostActive (s : State) (i : Fin 16) : Option Nat :=
  (s.trk.queue.find? fun car => car.schedule.any fun e => e.station == i && e.state == .active).map Car.tag

/-- The raise of a watched slot whose collision test passes (R136 to R138). -/
def collisionOf (s : State) (k : Fin 6) : Option Raise :=
  match brushOfSlot s k with
  | none => none
  | some (i, b) =>
    if watchedState (tabGet s.seq.units i).state && qualifies b.qualifier b.signals (signalsOf s k) then
      some { kind := .brushCollision, station := some i, eye := none, tag := frontmostActive s i, lane := none,
             signals := some (signalsOf s k) }
    else none

/-- Raises handed to the Supervisor one after another. -/
def raiseEach (l : List Raise) (s : State) : State := l.foldl (fun s q => raiseIncident q s) s

/-- A scan: the samples and counts of every slot, then every slack mark, then every collision in slot order (R130). -/
def scan (samples : Tab 6 (BitVec 12)) (s : State) : State :=
  let r := scanSlots samples s
  let s1 := { s with mon := tabOf fun k => (tabGet r k).1 }
  let s2 := allSlots.foldl (fun s k => if (tabGet r k).2 then slackMark s k else s) s1
  raiseEach (allSlots.filterMap (collisionOf s2)) s2

/-- The level of a switch input. -/
def switchLevel (s : State) (k : Fin 6) : Switch → Bool
  | .bumper => tabGet s.inputs.bumpers k
  | .overtravel => tabGet s.inputs.overtravels k

/-- The level of a switch input replaced. -/
def setSwitch (k : Fin 6) (line : Switch) (x : Bool) (s : State) : State :=
  match line with
  | .bumper => { s with inputs.bumpers := tabSet s.inputs.bumpers k x }
  | .overtravel => { s with inputs.overtravels := tabSet s.inputs.overtravels k x }

/-- The collision test at a switch edge (R137). It is made at an edge to inactive as at one to active, so a switch that was
closed before the station armed is found there if the edge comes before the first scan (DESIGN CHOICE, log entry 27). -/
def switchEdge (k : Fin 6) (s : State) : State := raiseEach (collisionOf s k).toList s

/-! ### The commands -/

/-- SCAN_COMPLETE (R127, R130). -/
def execScanComplete (samples : Tab 6 (BitVec 12)) (s : State) : Host.Outcome State Fault Refusal :=
  .next (event (scan samples) s)

/-- BUMPER_OVERTRAVEL_EDGE (R135, R137). -/
def execBumperOvertravelEdge (slot : Fin 6) (line : Switch) (active : Bool) (s : State) :
    Host.Outcome State Fault Refusal :=
  .next (lineEdge (switchLevel s slot line) active (setSwitch slot line active) (switchEdge slot) s)

end Sys2Proof.Machine
end

