-- ==== Sys2Proof/Machine/Pacing.lean ====
section
/-! DEFINITION. The Pacing Unit's gate window end (R116 to R118, R125, R126) and the seconds counter (R154). -/

namespace Sys2Proof.Machine

/-- The count of the window, the accumulator and the averaged speed at a window end (R116, R117). -/
def closeWindow (s : State) : State :=
  let acc := s.pace.acc - s.pace.acc / 4 + s.pace.gate
  { s with pace.gate := 0, pace.v := s.pace.gate, pace.acc := acc, pace.vAvg := (acc + 2) / 4 }

/-- The stall count after a window of v pulses (R125). -/
def stallCount (tunnel : Tunnel) (v count : Nat) : Nat :=
  if tunnel.runs then (if v = 0 then satAdd 100 count 1 else 0) else count

/-- The stall watch of the window just closed (R125, R126). -/
def stallWatch (s : State) : State :=
  let n := stallCount s.sup.tunnel s.pace.v s.pace.stall
  let s' := { s with pace.stall := n }
  if s.sup.tunnel.runs = true ∧ s.pace.v = 0 ∧ s.pace.stall < n ∧ n = s.sup.consts.stallWindows then
    raiseIncident (plainRaise .conveyorStall) s'
  else s'

/-- A gate window end (R118); step 3 is the end of the event (`driveLines`). -/
def windowEnd (s : State) : State := stallWatch (closeWindow s)

/-- The seconds counter rises by 1, saturating (R154). -/
def tickSeconds (s : State) : State := { s with sup.seconds := satAdd Config.amountMax s.sup.seconds 1 }

/-! ### The commands -/

/-- GATE_WINDOW_END (R118). -/
def execGateWindowEnd (s : State) : Host.Outcome State Fault Refusal := .next (event windowEnd s)

/-- SECONDS_TICK (R154). -/
def execSecondsTick (s : State) : Host.Outcome State Fault Refusal := .next (event tickSeconds s)

end Sys2Proof.Machine
end

