-- ==== Sys2Proof/Machine/Reads.lean ====
section
/-! DEFINITION. The status reads: TUNNEL_STATUS, CAR_LIST, INCIDENT_LIST, CREDIT_LIST, LANE_STATUS, STATION_STATUS
(section 10.6), PLAN_LIST (section 3.7) and TALLY_READ (section 9.3). -/

namespace Sys2Proof.Machine

/-! ### TUNNEL_STATUS -/

/-- The flags byte of TUNNEL_STATUS (R202). -/
def statusFlags (p : Port) (s : State) : Nat :=
  flagBit 0 s.sup.manual + flagBit 1 (pauseListed s) + flagBit 2 s.inputs.estopClosed + flagBit 3 (saving s) +
    flagBit 4 s.store.defaulted + flagBit 5 (s.ports.get p).overflow

/-- The items of TUNNEL_STATUS in the order R202 lists them, then the last save outcome, which section 11.5 has TUNNEL_STATUS
report and which makes the 28 bytes of R202 (R184; log entry 6). -/
def statusFields (p : Port) (s : State) : List Byte :=
  b1 (tunnelCode s.sup.tunnel) ++ b1 (targetByte s.sup.tunnel) ++ b1 (preHaltByte s.sup.tunnel) ++
    b1 (statusFlags p s) ++ b1 (orAbsent (s.sup.holder.map portCode)) ++ b1 s.pace.resolved ++
    b1 (orZero s.pace.forced) ++ b2 s.out.speed ++ b2 s.pace.v ++ b2 s.pace.acc ++ b2 s.pace.vAvg ++ b1 s.pace.stall ++
    b1 s.trk.queue.length ++ b1 s.sup.incidents.length ++ b1 (laneCode s.ent.pointer) ++
    b1 (orAbsent (s.ent.grant.map fun g => laneCode g.lane)) ++ b1 (enableByte s.ent.enabled) ++ b4 s.sup.seconds ++
    b1 (causeCode s.store.cause) ++ b1 (outcomeCode s.store.lastOutcome)

/-- The flag is reported as it stands and cleared in the same event (R184). -/
def ownTunnelStatus (p : Port) (s : State) : State × Answer :=
  (updatePort p (fun u => { u with overflow := false }) s, answerOk (statusFields p s))

def handleTunnelStatus (p : Port) (s : State) : State := respond p .tunnelStatus true (ownTunnelStatus p) s

/-! ### CAR_LIST -/

/-- The summary form: the number of records, then the tag and front of each, oldest first (R185). -/
def carSummary (s : State) : List Byte :=
  b1 s.trk.queue.length ++ s.trk.queue.flatMap fun car => b1 car.tag ++ b2 car.front

/-- Part 1 of a record: the car fields and the ticket (R185, R202). -/
def carFields (car : Car) : List Byte :=
  b1 car.tag ++ b1 1 ++ b2 car.front ++ b2 (orZero car.length) ++ b1 car.cls ++ b1 (passedByte car.passed) ++
    b1 (flagBit 0 car.tailgate) ++ ticketBytes car.ticket

/-- Part 2 of a record: the schedule (R185, R202). -/
def scheduleFields (car : Car) : List Byte :=
  b1 car.tag ++ b1 2 ++ b1 car.schedule.length ++ car.schedule.flatMap entryBytes

/-- The answer of CAR_LIST (R185); the tag is tested before the part (log entry 24). -/
def carListAnswer (form : CarListForm) (s : State) : Answer :=
  match form with
  | .summary => answerOk (carSummary s)
  | .record tag part =>
    match s.trk.queue.find? (fun car => car.tag == tag) with
    | none => refusal .notFound
    | some car =>
      match part with
      | 1 => answerOk (carFields car)
      | 2 => answerOk (scheduleFields car)
      | _ => refusal .badValue

def handleCarList (p : Port) (form : CarListForm) (s : State) : State :=
  respond p .carList true (reading (carListAnswer form)) s

/-! ### INCIDENT_LIST and CREDIT_LIST -/

/-- A page of a list: the number listed (R186), then the list itself: the count of the items that follow, the index
echoed, and the items from that index (R199, R202; log entry 7). -/
def pageFields {α : Type} (l : List α) (index most : Nat) (bytes : α → List Byte) : List Byte :=
  let page := (l.drop index).take most
  b1 l.length ++ b1 page.length ++ b1 index ++ page.flatMap bytes

/-- Up to 4 incident records from an index of 0 to 7 (R186). -/
def incidentListAnswer (index : Nat) (s : State) : Answer :=
  if index < 8 then answerOk (pageFields s.sup.incidents index 4 incidentBytes) else refusal .badValue

/-- Up to 5 credits from an index of 0 to 15 (R186). -/
def creditListAnswer (index : Nat) (s : State) : Answer :=
  if index < 16 then answerOk (pageFields s.sales.credits index 5 creditBytes) else refusal .badValue

def handleIncidentList (p : Port) (index : Nat) (s : State) : State :=
  respond p .incidentList true (reading (incidentListAnswer index)) s

def handleCreditList (p : Port) (index : Nat) (s : State) : State :=
  respond p .creditList true (reading (creditListAnswer index)) s

/-! ### LANE_STATUS -/

/-- The flags byte of LANE_STATUS (R202). -/
def laneFlags (l : Lane) (s : State) : Nat :=
  flagBit 0 (s.ent.enabled.get l) + flagBit 1 (s.inputs.loops.get l) + flagBit 2 (s.out.arms.get l) +
    flagBit 3 (holdsGrant s l)

/-- The sale number named in the GRANT notice, 0 when the lane holds no grant (R187, R202). -/
def grantSale (l : Lane) (s : State) : Nat :=
  match s.ent.grant with
  | some g => if g.lane = l then g.sale else 0
  | none => 0

/-- The last-sale record of a lane (R67, R202); the terminal reference of an absent one is a free value (log entry 26). -/
def lastSaleBytes (free : Nat) : Option LastSale → List Byte
  | none => b2 0 ++ b2 (Config.absentReference free).toNat
  | some r => b2 r.sale ++ b2 r.ref

/-- The items of LANE_STATUS (R187, R202). -/
def laneFields (l : Lane) (s : State) : List Byte :=
  b1 (laneCode l) ++ b1 (laneFlags l s) ++ b2 (grantSale l s) ++ b1 (s.sales.lanes.get l).length ++
    ((s.sales.lanes.get l).flatMap fun t => b2 t.sale ++ b1 t.plan ++ b2 t.ref) ++
    lastSaleBytes s.free (s.sales.lastSale.get l)

/-- The counter of free values advances where the answer takes one: the lane has no last-sale record (log entry 26). -/
def takeReference (l : Lane) (s : State) : State :=
  { s with free := if s.sales.lastSale.get l = none then s.free + 1 else s.free }

/-- LANE_STATUS (R182, R187). -/
def ownLaneStatus (p : Port) (lane : Option Nat) (s : State) : State × Answer :=
  match laneOperand p lane with
  | none => refuse .badValue s
  | some l => (takeReference l s, answerOk (laneFields l s))

def handleLaneStatus (p : Port) (lane : Option Nat) (s : State) : State :=
  respond p .laneStatus (laneForm p lane) (ownLaneStatus p lane) s

/-! ### STATION_STATUS -/

/-- The summary form: state and failed-attempt count of every station (R188). -/
def stationSummary (s : State) : List Byte :=
  allStations.flatMap fun i => b1 (stationStateCode (tabGet s.seq.units i).state) ++ b1 (tabGet s.seq.units i).fails

/-- The flags byte of STATION_STATUS (R202). -/
def stationFlags (i : Fin 16) (s : State) : Nat :=
  let lines := tabGet s.out.stations i
  flagBit 0 (tabGet s.inputs.proofs i) + flagBit 1 lines.arm + flagBit 2 lines.fire +
    match (tabGet s.seq.table i).gear.brush? with
    | none => 0
    | some b =>
      flagBit 3 (tabGet s.mon b.slot).latch + flagBit 4 (tabGet s.inputs.bumpers b.slot) +
        flagBit 5 (tabGet s.inputs.overtravels b.slot)

/-- The additional items of a BRUSH station (R124, R132, R188). -/
def brushStatus (i : Fin 16) (b : BrushRec) (s : State) : List Byte :=
  let q := (tabGet s.pace.brushes i).getD ⟨0, 0, 0, 0⟩
  let x := tabGet s.mon b.slot
  b2 q.expected ++ b2 q.overAt ++ b2 q.underAt ++ b1 x.jam ++ b1 x.slack ++ b1 x.blank ++ b2 x.sample

/-- The items of the station form, with the station's record from SP on (R91, R188, R202). -/
def stationFields (i : Fin 16) (s : State) : List Byte :=
  let r := tabGet s.seq.table i
  let u := tabGet s.seq.units i
  b1 i.val ++ b1 r.code ++ b1 (kindCode r.gear.kind) ++ b1 (stationStateCode u.state) ++ b1 u.fails ++
    b1 (stationFlags i s) ++ b2 (tabGet s.out.stations i).intensity ++ b1 (activeCount s i) ++
    (match r.gear.brush? with
      | none => []
      | some b => brushStatus i b s) ++ geometryBytes (rawOfStation r)

/-- The answer of STATION_STATUS (R188). -/
def stationStatusAnswer (station : Option Nat) (s : State) : Answer :=
  match station with
  | none => answerOk (stationSummary s)
  | some n =>
    match stationIndex n with
    | none => refusal .badValue
    | some i => answerOk (stationFields i s)

def handleStationStatus (p : Port) (station : Option Nat) (s : State) : State :=
  respond p .stationStatus true (reading (stationStatusAnswer station)) s

/-! ### PLAN_LIST -/

/-- The sum of the list lengths of the plans numbered below (R50). -/
def planOffset (plans : Tab 12 Plan) (i : Fin 12) : Nat :=
  ((allPlans.filter fun j => j < i).map fun j => (tabGet plans j).len).sum

/-- The service list of a plan: its run of the plan store (R50). -/
def planList (s : State) (i : Fin 12) : List SvcLevel :=
  (s.sales.store.drop (planOffset s.sales.plans i)).take (tabGet s.sales.plans i).len

/-- The class limit of a code; 4 for a code outside 1 to 24, which no list holds. -/
def classLimit (s : State) (code : Nat) : Nat :=
  match codeIndex code with
  | some c => (tabGet s.sales.services c).limit
  | none => 4

/-- The lowest of a class and the class limits of a list of codes (R62, R69). -/
def lowestClass (s : State) (cls : Nat) (codes : List Nat) : Nat := (codes.map (classLimit s)).foldr min cls

/-- The sale class of a plan (R62). -/
def saleClass (s : State) (i : Fin 12) : Nat :=
  lowestClass s (tabGet s.sales.plans i).cls ((planList s i).map SvcLevel.code)

/-- The summary form: state, price and class of every plan, then the store count (R61, R202). -/
def planSummary (s : State) : List Byte :=
  (allPlans.flatMap fun i =>
    let q := tabGet s.sales.plans i
    b1 (planStateCode q.state) ++ b2 q.price ++ b1 q.cls) ++ b1 s.sales.store.length

/-- The offset byte of a plan: 0xFF for an EMPTY plan (R202). -/
def offsetByte (s : State) (i : Fin 12) : Nat :=
  if (tabGet s.sales.plans i).state = .empty then absentByte else planOffset s.sales.plans i

/-- The items of the plan form (R62, R202). -/
def planFields (s : State) (i : Fin 12) : List Byte :=
  let q := tabGet s.sales.plans i
  b1 (i.val + 1) ++ b1 (planStateCode q.state) ++ b1 q.name.length ++ q.name.flatMap b1 ++ b2 q.price ++ b1 q.cls ++
    b1 (offsetByte s i) ++ b1 q.len ++ b1 (planList s i).length ++ svcBytes (planList s i) ++ b1 (saleClass s i)

/-- The answer of the plan form (R62). -/
def planListPlanAnswer (plan : Nat) (s : State) : Answer :=
  match planIndex plan with
  | none => refusal .badValue
  | some i => answerOk (planFields s i)

/-- The items of a service table entry (R62, R202). -/
def serviceFields (s : State) (c : Fin 24) : List Byte :=
  let e := tabGet s.sales.services c
  b1 (c.val + 1) ++ priceBytes e.price ++ b1 e.limit

/-- The answer of the service form (R62). -/
def planListServiceAnswer (code : Nat) (s : State) : Answer :=
  match codeIndex code with
  | none => refusal .badValue
  | some c => answerOk (serviceFields s c)

def handlePlanListSummary (p : Port) (s : State) : State :=
  respond p .planList true (reading fun s => answerOk (planSummary s)) s

def handlePlanListPlan (p : Port) (plan : Nat) (s : State) : State :=
  respond p .planList true (reading (planListPlanAnswer plan)) s

def handlePlanListService (p : Port) (code : Nat) (s : State) : State :=
  respond p .planList true (reading (planListServiceAnswer code)) s

/-! ### TALLY_READ -/

/-- The read copy of a port: P0's or P4's (R171). -/
def copyUnit (p : Port) (s : State) : CopyUnit := if p = .p4 then s.sales.officeCopy else s.sales.consoleCopy

/-- The read copy of a port replaced. -/
def setCopyUnit (p : Port) (u : CopyUnit) (s : State) : State :=
  if p = .p4 then { s with sales.officeCopy := u } else { s with sales.consoleCopy := u }

/-- A part of a copy: the copy number, the part number, the counts (R171, R202). -/
def tallyPart (part : Nat) (copy : Nat × Tally) : Answer := answerOk (b1 copy.1 ++ b1 part ++ tallyBytes copy.2 part)

/-- A take: the present tally set under the port's copy number, which advances (R171). -/
def takeCopy (p : Port) (s : State) : State :=
  setCopyUnit p { copy := some ((copyUnit p s).counter, s.sales.tally), counter := nextCount 255 (copyUnit p s).counter } s

/-- TALLY_READ (R171, R172). -/
def ownTallyRead (p : Port) (part : Nat) (take clear : Bool) (s : State) : State × Answer :=
  if part < 1 ∨ 3 < part ∨ (clear = true ∧ take = false) then refuse .badValue s
  else if clear = true ∧ p = .p0 then refuse .notPermitted s
  else if take then
    let s' := takeCopy p s
    (if clear then updateTally (fun _ => Tally.zero) s' else s',
      tallyPart part ((copyUnit p s).counter, s.sales.tally))
  else
    match (copyUnit p s).copy with
    | none => refuse .notFound s
    | some copy => (s, tallyPart part copy)

def handleTallyRead (p : Port) (part : Nat) (take clear : Bool) (s : State) : State :=
  respond p .tallyRead true (ownTallyRead p part take clear) s

/-! ### The commands -/

/-- TUNNEL_STATUS (R184). -/
def execTunnelStatus (p : Port) (s : State) : Host.Outcome State Fault Refusal := .next (handleTunnelStatus p s)

/-- CAR_LIST (R185). -/
def execCarList (p : Port) (form : CarListForm) (s : State) : Host.Outcome State Fault Refusal :=
  .next (handleCarList p form s)

/-- INCIDENT_LIST (R186). -/
def execIncidentList (p : Port) (index : Nat) (s : State) : Host.Outcome State Fault Refusal :=
  .next (handleIncidentList p index s)

/-- CREDIT_LIST (R186). -/
def execCreditList (p : Port) (index : Nat) (s : State) : Host.Outcome State Fault Refusal :=
  .next (handleCreditList p index s)

/-- LANE_STATUS (R187). -/
def execLaneStatus (p : Port) (lane : Option Nat) (s : State) : Host.Outcome State Fault Refusal :=
  .next (handleLaneStatus p lane s)

/-- STATION_STATUS (R188). -/
def execStationStatus (p : Port) (station : Option Nat) (s : State) : Host.Outcome State Fault Refusal :=
  .next (handleStationStatus p station s)

/-- PLAN_LIST, summary form (R61). -/
def execPlanListSummary (p : Port) (s : State) : Host.Outcome State Fault Refusal := .next (handlePlanListSummary p s)

/-- PLAN_LIST, plan form (R62). -/
def execPlanListPlan (p : Port) (plan : Nat) (s : State) : Host.Outcome State Fault Refusal :=
  .next (handlePlanListPlan p plan s)

/-- PLAN_LIST, service form (R62). -/
def execPlanListService (p : Port) (code : Nat) (s : State) : Host.Outcome State Fault Refusal :=
  .next (handlePlanListService p code s)

/-- TALLY_READ (R171, R172). -/
def execTallyRead (p : Port) (part : Nat) (take clear : Bool) (s : State) : Host.Outcome State Fault Refusal :=
  .next (handleTallyRead p part take clear s)

end Sys2Proof.Machine
end

