-- ==== Sys2Proof/Machine/Plans.lean ====
section
/-! DEFINITION. The office's settings requests of the Sales Unit and the Tunnel Supervisor: DEFINE_PLAN, ERASE_PLAN,
PUBLISH, WITHDRAW, SET_SERVICE (chapter 3), SET_RESPONSE (R153) and ISSUE_CREDIT (R86). -/

namespace Sys2Proof.Machine

/-! ### The plan table and the plan store -/

/-- A change of one plan record. -/
def updatePlan (i : Fin 12) (f : Plan → Plan) (s : State) : State :=
  { s with sales.plans := tabSet s.sales.plans i (f (tabGet s.sales.plans i)) }

/-- The plan store with the run of one plan replaced: the lists of the plans below stay, those of the plans above move by
the change of length (R52, R53). -/
def repack (i : Fin 12) (list : List SvcLevel) (s : State) : List SvcLevel :=
  s.sales.store.take (planOffset s.sales.plans i) ++ list ++
    s.sales.store.drop (planOffset s.sales.plans i + (tabGet s.sales.plans i).len)

/-- The plan record and its run of the store replaced together (R52, R53). -/
def storePlan (i : Fin 12) (q : Plan) (list : List SvcLevel) (s : State) : State :=
  updatePlan i (fun _ => q) { s with sales.store := repack i list s }

/-! ### DEFINE_PLAN -/

/-- A name of at most 16 characters with codes 32 to 126 (R51). -/
def nameAllowed (name : List Nat) : Bool := decide (name.length ≤ 16) && name.all fun c => 32 ≤ c && c ≤ 126

/-- A list of 1 to 10 entries with codes 1 to 24 (R51). -/
def listAllowed (list : List RawPair) : Bool :=
  decide (1 ≤ list.length) && decide (list.length ≤ 10) && list.all fun q => (codeIndex q.code).isSome

/-- The levels of a list clamped into 1 to 4 (R51, R69). -/
def clampLevels (list : List RawPair) : List SvcLevel := list.map fun q => ⟨q.code, clampTo q.level 1 4⟩

/-- Some value appears more than once. -/
def hasRepeat : List Nat → Bool
  | [] => false
  | x :: xs => xs.contains x || hasRepeat xs

/-- The answer of an accepted DEFINE_PLAN: plan number, stored class, stored levels, offset, length and store count (R52;
log entry 10). -/
def defineFields (i : Fin 12) (s : State) : List Byte :=
  let q := tabGet s.sales.plans i
  let list := planList s i
  b1 (i.val + 1) ++ b1 q.cls ++ b1 list.length ++ (list.flatMap fun e => b1 e.level) ++
    b1 (planOffset s.sales.plans i) ++ b1 q.len ++ b1 s.sales.store.length

/-- The acceptance of DEFINE_PLAN (R52). -/
def definedPlan (i : Fin 12) (name : List Nat) (price cls : Nat) (list : List RawPair) (s : State) : State :=
  storePlan i
    { state := .draft, name := name, price := price, cls := clampTo cls 1 4, len := list.length } (clampLevels list) s

/-- DEFINE_PLAN: the six tests of R51, then R52. -/
def ownDefinePlan (plan : Nat) (name : List Nat) (price cls : Nat) (list : List RawPair) (s : State) :
    State × Answer :=
  if saving s then refuse .busy s
  else
    match planIndex plan with
    | none => refuse .badValue s
    | some i =>
      if (tabGet s.sales.plans i).state = .onSale then refuse .state s
      else if !(listAllowed list && nameAllowed name) then refuse .badValue s
      else if hasRepeat (list.map RawPair.code) then refuse .duplicate s
      else if Config.storeMax < s.sales.store.length - (tabGet s.sales.plans i).len + list.length then
        (s, { code := .full, fields := b1 s.sales.store.length })
      else
        let s' := definedPlan i name price cls list s
        (s', answerOk (defineFields i s'))

def handleDefinePlan (p : Port) (plan : Nat) (name : List Nat) (price cls : Nat) (list : List RawPair) (s : State) :
    State :=
  respond p .definePlan true (ownDefinePlan plan name price cls list) s

/-! ### ERASE_PLAN, PUBLISH, WITHDRAW -/

/-- The answer of ERASE_PLAN that erases: plan number and store count (R53). -/
def eraseFields (i : Fin 12) (s : State) : List Byte := b1 (i.val + 1) ++ b1 s.sales.store.length

/-- Plan number and state: the answer of PUBLISH and WITHDRAW (R54, R55), and of a request that finds the plan in the state
it would produce (R49; log entry 11). -/
def planStateFields (i : Fin 12) (st : PlanState) : List Byte := b1 (i.val + 1) ++ b1 (planStateCode st)

/-- ERASE_PLAN (R49, R53). -/
def ownErasePlan (plan : Nat) (s : State) : State × Answer :=
  if saving s then refuse .busy s
  else
    match planIndex plan with
    | none => refuse .badValue s
    | some i =>
      match (tabGet s.sales.plans i).state with
      | .onSale => refuse .state s
      | .empty => (s, answerOk (planStateFields i .empty))
      | .draft | .withdrawn =>
        let s' := storePlan i Plan.blank [] s
        (s', answerOk (eraseFields i s'))

def handleErasePlan (p : Port) (plan : Nat) (s : State) : State := respond p .erasePlan true (ownErasePlan plan) s

/-- A plan in another state of its life, its contents kept (R54, R55). -/
def setPlanState (i : Fin 12) (st : PlanState) (s : State) : State := updatePlan i (fun q => { q with state := st }) s

/-- PUBLISH (R49, R54). -/
def ownPublish (plan : Nat) (s : State) : State × Answer :=
  if saving s then refuse .busy s
  else
    match planIndex plan with
    | none => refuse .badValue s
    | some i =>
      match (tabGet s.sales.plans i).state with
      | .empty => refuse .state s
      | .onSale => (s, answerOk (planStateFields i .onSale))
      | .draft | .withdrawn => (setPlanState i .onSale s, answerOk (planStateFields i .onSale))

def handlePublish (p : Port) (plan : Nat) (s : State) : State := respond p .publish true (ownPublish plan) s

/-- WITHDRAW (R49, R55). -/
def ownWithdraw (plan : Nat) (s : State) : State × Answer :=
  if saving s then refuse .busy s
  else
    match planIndex plan with
    | none => refuse .badValue s
    | some i =>
      match (tabGet s.sales.plans i).state with
      | .empty | .draft => refuse .state s
      | .withdrawn => (s, answerOk (planStateFields i .withdrawn))
      | .onSale => (setPlanState i .withdrawn s, answerOk (planStateFields i .withdrawn))

def handleWithdraw (p : Port) (plan : Nat) (s : State) : State := respond p .withdraw true (ownWithdraw plan) s

/-! ### SET_SERVICE -/

/-- The price that a presence byte and a price field give: 0 absent, whatever the price field holds, 1 present (R199); any
other presence byte is an enumeration value outside its codes (log entry 14). -/
def priceOperand (presence price : Nat) : Option (Option Nat) :=
  match presence with
  | 0 => some none
  | 1 => some (some price)
  | _ => none

/-- A service table entry replaced (R59). -/
def setServiceEntry (c : Fin 24) (price : Option Nat) (limit : Nat) (s : State) : State :=
  { s with sales.services := tabSet s.sales.services c { price := price, limit := clampTo limit 1 4 } }

/-- SET_SERVICE (R59). -/
def ownSetService (code presence price limit : Nat) (s : State) : State × Answer :=
  if saving s then refuse .busy s
  else
    match codeIndex code, priceOperand presence price with
    | some c, some pr =>
      let s' := setServiceEntry c pr limit s
      (s', answerOk (serviceFields s' c))
    | _, _ => refuse .badValue s

def handleSetService (p : Port) (code presence price limit : Nat) (s : State) : State :=
  respond p .setService true (ownSetService code presence price limit) s

/-! ### SET_RESPONSE and ISSUE_CREDIT -/

/-- SET_RESPONSE (R153). -/
def ownSetResponse (kind cls : Nat) (s : State) : State × Answer :=
  if saving s then refuse .busy s
  else
    match kindOperand kind, classOperand cls with
    | some k, some c =>
      if allowedClass k c then
        ({ s with sup.response := s.sup.response.set k c },
          answerOk (b1 (incidentKindCode k) ++ b1 (classCode c)))
      else refuse .badValue s
    | _, _ => refuse .badValue s

def handleSetResponse (p : Port) (kind cls : Nat) (s : State) : State :=
  respond p .setResponse true (ownSetResponse kind cls) s

/-- ISSUE_CREDIT (R86). -/
def ownIssueCredit (value plan : Nat) (s : State) : State × Answer :=
  if value = 0 ∨ 65535 < value ∨ 12 < plan then refuse .badValue s
  else
    let r := issueCredit value none (optionalPlan plan) s
    (r.1, answerOk (b2 r.2.1 ++ b2 (orZero r.2.2)))

def handleIssueCredit (p : Port) (value plan : Nat) (s : State) : State :=
  respond p .issueCredit true (ownIssueCredit value plan) s

/-! ### The commands -/

/-- DEFINE_PLAN (R51, R52). -/
def execDefinePlan (p : Port) (plan : Nat) (name : List Nat) (price cls : Nat) (list : List RawPair) (s : State) :
    Host.Outcome State Fault Refusal :=
  .next (handleDefinePlan p plan name price cls list s)

/-- ERASE_PLAN (R53). -/
def execErasePlan (p : Port) (plan : Nat) (s : State) : Host.Outcome State Fault Refusal :=
  .next (handleErasePlan p plan s)

/-- PUBLISH (R54). -/
def execPublish (p : Port) (plan : Nat) (s : State) : Host.Outcome State Fault Refusal := .next (handlePublish p plan s)

/-- WITHDRAW (R55). -/
def execWithdraw (p : Port) (plan : Nat) (s : State) : Host.Outcome State Fault Refusal :=
  .next (handleWithdraw p plan s)

/-- SET_SERVICE (R59). -/
def execSetService (p : Port) (code presence price limit : Nat) (s : State) : Host.Outcome State Fault Refusal :=
  .next (handleSetService p code presence price limit s)

/-- SET_RESPONSE (R153). -/
def execSetResponse (p : Port) (kind cls : Nat) (s : State) : Host.Outcome State Fault Refusal :=
  .next (handleSetResponse p kind cls s)

/-- ISSUE_CREDIT (R86). -/
def execIssueCredit (p : Port) (value plan : Nat) (s : State) : Host.Outcome State Fault Refusal :=
  .next (handleIssueCredit p value plan s)

end Sys2Proof.Machine
end

