-- ==== Sys2Proof/Machine/Queue.lean ====
section
/-! DEFINITION. The shared operations of the Tracking Unit and the Entrance Unit on the tunnel queue: appending (R1, R2),
leaving (R4, R47), the pulse (R5, R6), the missing test (R15), settling (R9), matching and correction (R11, R12, R14), the
exit removal (R17 to R20), length measurement (R43 to R46). -/

namespace Sys2Proof.Machine

/-! ### Records -/

/-- The record that carries a tag. -/
def carOf (s : State) (tag : Nat) : Option Car := s.trk.queue.find? fun car => car.tag == tag

/-- A change of the record that carries a tag. -/
def updateCar (tag : Nat) (f : Car → Car) (s : State) : State :=
  mapQueue (fun car => if car.tag = tag then f car else car) s

/-- The lane of a ticket; none for CONSOLE (R45, R46). -/
def laneOfTicket : TicketLane → Option Lane
  | .lane l => some l
  | .console => none

/-- The lane that an incident about a car carries (R45, R46). -/
def laneOfCar (car : Car) : Option Lane := car.ticket.bind fun t => laneOfTicket t.lane

/-- The record that the Tracking Unit creates (R1), with its schedule (R100). -/
def newCar (s : State) (tag : Nat) (ticket : Option Ticket) : Car :=
  { tag := tag, front := 0, length := none, ticket := ticket, cls := (ticket.map Ticket.cls).getD 4,
    passed := ⟨false, false, false, false, false⟩, tailgate := false,
    schedule := match ticket with
      | none => []
      | some t => buildSchedule s (fun _ => true) t.list }

/-- The tag that an append allocates and the counter after it (R2). -/
def nextTagOf (s : State) : Nat × Nat := allocate 255 (s.trk.queue.map Car.tag) s.trk.nextTag

/-- An append (R1 to R3), given room: the record joins the tail and the stations are tested (R100). -/
def appendCar (ticket : Option Ticket) (s : State) : State :=
  let n := nextTagOf s
  testArmAll { s with trk.queue := s.trk.queue ++ [newCar s n.1 ticket], trk.nextTag := n.2 }

/-- The new record becomes the measured record (R39, R40, R43). R43 gives the clear-edge count no value before the first
clear edge; it is held as 0 until then, and nothing reads it before (log entry 23). -/
def startMeasure (tag : Nat) (s : State) : State :=
  { s with ent.measured := some { tag := tag, entry := 0, clearEdge := 0 } }

/-- A measurement of a record that has left is abandoned (R47). -/
def abandonMeasure (tag : Nat) (m : Option Measure) : Option Measure :=
  match m with
  | some x => if x.tag = tag then none else some x
  | none => none

/-- A record out of the queue, with the exit match and the measurement that named it forgotten (R4, R47). -/
def dropRecord (tag : Nat) (s : State) : State :=
  { s with
    trk.queue := s.trk.queue.filter fun car => car.tag != tag
    trk.exitMatch := if s.trk.exitMatch = some tag then none else s.trk.exitMatch
    ent.measured := abandonMeasure tag s.ent.measured }

/-- A draining tunnel whose queue is empty goes to STOPPED (R145). -/
def drainIfEmpty (s : State) : State :=
  if s.trk.queue.isEmpty = true ∧ s.sup.tunnel = .draining then changeTunnel .stopped .queueEmpty s else s

/-- A record leaves the tunnel queue: the stations it held entries for are tested, and DRAINING may end (R4, R97, R105,
R145). -/
def leaveQueue (car : Car) (s : State) : State :=
  drainIfEmpty (afterEnded (car.schedule.map Entry.station) (dropRecord car.tag s))

/-! ### The pulse -/

/-- The fronts after a pulse: each rises by 1, the head holds at 65535 and every other one below the front of the record
ahead (R5). -/
def advanceFronts (ahead : Option Nat) : List Car → List Car
  | [] => []
  | car :: rest =>
    let top := match ahead with
      | none => Config.positionMax
      | some f => f - 1
    let front := min (car.front + 1) top
    { car with front := front } :: advanceFronts (some front) rest

/-- The position of an eye; none for a check eye that is not fitted (R7). -/
def eyePosition (c : Constants) : Eye → Option Nat
  | .ce1 => if c.ce1 = 0 then none else some c.ce1
  | .ce2 => if c.ce2 = 0 then none else some c.ce2
  | .ce3 => if c.ce3 = 0 then none else some c.ce3
  | .ce4 => if c.ce4 = 0 then none else some c.ce4
  | .exit => some c.tunnelLen

/-- The eye is added to a record's eyes passed. -/
def markPassed (k : Eye) (tag : Nat) (s : State) : State :=
  updateCar tag (fun car => { car with passed := car.passed.set k true }) s

/-- The missing test of one record at one eye, given its front before the pulse or the correction (R15). -/
def missingTest (k : Eye) (tag old : Nat) (s : State) : State :=
  match eyePosition s.sup.consts k, carOf s tag with
  | some pos, some car =>
    if old ≤ pos + s.sup.consts.eyeTol ∧ pos + s.sup.consts.eyeTol < car.front ∧ car.passed.get k = false then
      raiseIncident { plainRaise .carMissing with eye := some k, tag := some tag } (markPassed k tag s)
    else s
  | _, _ => s

/-- The missing tests of a pulse, eye by eye and oldest record first (R15). -/
def missingTests (olds : List (Nat × Nat)) (s : State) : State :=
  allEyes.foldl (fun s k => olds.foldl (fun s q => missingTest k q.1 q.2 s) s) s

/-- The outcome of an exit (R18). -/
def exitOutcome (car : Car) : ExitOutcome :=
  match car.ticket with
  | none => .unticketed
  | some _ => if car.schedule.all (fun e => e.state == .done) then .complete else .short

/-- The credit of an exit: a ticketed car with a MISSED entry and a paid amount above 0 (R19, R84). -/
def exitCredit (car : Car) (s : State) : State × Option Nat :=
  match car.ticket with
  | none => (s, none)
  | some t =>
    if car.schedule.any (fun e => e.state matches .missed _) && 0 < t.paid then
      let r := issueCredit t.paid (some t.sale) (some t.plan) s
      (r.1, some r.2.1)
    else (s, none)

/-- The CAR_EXIT notice of a record (R20, R163). -/
def carExitNotice (car : Car) (outcome : ExitOutcome) (credit : Option Nat) : Notice :=
  .carExit car.tag (car.ticket.map Ticket.sale) (car.ticket.map Ticket.plan) outcome credit

/-- The schedule of a leaving record is finalised and its stations follow (R105). -/
def finalise (car : Car) (s : State) : State :=
  afterEnded (car.schedule.map Entry.station) (updateCar car.tag finaliseCar s)

/-- The exit removal of a record (R17 to R20). -/
def removeAtExit (car : Car) (s : State) : State :=
  let gone := finaliseCar car
  let s1 := updateTally (tallyExit (exitOutcome gone)) (finalise car s)
  let q := exitCredit gone s1
  leaveQueue gone (notifyBoth (carExitNotice gone (exitOutcome gone) q.2) q.1)

/-- The removal that completes the exit eye's settling, where an exit match is present (R17). -/
def exitRemoval (s : State) : State :=
  match s.trk.exitMatch.bind (carOf s) with
  | some car => removeAtExit car s
  | none => s

/-- The debounce state of an eye. -/
def setEye (k : Eye) (d : Option Debounce) (s : State) : State := { s with trk.eyes := s.trk.eyes.set k d }

/-- A pulse at an eye that is settling (R9). -/
def settleEye (s : State) (k : Eye) : State :=
  match s.trk.eyes.get k with
  | some (.settling n) =>
    if s.sup.consts.clearMin ≤ n + 1 then
      let s' := setEye k (some .armed) s
      if k = .exit then exitRemoval s' else s'
    else setEye k (some (.settling (n + 1))) s
  | some .armed | some .blocked | none => s

/-- What the Tracking Unit does at a pulse, in the order of R6. -/
def trackPulse (s : State) : State :=
  allEyes.foldl settleEye
    (missingTests (s.trk.queue.map fun car => (car.tag, car.front))
      { s with trk.queue := advanceFronts none s.trk.queue })

/-! ### Matching and correction -/

/-- |front - pos|. -/
def distance (pos : Nat) (car : Car) : Nat := (car.front - pos) + (pos - car.front)

/-- The record is a candidate at the eye: its front lies in the tolerance window and it has not passed the eye (R11). -/
def isCandidate (c : Constants) (k : Eye) (pos : Nat) (car : Car) : Bool :=
  pos ≤ car.front + c.eyeTol && car.front ≤ pos + c.eyeTol && !car.passed.get k

/-- The nearest of a list of records oldest first; the older one of two at the same distance (R11). -/
def nearest (pos : Nat) : List Car → Option Car
  | [] => none
  | car :: rest =>
    match nearest pos rest with
    | none => some car
    | some other => if distance pos other < distance pos car then some other else some car

/-- The record that a new blocking edge is matched to (R11). -/
def candidate (s : State) (k : Eye) (pos : Nat) : Option Car :=
  nearest pos (s.trk.queue.filter (isCandidate s.sup.consts k pos))

/-- The corrected front: the eye's position, kept below the record ahead and above the record behind (R12). -/
def correctedFront (pos : Nat) (ahead behind : Option Nat) : Nat :=
  let upper := match ahead with
    | none => Config.positionMax
    | some f => f - 1
  let lowered := min pos upper
  match behind with
  | none => lowered
  | some f => max lowered (f + 1)

/-- The queue with the front of the record that carries a tag corrected (R12). -/
def correctQueue (tag pos : Nat) (ahead : Option Nat) : List Car → List Car
  | [] => []
  | car :: rest =>
    if car.tag = tag then { car with front := correctedFront pos ahead (rest.head?.map Car.front) } :: rest
    else car :: correctQueue tag pos (some car.front) rest

/-- The exit match is noted where the eye is the exit eye (R16). -/
def noteMatch (k : Eye) (tag : Nat) (s : State) : State :=
  if k = .exit then { s with trk.exitMatch := some tag } else s

/-- The front of the record that carries a tag, 0 where none does. -/
def frontOf (s : State) (tag : Nat) : Nat := ((carOf s tag).map Car.front).getD 0

/-- The record that carries a tag is the newest. -/
def isNewest (s : State) (tag : Nat) : Bool := (s.trk.queue.getLast?.map Car.tag) == some tag

/-- The match and correction of a record at an eye: eyes passed, corrected front, exit match, missing tests at the other
eyes, the sequencer's judgement, and the arbiter where the record is the newest (R11, R12, R16, R29). -/
def correctCar (k : Eye) (pos : Nat) (car : Car) (s : State) : State :=
  let s1 := markPassed k car.tag s
  let s2 := noteMatch k car.tag { s1 with trk.queue := correctQueue car.tag pos none s1.trk.queue }
  let s3 := allEyes.foldl (fun s j => if j = k then s else missingTest j car.tag car.front s) s2
  let s4 := judgeCorrection car.tag (decide (car.front < frontOf s2 car.tag)) s3
  if isNewest s4 car.tag then arbitrate s4 else s4

/-- A new blocking edge at an eye: a match, or a phantom (R11, R14). -/
def matchEye (k : Eye) (s : State) : State :=
  match eyePosition s.sup.consts k with
  | none => s
  | some pos =>
    match candidate s k pos with
    | some car => correctCar k pos car s
    | none => raiseIncident { plainRaise .phantom with eye := some k } s

/-- A blocking edge at an eye: new in ARMED, a continuation in SETTLING, ignored where the eye is not fitted (R7, R8). -/
def eyeBlocked (k : Eye) (s : State) : State :=
  match s.trk.eyes.get k with
  | some .armed => matchEye k (setEye k (some .blocked) s)
  | some (.settling _) => setEye k (some .blocked) s
  | some .blocked | none => s

/-- A clear edge at an eye (R8). -/
def eyeCleared (k : Eye) (s : State) : State :=
  match s.trk.eyes.get k with
  | some .blocked => setEye k (some (.settling 0)) s
  | some .armed | some (.settling _) | none => s

/-! ### Length measurement -/

/-- TAILGATE for the measured record, once for a record (R45). -/
def raiseTailgate (tag : Nat) (s : State) : State :=
  match carOf s tag with
  | some car =>
    if car.tailgate then s
    else
      raiseIncident { plainRaise .tailgate with tag := some tag, lane := laneOfCar car }
        (updateCar tag (fun car => { car with tailgate := true }) s)
  | none => s

/-- The entry count of the measured record at a pulse, and TAILGATE at LEN_MAX + 1 while the eye is BLOCKED (R43, R45). -/
def measurePulse (s : State) : State :=
  match s.ent.measured with
  | none => s
  | some m =>
    if s.ent.eye = .armed then s
    else
      let n := satAdd Config.positionMax m.entry 1
      let s' := { s with ent.measured := some { m with entry := n } }
      if s.ent.eye = .blocked ∧ n = s.sup.consts.lenMax + 1 ∧ m.entry < n then raiseTailgate m.tag s' else s'

/-- A record's length is set, and its windows are judged (R44, R90). -/
def setLength (tag len : Nat) (s : State) : State :=
  judgeLength tag (updateCar tag (fun car => { car with length := some len }) s)

/-- A measurement of less than LEN_MIN (R46). -/
def shortObject (car : Car) (s : State) : State :=
  let raise := { plainRaise .shortObject with tag := some car.tag, lane := laneOfCar car }
  match car.ticket with
  | none => raiseIncident raise (leaveQueue car s)
  | some _ => raiseIncident raise (setLength car.tag s.sup.consts.lenMin s)

/-- The completion of the measurement at the entrance eye's re-arming (R44, R46). -/
def completeMeasure (s : State) : State :=
  match s.ent.measured with
  | none => s
  | some m =>
    let s' := { s with ent.measured := none }
    match carOf s m.tag with
    | none => s'
    | some car =>
      let len := min m.clearEdge Config.lengthMax
      if s.sup.consts.lenMin ≤ len then setLength m.tag len s' else shortObject car s'

/-- A pulse at the entrance eye that is settling (R37, R44). -/
def settleEntrance (s : State) : State :=
  match s.ent.eye with
  | .settling n =>
    if s.sup.consts.clearMin ≤ n + 1 then completeMeasure { s with ent.eye := .armed }
    else { s with ent.eye := .settling (n + 1) }
  | .armed | .blocked => s

/-- What the Entrance Unit does at a pulse (R6, R29, R37, R43). -/
def entrancePulse (s : State) : State := arbitrate (settleEntrance (measurePulse s))

/-- The pulse counted into the gate window (R116). -/
def countPulse (s : State) : State := { s with pace.gate := satAdd 1023 s.pace.gate 1 }

end Sys2Proof.Machine
end

