-- ==== Sys2Proof/Machine/Sales.lean ====
section
/-! DEFINITION. The sales requests (chapter 4): QUOTE, SELL, VOID, ADD_SERVICE and the two forms of ATTACH. -/

namespace Sys2Proof.Machine

/-! ### Pricing a purchase (R68, R69) -/

/-- A purchase that passes tests 2 to 6 of R68, priced as R69 requires. -/
structure Priced where
  plan : Fin 12
  addOns : List SvcLevel
  subtotal : Nat
  credit : Nat
  total : Nat
  cls : Nat
deriving DecidableEq, Repr

/-- The add-on price of a code, absent where the service is not sold as an add-on (R58). -/
def addOnPrice (s : State) (code : Nat) : Option Nat := (codeIndex code).bind fun c => (tabGet s.sales.services c).price

/-- The sum of the add-on prices of a list of codes. -/
def addOnTotal (s : State) (codes : List Nat) : Nat := (codes.map fun c => (addOnPrice s c).getD 0).sum

/-- The credit with a number. -/
def creditOf (s : State) (n : Nat) : Option Credit := s.sales.credits.find? fun c => c.number == n

/-- A credit number is given, and no listed credit carries it (R68). -/
def creditMissing (s : State) (n : Nat) : Bool := n != 0 && (creditOf s n).isNone

/-- The credit applied: the value of the named credit lowered to the subtotal, 0 if none is named (R69). -/
def creditApplied (s : State) (n subtotal : Nat) : Nat :=
  if n = 0 then 0 else min (((creditOf s n).map Credit.value).getD 0) subtotal

/-- The price of a purchase (R69). -/
def priceOfPurchase (i : Fin 12) (buy : Purchase) (s : State) : Priced :=
  let codes := buy.addOns.map RawPair.code
  let subtotal := (tabGet s.sales.plans i).price + addOnTotal s codes
  let credit := creditApplied s buy.credit subtotal
  { plan := i, addOns := clampLevels buy.addOns, subtotal := subtotal, credit := credit, total := subtotal - credit,
    cls := lowestClass s (saleClass s i) codes }

/-- Tests 2 to 6 of R68 in order: a refusal, or the price. -/
def pricePurchase (buy : Purchase) (s : State) : Except Result Priced :=
  let codes := buy.addOns.map RawPair.code
  match planIndex buy.plan with
  | none => .error .badValue
  | some i =>
    if 2 < codes.length ∨ codes.any (fun c => (codeIndex c).isNone) = true then .error .badValue
    else if (tabGet s.sales.plans i).state ≠ .onSale then .error .state
    else if codes.any fun c => (addOnPrice s c).isNone then .error .badValue
    else if codes.any (fun c => ((planList s i).map SvcLevel.code).contains c) || hasRepeat codes then
      .error .duplicate
    else if creditMissing s buy.credit then .error .notFound
    else .ok (priceOfPurchase i buy s)

/-- QUOTE (R69). -/
def quoteAnswer (buy : Purchase) (s : State) : Answer :=
  match pricePurchase buy s with
  | .error r => refusal r
  | .ok q => answerOk (b4 q.subtotal ++ b4 q.credit ++ b4 q.total ++ b1 q.cls)

def handleQuote (p : Port) (buy : Purchase) (s : State) : State :=
  respond p .quote true (reading (quoteAnswer buy)) s

/-! ### Making a sale (R65, R70, R81) -/

/-- The sale numbers of the tickets held: in the lane queues and in the car records (R65). -/
def heldSales (s : State) : List Nat :=
  (s.sales.lanes.a ++ s.sales.lanes.b ++ s.sales.lanes.c).map Ticket.sale ++
    s.trk.queue.filterMap fun car => car.ticket.map Ticket.sale

/-- The number that a sale takes and the sale counter after it (R65). -/
def saleNumber (s : State) : Nat × Nat := allocate 9999 (heldSales s) s.sales.saleCounter

/-- The ticket of a sale (R70, R81). -/
def ticketOf (sale : Nat) (lane : TicketLane) (buy : Purchase) (q : Priced) (ref : Nat) (s : State) : Ticket :=
  { sale := sale, lane := lane, plan := q.plan.val + 1, list := planList s q.plan ++ q.addOns, cls := q.cls,
    paid := q.total, credit := if buy.credit = 0 then none else some buy.credit, ref := ref,
    addOns := q.addOns.length }

/-- What the tally set counts at a sale (R166). -/
def tallySale (lane : TicketLane) (buy : Purchase) (q : Priced) (addOnRevenue : Nat) (t : Tally) : Tally :=
  let t := tallyAddOns q.addOns.length addOnRevenue (tallyRevenue q.plan q.total (tallyLane lane (tallySold q.plan t)))
  { t with redeemed := raiseCount t.redeemed (if buy.credit = 0 then 0 else 1) }

/-- The sale of a ticket, apart from the place the ticket goes to: the counter, the credit and the tallies (R70, R81). -/
def sellTicket (lane : TicketLane) (buy : Purchase) (q : Priced) (s : State) : State :=
  updateTally (tallySale lane buy q (addOnTotal s (q.addOns.map SvcLevel.code)))
    { s with
      sales.saleCounter := (saleNumber s).2
      sales.credits := s.sales.credits.filter fun c => c.number != buy.credit }

/-- A change of a lane queue. -/
def setLane (l : Lane) (q : List Ticket) (s : State) : State := { s with sales.lanes := s.sales.lanes.set l q }

/-- An accepted SELL: the ticket joins the tail of its lane's queue, the last-sale record follows, and the Entrance Unit
is told (R66, R67, R70). -/
def acceptSale (l : Lane) (buy : Purchase) (q : Priced) (ref : Nat) (s : State) : State :=
  let t := ticketOf (saleNumber s).1 (.lane l) buy q ref s
  let s1 := setLane l (s.sales.lanes.get l ++ [t]) (sellTicket (.lane l) buy q s)
  arbitrate { s1 with sales.lastSale := s1.sales.lastSale.set l (some { sale := t.sale, ref := ref }) }

/-- SELL (R68, R70). -/
def ownSell (p : Port) (lane : Option Nat) (buy : Purchase) (ref : Nat) (s : State) : State × Answer :=
  match laneOperand p lane with
  | none => refuse .badValue s
  | some l =>
    match pricePurchase buy s with
    | .error r => refuse r s
    | .ok q =>
      if Config.laneMax ≤ (s.sales.lanes.get l).length then refuse .full s
      else (acceptSale l buy q ref s, answerOk (b2 (saleNumber s).1 ++ b4 q.total ++ b1 q.cls))

def handleSell (p : Port) (lane : Option Nat) (buy : Purchase) (ref : Nat) (s : State) : State :=
  respond p .sell (laneForm p lane) (driven (ownSell p lane buy ref)) s

/-! ### VOID (R72) -/

/-- The ticket of a lane queue that carries a sale number. -/
def queuedTicket (s : State) (l : Lane) (sale : Nat) : Option Ticket :=
  (s.sales.lanes.get l).find? fun t => t.sale == sale

/-- The lane queue that holds the ticket, among the lanes the port may name (R72). -/
def voidLane (p : Port) (s : State) (sale : Nat) : Option Lane :=
  match laneOfPort p with
  | some l => if (queuedTicket s l sale).isSome then some l else none
  | none => allLanes.find? fun l => (queuedTicket s l sale).isSome

/-- A ticket leaves a lane queue; when it was the head, a grant of the lane is withdrawn (R66, R72). -/
def takeTicket (l : Lane) (t : Ticket) (s : State) : State :=
  let s' := setLane l ((s.sales.lanes.get l).filter fun x => x.sale != t.sale) s
  if (s.sales.lanes.get l).head? = some t then withdrawLane l .headRemoved s' else s'

/-- VOID (R72). -/
def ownVoid (p : Port) (sale : Nat) (s : State) : State × Answer :=
  match voidLane p s sale with
  | none => refuse .notFound s
  | some l =>
    match queuedTicket s l sale with
    | none => refuse .notFound s
    | some t => (takeTicket l t (updateTally (tallyVoid t.paid) s), answerOk (b2 t.sale ++ b4 t.paid))

def handleVoid (p : Port) (sale : Nat) (s : State) : State := respond p .void true (driven (ownVoid p sale)) s

/-! ### ADD_SERVICE (R74 to R76) -/

/-- Where a held ticket is: a lane queue, or a car record (R74). -/
inductive TicketPlace where
  | queued (l : Lane) (t : Ticket)
  | bound (car : Car) (t : Ticket)
deriving DecidableEq, Repr

/-- The car record whose ticket carries a sale number. -/
def carOfSale (s : State) (sale : Nat) : Option Car :=
  s.trk.queue.find? fun car => (car.ticket.map Ticket.sale) == some sale

/-- The held ticket that carries a sale number. -/
def ticketPlace (s : State) (sale : Nat) : Option TicketPlace :=
  match allLanes.findSome? fun l => (queuedTicket s l sale).map (TicketPlace.queued l) with
  | some q => some q
  | none => (carOfSale s sale).bind fun car => car.ticket.map (TicketPlace.bound car)

/-- The ticket in its place. -/
def TicketPlace.ticket : TicketPlace → Ticket
  | .queued _ t => t
  | .bound _ t => t

/-- The held ticket that a port may name: any from the console, its own lane's from a lane port (R74). -/
def namedTicket (p : Port) (s : State) (sale : Nat) : Option TicketPlace :=
  match ticketPlace s sale with
  | none => none
  | some q =>
    match laneOfPort p with
    | none => some q
    | some l => if q.ticket.lane = .lane l then some q else none

/-- The lowest-numbered serving station whose commit point the front has reached (R75). -/
def reachedStation (s : State) (code front : Nat) : Option (Fin 16) :=
  (servingStations s code).find? fun i => !belowCommit s front i

/-- The ticket with an add-on (R76). -/
def extendTicket (code level price limit : Nat) (t : Ticket) : Ticket :=
  { t with
    list := t.list ++ [⟨code, level⟩]
    paid := satAdd Config.amountMax t.paid price
    addOns := t.addOns + 1
    cls := min t.cls limit }

/-- The car record of a bound ticket with an add-on: the ticket, the entries of the serving stations, and the class where
it fell (R76). -/
def extendCar (s : State) (code level : Nat) (t : Ticket) (car : Car) : Car :=
  { car with
    ticket := some t
    schedule := ((servingStations s code).map (newEntry level)).foldl (fun l e => insertEntry s e l) car.schedule
    cls := if t.cls < car.cls then t.cls else car.cls }

/-- The ticket with the add-on in its place, and the stations tested where it is bound (R76). -/
def placeTicket (place : TicketPlace) (code level : Nat) (t : Ticket) (s : State) : State :=
  match place with
  | .queued l _ => setLane l (updateFirst (fun x => x.sale == t.sale) (fun _ => t) (s.sales.lanes.get l)) s
  | .bound car _ => testArmAll (updateCar car.tag (extendCar s code level t) s)

/-- The revenue that an add-on brings to its ticket's plan (R167). -/
def tallyPlanOf (plan n : Nat) (t : Tally) : Tally :=
  match planIndex plan with
  | some i => tallyRevenue i n t
  | none => t

/-- The acceptance of ADD_SERVICE (R76). -/
def acceptAddOn (place : TicketPlace) (code level price : Nat) (s : State) : State × Answer :=
  let t := extendTicket code (clampTo level 1 4) price (classLimit s code) place.ticket
  (placeTicket place code (clampTo level 1 4) t
      (updateTally (fun x => tallyPlanOf t.plan price (tallyAddOns 1 price x)) s),
    answerOk (b2 t.sale ++ b2 price ++ b4 t.paid ++ b1 t.cls ++ b1 t.list.length))

/-- The commit-point test of a ticket in its place: the station that fails it (R75). -/
def lateStation (s : State) (code : Nat) : TicketPlace → Option (Fin 16)
  | .queued _ _ => none
  | .bound car _ => reachedStation s code car.front

/-- ADD_SERVICE (R74). -/
def ownAddService (p : Port) (sale code level : Nat) (s : State) : State × Answer :=
  match namedTicket p s sale with
  | none => refuse .notFound s
  | some place =>
    match addOnPrice s code with
    | none => refuse .badValue s
    | some price =>
      if (place.ticket.list.map SvcLevel.code).contains code then refuse .duplicate s
      else if Config.ticketMax ≤ place.ticket.list.length then refuse .full s
      else
        match lateStation s code place with
        | some i => (s, { code := .tooLate, fields := b1 i.val })
        | none => acceptAddOn place code level price s

def handleAddService (p : Port) (sale code level : Nat) (s : State) : State :=
  respond p .addService true (driven (ownAddService p sale code level)) s

/-! ### ATTACH (R78 to R81) -/

/-- The serving stations of a ticket's codes, once for each code. -/
def ticketStations (s : State) (t : Ticket) : List (Fin 16) := t.list.flatMap fun q => servingStations s q.code

/-- The number of omitted stations: those whose commit point the front has reached (R79). -/
def omittedCount (s : State) (front : Nat) (t : Ticket) : Nat :=
  ((ticketStations s t).filter fun i => !belowCommit s front i).length

/-- A ticket bound to a record, with a partial schedule (R79). -/
def bindTicket (car : Car) (t : Ticket) (s : State) : State :=
  testArmAll (updateCar car.tag (fun c =>
    { c with ticket := some t, cls := t.cls, schedule := buildSchedule s (belowCommit s car.front) t.list }) s)

/-- The answer of ATTACH: tag, sale number, omitted stations, class (R79). -/
def attachFields (car : Car) (t : Ticket) (s : State) : List Byte :=
  b1 car.tag ++ b2 t.sale ++ b1 (omittedCount s car.front t) ++ b1 t.cls

/-- The record that ATTACH names: the two tests of R78. -/
def attachCar (tag : Nat) (s : State) : Except Result Car :=
  match carOf s tag with
  | none => .error .notFound
  | some car => if car.ticket.isSome then .error .state else .ok car

/-- ATTACH, lane form (R80). -/
def ownAttachLane (tag lane : Nat) (s : State) : State × Answer :=
  match attachCar tag s with
  | .error r => refuse r s
  | .ok car =>
    match laneOfByte lane with
    | none => refuse .badValue s
    | some l =>
      match s.sales.lanes.get l with
      | [] => refuse .notFound s
      | t :: rest =>
        (withdrawLane l .headRemoved (bindTicket car t (setLane l rest s)), answerOk (attachFields car t s))

def handleAttachLane (p : Port) (tag lane : Nat) (s : State) : State :=
  respond p .attach true (driven (ownAttachLane tag lane)) s

/-- ATTACH, new-sale form (R81). -/
def ownAttachNewSale (tag : Nat) (buy : Purchase) (ref : Nat) (s : State) : State × Answer :=
  match attachCar tag s with
  | .error r => refuse r s
  | .ok car =>
    match pricePurchase buy s with
    | .error r => refuse r s
    | .ok q =>
      let t := ticketOf (saleNumber s).1 .console buy q ref s
      (bindTicket car t (sellTicket .console buy q s), answerOk (attachFields car t s ++ b4 q.total))

def handleAttachNewSale (p : Port) (tag : Nat) (buy : Purchase) (ref : Nat) (s : State) : State :=
  respond p .attach true (driven (ownAttachNewSale tag buy ref)) s

/-! ### The commands -/

/-- QUOTE (R68, R69). -/
def execQuote (p : Port) (buy : Purchase) (s : State) : Host.Outcome State Fault Refusal := .next (handleQuote p buy s)

/-- SELL (R68 to R70). -/
def execSell (p : Port) (lane : Option Nat) (buy : Purchase) (ref : Nat) (s : State) :
    Host.Outcome State Fault Refusal :=
  .next (handleSell p lane buy ref s)

/-- VOID (R72). -/
def execVoid (p : Port) (sale : Nat) (s : State) : Host.Outcome State Fault Refusal := .next (handleVoid p sale s)

/-- ADD_SERVICE (R74 to R76). -/
def execAddService (p : Port) (sale code level : Nat) (s : State) : Host.Outcome State Fault Refusal :=
  .next (handleAddService p sale code level s)

/-- ATTACH, lane form (R78 to R80). -/
def execAttachLane (p : Port) (tag lane : Nat) (s : State) : Host.Outcome State Fault Refusal :=
  .next (handleAttachLane p tag lane s)

/-- ATTACH, new-sale form (R78, R79, R81). -/
def execAttachNewSale (p : Port) (tag : Nat) (buy : Purchase) (ref : Nat) (s : State) :
    Host.Outcome State Fault Refusal :=
  .next (handleAttachNewSale p tag buy ref s)

end Sys2Proof.Machine
end

