-- ==== Sys2Proof/Machine/Control.lean ====
section
/-! DEFINITION. The console's operation requests on lanes and incidents and the tunnel control requests (chapters 2, 6 and
8): ACK_INCIDENT, RESTART, LANE_RESET, LANE_ENABLE, LANE_DISABLE, TUNNEL_CLEAR, CLAIM, YIELD, OPEN, DRAIN, STOP, PAUSE,
RESUME, FORCE_SPEED and RELEASE_SPEED. -/

namespace Sys2Proof.Machine

/-! ### Tunnel states -/

/-- The tunnel state and the target mode, as OPEN, DRAIN and RESTART answer them (R142, R144, R151; log entry 10). -/
def tunnelFields (s : State) : List Byte := b1 (tunnelCode s.sup.tunnel) ++ b1 (targetByte s.sup.tunnel)

/-- The tunnel state and the pause reasons, as PAUSE and RESUME answer them (R147, R149; log entry 10). -/
def pauseFields (s : State) : List Byte :=
  b1 (tunnelCode s.sup.tunnel) ++ b1 (reasonFlags s.sup.manual (pauseListed s))

/-- Another target mode in the state held (R142, R144). -/
def setTunnel (t : Tunnel) (s : State) : State := { s with sup.tunnel := t }

/-- The MANUAL flag. -/
def setManual (x : Bool) (s : State) : State := { s with sup.manual := x }

/-- A test for control before an owner that only the holder may use (R162). -/
def holderOnly (p : Port) (owner : State → State × Answer) (s : State) : State × Answer :=
  if holdsControl s p then owner s else refuse .noControl s

/-- The console needs no control for PAUSE and RESUME, the office does (R147, R149). -/
def holderOrConsole (p : Port) (owner : State → State × Answer) (s : State) : State × Answer :=
  if p = .p0 ∨ holdsControl s p = true then owner s else refuse .noControl s

/-! ### OPEN, DRAIN, STOP -/

/-- The input of an eye is blocked, counting a check eye only where it is fitted (R142). -/
def eyeInputBlocked (s : State) (k : Eye) : Bool := (eyePosition s.sup.consts k).isSome && s.inputs.eyes.get k

/-- The entrance eye, a fitted check eye or the exit eye has its input blocked (R142). -/
def anyEyeBlocked (s : State) : Bool := s.inputs.entrance || allEyes.any (eyeInputBlocked s)

/-- OPEN from STOPPED with every eye clear (R142). -/
def openStopped (s : State) : State :=
  changeTunnel (if pauseListed s then .paused .running else .starting .running) (.request .openTunnel) s

/-- A state answered OK with the tunnel state and the target mode. -/
def okTunnel (s : State) : State × Answer := (s, answerOk (tunnelFields s))

/-- OPEN (R142; log entry 18 for an open loop in STOPPED). -/
def ownOpen (s : State) : State × Answer :=
  match s.sup.tunnel with
  | .stopped =>
    if anyEyeBlocked s then refuse .occupied s
    else if s.inputs.estopClosed then okTunnel (openStopped s)
    else refuse .state s
  | .starting _ => okTunnel (setTunnel (.starting .running) s)
  | .paused _ => okTunnel (setTunnel (.paused .running) s)
  | .draining => okTunnel (changeTunnel .running (.request .openTunnel) s)
  | .running => okTunnel s
  | .halted _ => refuse .state s

def handleOpen (p : Port) (s : State) : State := respond p .openTunnel true (driven (holderOnly p ownOpen)) s

/-- DRAIN (R144). -/
def ownDrain (s : State) : State × Answer :=
  match s.sup.tunnel with
  | .running =>
    okTunnel (changeTunnel (if s.trk.queue.isEmpty then .stopped else .draining) (.request .drain) s)
  | .starting _ => okTunnel (setTunnel (.starting .draining) s)
  | .paused _ => okTunnel (setTunnel (.paused .draining) s)
  | .draining => okTunnel s
  | .stopped | .halted _ => refuse .state s

def handleDrain (p : Port) (s : State) : State := respond p .drain true (driven (holderOnly p ownDrain)) s

/-- A HALT-class record is listed or the E-stop loop is open: the test of STOP and RESTART in HALTED (R146, R151). -/
def haltStands (s : State) : Bool := haltListed s || !s.inputs.estopClosed

/-- STOP once the tests of HALTED have passed (R146). -/
def stopIfEmpty (s : State) : State × Answer :=
  if s.trk.queue.isEmpty then (changeTunnel .stopped (.request .stop) (setManual false s), answerOk [])
  else refuse .occupied s

/-- STOP (R146). -/
def ownStop (s : State) : State × Answer :=
  match s.sup.tunnel with
  | .stopped => (s, answerOk [])
  | .halted _ => if haltStands s then refuse .state s else stopIfEmpty s
  | .starting _ | .running | .draining | .paused _ => stopIfEmpty s

def handleStop (p : Port) (s : State) : State := respond p .stop true (driven (holderOnly p ownStop)) s

/-! ### PAUSE, RESUME -/

/-- A state answered OK with the tunnel state and the pause reasons. -/
def okPause (s : State) : State × Answer := (s, answerOk (pauseFields s))

/-- PAUSE (R147). -/
def ownPause (s : State) : State × Answer :=
  match s.sup.tunnel with
  | .running | .draining | .starting _ => okPause (pauseTunnel (.request .pause) (setManual true s))
  | .paused _ => okPause (setManual true s)
  | .stopped | .halted _ => refuse .state s

def handlePause (p : Port) (s : State) : State := respond p .pause true (driven (holderOrConsole p ownPause)) s

/-- RESUME (R149). -/
def ownResume (s : State) : State × Answer :=
  match s.sup.tunnel with
  | .paused t =>
    if pauseListed s then okPause (setManual false s)
    else okPause (changeTunnel (.starting t) (.request .resume) (setManual false s))
  | .stopped | .starting _ | .running | .draining | .halted _ => refuse .state s

def handleResume (p : Port) (s : State) : State := respond p .resume true (driven (holderOrConsole p ownResume)) s

/-! ### RESTART -/

/-- The state that a restart leads to (R151). -/
def restartState (pre : PreHalt) (paused : Bool) : Tunnel :=
  match pre with
  | .stopped => .stopped
  | .running => if paused then .paused .running else .starting .running
  | .draining => if paused then .paused .draining else .starting .draining

/-- RESTART (R151). -/
def ownRestart (s : State) : State × Answer :=
  match s.sup.tunnel with
  | .halted pre =>
    if haltStands s then refuse .state s
    else okTunnel (changeTunnel (restartState pre (pauseListed s)) (.request .restart) s)
  | .stopped | .starting _ | .running | .draining | .paused _ => refuse .state s

def handleRestart (p : Port) (s : State) : State := respond p .restart true (driven ownRestart) s

/-! ### Control -/

/-- The control holder. -/
def setHolder (h : Option Port) (s : State) : State := { s with sup.holder := h }

/-- CLAIM (R161). -/
def ownClaim (p : Port) (s : State) : State × Answer :=
  if p = .p0 then
    (setHolder (some .p0) (if s.sup.holder = some .p4 then notify .p4 (.controlLost .p0) s else s),
      answerOk (b1 (portCode .p0)))
  else if s.sup.holder = some .p0 then refuse .busy s
  else (setHolder (some p) s, answerOk (b1 (portCode p)))

def handleClaim (p : Port) (s : State) : State := respond p .claim true (ownClaim p) s

/-- YIELD (R162). -/
def ownYield (s : State) : State × Answer := (setHolder none s, answerOk [])

def handleYield (p : Port) (s : State) : State := respond p .yield true (holderOnly p ownYield) s

/-! ### The forced class -/

/-- The forced class. -/
def setForced (c : Option Nat) (s : State) : State := { s with pace.forced := c }

/-- The resolved class and the conveyor speed output (R114, R115). -/
def speedFields (s : State) : List Byte := b1 (resolvedClass s) ++ b2 (speedOutput s)

/-- FORCE_SPEED (R114). -/
def ownForceSpeed (cls : Nat) (s : State) : State × Answer :=
  let c := clampTo cls 1 4
  (setForced (some c) s, answerOk (b1 c ++ speedFields (setForced (some c) s)))

def handleForceSpeed (p : Port) (cls : Nat) (s : State) : State :=
  respond p .forceSpeed true (driven (holderOnly p (ownForceSpeed cls))) s

/-- RELEASE_SPEED (R115). -/
def ownReleaseSpeed (s : State) : State × Answer :=
  (setForced none s, answerOk (speedFields (setForced none s)))

def handleReleaseSpeed (p : Port) (s : State) : State :=
  respond p .releaseSpeed true (driven (holderOnly p ownReleaseSpeed)) s

/-! ### Acknowledgement -/

/-- An ESTOP record while the loop is open and an EXIT_BLOCKED record while the exit eye's input is blocked cannot be
acknowledged (R158). -/
def ackBarred (s : State) (r : Incident) : Bool :=
  (r.kind == .estop && !s.inputs.estopClosed) || (r.kind == .exitBlocked && s.inputs.eyes.exit)

/-- ACK_INCIDENT of one record (R158). -/
def ownAckIncident (number : Nat) (s : State) : State × Answer :=
  match s.sup.incidents.find? fun r => r.number == number with
  | none => refuse .notFound s
  | some r =>
    if ackBarred s r then refuse .state s
    else (removeIncidents (fun r => r.number == number) s, answerOk (b1 number))

def handleAckIncident (p : Port) (number : Nat) (s : State) : State :=
  respond p .ackIncident true (driven (ownAckIncident number)) s

/-- ACK_INCIDENT with ALL: the counts removed and kept (R159). -/
def ownAckAll (s : State) : State × Answer :=
  (removeIncidents (fun r => !ackBarred s r) s,
    answerOk (b1 (s.sup.incidents.filter fun r => !ackBarred s r).length ++
      b1 (s.sup.incidents.filter (ackBarred s)).length))

def handleAckIncidentAll (p : Port) (s : State) : State := respond p .ackIncident true (driven ownAckAll) s

/-! ### Lanes -/

/-- A lane's enable flag. -/
def setEnabled (l : Lane) (x : Bool) (s : State) : State := { s with ent.enabled := s.ent.enabled.set l x }

/-- LANE_ENABLE (R25). -/
def ownLaneEnable (lane : Nat) (s : State) : State × Answer :=
  match laneOfByte lane with
  | none => refuse .badValue s
  | some l => (arbitrate (setEnabled l true s), answerOk (b1 1))

def handleLaneEnable (p : Port) (lane : Nat) (s : State) : State :=
  respond p .laneEnable true (driven (ownLaneEnable lane)) s

/-- LANE_DISABLE (R25). -/
def ownLaneDisable (lane : Nat) (s : State) : State × Answer :=
  match laneOfByte lane with
  | none => refuse .badValue s
  | some l => (withdrawLane l .laneDisabled (setEnabled l false s), answerOk (b1 0))

def handleLaneDisable (p : Port) (lane : Nat) (s : State) : State :=
  respond p .laneDisable true (driven (ownLaneDisable lane)) s

/-- Every ticket of a lane counted as voided, head first (R164, R168). -/
def voidTickets (l : List Ticket) (t : Tally) : Tally := l.foldl (fun t q => tallyVoid q.paid t) t

/-- LANE_RESET (R164); the total paid value is a four-byte amount and saturates (log entry 10). -/
def ownLaneReset (lane : Nat) (s : State) : State × Answer :=
  match laneOfByte lane with
  | none => refuse .badValue s
  | some l =>
    let q := s.sales.lanes.get l
    (withdrawLane l .laneReset (setLane l [] (updateTally (voidTickets q) s)),
      answerOk (b1 q.length ++ b4 (min Config.amountMax (q.map Ticket.paid).sum)))

def handleLaneReset (p : Port) (lane : Nat) (s : State) : State :=
  respond p .laneReset true (driven (ownLaneReset lane)) s

/-! ### TUNNEL_CLEAR -/

/-- The credit of a cleared record: a ticketed car with an entry that is not DONE and a paid amount above 0 (R85). -/
def clearCredit (car : Car) (s : State) : State × Option Nat :=
  match car.ticket with
  | none => (s, none)
  | some t =>
    if car.schedule.any (fun e => e.state != .done) && 0 < t.paid then
      let r := issueCredit t.paid (some t.sale) (some t.plan) s
      (r.1, some r.2.1)
    else (s, none)

/-- One record removed by TUNNEL_CLEAR: credit, notice, leaving (R163). -/
def clearRecord (car : Car) (s : State) : State :=
  let q := clearCredit car s
  leaveQueue car (notifyBoth (carExitNotice car .cleared q.2) q.1)

/-- The records of the queue that TUNNEL_CLEAR issues a credit for (R85). -/
def clearCredits (l : List Car) : Nat :=
  (l.filter fun car => match car.ticket with
    | none => false
    | some t => car.schedule.any (fun e => e.state != .done) && 0 < t.paid).length

/-- TUNNEL_CLEAR (R163). -/
def ownTunnelClear (s : State) : State × Answer :=
  match s.sup.tunnel with
  | .stopped | .halted _ =>
    (s.trk.queue.foldl (fun s car => clearRecord car s) s,
      answerOk (b1 s.trk.queue.length ++ b1 (clearCredits s.trk.queue)))
  | .starting _ | .running | .draining | .paused _ => refuse .state s

def handleTunnelClear (p : Port) (s : State) : State := respond p .tunnelClear true (driven ownTunnelClear) s

/-! ### The commands -/

/-- ACK_INCIDENT with a number (R158). -/
def execAckIncident (p : Port) (number : Nat) (s : State) : Host.Outcome State Fault Refusal :=
  .next (handleAckIncident p number s)

/-- ACK_INCIDENT with ALL (R159). -/
def execAckIncidentAll (p : Port) (s : State) : Host.Outcome State Fault Refusal := .next (handleAckIncidentAll p s)

/-- RESTART (R151). -/
def execRestart (p : Port) (s : State) : Host.Outcome State Fault Refusal := .next (handleRestart p s)

/-- LANE_RESET (R164). -/
def execLaneReset (p : Port) (lane : Nat) (s : State) : Host.Outcome State Fault Refusal :=
  .next (handleLaneReset p lane s)

/-- LANE_ENABLE (R25). -/
def execLaneEnable (p : Port) (lane : Nat) (s : State) : Host.Outcome State Fault Refusal :=
  .next (handleLaneEnable p lane s)

/-- LANE_DISABLE (R25). -/
def execLaneDisable (p : Port) (lane : Nat) (s : State) : Host.Outcome State Fault Refusal :=
  .next (handleLaneDisable p lane s)

/-- TUNNEL_CLEAR (R163). -/
def execTunnelClear (p : Port) (s : State) : Host.Outcome State Fault Refusal := .next (handleTunnelClear p s)

/-- CLAIM (R161). -/
def execClaim (p : Port) (s : State) : Host.Outcome State Fault Refusal := .next (handleClaim p s)

/-- YIELD (R162). -/
def execYield (p : Port) (s : State) : Host.Outcome State Fault Refusal := .next (handleYield p s)

/-- OPEN (R142). -/
def execOpen (p : Port) (s : State) : Host.Outcome State Fault Refusal := .next (handleOpen p s)

/-- DRAIN (R144). -/
def execDrain (p : Port) (s : State) : Host.Outcome State Fault Refusal := .next (handleDrain p s)

/-- STOP (R146). -/
def execStop (p : Port) (s : State) : Host.Outcome State Fault Refusal := .next (handleStop p s)

/-- PAUSE (R147). -/
def execPause (p : Port) (s : State) : Host.Outcome State Fault Refusal := .next (handlePause p s)

/-- RESUME (R149). -/
def execResume (p : Port) (s : State) : Host.Outcome State Fault Refusal := .next (handleResume p s)

/-- FORCE_SPEED (R114). -/
def execForceSpeed (p : Port) (cls : Nat) (s : State) : Host.Outcome State Fault Refusal :=
  .next (handleForceSpeed p cls s)

/-- RELEASE_SPEED (R115). -/
def execReleaseSpeed (p : Port) (s : State) : Host.Outcome State Fault Refusal := .next (handleReleaseSpeed p s)

end Sys2Proof.Machine
end

