-- ==== Sys2Proof/Machine/Stations.lean ====
section
/-! DEFINITION. The Station Sequencer's requests and events: SET_STATION (R88), STATION_OFF, STATION_ON and STATION_RESET
(R110, R111), the proof inputs (R94, R96), the proof timer (R95, R107) and the retry timer (R95). -/

namespace Sys2Proof.Machine

/-! ### SET_STATION -/

/-- The form test of SET_STATION: the kind byte BRUSH goes with the 33-byte form, SPRAY and AIR with the 21-byte form; a
kind byte outside the codes is left to the owner (R199, R201). -/
def stationForm (r : RawStation) : Bool :=
  match r.gear, stationKindOperand r.kind with
  | .levels _, some .brush => false
  | .brush _, some .spray | .brush _, some .air => false
  | .levels _, some .spray | .levels _, some .air | .levels _, none | .brush _, some .brush | .brush _, none => true

/-- SP, PRE and POST clamped in that order (R87 to R89). -/
def clampGeometry (tunnelLen : Nat) (r : StationRec) : StationRec :=
  let sp := min r.sp (tunnelLen - 1)
  { r with sp := sp, pre := min r.pre (min 4000 sp), post := min r.post (min 4000 (tunnelLen - 1 - sp)) }

/-- The brush fields clamped in the order of R87, BRMAX raised to BRMIN (R88). -/
def clampBrush (b : BrushRec) : BrushRec :=
  let brMin := min b.brMin 4095
  { slot := b.slot, k := min b.k 65535, brMin := brMin, brMax := max brMin (min b.brMax 4095), icA := min b.icA 4095,
    icB := min b.icB 4095, jamMargin := clampTo b.jamMargin 50 4095, slackMargin := min b.slackMargin 4095,
    jamN := clampTo b.jamN 1 15, slackN := clampTo b.slackN 1 63, jamBlank := min b.jamBlank 50,
    qualifier := b.qualifier, signals := b.signals }

/-- The level table or the brush fields clamped (R88). -/
def clampGear : Gear → Gear
  | .spray t => .spray (fourEach (fun x => min x 4095) t)
  | .air t => .air (fourEach (fun x => min x 4095) t)
  | .brush b => .brush (clampBrush b)

/-- Every numeric field of a record clamped into its range (R88). -/
def clampStation (tunnelLen : Nat) (r : StationRec) : StationRec :=
  { clampGeometry tunnelLen r with
    proofWait := clampTo r.proofWait 100 5000
    retries := min r.retries 3
    gear := clampGear r.gear }

/-- The brush fields that a request names; none where the slot, the qualifier mode or a signal is not one of R87 (R88). -/
def brushOperand (b : RawBrush) : Option BrushRec :=
  match slotIndex b.slot, qualifierOperand b.qualifier, signalsOperand b.signals with
  | some slot, some q, some g =>
    some ⟨slot, b.k, b.brMin, b.brMax, b.icA, b.icB, b.jamMargin, b.slackMargin, b.jamN, b.slackN, b.jamBlank, q, g⟩
  | _, _, _ => none

/-- The kind with its fields that a request names (R87, R88). -/
def gearOperand (kind : Nat) (g : RawGear) : Option Gear :=
  match stationKindOperand kind, g with
  | some .spray, .levels t => some (.spray t)
  | some .air, .levels t => some (.air t)
  | some .brush, .brush b => (brushOperand b).map Gear.brush
  | _, _ => none

/-- The station record that a request names, before its clamps; none where test 2 of R88 fails. -/
def stationOperand (r : RawStation) : Option StationRec :=
  match decide (r.code ≤ 24), activationOperand r.mode, gearOperand r.kind r.gear with
  | true, some mode, some gear => some ⟨r.code, r.sp, r.pre, r.post, mode, r.proofWait, r.retries, gear⟩
  | _, _, _ => none

/-- The slot of a BRUSH record. -/
def slotOf (r : StationRec) : Option (Fin 6) := r.gear.brush?.map BrushRec.slot

/-- Another station is BRUSH with the record's slot (R88). -/
def slotTaken (s : State) (i : Fin 16) (r : StationRec) : Bool :=
  (slotOf r).isSome && allStations.any fun j => j != i && slotOf (tabGet s.seq.table j) == slotOf r

/-- A car record holds a schedule entry for the station (R88). -/
def entryHeld (s : State) (i : Fin 16) : Bool :=
  s.trk.queue.any fun car => car.schedule.any fun e => e.station == i

/-- Every schedule back in station-position order (R88, R89). -/
def reorderAll (s : State) : State := mapQueue (fun car => { car with schedule := orderSchedule s car.schedule }) s

/-- A station's record replaced (R88). -/
def putStation (i : Fin 16) (r : StationRec) (s : State) : State :=
  { s with seq.table := tabSet s.seq.table i r }

/-- A station's record replaced, the schedules reordered where SP changed (R88). -/
def storeStation (i : Fin 16) (r : StationRec) (s : State) : State :=
  if r.sp = (tabGet s.seq.table i).sp then putStation i r s else reorderAll (putStation i r s)

/-- SET_STATION (R88). -/
def ownSetStation (station : Nat) (raw : RawStation) (s : State) : State × Answer :=
  if saving s then refuse .busy s
  else
    match stationIndex station, stationOperand raw with
    | some i, some r =>
      if s.sup.tunnel ≠ .stopped then refuse .state s
      else if slotTaken s i r then refuse .duplicate s
      else if r.code ≠ (tabGet s.seq.table i).code ∧ entryHeld s i = true then refuse .occupied s
      else
        let q := clampStation s.sup.consts.tunnelLen r
        (storeStation i q s, answerOk (b1 i.val ++ stationBytes (rawOfStation q)))
    | _, _ => refuse .badValue s

def handleSetStation (p : Port) (station : Nat) (raw : RawStation) (s : State) : State :=
  respond p .setStation (stationForm raw) (driven (ownSetStation station raw)) s

/-! ### STATION_OFF, STATION_ON, STATION_RESET -/

/-- The station number and its state after the request (section 5.7). -/
def okStation (i : Fin 16) (s : State) : State × Answer :=
  (s, answerOk (b1 i.val ++ b1 (stationStateCode (tabGet s.seq.units i).state)))

/-- STATION_OFF (R110). -/
def ownStationOff (station : Nat) (s : State) : State × Answer :=
  match stationIndex station with
  | none => refuse .badValue s
  | some i =>
    if (tabGet s.seq.units i).state = .offLine then okStation i s
    else okStation i (markEntries i .offline true (moveStation i .offLine s))

def handleStationOff (p : Port) (station : Nat) (s : State) : State :=
  respond p .stationOff true (driven (ownStationOff station)) s

/-- A station back to IDLE with its failed-attempt count 0, tested for arming (R93, R111). -/
def returnStation (i : Fin 16) (s : State) : State :=
  testArm i (moveStation i .idle (updateUnit i (fun u => { u with fails := 0 }) s))

/-- STATION_ON (R111). -/
def ownStationOn (station : Nat) (s : State) : State × Answer :=
  match stationIndex station with
  | none => refuse .badValue s
  | some i =>
    if (tabGet s.seq.units i).state = .offLine then okStation i (returnStation i s) else refuse .state s

def handleStationOn (p : Port) (station : Nat) (s : State) : State :=
  respond p .stationOn true (driven (ownStationOn station)) s

/-- STATION_RESET (R111). -/
def ownStationReset (station : Nat) (s : State) : State × Answer :=
  match stationIndex station with
  | none => refuse .badValue s
  | some i =>
    if (tabGet s.seq.units i).state = .fault then okStation i (returnStation i s) else refuse .state s

def handleStationReset (p : Port) (station : Nat) (s : State) : State :=
  respond p .stationReset true (driven (ownStationReset station)) s

/-! ### Proof -/

/-- One more failed attempt of a station that allows another (R95, R96). -/
def attemptsLeft (s : State) (i : Fin 16) : Bool :=
  (tabGet s.seq.units i).fails + 1 < 1 + (tabGet s.seq.table i).retries

/-- The failed-attempt count of a station raised by 1 and its proof timer stopped (R95, R96). -/
def countFailure (i : Fin 16) (s : State) : State :=
  updateUnit i (fun u => { u with fails := u.fails + 1, proofTimer := none }) s

/-- The last failure: the station goes to FAULT and STATION_FAULT is raised (R95, R96). -/
def giveUp (i : Fin 16) (s : State) : State :=
  raiseIncident { plainRaise .stationFault with station := some i } (moveStation i .fault (countFailure i s))

/-- A failed attempt (R95). -/
def failAttempt (i : Fin 16) (s : State) : State :=
  if attemptsLeft s i then
    updateUnit i (fun u => { u with retryTimer := some Config.retryTime }) (moveStation i .retryWait (countFailure i s))
  else giveUp i s

/-- A proof loss (R96). -/
def loseProof (i : Fin 16) (s : State) : State :=
  let s1 := markEntries i .proof false s
  if attemptsLeft s1 i then
    updateUnit i (fun u => { u with proofTimer := some (tabGet s.seq.table i).proofWait })
      (moveStation i .arming (countFailure i s1))
  else giveUp i s1

/-- The proof input of a station asserts (R94, R107). -/
def proofOn (i : Fin 16) (s : State) : State :=
  let u := tabGet s.seq.units i
  if u.state = .arming then becomeReady i s
  else if u.recheck then updateUnit i (fun u => { u with recheck := false, proofTimer := none }) s
  else s

/-- The proof input of a station deasserts (R96). -/
def proofOff (i : Fin 16) (s : State) : State :=
  let u := tabGet s.seq.units i
  if (tabGet s.seq.table i).mode = .proofHold ∧ (u.state = .ready ∨ u.state = .firing) ∧ u.recheck = false then
    loseProof i s
  else s

/-- The proof timer of a station expires (R95, R107); a stopped timer does not expire (log entry 5). -/
def proofExpired (i : Fin 16) (s : State) : State :=
  let u := tabGet s.seq.units i
  match u.proofTimer with
  | none => s
  | some _ =>
    let s1 := updateUnit i (fun u => { u with recheck := false, proofTimer := none }) s
    if u.state = .arming then failAttempt i s1
    else if u.recheck = true ∧ (u.state = .ready ∨ u.state = .firing) then loseProof i s1
    else s1

/-- The retry timer of a station expires (R95; log entry 13); a stopped timer does not expire (log entry 5). -/
def retryExpired (i : Fin 16) (s : State) : State :=
  let u := tabGet s.seq.units i
  match u.retryTimer with
  | none => s
  | some _ =>
    let s1 := updateUnit i (fun u => { u with retryTimer := none }) s
    if u.state = .retryWait then
      if s1.sup.tunnel.runs && wanted s1 i then beginAttempt i (moveStation i .arming s1) else moveStation i .idle s1
    else s1

/-- The level of a station's proof input. -/
def setProof (i : Fin 16) (x : Bool) (s : State) : State := { s with inputs.proofs := tabSet s.inputs.proofs i x }

/-! ### The commands -/

/-- SET_STATION (R88). -/
def execSetStation (p : Port) (station : Nat) (rec : RawStation) (s : State) : Host.Outcome State Fault Refusal :=
  .next (handleSetStation p station rec s)

/-- STATION_OFF (R110). -/
def execStationOff (p : Port) (station : Nat) (s : State) : Host.Outcome State Fault Refusal :=
  .next (handleStationOff p station s)

/-- STATION_ON (R111). -/
def execStationOn (p : Port) (station : Nat) (s : State) : Host.Outcome State Fault Refusal :=
  .next (handleStationOn p station s)

/-- STATION_RESET (R111). -/
def execStationReset (p : Port) (station : Nat) (s : State) : Host.Outcome State Fault Refusal :=
  .next (handleStationReset p station s)

/-- PROOF_ASSERT (R94, R107). -/
def execProofAssert (i : Fin 16) (s : State) : Host.Outcome State Fault Refusal :=
  .next (lineEdge (tabGet s.inputs.proofs i) true (setProof i true) (proofOn i) s)

/-- PROOF_DEASSERT (R96). -/
def execProofDeassert (i : Fin 16) (s : State) : Host.Outcome State Fault Refusal :=
  .next (lineEdge (tabGet s.inputs.proofs i) false (setProof i false) (proofOff i) s)

/-- PROOF_TIMER_EXPIRY (R95, R107). -/
def execProofTimerExpiry (i : Fin 16) (s : State) : Host.Outcome State Fault Refusal :=
  .next (event (proofExpired i) s)

/-- RETRY_TIMER_EXPIRY (R95). -/
def execRetryTimerExpiry (i : Fin 16) (s : State) : Host.Outcome State Fault Refusal :=
  .next (event (retryExpired i) s)

end Sys2Proof.Machine
end

