-- ==== Sys2Proof/Machine/Tracking.lean ====
section
/-! DEFINITION. The events of the Tracking Unit, the Entrance Unit and the Tunnel Supervisor's lines and timers: encoder
pulse, eye edges, loop edges, E-stop edges, and the expiry of the grant, start and exit-block timers. -/

namespace Sys2Proof.Machine

/-! ### The encoder pulse -/

/-- An encoder pulse in the order of R6: Tracking Unit, Station Sequencer, Entrance Unit, Pacing Unit. -/
def pulse (s : State) : State := countPulse (entrancePulse (judgePulse (trackPulse s)))

/-! ### Check eyes and the exit eye -/

/-- The level of an eye's input. -/
def setEyeInput (k : Eye) (x : Bool) (s : State) : State := { s with inputs.eyes := s.inputs.eyes.set k x }

/-- The exit-block timer started from EXIT_BLOCK_TIME while the tunnel runs (R21). -/
def startExitTimer (s : State) : State :=
  if s.sup.tunnel.runs then { s with trk.exitTimer := some s.sup.consts.exitBlockTime } else s

/-- A blocking edge of the exit eye (R16, R21). -/
def exitBlocked (s : State) : State := eyeBlocked .exit (startExitTimer s)

/-- The record is an EXIT_BLOCKED record with eye EXIT (R23). -/
def isExitBlock (r : Incident) : Bool := r.kind == .exitBlocked && r.eye == some .exit

/-- A clear edge of the exit eye: settling, the timer stopped, the EXIT_BLOCKED records removed (R8, R21, R23). -/
def exitCleared (s : State) : State :=
  removeIncidents isExitBlock { eyeCleared .exit s with trk.exitTimer := none }

/-- The exit-block timer expires (R22); a stopped timer does not expire (log entry 5). -/
def exitBlockExpired (s : State) : State :=
  match s.trk.exitTimer with
  | none => s
  | some _ =>
    raiseIncident { plainRaise .exitBlocked with eye := some .exit, tag := s.trk.exitMatch }
      { s with trk.exitTimer := none }

/-! ### The entrance eye -/

/-- The level of the entrance eye's input. -/
def setEntranceInput (x : Bool) (s : State) : State := { s with inputs.entrance := x }

/-- The debounce state of the entrance eye. -/
def setEntranceEye (d : Debounce) (s : State) : State := { s with ent.eye := d }

/-- The binding of a lane's head ticket to the object in the eye (R39). -/
def bindHead (l : Lane) (t : Ticket) (s : State) : State :=
  let tag := (nextTagOf s).1
  notify (portOfLane l) (.admitted t.sale tag)
    (startMeasure tag (appendCar (some t) (clearGrant (setLane l (s.sales.lanes.get l).tail s))))

/-- An unticketed record (R40). -/
def enterUnpaid (s : State) : State :=
  let tag := (nextTagOf s).1
  raiseIncident { plainRaise .unpaidEntry with tag := some tag } (startMeasure tag (appendCar none s))

/-- The granted lane and its head ticket. -/
def grantedHead (s : State) : Option (Lane × Ticket) :=
  s.ent.grant.bind fun g => (s.sales.lanes.get g.lane).head?.map fun t => (g.lane, t)

/-- A new blocking edge of the entrance eye (R39 to R41). -/
def newObject (s : State) : State :=
  if Config.queueMax ≤ s.trk.queue.length then
    raiseIncident (plainRaise .queueOverflow) { s with ent.measured := none }
  else
    match grantedHead s with
    | some (l, t) => bindHead l t s
    | none => enterUnpaid s

/-- The tailgate test of a re-block, and of a lowered LEN_MAX (R45, R198). -/
def tailgateTest (s : State) : State :=
  match s.ent.measured with
  | some m => if s.sup.consts.lenMax + 1 ≤ m.entry then raiseTailgate m.tag s else s
  | none => s

/-- A blocking edge of the entrance eye (R37, R45). -/
def entranceBlocked (s : State) : State :=
  match s.ent.eye with
  | .armed => newObject (setEntranceEye .blocked s)
  | .settling _ => tailgateTest (setEntranceEye .blocked s)
  | .blocked => s

/-- The clear-edge count takes the entry count (R43). -/
def markClearEdge (s : State) : State :=
  { s with ent.measured := s.ent.measured.map fun m => { m with clearEdge := m.entry } }

/-- A clear edge of the entrance eye (R37, R43). -/
def entranceCleared (s : State) : State :=
  match s.ent.eye with
  | .blocked => markClearEdge (setEntranceEye (.settling 0) s)
  | .armed | .settling _ => s

/-! ### Loops, timers, E-stop -/

/-- The level of a lane's loop. -/
def setLoop (l : Lane) (x : Bool) (s : State) : State := { s with inputs.loops := s.inputs.loops.set l x }

/-- The grant timer expires (R34); a stopped timer does not expire (log entry 5). -/
def grantExpired (s : State) : State :=
  match s.ent.grantTimer with
  | none => s
  | some _ => withdrawGrant .timeout s

/-- The state that the end of the start warning leads to (R143). -/
def startedState (t : TargetMode) (empty : Bool) : Tunnel :=
  match t with
  | .running => .running
  | .draining => if empty then .stopped else .draining

/-- The start timer expires (R143); a stopped timer does not expire (log entry 5). -/
def startExpired (s : State) : State :=
  match s.sup.startTimer, s.sup.tunnel with
  | some _, .starting t => changeTunnel (startedState t s.trk.queue.isEmpty) .startTimer s
  | _, _ => s

/-- The level of the E-stop loop. -/
def setLoopClosed (x : Bool) (s : State) : State := { s with inputs.estopClosed := x }

/-- ESTOP raised (R152). -/
def raiseEstop (s : State) : State := raiseIncident (plainRaise .estop) s

/-! ### The commands -/

/-- ENCODER_PULSE (R5, R6). -/
def execEncoderPulse (s : State) : Host.Outcome State Fault Refusal := .next (event pulse s)

/-- CHECK_EYE_BLOCKING_EDGE (R7, R8, R11). -/
def execCheckEyeBlockingEdge (k : CheckEye) (s : State) : Host.Outcome State Fault Refusal :=
  .next (lineEdge (s.inputs.eyes.get (eyeOfCheck k)) true (setEyeInput (eyeOfCheck k) true)
    (eyeBlocked (eyeOfCheck k)) s)

/-- CHECK_EYE_CLEAR_EDGE (R7, R8). -/
def execCheckEyeClearEdge (k : CheckEye) (s : State) : Host.Outcome State Fault Refusal :=
  .next (lineEdge (s.inputs.eyes.get (eyeOfCheck k)) false (setEyeInput (eyeOfCheck k) false)
    (eyeCleared (eyeOfCheck k)) s)

/-- EXIT_EYE_BLOCKING_EDGE (R16, R21). -/
def execExitEyeBlockingEdge (s : State) : Host.Outcome State Fault Refusal :=
  .next (lineEdge s.inputs.eyes.exit true (setEyeInput .exit true) exitBlocked s)

/-- EXIT_EYE_CLEAR_EDGE (R8, R21, R23). -/
def execExitEyeClearEdge (s : State) : Host.Outcome State Fault Refusal :=
  .next (lineEdge s.inputs.eyes.exit false (setEyeInput .exit false) exitCleared s)

/-- ENTRANCE_EYE_BLOCKING_EDGE (R37, R39 to R41, R45). -/
def execEntranceEyeBlockingEdge (s : State) : Host.Outcome State Fault Refusal :=
  .next (lineEdge s.inputs.entrance true (setEntranceInput true) entranceBlocked s)

/-- ENTRANCE_EYE_CLEAR_EDGE (R37, R43). -/
def execEntranceEyeClearEdge (s : State) : Host.Outcome State Fault Refusal :=
  .next (lineEdge s.inputs.entrance false (setEntranceInput false) entranceCleared s)

/-- LOOP_OCCUPIED (R24, R29). -/
def execLoopOccupied (l : Lane) (s : State) : Host.Outcome State Fault Refusal :=
  .next (lineEdge (s.inputs.loops.get l) true (setLoop l true) arbitrate s)

/-- LOOP_VACANT (R24). -/
def execLoopVacant (l : Lane) (s : State) : Host.Outcome State Fault Refusal :=
  .next (lineEdge (s.inputs.loops.get l) false (setLoop l false) id s)

/-- ESTOP_LOOP_OPEN (R152). -/
def execEstopLoopOpen (s : State) : Host.Outcome State Fault Refusal :=
  .next (lineEdge s.inputs.estopClosed false (setLoopClosed false) raiseEstop s)

/-- ESTOP_LOOP_CLOSE (R152). -/
def execEstopLoopClose (s : State) : Host.Outcome State Fault Refusal :=
  .next (lineEdge s.inputs.estopClosed true (setLoopClosed true) id s)

/-- GRANT_TIMER_EXPIRY (R34). -/
def execGrantTimerExpiry (s : State) : Host.Outcome State Fault Refusal := .next (event grantExpired s)

/-- START_TIMER_EXPIRY (R143). -/
def execStartTimerExpiry (s : State) : Host.Outcome State Fault Refusal := .next (event startExpired s)

/-- EXIT_BLOCK_TIMER_EXPIRY (R22). -/
def execExitBlockTimerExpiry (s : State) : Host.Outcome State Fault Refusal := .next (event exitBlockExpired s)

end Sys2Proof.Machine
end

