-- ==== Sys2Proof/Machine/Settings.lean ====
section
/-! DEFINITION. The Settings Store and the reset (chapter 11): SET_CONSTANTS (R197, R198), SAVE (R190), the completion of a
write (R192), the reset (R193, R195) and the start-up event (R193, R194). -/

namespace Sys2Proof.Machine

/-! ### SET_CONSTANTS -/

/-- A check-eye position: 0 stays 0, any other value lies in 1 to TUNNEL_LEN - 1 (R197). -/
def clampEye (tunnelLen x : Nat) : Nat := if x = 0 then 0 else clampTo x 1 (tunnelLen - 1)

/-- Every constant clamped into its range in the order of R197. -/
def clampConstants (c : Constants) : Constants :=
  let tunnelLen := clampTo c.tunnelLen 2000 60000
  let lenMin := clampTo c.lenMin 500 8000
  { tunnelLen := tunnelLen
    ce1 := clampEye tunnelLen c.ce1
    ce2 := clampEye tunnelLen c.ce2
    ce3 := clampEye tunnelLen c.ce3
    ce4 := clampEye tunnelLen c.ce4
    eyeTol := clampTo c.eyeTol 10 2000
    clearMin := clampTo c.clearMin 5 500
    lenMin := lenMin
    lenMax := clampTo c.lenMax lenMin 16000
    admitSpacing := clampTo c.admitSpacing 500 20000
    armLead := min c.armLead 5000
    commitLead := min c.commitLead 5000
    grantTimeout := clampTo c.grantTimeout 2 120
    startWarn := clampTo c.startWarn 2 30
    exitBlockTime := clampTo c.exitBlockTime 1 60
    stallWindows := clampTo c.stallWindows 5 100
    speed := fourEach (fun x => min x 4095) c.speed }

/-- The debounce state that an eye takes from its input (R10, R38). -/
def eyeFromInput (blocked : Bool) : Debounce := if blocked then .blocked else .armed

/-- The debounce state of an eye under a set of constants: dropped where the eye is not fitted, kept where it was fitted,
taken from the input where it becomes fitted (R7). -/
def refitEye (c : Constants) (inputs : PerEye Bool) (old : PerEye (Option Debounce)) (k : Eye) : Option Debounce :=
  match eyePosition c k with
  | none => none
  | some _ =>
    match old.get k with
    | some d => some d
    | none => some (eyeFromInput (inputs.get k))

/-- The debounce states of every eye under a set of constants (R7, R10). -/
def refitEyes (c : Constants) (inputs : PerEye Bool) (old : PerEye (Option Debounce)) : PerEye (Option Debounce) :=
  ⟨refitEye c inputs old .ce1, refitEye c inputs old .ce2, refitEye c inputs old .ce3, refitEye c inputs old .ce4,
    refitEye c inputs old .exit⟩

/-- A clear count at or above the new CLEAR_MIN is lowered to CLEAR_MIN - 1 (R198). -/
def lowerSettling (clearMin : Nat) : Debounce → Debounce
  | .settling n => .settling (if clearMin ≤ n then clearMin - 1 else n)
  | .armed => .armed
  | .blocked => .blocked

/-- The debounce states of the Tracking Unit's eyes after a change of constants (R7, R198). -/
def settleEyes (c : Constants) (e : PerEye (Option Debounce)) : PerEye (Option Debounce) :=
  ⟨e.ce1.map (lowerSettling c.clearMin), e.ce2.map (lowerSettling c.clearMin), e.ce3.map (lowerSettling c.clearMin),
    e.ce4.map (lowerSettling c.clearMin), e.exit.map (lowerSettling c.clearMin)⟩

/-- The station table clamped again after a lowering of TUNNEL_LEN, with the schedules in order (R89). -/
def reclampStations (before after : Nat) (s : State) : State :=
  if after < before then
    reorderAll { s with seq.table := tabOf fun i => clampGeometry after (tabGet s.seq.table i) }
  else s

/-- The TAILGATE test of R198. -/
def tailgateNow (s : State) : State := if s.ent.eye = .blocked then tailgateTest s else s

/-- A clamped set of constants in force (R198). -/
def applyConstants (c : Constants) (s : State) : State :=
  let before := s.sup.consts.tunnelLen
  let s1 := { s with
    sup.consts := c
    trk.eyes := settleEyes c (refitEyes c s.inputs.eyes s.trk.eyes)
    ent.eye := lowerSettling c.clearMin s.ent.eye }
  tailgateNow (reclampStations before c.tunnelLen s1)

/-- SET_CONSTANTS (R197). -/
def ownSetConstants (c : Constants) (s : State) : State × Answer :=
  if saving s then refuse .busy s
  else if s.sup.tunnel ≠ .stopped then refuse .state s
  else (applyConstants (clampConstants c) s, answerOk (constantBytes (clampConstants c)))

def handleSetConstants (p : Port) (c : Constants) (s : State) : State :=
  respond p .setConstants true (driven (ownSetConstants c)) s

/-! ### SAVE -/

/-- The live records that the image holds (R189). -/
def imageOf (s : State) : Image :=
  { plans := s.sales.plans, store := s.sales.store, services := s.sales.services, table := s.seq.table,
    consts := s.sup.consts, response := s.sup.response, credits := s.sales.credits, tally := s.sales.tally,
    saleCounter := s.sales.saleCounter, creditCounter := s.sales.creditCounter }

/-- The start of a write: the snapshot and the marker cleared; nothing of the image is written in this event (R190). -/
def startWrite (s : State) : State :=
  { s with store.marker := false, store.writing := some (imageOf s) }

/-- SAVE (R190, R191). -/
def ownSave (s : State) : State × Answer :=
  if saving s then refuse .busy s else (startWrite s, answerOk (b1 (outcomeCode s.store.lastOutcome)))

def handleSave (p : Port) (s : State) : State := respond p .save true ownSave s

/-- A write that ends without a verified image: the marker is cleared and the image holds what the write left of it, a free
value that nothing loads (R189, R192, R195; log entry 16). -/
def spoilImage (s : State) : State :=
  { s with
    store.image := Config.spoiledImage s.free
    store.marker := false
    store.writing := none
    free := s.free + 1 }

/-- The completion of a write (R192). -/
def finishWrite (verified : Bool) (s : State) : State :=
  match s.store.writing with
  | none => s
  | some image =>
    if verified then
      notify .p4 .saveDone { s with
        store.image := image
        store.marker := true
        store.writing := none
        store.lastOutcome := .done
        store.defaulted := false }
    else
      notify .p4 .saveFailed { spoilImage s with store.lastOutcome := .failed }

/-! ### Reset and start-up -/

/-- Every port at start-up: HUNT, an empty queue, a free transmitter (R175, R177, R178). -/
def idlePorts : PerPort PortUnit := ⟨PortUnit.idle, PortUnit.idle, PortUnit.idle, PortUnit.idle, PortUnit.idle⟩

/-- A write in progress is cut short (R195). -/
def cutWrite (s : State) : State := if saving s then spoilImage s else s

/-- The reset pin is asserted or the supply drops: no event from now on, every output off, the transmitters silent, a
write cut short with its marker cleared (R193, R195). -/
def holdReset (s : State) : State := { cutWrite s with held := true, out := Outputs.off, ports := idlePorts }

/-- What the start-up event loads: the image where the marker is valid, else the defaults (R193). -/
def loadedImage (s : State) : Image := if s.store.marker then s.store.image else Image.defaults

/-- The Sales Unit at start-up (R66, R67, R171, R193). -/
def salesAtStart (m : Image) : Sales :=
  { plans := m.plans, store := m.store, services := m.services, lanes := ⟨[], [], []⟩, lastSale := ⟨none, none, none⟩,
    credits := m.credits, saleCounter := m.saleCounter, creditCounter := m.creditCounter, tally := m.tally,
    consoleCopy := ⟨none, 1⟩, officeCopy := ⟨none, 1⟩ }

/-- The Entrance Unit at start-up (R24 to R26, R31, R38). -/
def entranceAtStart (inputs : Inputs) : Entrance :=
  { enabled := ⟨true, true, true⟩, grant := none, pointer := .c, grantTimer := none,
    eye := eyeFromInput inputs.entrance, measured := none }

/-- The Tracking Unit at start-up (R2, R3, R10, R16, R21). -/
def trackingAtStart (c : Constants) (inputs : Inputs) : Tracking :=
  { queue := [], nextTag := 1, eyes := refitEyes c inputs.eyes ⟨none, none, none, none, none⟩, exitMatch := none,
    exitTimer := none }

/-- The Pacing Unit at start-up; the commands and thresholds follow from the state (R112, R115 to R117, R124, R125). -/
def pacingAtStart : Pacing :=
  { gate := 0, v := 0, acc := 0, vAvg := 0, stall := 0, resolved := 4, forced := none,
    brushes := Vector.replicate 16 none }

/-- The Tunnel Supervisor at start-up, before the E-stop loop is read (R140, R143, R154, R161). -/
def supervisorAtStart (m : Image) : Supervisor :=
  { tunnel := .stopped, manual := false, startTimer := none, incidents := [], incidentCounter := 1, seconds := 0,
    response := m.response, holder := none, consts := m.consts }

/-- Every record after the image or the defaults are in place (R193, R194 steps 1 and 3). -/
def loadRecords (cause : ResetCause) (s : State) : State :=
  let m := loadedImage s
  { s with
    held := false
    ports := idlePorts
    sales := salesAtStart m
    ent := entranceAtStart s.inputs
    trk := trackingAtStart m.consts s.inputs
    seq := { table := m.table, units := Vector.replicate 16 StationUnit.idle }
    pace := pacingAtStart
    mon := Vector.replicate 6 Slot.idle
    sup := supervisorAtStart m
    store.writing := none
    store.lastOutcome := .none
    store.cause := cause
    store.defaulted := !s.store.marker }

/-- The start-up event (R193, R194); it is an event of a part held in reset alone (log entry 5). -/
def startUp (cause : ResetCause) (s : State) : State :=
  if s.held then
    let s1 := loadRecords cause s
    driveLines (if s1.inputs.estopClosed then s1 else raiseEstop s1)
  else s

/-! ### The commands -/

/-- SET_CONSTANTS (R197, R198). -/
def execSetConstants (p : Port) (c : Constants) (s : State) : Host.Outcome State Fault Refusal :=
  .next (handleSetConstants p c s)

/-- SAVE (R190). -/
def execSave (p : Port) (s : State) : Host.Outcome State Fault Refusal := .next (handleSave p s)

/-- SAVE_COMPLETE (R192). -/
def execSaveComplete (verified : Bool) (s : State) : Host.Outcome State Fault Refusal :=
  .next (event (finishWrite verified) s)

/-- RESET (R193, R195). -/
def execReset (s : State) : Host.Outcome State Fault Refusal := .next (holdReset s)

/-- START_UP (R193, R194). -/
def execStartUp (cause : ResetCause) (s : State) : Host.Outcome State Fault Refusal := .next (startUp cause s)

end Sys2Proof.Machine
end

