-- ==== Sys2Proof/Machine/Ports.lean ====
section
/-! DEFINITION. The events of the Port Unit: a byte received (R175), the handling of a completed frame (R180), a discarded
frame (R176), the gap timer (R175) and the transmitter (R177). -/

namespace Sys2Proof.Machine

/-! ### A completed frame -/

/-- A frame of a kind below 0x70 that names no request (R180, R181). -/
def handleUnknownKind (p : Port) (kind : Nat) (s : State) : State :=
  if s.held then s
  else if kind ≤ 0x6F ∧ kindOfByte kind = none then
    if roomForAnswer (s.ports.get p) then sendAnswer p kind (refusal .unknownKind) (frameDone p s) else frameDone p s
  else s

/-- The request that a command spells, handled on its port (R180); a command that is not a request changes nothing. -/
def runRequest (c : Instr) (s : State) : State :=
  match c with
  | .tunnelStatus p => handleTunnelStatus p s
  | .carList p form => handleCarList p form s
  | .incidentList p i => handleIncidentList p i s
  | .creditList p i => handleCreditList p i s
  | .laneStatus p l => handleLaneStatus p l s
  | .stationStatus p i => handleStationStatus p i s
  | .planListSummary p => handlePlanListSummary p s
  | .planListPlan p n => handlePlanListPlan p n s
  | .planListService p n => handlePlanListService p n s
  | .tallyRead p part take clear => handleTallyRead p part take clear s
  | .quote p buy => handleQuote p buy s
  | .sell p lane buy ref => handleSell p lane buy ref s
  | .void p sale => handleVoid p sale s
  | .addService p sale code level => handleAddService p sale code level s
  | .attachLane p tag lane => handleAttachLane p tag lane s
  | .attachNewSale p tag buy ref => handleAttachNewSale p tag buy ref s
  | .ackIncident p n => handleAckIncident p n s
  | .ackIncidentAll p => handleAckIncidentAll p s
  | .restart p => handleRestart p s
  | .laneReset p l => handleLaneReset p l s
  | .laneEnable p l => handleLaneEnable p l s
  | .laneDisable p l => handleLaneDisable p l s
  | .tunnelClear p => handleTunnelClear p s
  | .stationOff p i => handleStationOff p i s
  | .stationOn p i => handleStationOn p i s
  | .stationReset p i => handleStationReset p i s
  | .claim p => handleClaim p s
  | .yield p => handleYield p s
  | .openTunnel p => handleOpen p s
  | .drain p => handleDrain p s
  | .stop p => handleStop p s
  | .pause p => handlePause p s
  | .resume p => handleResume p s
  | .forceSpeed p cls => handleForceSpeed p cls s
  | .releaseSpeed p => handleReleaseSpeed p s
  | .definePlan p plan name price cls list => handleDefinePlan p plan name price cls list s
  | .erasePlan p n => handleErasePlan p n s
  | .publish p n => handlePublish p n s
  | .withdraw p n => handleWithdraw p n s
  | .setService p code presence price limit => handleSetService p code presence price limit s
  | .setStation p i r => handleSetStation p i r s
  | .setConstants p k => handleSetConstants p k s
  | .setResponse p kind cls => handleSetResponse p kind cls s
  | .issueCredit p value plan => handleIssueCredit p value plan s
  | .save p => handleSave p s
  | .unknownKind _ _ | .frameDiscarded _ _ | .gapTimerExpiry _ | .txStart _ | .txFrameSent _ | .encoderPulse
  | .checkEyeBlockingEdge _ | .checkEyeClearEdge _ | .exitEyeBlockingEdge | .exitEyeClearEdge
  | .entranceEyeBlockingEdge | .entranceEyeClearEdge | .loopOccupied _ | .loopVacant _ | .proofAssert _
  | .proofDeassert _ | .bumperOvertravelEdge _ _ _ | .estopLoopOpen | .estopLoopClose | .reset | .startUp _
  | .grantTimerExpiry | .startTimerExpiry | .exitBlockTimerExpiry | .proofTimerExpiry _ | .retryTimerExpiry _
  | .gateWindowEnd | .scanComplete _ | .secondsTick | .saveComplete _ | .byteReceived _ _ => s

/-- A frame that has passed its sum test: its KIND byte and its payload (R180). -/
def handleFrame (p : Port) (kind : Nat) (payload : List Byte) (s : State) : State :=
  if 0x6F < kind then frameDone p s
  else
    match kindOfByte kind with
    | none => handleUnknownKind p kind s
    | some k =>
      match decodeRequest p k payload with
      | none => respond p k false (refuse .badValue) s
      | some c => runRequest c s

/-! ### Bytes -/

/-- A change of a receive path. -/
def setRx (p : Port) (x : RxPath) (s : State) : State := updatePort p (fun u => { u with rx := x }) s

/-- The sum test: LEN, KIND, every payload byte and CHECK add up to a multiple of 256 (R175). -/
def sumPasses (len : Nat) (body : List Byte) (check : Byte) : Bool := (len + byteSum body + check.toNat) % 256 == 0

/-- The body of a frame that has passed its sum test. -/
def completeFrame (p : Port) (body : List Byte) (s : State) : State :=
  match body with
  | [] => frameDone p s
  | kind :: payload => handleFrame p kind.toNat payload s

/-- A byte received on a path that is not held in reset (R175). -/
def receive (p : Port) (byte : Byte) (s : State) : State :=
  let x := (s.ports.get p).rx
  match x.state with
  | .hunt => if byte = Config.startByte then setRx p { RxPath.idle with state := .length, gap := some Config.gapTime } s else s
  | .length =>
    if 1 ≤ byte.toNat ∧ byte.toNat ≤ 64 then
      setRx p { state := .body, len := byte.toNat, expected := byte.toNat, buf := [], gap := some Config.gapTime } s
    else frameDone p s
  | .body =>
    setRx p { x with
      state := if x.expected ≤ 1 then .check else .body
      expected := x.expected - 1
      buf := x.buf ++ [byte]
      gap := some Config.gapTime } s
  | .check => if sumPasses x.len x.buf byte then completeFrame p x.buf s else frameDone p s

/-- The discard of a frame that the state of the path allows the cause of (R175, R176, R180): a bad length in LENGTH, a
bad sum or a kind of 0x70 or above in CHECK, a framing error in LENGTH, BODY and CHECK. -/
def discardable (cause : DiscardCause) (st : RxState) : Bool :=
  match cause, st with
  | .badLength, .length => true
  | .badSum, .check | .kindNotRequest, .check => true
  | .framing, .length | .framing, .body | .framing, .check => true
  | .badLength, .hunt | .badLength, .body | .badLength, .check => false
  | .badSum, .hunt | .badSum, .length | .badSum, .body => false
  | .kindNotRequest, .hunt | .kindNotRequest, .length | .kindNotRequest, .body => false
  | .framing, .hunt => false

/-- A discarded frame changes nothing but its path (R176). -/
def discardFrame (p : Port) (cause : DiscardCause) (s : State) : State :=
  if discardable cause (s.ports.get p).rx.state then frameDone p s else s

/-- The gap timer of a path expires (R175); a stopped timer does not expire (log entry 5). -/
def gapExpired (p : Port) (s : State) : State :=
  match (s.ports.get p).rx.gap with
  | none => s
  | some _ => frameDone p s

/-! ### The transmitter -/

/-- A free transmitter takes the head frame into transmission (R177). -/
def startFrame (u : PortUnit) : PortUnit := if u.sending = false ∧ u.tx ≠ [] then { u with sending := true } else u

/-- The frame in transmission has been sent: it leaves, and the transmitter takes the next head frame (R177). -/
def endFrame (u : PortUnit) : PortUnit :=
  if u.sending = true ∧ u.tx ≠ [] then { u with tx := u.tx.tail, sending := !u.tx.tail.isEmpty } else u

/-- An event of the Port Unit alone: ignored while the part is held in reset (R193). -/
def portEvent (f : State → State) (s : State) : State := if s.held then s else f s

/-! ### The commands -/

/-- UNKNOWN_KIND (R180). -/
def execUnknownKind (p : Port) (kind : Nat) (s : State) : Host.Outcome State Fault Refusal :=
  .next (handleUnknownKind p kind s)

/-- FRAME_DISCARDED (R176, R180). -/
def execFrameDiscarded (p : Port) (cause : DiscardCause) (s : State) : Host.Outcome State Fault Refusal :=
  .next (portEvent (discardFrame p cause) s)

/-- GAP_TIMER_EXPIRY (R175). -/
def execGapTimerExpiry (p : Port) (s : State) : Host.Outcome State Fault Refusal := .next (portEvent (gapExpired p) s)

/-- TX_START (R177). -/
def execTxStart (p : Port) (s : State) : Host.Outcome State Fault Refusal :=
  .next (portEvent (updatePort p startFrame) s)

/-- TX_FRAME_SENT (R177). -/
def execTxFrameSent (p : Port) (s : State) : Host.Outcome State Fault Refusal :=
  .next (portEvent (updatePort p endFrame) s)

/-- BYTE_RECEIVED (R175, R180). -/
def execByteReceived (p : Port) (byte : Byte) (s : State) : Host.Outcome State Fault Refusal :=
  .next (portEvent (receive p byte) s)

end Sys2Proof.Machine
end

