-- ==== Sys2Proof/Machine/Dispatch.lean ====
section
/-! DEFINITION. The meaning of every command: one arm for each constructor of `Instr`. -/

namespace Sys2Proof.Machine

/-- The effect of a command on everything but the queue of waiting commands. -/
def exec (i : Instr) (s : State) : Host.Outcome State Fault Refusal :=
  match i with
  | .tunnelStatus p => Sys2Proof.Machine.execTunnelStatus p s
  | .carList p form => Sys2Proof.Machine.execCarList p form s
  | .incidentList p index => Sys2Proof.Machine.execIncidentList p index s
  | .creditList p index => Sys2Proof.Machine.execCreditList p index s
  | .laneStatus p lane => Sys2Proof.Machine.execLaneStatus p lane s
  | .stationStatus p station => Sys2Proof.Machine.execStationStatus p station s
  | .planListSummary p => Sys2Proof.Machine.execPlanListSummary p s
  | .planListPlan p plan => Sys2Proof.Machine.execPlanListPlan p plan s
  | .planListService p code => Sys2Proof.Machine.execPlanListService p code s
  | .tallyRead p part take clear => Sys2Proof.Machine.execTallyRead p part take clear s
  | .quote p buy => Sys2Proof.Machine.execQuote p buy s
  | .sell p lane buy ref => Sys2Proof.Machine.execSell p lane buy ref s
  | .void p sale => Sys2Proof.Machine.execVoid p sale s
  | .addService p sale code level => Sys2Proof.Machine.execAddService p sale code level s
  | .attachLane p tag lane => Sys2Proof.Machine.execAttachLane p tag lane s
  | .attachNewSale p tag buy ref => Sys2Proof.Machine.execAttachNewSale p tag buy ref s
  | .ackIncident p number => Sys2Proof.Machine.execAckIncident p number s
  | .ackIncidentAll p => Sys2Proof.Machine.execAckIncidentAll p s
  | .restart p => Sys2Proof.Machine.execRestart p s
  | .laneReset p lane => Sys2Proof.Machine.execLaneReset p lane s
  | .laneEnable p lane => Sys2Proof.Machine.execLaneEnable p lane s
  | .laneDisable p lane => Sys2Proof.Machine.execLaneDisable p lane s
  | .tunnelClear p => Sys2Proof.Machine.execTunnelClear p s
  | .stationOff p station => Sys2Proof.Machine.execStationOff p station s
  | .stationOn p station => Sys2Proof.Machine.execStationOn p station s
  | .stationReset p station => Sys2Proof.Machine.execStationReset p station s
  | .claim p => Sys2Proof.Machine.execClaim p s
  | .yield p => Sys2Proof.Machine.execYield p s
  | .openTunnel p => Sys2Proof.Machine.execOpen p s
  | .drain p => Sys2Proof.Machine.execDrain p s
  | .stop p => Sys2Proof.Machine.execStop p s
  | .pause p => Sys2Proof.Machine.execPause p s
  | .resume p => Sys2Proof.Machine.execResume p s
  | .forceSpeed p cls => Sys2Proof.Machine.execForceSpeed p cls s
  | .releaseSpeed p => Sys2Proof.Machine.execReleaseSpeed p s
  | .definePlan p plan name price cls list => Sys2Proof.Machine.execDefinePlan p plan name price cls list s
  | .erasePlan p plan => Sys2Proof.Machine.execErasePlan p plan s
  | .publish p plan => Sys2Proof.Machine.execPublish p plan s
  | .withdraw p plan => Sys2Proof.Machine.execWithdraw p plan s
  | .setService p code presence price limit => Sys2Proof.Machine.execSetService p code presence price limit s
  | .setStation p station r => Sys2Proof.Machine.execSetStation p station r s
  | .setConstants p consts => Sys2Proof.Machine.execSetConstants p consts s
  | .setResponse p kind cls => Sys2Proof.Machine.execSetResponse p kind cls s
  | .issueCredit p value plan => Sys2Proof.Machine.execIssueCredit p value plan s
  | .save p => Sys2Proof.Machine.execSave p s
  | .unknownKind p kind => Sys2Proof.Machine.execUnknownKind p kind s
  | .frameDiscarded p cause => Sys2Proof.Machine.execFrameDiscarded p cause s
  | .gapTimerExpiry p => Sys2Proof.Machine.execGapTimerExpiry p s
  | .txStart p => Sys2Proof.Machine.execTxStart p s
  | .txFrameSent p => Sys2Proof.Machine.execTxFrameSent p s
  | .encoderPulse => Sys2Proof.Machine.execEncoderPulse s
  | .checkEyeBlockingEdge k => Sys2Proof.Machine.execCheckEyeBlockingEdge k s
  | .checkEyeClearEdge k => Sys2Proof.Machine.execCheckEyeClearEdge k s
  | .exitEyeBlockingEdge => Sys2Proof.Machine.execExitEyeBlockingEdge s
  | .exitEyeClearEdge => Sys2Proof.Machine.execExitEyeClearEdge s
  | .entranceEyeBlockingEdge => Sys2Proof.Machine.execEntranceEyeBlockingEdge s
  | .entranceEyeClearEdge => Sys2Proof.Machine.execEntranceEyeClearEdge s
  | .loopOccupied l => Sys2Proof.Machine.execLoopOccupied l s
  | .loopVacant l => Sys2Proof.Machine.execLoopVacant l s
  | .proofAssert n => Sys2Proof.Machine.execProofAssert n s
  | .proofDeassert n => Sys2Proof.Machine.execProofDeassert n s
  | .bumperOvertravelEdge slot line active => Sys2Proof.Machine.execBumperOvertravelEdge slot line active s
  | .estopLoopOpen => Sys2Proof.Machine.execEstopLoopOpen s
  | .estopLoopClose => Sys2Proof.Machine.execEstopLoopClose s
  | .reset => Sys2Proof.Machine.execReset s
  | .startUp cause => Sys2Proof.Machine.execStartUp cause s
  | .grantTimerExpiry => Sys2Proof.Machine.execGrantTimerExpiry s
  | .startTimerExpiry => Sys2Proof.Machine.execStartTimerExpiry s
  | .exitBlockTimerExpiry => Sys2Proof.Machine.execExitBlockTimerExpiry s
  | .proofTimerExpiry n => Sys2Proof.Machine.execProofTimerExpiry n s
  | .retryTimerExpiry n => Sys2Proof.Machine.execRetryTimerExpiry n s
  | .gateWindowEnd => Sys2Proof.Machine.execGateWindowEnd s
  | .scanComplete samples => Sys2Proof.Machine.execScanComplete samples s
  | .secondsTick => Sys2Proof.Machine.execSecondsTick s
  | .saveComplete verified => Sys2Proof.Machine.execSaveComplete verified s
  | .byteReceived p byte => Sys2Proof.Machine.execByteReceived p byte s

end Sys2Proof.Machine
end

