-- ==== Sys2Proof/WellFormed.lean ====
section
/-! DEFINITION. When a command can arrive at all: every field fits the width R199 gives it, a frame's payload has at
most 63 bytes (R175), a lane operand is present exactly where the port's form has one (R182, R201), and an UNKNOWN_KIND
frame has a kind that R180 answers so. A value outside a rule's range is NOT ill-formed: the rule refuses or clamps it. -/

namespace Sys2Proof

/-- The value fits one byte. -/
def fits1 (n : Nat) : Bool := n < 256
/-- The value fits two bytes. -/
def fits2 (n : Nat) : Bool := n < 65536

/-- Every pair fits its two bytes. -/
def pairsFit (l : List RawPair) : Bool := l.all fun q => fits1 q.code && fits1 q.level

/-- The fields of a purchase fit their widths. -/
def purchaseFits (q : Purchase) : Bool := fits1 q.plan && fits2 q.credit && pairsFit q.addOns

/-- Four values fit two bytes each. -/
def fourFit (t : ByFour Nat) : Bool := fits2 t.one && fits2 t.two && fits2 t.three && fits2 t.four

/-- The brush fields fit their widths. -/
def brushFits (b : RawBrush) : Bool :=
  fits1 b.slot && fits2 b.k && fits2 b.brMin && fits2 b.brMax && fits2 b.icA && fits2 b.icB && fits2 b.jamMargin &&
    fits2 b.slackMargin && fits1 b.jamN && fits1 b.slackN && fits1 b.jamBlank && fits1 b.qualifier && fits1 b.signals

/-- The level table or the brush fields fit their widths. -/
def gearFits : RawGear → Bool
  | .levels t => fourFit t
  | .brush b => brushFits b

/-- The fields of a station record fit their widths. -/
def stationFits (r : RawStation) : Bool :=
  fits1 r.code && fits1 r.kind && fits2 r.sp && fits2 r.pre && fits2 r.post && fits1 r.mode && fits2 r.proofWait &&
    fits1 r.retries && gearFits r.gear

/-- The constants fit their widths. -/
def constantsFit (c : Constants) : Bool :=
  fits2 c.tunnelLen && fits2 c.ce1 && fits2 c.ce2 && fits2 c.ce3 && fits2 c.ce4 && fits2 c.eyeTol && fits2 c.clearMin &&
    fits2 c.lenMin && fits2 c.lenMax && fits2 c.admitSpacing && fits2 c.armLead && fits2 c.commitLead &&
    fits1 c.grantTimeout && fits1 c.startWarn && fits1 c.exitBlockTime && fits1 c.stallWindows && fourFit c.speed

/-- A lane operand is absent from a lane port's frame and present, in one byte, in the console's and the office's. -/
def laneFormFits (p : Port) (lane : Option Nat) : Bool :=
  match lane with
  | none => p.isLane
  | some l => !p.isLane && fits1 l

/-- The command can arrive: see the head of this file. -/
def wellFormed (c : Instr) : Bool :=
  match c with
  | .tunnelStatus _ | .planListSummary _ | .ackIncidentAll _ | .restart _ | .tunnelClear _ | .claim _ | .yield _
  | .openTunnel _ | .drain _ | .stop _ | .pause _ | .resume _ | .releaseSpeed _ | .save _ => true
  | .carList _ .summary => true
  | .carList _ (.record tag part) => fits1 tag && fits1 part
  | .incidentList _ n | .creditList _ n | .planListPlan _ n | .planListService _ n | .laneReset _ n | .laneEnable _ n
  | .laneDisable _ n | .stationOff _ n | .stationOn _ n | .stationReset _ n | .forceSpeed _ n | .erasePlan _ n
  | .publish _ n | .withdraw _ n => fits1 n
  | .laneStatus p lane => laneFormFits p lane
  | .stationStatus _ none => true
  | .stationStatus _ (some n) => fits1 n
  | .tallyRead _ part _ _ => fits1 part
  | .quote _ buy => purchaseFits buy && 4 + 2 * buy.addOns.length ≤ 63
  | .sell p lane buy ref =>
    laneFormFits p lane && purchaseFits buy && fits2 ref && 6 + lane.toList.length + 2 * buy.addOns.length ≤ 63
  | .void _ sale => fits2 sale
  | .addService _ sale code level => fits2 sale && fits1 code && fits1 level
  | .attachLane _ tag lane => fits1 tag && fits1 lane
  | .attachNewSale _ tag buy ref => fits1 tag && purchaseFits buy && fits2 ref && 8 + 2 * buy.addOns.length ≤ 63
  | .ackIncident _ n => fits1 n && n != 0
  | .definePlan _ plan name price cls list =>
    fits1 plan && name.all fits1 && fits2 price && fits1 cls && pairsFit list && 6 + name.length + 2 * list.length ≤ 63
  | .setService _ code presence price limit => fits1 code && fits1 presence && fits2 price && fits1 limit
  | .setStation _ i r => fits1 i && stationFits r
  | .setConstants _ c => constantsFit c
  | .setResponse _ kind cls => fits1 kind && fits1 cls
  | .issueCredit _ value plan => fits2 value && fits1 plan
  | .unknownKind _ kind => kind ≤ 0x6F && (kindOfByte kind).isNone
  | .frameDiscarded _ _ | .gapTimerExpiry _ | .txStart _ | .txFrameSent _ | .encoderPulse
  | .checkEyeBlockingEdge _ | .checkEyeClearEdge _ | .exitEyeBlockingEdge | .exitEyeClearEdge
  | .entranceEyeBlockingEdge | .entranceEyeClearEdge | .loopOccupied _ | .loopVacant _ | .proofAssert _
  | .proofDeassert _ | .bumperOvertravelEdge _ _ _ | .estopLoopOpen | .estopLoopClose | .reset | .startUp _
  | .grantTimerExpiry | .startTimerExpiry | .exitBlockTimerExpiry | .proofTimerExpiry _ | .retryTimerExpiry _
  | .gateWindowEnd | .scanComplete _ | .secondsTick | .saveComplete _ | .byteReceived _ _ => true

end Sys2Proof
end

