-- ==== Sys2Proof/Safety.lean ====
section
/-! DEFINITION. What the statements speak of: when a request reaches its owner, the state an answer leaves, and the
invariants of the part (what every reachable state satisfies). -/

namespace Sys2Proof.Machine

/-! ### Requests -/

/-- A request of a kind that completes on a port reaches its owner: the part runs, the answer has a place (R179) and the
port's role permits the request (R182). -/
def Reaches (p : Port) (k : ReqKind) (s : State) : Prop :=
  s.held = false ∧ roomForAnswer (s.ports.get p) = true ∧ permitted k p = true

/-- An OK answer of a request joins its port's queue (R179, R181). -/
def answeredOk (p : Port) (k : ReqKind) (fields : List Byte) (s : State) : State :=
  sendAnswer p (kindByte k) (answerOk fields) s

/-- A refusal that leaves every record unchanged: the receive path back in HUNT, the answer in the queue (R175, R181). -/
def refusedWith (p : Port) (k : ReqKind) (r : Result) (s : State) : State :=
  sendAnswer p (kindByte k) (refusal r) (frameDone p s)

/-- An OK answer that leaves every record unchanged (R181). -/
def replied (p : Port) (k : ReqKind) (fields : List Byte) (s : State) : State := answeredOk p k fields (frameDone p s)

/-- The state that a command leads to; a command that answers no next state leads nowhere. -/
def after (c : Instr) (s : State) : State :=
  match exec c s with
  | .next t => t
  | .fault _ | .refused _ => s

/-- The state after a list of bytes received on a port, one BYTE_RECEIVED command after another. -/
def receiveAll (p : Port) (bytes : List Byte) (s : State) : State :=
  bytes.foldl (fun s x => after (.byteReceived p x) s) s

/-- The five ports. -/
def allPorts : List Port := [.p0, .p1, .p2, .p3, .p4]

/-- The eleven incident kinds. -/
def allIncidentKinds : List IncidentKind :=
  [.estop, .brushCollision, .carMissing, .conveyorStall, .queueOverflow, .phantom, .tailgate, .exitBlocked,
    .stationFault, .unpaidEntry, .shortObject]

/-- The images of the Settings Store that can come to be loaded: the stored image while its marker is valid, and the
snapshot of a write in progress (R189, R190). -/
def imagesOf (s : State) : List Image := (if s.store.marker then [s.store.image] else []) ++ s.store.writing.toList

/-- The request kind of a command that is a request. -/
def kindOf (c : Instr) : Option ReqKind := (encodeRequest c).map Prod.fst

/-- The requests that a write in progress bars (R191). -/
def barredBySave : ReqKind → Bool
  | .definePlan | .erasePlan | .publish | .withdraw | .setService | .setStation | .setConstants | .setResponse
  | .save => true
  | .tunnelStatus | .carList | .incidentList | .creditList | .laneStatus | .stationStatus | .planList | .tallyRead
  | .quote | .sell | .void | .addService | .attach | .ackIncident | .restart | .laneReset | .laneEnable | .laneDisable
  | .tunnelClear | .stationOff | .stationOn | .stationReset | .claim | .yield | .openTunnel | .drain | .stop | .pause
  | .resume | .forceSpeed | .releaseSpeed | .issueCredit => false

/-- The requests that only the control holder may use, PAUSE and RESUME when sent by P4 (R162). -/
def reservedToHolder (p : Port) : ReqKind → Bool
  | .yield | .openTunnel | .drain | .stop | .forceSpeed | .releaseSpeed => true
  | .pause | .resume => p == .p4
  | .tunnelStatus | .carList | .incidentList | .creditList | .laneStatus | .stationStatus | .planList | .tallyRead
  | .quote | .sell | .void | .addService | .attach | .ackIncident | .restart | .laneReset | .laneEnable | .laneDisable
  | .tunnelClear | .stationOff | .stationOn | .stationReset | .claim | .definePlan | .erasePlan | .publish | .withdraw
  | .setService | .setStation | .setConstants | .setResponse | .issueCredit | .save => false

/-- The payload of a request's frame fits a form of its kind: test 5 of R180 (R182, R201). -/
def formFits (c : Instr) : Bool :=
  match c with
  | .laneStatus p lane => laneForm p lane
  | .sell p lane _ _ => laneForm p lane
  | .setStation _ _ r => stationForm r
  | _ => true

/-- The command that a byte received completes may be any request; the start-up event gives every record anew. -/
def carriesAny : Instr → Bool
  | .byteReceived _ _ => true
  | .startUp _ => true
  | _ => false

/-! ### Invariants -/

/-- A transmit queue holds at most 8 frames and at most 7 notices, and a frame in transmission is its head (R177, R178). -/
def PortBounded (u : PortUnit) : Prop :=
  u.tx.length ≤ 8 ∧ (u.tx.filter Frame.isNotice).length ≤ 7 ∧ (u.sending = true → u.tx ≠ [])

/-- Every transmit queue keeps its bounds (R177, R178). -/
def TxBounded (s : State) : Prop := ∀ p ∈ allPorts, PortBounded (s.ports.get p)

/-- A grant is outstanding only while the tunnel is RUNNING, and the grant timer runs exactly while one is (R30, R32,
R33). -/
def GrantHeld (s : State) : Prop :=
  (s.ent.grant.isSome = true → s.sup.tunnel = .running) ∧ s.ent.grantTimer.isSome = s.ent.grant.isSome

/-- Every kind has a class that the kind allows (R153). -/
def ResponseLegal (r : Response) : Prop := ∀ k ∈ allIncidentKinds, allowedClass k (r.get k) = true

/-- The tunnel is HALTED. -/
def Tunnel.isHalted : Tunnel → Bool
  | .halted _ => true
  | .stopped | .starting _ | .running | .draining | .paused _ => false

/-- Outside HALTED no HALT-class record is listed and the E-stop loop is closed (R140, R150, R152); the response tables
are legal (R153). -/
def HaltsHold (s : State) : Prop :=
  (s.held = false → s.sup.tunnel.isHalted = false → haltListed s = false ∧ s.inputs.estopClosed = true) ∧
    ResponseLegal s.sup.response ∧ ∀ m ∈ imagesOf s, ResponseLegal m.response

/-- The output lines, the resolved class, the commands and the thresholds are those of the present state, and every line
is off in a reset (R26, R92, R113, R121, R124, R141, R193). -/
def LinesFollow (s : State) : Prop := if s.held then s.out = Outputs.off else driveLines s = s

/-- At most 12 records with distinct tags of 1 to 255, and a next-tag counter of 1 to 255 (R2, R3). -/
def QueueSound (s : State) : Prop :=
  s.trk.queue.length ≤ 12 ∧ (s.trk.queue.map Car.tag).Nodup ∧ (∀ car ∈ s.trk.queue, 1 ≤ car.tag ∧ car.tag ≤ 255) ∧
    1 ≤ s.trk.nextTag ∧ s.trk.nextTag ≤ 255

/-- At most 8 incident records with distinct numbers of 1 to 255, and a counter of 1 to 255 (R154). -/
def IncidentsSound (s : State) : Prop :=
  s.sup.incidents.length ≤ 8 ∧ (s.sup.incidents.map Incident.number).Nodup ∧
    (∀ r ∈ s.sup.incidents, 1 ≤ r.number ∧ r.number ≤ 255) ∧ 1 ≤ s.sup.incidentCounter ∧ s.sup.incidentCounter ≤ 255

/-- At most 16 credits with distinct numbers of 1 to 9999, and a credit counter of 1 to 9999 (R82, R83). -/
def CreditsSound (credits : List Credit) (counter : Nat) : Prop :=
  credits.length ≤ 16 ∧ (credits.map Credit.number).Nodup ∧ (∀ c ∈ credits, 1 ≤ c.number ∧ c.number ≤ 9999) ∧
    1 ≤ counter ∧ counter ≤ 9999

/-- The live credit list and those of the images are sound (R82, R189). -/
def CreditsHold (s : State) : Prop :=
  CreditsSound s.sales.credits s.sales.creditCounter ∧ ∀ m ∈ imagesOf s, CreditsSound m.credits m.creditCounter

/-- The lists of the plans fill the plan store, at most 96 entries, and an EMPTY plan has none (R50). -/
def Packed (plans : Tab 12 Plan) (store : List SvcLevel) : Prop :=
  store.length = (allPlans.map fun i => (tabGet plans i).len).sum ∧ store.length ≤ 96 ∧
    ∀ i ∈ allPlans, (tabGet plans i).state = .empty → (tabGet plans i).len = 0

/-- The live plan store and those of the images are packed (R50, R189). -/
def StorePacked (s : State) : Prop :=
  Packed s.sales.plans s.sales.store ∧ ∀ m ∈ imagesOf s, Packed m.plans m.store

/-- A lane queue holds at most 4 tickets (R66). -/
def LanesBounded (s : State) : Prop := ∀ l ∈ allLanes, (s.sales.lanes.get l).length ≤ 4

/-- The bounds of the tunnel queue and of the lane queues (R3, R66). -/
def QueuesBounded (s : State) : Prop := QueueSound s ∧ LanesBounded s

/-- Fronts that strictly decrease from the oldest record to the newest (R3). -/
def FrontsFall : List Car → Prop
  | [] => True
  | [_] => True
  | a :: b :: rest => b.front < a.front ∧ FrontsFall (b :: rest)

end Sys2Proof.Machine
end

