-- ==== Sys2Proof/Certificates/Slice0/Obligations.lean ====
section
/-! DEFINITION. The statements for the provers. A hypothesis `Reaches p k s` says that the part runs, that the answer has a
place and that the port's role permits the request; `answeredOk` and `refusedWith` are the states in which the answer has
joined its port's queue; `driveLines` is the end of an event, in which every output line takes the value the state gives
it. An equation for the next state is also the frame: a record it does not write is unchanged. -/

open Sys2Proof Sys2Proof.Machine

/-! ### The step, and every command -/

/-- Section 5.6 of the scope file (one event at a time), and log entry 8 for the idle step: a step runs the command at the
front of the queue on the state with the queue's rest, and an empty queue leaves the state as it is. -/
def Obligations.StepRunsFrontCommand : Prop :=
  (∀ (c : Instr) (rest : List Instr) (s : State), s.pending = c :: rest →
      step s = exec c { s with pending := rest }) ∧
    ∀ s : State, s.pending = [] → step s = .next s

/-- Scope section 2 (every event has an effect), with the queue as the model's own field (log entry 8): every command
answers a next state in every state, and no command writes the queue of waiting commands. -/
def Obligations.EveryCommandAnswersNext : Prop :=
  ∀ (c : Instr) (s : State), ∃ t, exec c s = .next t ∧ t.pending = s.pending

/-- R193: while the reset pin is asserted or the supply is down the part takes no event. Every command but the reset
itself and the start-up event leaves every record as it is; the input lines alone may change (log entry 17). -/
def Obligations.HeldPartTakesNoEvent : Prop :=
  ∀ (c : Instr) (s t : State), s.held = true → c ≠ .reset → (∀ cause, c ≠ .startUp cause) → exec c s = .next t →
    t = { s with inputs := t.inputs }

/-! ### Frames -/

/-- R199, R200 and R201, with log entry 25 for the one-byte payload of ERASE_PLAN, PUBLISH and WITHDRAW, which R201 does
not list: the payload that these layouts give a request that can arrive is at most 63 bytes long, its KIND byte names
its kind, and reading the payload on the port it came from gives the request back with every field. -/
def Obligations.RequestFramesRoundTrip : Prop :=
  ∀ (c : Instr) (p : Port) (k : ReqKind) (payload : List Byte),
    wellFormed c = true → requestPort c = some p → encodeRequest c = some (k, payload) →
      payload.length ≤ 63 ∧ kindOfByte (kindByte k) = some k ∧ decodeRequest p k payload = some c

/-- R175, R177 and R180, with log entry 15 (a request's row stands for its whole frame) and log entry 25 (the payload of
ERASE_PLAN, PUBLISH and WITHDRAW): the bytes of a request's frame (start byte, LEN, KIND, payload, CHECK) received one
by one on a path in HUNT lead to the state that the request's own row leads to. -/
def Obligations.FrameBytesRunTheirRequest : Prop :=
  ∀ (c : Instr) (p : Port) (k : ReqKind) (payload : List Byte) (s : State),
    wellFormed c = true → requestPort c = some p → encodeRequest c = some (k, payload) →
      s.held = false → (s.ports.get p).rx.state = .hunt →
        receiveAll p (frameBytes (BitVec.ofNat 8 (kindByte k) :: payload)) s = after c s

/-! ### Invariants that every step keeps -/

/-- R177, R178 and R179: no transmit queue ever holds more than 8 frames or more than 7 notices, and a frame in
transmission is the head of its queue. -/
def Obligations.TransmitQueuesStayBounded : Prop :=
  ∀ s t : State, TxBounded s → step s = .next t → TxBounded t

/-- R32, R33 and R30: a grant is outstanding only while the tunnel is RUNNING, and the grant timer runs exactly while a
grant is outstanding. -/
def Obligations.GrantOnlyWhileRunning : Prop :=
  ∀ s t : State, GrantHeld s → step s = .next t → GrantHeld t

/-- R140, R150, R152 and R153: outside HALTED no HALT-class record is listed and the E-stop loop is closed, and every kind
keeps a class that it allows. -/
def Obligations.HaltsHoldOutsideHalted : Prop :=
  ∀ s t : State, HaltsHold s → step s = .next t → HaltsHold t

/-- R26, R92, R113, R121, R124, R141 and R193: after every step the arms, the entrance signal, the drive, the horn, the
conveyor speed, the station lines, the brush commands and the thresholds are those of the present state, and every line
is off while the part is held in reset (that they are brought there once, at the end of the event: log entry 19). Those
values are: a lane's arm open exactly while the lane holds the grant; the signal green exactly while a grant is
outstanding; the drive on exactly in RUNNING and DRAINING, the horn exactly in STARTING; ARM on in ARMING, READY, FIRING
and HELD; FIRE of a SPRAY or AIR station on exactly while FIRING, with the INTENSITY of the highest level among the
ACTIVE entries held for it, and 0 elsewhere; FIRE of a BRUSH station off, with the brush command as its INTENSITY. -/
def Obligations.OutputLinesFollowState : Prop :=
  (∀ s t : State, LinesFollow s → step s = .next t → LinesFollow t) ∧
  (∀ (s : State) (l : Lane),
    ((driveLines s).out.arms.get l = true ↔ ∃ g, s.ent.grant = some g ∧ g.lane = l) ∧
    ((driveLines s).out.green = true ↔ ∃ g, s.ent.grant = some g) ∧
    ((driveLines s).out.drive = true ↔ s.sup.tunnel = .running ∨ s.sup.tunnel = .draining) ∧
    ((driveLines s).out.horn = true ↔ ∃ m, s.sup.tunnel = .starting m)) ∧
  ∀ (s : State) (i : Fin 16), ∃ x : StationLines, x = tabGet (driveLines s).out.stations i ∧
    (x.arm = true ↔ (tabGet s.seq.units i).state ∈ [.arming, .ready, .firing, .held]) ∧
    (∀ t, (tabGet s.seq.table i).gear = .spray t ∨ (tabGet s.seq.table i).gear = .air t →
      (x.fire = true ↔ (tabGet s.seq.units i).state = .firing) ∧
      ((tabGet s.seq.units i).state ≠ .firing → x.intensity = 0) ∧
      ((tabGet s.seq.units i).state = .firing → ∀ n ∈ activeLevels s i, (∀ m ∈ activeLevels s i, m ≤ n) →
        x.intensity = fourAt t n)) ∧
    (∀ b, (tabGet s.seq.table i).gear = .brush b → x.fire = false ∧
      ((tabGet s.seq.units i).state ∈ [.idle, .retryWait, .held, .fault, .offLine] → x.intensity = 0) ∧
      (s.sup.tunnel.runs = true → (tabGet s.seq.units i).state ∈ [.arming, .ready] → x.intensity = b.brMin) ∧
      ∃ q : Pace, tabGet (driveLines s).pace.brushes i = some q ∧ x.intensity = q.cmd) ∧
    ∀ n, n ∈ activeLevels s i ↔
      ∃ car ∈ s.trk.queue, ∃ e ∈ car.schedule, e.station = i ∧ e.state = .active ∧ e.level = n

/-- R2, R3 and R66: at most 12 car records with distinct tags of 1 to 255, a next-tag counter of 1 to 255, and at most 4
tickets in each lane queue. -/
def Obligations.QueuesStayBounded : Prop :=
  ∀ s t : State, QueuesBounded s → step s = .next t → QueuesBounded t

/-- R82, R83, R154 and R189: at most 8 incident records with distinct numbers of 1 to 255 and a counter of 1 to 255; at
most 16 credits with distinct numbers of 1 to 9999 and a counter of 1 to 9999, live, in the stored image while its
marker is valid, and in the snapshot. -/
def Obligations.NumberedListsStaySound : Prop :=
  (∀ s t : State, IncidentsSound s → step s = .next t → IncidentsSound t) ∧
    ∀ s t : State, CreditsHold s → step s = .next t → CreditsHold t

/-- R50, R52, R53 and R189: the plans' lists fill the plan store without gaps, at most 96 entries, live, in the stored
image while its marker is valid, and in the snapshot. -/
def Obligations.PlanStoreStaysPacked : Prop :=
  ∀ s t : State, StorePacked s → step s = .next t → StorePacked t

/-- Every invariant above holds right after the start-up event of a power-on (R193, R194; log entries 2 and 3). -/
def Obligations.InvariantsHoldAtReset : Prop :=
  TxBounded State.reset ∧ GrantHeld State.reset ∧ HaltsHold State.reset ∧ LinesFollow State.reset ∧
    QueuesBounded State.reset ∧ IncidentsSound State.reset ∧ CreditsHold State.reset ∧ StorePacked State.reset

/-! ### The tests of a request -/

/-- R180, R182, R190 and R191. A request that its port's role does not permit is answered NOT_PERMITTED and changes
nothing else than its own port. While a write is in progress the requests that would change a setting, and a second
SAVE, are refused BUSY with every record unchanged, whatever else their owners would have found. (`LinesFollow`, an
invariant stated above, is what makes the end of the event change no line.) -/
def Obligations.RoleAndSaveTestsRefuse : Prop :=
  (∀ (c : Instr) (p : Port) (k : ReqKind) (s : State),
      requestPort c = some p → kindOf c = some k → s.held = false → roomForAnswer (s.ports.get p) = true →
        permitted k p = false → exec c s = .next (refusedWith p k .notPermitted s)) ∧
  ∀ (c : Instr) (p : Port) (k : ReqKind) (s : State),
    requestPort c = some p → kindOf c = some k → barredBySave k = true → formFits c = true → Reaches p k s →
      LinesFollow s → s.store.writing.isSome = true → exec c s = .next (refusedWith p k .busy s)

/-- R161 and R162; that a YIELD answer sends no fields is log entry 10. CLAIM from P0 always takes control, with
CONTROL_LOST to P4 where P4 held it; from P4 it succeeds unless P0 holds control, when it is refused BUSY. YIELD from
the holder makes control absent. The requests reserved to the holder, PAUSE and RESUME when sent by P4 among them, are
refused NO_CONTROL from a port without control. -/
def Obligations.ControlIsHeldByOnePort : Prop :=
  (∀ s : State, Reaches .p0 .claim s → s.sup.holder ≠ some .p4 →
      exec (.claim .p0) s = .next (answeredOk .p0 .claim (b1 0) { frameDone .p0 s with sup.holder := some .p0 })) ∧
  (∀ s : State, Reaches .p0 .claim s → s.sup.holder = some .p4 →
      exec (.claim .p0) s =
        .next (answeredOk .p0 .claim (b1 0)
          { notify .p4 (.controlLost .p0) (frameDone .p0 s) with sup.holder := some .p0 })) ∧
  (∀ s : State, Reaches .p4 .claim s → s.sup.holder ≠ some .p0 →
      exec (.claim .p4) s = .next (answeredOk .p4 .claim (b1 4) { frameDone .p4 s with sup.holder := some .p4 })) ∧
  (∀ s : State, Reaches .p4 .claim s → s.sup.holder = some .p0 →
      exec (.claim .p4) s = .next (refusedWith .p4 .claim .busy s)) ∧
  (∀ (p : Port) (s : State), Reaches p .yield s → s.sup.holder = some p →
      exec (.yield p) s = .next (answeredOk p .yield [] { frameDone p s with sup.holder := none })) ∧
  ∀ (c : Instr) (p : Port) (k : ReqKind) (s : State),
    requestPort c = some p → kindOf c = some k → reservedToHolder p k = true → Reaches p k s → LinesFollow s →
      s.sup.holder ≠ some p → exec c s = .next (refusedWith p k .noControl s)

/-- R49, R58, R66, R71, R87, R153, R161, R114, R25, R154, R191 and R196: which commands can change a setting. Beside the
start-up event and the byte that completes a request's frame, a record is changed by the requests that its rules name and
by no other command. -/
def Obligations.SettingsChangeByTheirOwnRequests : Prop :=
  ∀ (c : Instr) (s t : State), exec c s = .next t → carriesAny c = false →
    (kindOf c ∉ [some .definePlan, some .erasePlan, some .publish, some .withdraw] →
      t.sales.plans = s.sales.plans ∧ t.sales.store = s.sales.store) ∧
    (kindOf c ≠ some .setService → t.sales.services = s.sales.services) ∧
    (kindOf c ∉ [some .setStation, some .setConstants] → t.seq.table = s.seq.table) ∧
    (kindOf c ≠ some .setConstants → t.sup.consts = s.sup.consts) ∧
    (kindOf c ≠ some .setResponse → t.sup.response = s.sup.response) ∧
    (kindOf c ∉ [some .claim, some .yield] → t.sup.holder = s.sup.holder) ∧
    (kindOf c ∉ [some .forceSpeed, some .releaseSpeed] → t.pace.forced = s.pace.forced) ∧
    (kindOf c ∉ [some .laneEnable, some .laneDisable] → t.ent.enabled = s.ent.enabled) ∧
    (kindOf c ∉ [some .sell, some .attach] → t.sales.saleCounter = s.sales.saleCounter) ∧
    (kindOf c ≠ some .sell → t.sales.lastSale = s.sales.lastSale) ∧
    (kindOf c ∉ [some .sell, some .void, some .addService, some .attach, some .laneReset] →
      c ≠ .entranceEyeBlockingEdge → t.sales.lanes = s.sales.lanes) ∧
    (c ≠ .secondsTick → t.sup.seconds = s.sup.seconds) ∧
    (kindOf c ≠ some .save → (∀ v, c ≠ .saveComplete v) → c ≠ .reset → t.store = s.store)

/-! ### Numbers and credits -/

/-- R2, R65, R83 and R154: allocation takes the first value, from the counter on (the top is followed by 1), that no
record in use carries, and leaves the counter at the value after it. With fewer records in use than values, one is
found. -/
def Obligations.AllocationTakesFirstFreeNumber : Prop :=
  ∀ (top : Nat) (used : List Nat) (counter : Nat), 1 ≤ counter → counter ≤ top → used.length < top →
    (allocate top used counter).1 ∉ used ∧
      1 ≤ (allocate top used counter).1 ∧ (allocate top used counter).1 ≤ top ∧
      (allocate top used counter).2 = nextCount top (allocate top used counter).1 ∧
      ∃ k, k ≤ used.length ∧ (allocate top used counter).1 = (nextCount top)^[k] counter ∧
        ∀ j, j < k → (nextCount top)^[j] counter ∈ used

/-- R83: an issue first drops the oldest of 16 credits and counts it; then it takes the first number, from the counter on
(9999 is followed by 1), that no kept credit carries, within 16 tries; last the new credit joins the tail and the issue is
counted. The new number and the dropped one are returned, the counter stands at the value after the new number (it is 1 in
the defaults), and nothing else changes. A SELL that names a credit that has gone, and is good otherwise, is refused
NOT_FOUND. -/
def Obligations.CreditIssueDropsThenAllocates : Prop :=
  Image.defaults.creditCounter = 1 ∧
  (∀ (value : Nat) (origin plan : Option Nat) (s : State), CreditsSound s.sales.credits s.sales.creditCounter →
    ∃ (kept : List Credit) (n tries : Nat),
      (s.sales.credits.length < 16 → kept = s.sales.credits) ∧
      (s.sales.credits.length = 16 → kept = s.sales.credits.tail) ∧
      n ∉ kept.map Credit.number ∧ tries ≤ 15 ∧ n = (nextCount 9999)^[tries] s.sales.creditCounter ∧
      (∀ j, j < tries → (nextCount 9999)^[j] s.sales.creditCounter ∈ kept.map Credit.number) ∧
      (s.sales.credits.length < 16 →
        issueCredit value origin plan s =
          ({ s with
              sales.credits := kept ++ [⟨n, value, origin, plan⟩]
              sales.creditCounter := if n = 9999 then 1 else n + 1
              sales.tally := { s.sales.tally with
                dropped := min 4294967295 s.sales.tally.dropped
                issued := min 4294967295 (s.sales.tally.issued + 1) } }, n, none)) ∧
      (s.sales.credits.length = 16 →
        issueCredit value origin plan s =
          ({ s with
              sales.credits := kept ++ [⟨n, value, origin, plan⟩]
              sales.creditCounter := if n = 9999 then 1 else n + 1
              sales.tally := { s.sales.tally with
                dropped := min 4294967295 (s.sales.tally.dropped + 1)
                issued := min 4294967295 (s.sales.tally.issued + 1) } }, n,
            s.sales.credits.head?.map Credit.number))) ∧
  ∀ (p : Port) (lane : Option Nat) (l : Lane) (buy : Purchase) (ref : Nat) (q : Priced) (s : State),
    Reaches p .sell s → LinesFollow s →
    (laneOfPort p = some l ∧ lane = none) ∨ (laneOfPort p = none ∧ lane = some (laneCode l)) →
    pricePurchase { buy with credit := 0 } s = .ok q → buy.credit ≠ 0 →
    (∀ c ∈ s.sales.credits, c.number ≠ buy.credit) →
      exec (.sell p lane buy ref) s = .next (refusedWith p .sell .notFound s)

/-! ### Transmit queues -/

/-- R178: a notice joins the tail of a queue of fewer than 8 frames and fewer than 7 notices; in any other queue it is
lost and the notice-overflow flag is set. A notice to P0 and to P4 is judged at each port alone, and no other port
changes. The flag is clear after power-on and after a start-up event, and a queue that holds notices alone keeps a place
for an answer. The port's TUNNEL_STATUS answer reports the flag (bit 5 of its fifth byte) and clears it; it is set again
where the answer itself displaces a notice. -/
def Obligations.NoticesNeedRoom : Prop :=
  (∀ (f : Frame) (u : PortUnit), u.tx.length < 8 → (u.tx.filter Frame.isNotice).length < 7 →
      enqueueNotice f u = { u with tx := u.tx ++ [f] }) ∧
  (∀ (f : Frame) (u : PortUnit), 8 ≤ u.tx.length ∨ 7 ≤ (u.tx.filter Frame.isNotice).length →
      enqueueNotice f u = { u with overflow := true }) ∧
  (∀ p : Port, (State.reset.ports.get p).overflow = false) ∧
  (∀ (p : Port) (cause : ResetCause) (s : State), s.held = true →
      ((after (.startUp cause) s).ports.get p).overflow = false) ∧
  (∀ u : PortUnit, PortBounded u → (∀ f ∈ u.tx, f.isNotice = true) → u.tx.length < 8) ∧
  (∀ (p : Port) (s : State), Reaches p .tunnelStatus s →
      ∃ (t : State) (rest : List Frame) (f : Frame), exec (.tunnelStatus p) s = .next t ∧
        (t.ports.get p).tx = rest ++ [f] ∧
        f.payload[4]?.map (fun b => b.getLsbD 5) = some (s.ports.get p).overflow ∧
        ((s.ports.get p).tx.length < 8 → (t.ports.get p).overflow = false) ∧
        (8 ≤ (s.ports.get p).tx.length → (t.ports.get p).overflow = true)) ∧
  ∀ (n : Notice) (s : State),
    notifyBoth n s = { s with ports := { s.ports with
      p0 := enqueueNotice (noticeFrame n) s.ports.p0, p4 := enqueueNotice (noticeFrame n) s.ports.p4 } }

/-- R179: an answer joins the tail of a queue of fewer than 8 frames; in a full queue the oldest notice that is not in
transmission makes room for it and the flag is set. A request that completes where no such place exists is discarded
unanswered and unhandled; one that passes the test is answered at the tail of its queue in the event that handles it,
since the notices queued while it is handled can make room. -/
def Obligations.AnswersFindTheirPlace : Prop :=
  (∀ (f : Frame) (u : PortUnit), u.tx.length < 8 → enqueueAnswer f u = { u with tx := u.tx ++ [f] }) ∧
  (∀ (f n : Frame) (u : PortUnit) (pre post : List Frame), 8 ≤ u.tx.length → u.tx = pre ++ n :: post →
      n.isNotice = true → (u.sending = true → pre ≠ []) →
      (∀ g ∈ (if u.sending then pre.tail else pre), g.isNotice = false) →
        enqueueAnswer f u = { u with tx := pre ++ post ++ [f], overflow := true }) ∧
  (∀ (c : Instr) (p : Port) (s : State), requestPort c = some p → s.held = false →
      roomForAnswer (s.ports.get p) = false → exec c s = .next (frameDone p s)) ∧
  (∀ (c : Instr) (p : Port) (k : ReqKind) (s t : State), requestPort c = some p → kindOf c = some k →
      s.held = false → roomForAnswer (s.ports.get p) = true → exec c s = .next t →
        ∃ (rest : List Frame) (a : Answer), (t.ports.get p).tx = rest ++ [answerFrame (kindByte k) a]) ∧
  (∀ u : PortUnit, roomForAnswer u = true ↔
      u.tx.length < 8 ∨ ∃ n ∈ (if u.sending then u.tx.tail else u.tx), n.isNotice = true) ∧
  ∀ (n : Notice) (u : PortUnit), roomForAnswer u = true → roomForAnswer (enqueueNotice (noticeFrame n) u) = true

/-! ### The tunnel queue -/

/-- R5: a pulse adds 1 to the front of every record, except that the head holds at 65535 and every other record holds at
one less than the front of the record ahead; it changes nothing else of a record, and the fronts go on falling strictly. -/
def Obligations.PulseAdvancesEveryFront : Prop :=
  ∀ queue : List Car, FrontsFall queue → (∀ car ∈ queue, car.front ≤ 65535) →
    FrontsFall (advanceFronts none queue) ∧
      (advanceFronts none queue).map (fun car => { car with front := 0 }) =
        queue.map (fun car => { car with front := 0 }) ∧
      (∀ (i : Nat) (old new : Car), queue[i]? = some old → (advanceFronts none queue)[i]? = some new →
        new.front ≤ 65535 - i ∧ (new.front = old.front + 1 ∨ (new.front = old.front ∧ old.front = 65535 - i)))

/-- R11: the record that a new blocking edge is matched to lies in the tolerance window and has not passed the eye, no
other such record is nearer to the eye, and of two at the same distance the older one is taken; there is none exactly
where no record of the queue is a candidate. -/
def Obligations.EyeMatchTakesTheNearest : Prop :=
  ∀ (s : State) (k : Eye) (pos : Nat),
    (candidate s k pos = none ↔ ∀ car ∈ s.trk.queue, isCandidate s.sup.consts k pos car = false) ∧
    ∀ car, candidate s k pos = some car →
      (pos - s.sup.consts.eyeTol ≤ car.front ∧ car.front ≤ pos + s.sup.consts.eyeTol ∧
          car.passed.get k = false) ∧
        ∃ older newer : List Car, s.trk.queue = older ++ car :: newer ∧
          (∀ x ∈ older, isCandidate s.sup.consts k pos x = true → distance pos car < distance pos x) ∧
          ∀ x ∈ newer, isCandidate s.sup.consts k pos x = true → distance pos car ≤ distance pos x

/-- R11, R12, R15, R16, R29 and R104: the corrected front is the eye's position, lowered below the record ahead and
raised above the record behind; no other record changes and the fronts go on falling strictly. A match and correction
adds the eye to the record's eyes passed, corrects the front, notes a match of the exit eye, makes the missing tests at
the other eyes in the order CE1 to EXIT, and is judged by the Station Sequencer: a forward one closes windows with the
reason LATE for PENDING entries, activates and arms; any other closes nothing and arms nothing. The arbiter searches
where the record is the newest. -/
def Obligations.CorrectionKeepsTheOrder : Prop :=
  (∀ (k : Eye) (pos : Nat) (car : Car) (s : State), ∃ u v w : State,
    u = { s with
      trk.queue := correctQueue car.tag pos none (s.trk.queue.map fun x =>
        if x.tag = car.tag then { x with passed := x.passed.set k true } else x)
      trk.exitMatch := if k = .exit then some car.tag else s.trk.exitMatch } ∧
    v = [Eye.ce1, .ce2, .ce3, .ce4, .exit].foldl
      (fun t j => if j = k then t else missingTest j car.tag car.front t) u ∧
    (∀ x, carOf u car.tag = some x →
      (car.front < x.front → w = testArmAll (activateAll (closeWindows true (fun y => y.tag == car.tag) v))) ∧
      (x.front ≤ car.front → w = activateAll v)) ∧
    (carOf u car.tag = none → w = activateAll v) ∧
    (w.trk.queue.getLast?.map Car.tag = some car.tag → correctCar k pos car s = arbitrate w) ∧
    (w.trk.queue.getLast?.map Car.tag ≠ some car.tag → correctCar k pos car s = w)) ∧
  ∀ (older newer : List Car) (car : Car) (pos : Nat), FrontsFall (older ++ car :: newer) →
    ((older ++ car :: newer).map Car.tag).Nodup → pos ≤ 60000 →
      ∃ front : Nat,
        correctQueue car.tag pos none (older ++ car :: newer) = older ++ { car with front := front } :: newer ∧
        FrontsFall (older ++ { car with front := front } :: newer) ∧
        ((∀ a ∈ older.getLast?, pos < a.front) → (∀ b ∈ newer.head?, b.front < pos) → front = pos) ∧
        (∀ a ∈ older.getLast?, a.front ≤ pos → front = a.front - 1) ∧
        (∀ b ∈ newer.head?, pos ≤ b.front → front = b.front + 1)

/-! ### The grant -/

/-- R24, R27, R28, R29, R30, R31, R33 and R34. Admission is open exactly under the five conditions of R27, a lane is
eligible exactly under the three of R28, and the search begins with the lane after the pointer and ends with it. While
admission is open the arbiter grants the entrance to the first eligible lane of the search order after the pointer, for
its head ticket: the pointer stands at the lane, the grant timer starts from GRANT_TIMEOUT and a GRANT notice goes to
the lane's port; otherwise it changes nothing. A loop that becomes occupied leads to a search, a loop that becomes
vacant changes only its level and leaves the grant, and the grant timer's expiry withdraws the grant with reason TIMEOUT
and searches again. A loop command that gives the level the loop has changes nothing (log entry 5). -/
def Obligations.ArbiterGrantsInTurn : Prop :=
  (∀ s : State, admissionOpen s = true ↔
      s.sup.tunnel = .running ∧ s.trk.queue.length < 12 ∧ s.ent.grant = none ∧ s.ent.eye = .armed ∧
        ∀ car, s.trk.queue.getLast? = some car → car.length ≠ none ∧ s.sup.consts.admitSpacing ≤ car.front) ∧
  (∀ (s : State) (l : Lane), eligible s l = true ↔
      s.ent.enabled.get l = true ∧ s.sales.lanes.get l ≠ [] ∧ s.inputs.loops.get l = true) ∧
  (searchOrder .a = [.b, .c, .a] ∧ searchOrder .b = [.c, .a, .b] ∧ searchOrder .c = [.a, .b, .c]) ∧
  (∀ (l : Lane) (s : State),
      (s.inputs.loops.get l = true → exec (.loopOccupied l) s = .next s) ∧
      (s.inputs.loops.get l = false → exec (.loopVacant l) s = .next s)) ∧
  (∀ (s : State) (l : Lane) (t : Ticket) (before behind : List Lane), admissionOpen s = true →
      searchOrder s.ent.pointer = before ++ l :: behind → (∀ x ∈ before, eligible s x = false) →
      eligible s l = true → (s.sales.lanes.get l).head? = some t →
        arbitrate s = notify (portOfLane l) (.grant l t.sale t.ref)
          { s with
            ent.grant := some ⟨l, t.sale⟩
            ent.pointer := l
            ent.grantTimer := some s.sup.consts.grantTimeout }) ∧
  (∀ s : State, admissionOpen s = false ∨ (∀ l ∈ allLanes, eligible s l = false) → arbitrate s = s) ∧
  (∀ (l : Lane) (s : State), s.held = false → s.inputs.loops.get l = false →
      exec (.loopOccupied l) s =
        .next (driveLines (arbitrate { s with inputs.loops := s.inputs.loops.set l true }))) ∧
  (∀ (l : Lane) (s : State), s.held = false → s.inputs.loops.get l = true →
      exec (.loopVacant l) s = .next (driveLines { s with inputs.loops := s.inputs.loops.set l false })) ∧
  ∀ (s : State) (g : Grant) (n : Nat), s.held = false → s.ent.grant = some g → s.ent.grantTimer = some n →
    exec .grantTimerExpiry s =
      .next (driveLines (arbitrate (notify (portOfLane g.lane) (.withdrawn g.lane g.sale .timeout)
        { s with ent.grant := none, ent.grantTimer := none })))

/-! ### Incidents and tunnel states -/

/-- R155 and R157: a raise with the subject of a listed record merges into it: repeat count and time, tag and signals of
the raise, the stronger class, with a REPEATED notice; with no such record and fewer than 8 listed, a new record joins
the tail with the next free number, repeat count 1 and the time, with a RAISED notice. The class effect of the raise
follows. -/
def Obligations.RaiseMergesOrJoinsTheTail : Prop :=
  (∀ (q : Raise) (s : State) (before behind : List Incident) (r : Incident),
      s.sup.incidents = before ++ r :: behind →
      (∀ x ∈ before, ¬(x.kind = q.kind ∧ x.station = q.station ∧ x.eye = q.eye ∧ x.lane = q.lane)) →
      r.kind = q.kind → r.station = q.station → r.eye = q.eye → r.lane = q.lane →
        ∃ merged : Incident,
          merged = { r with
            cls := strongerClass r.cls (s.sup.response.get q.kind)
            tag := q.tag
            signals := q.signals
            repeats := min 255 (r.repeats + 1)
            time := s.sup.seconds } ∧
          raiseIncident q s =
            classEffect (s.sup.response.get q.kind) r.number
              (notifyBoth (.incident .repeated q.kind merged)
                { s with sup.incidents := before ++ merged :: behind })) ∧
  ∀ (q : Raise) (s : State), s.sup.incidents.length < 8 →
    (∀ x ∈ s.sup.incidents, ¬(x.kind = q.kind ∧ x.station = q.station ∧ x.eye = q.eye ∧ x.lane = q.lane)) →
      ∃ made : Incident,
        made = ⟨(allocate 255 (s.sup.incidents.map Incident.number) s.sup.incidentCounter).1, q.kind,
          s.sup.response.get q.kind, q.station, q.eye, q.tag, q.lane, q.signals, 1, s.sup.seconds⟩ ∧
        raiseIncident q s =
          classEffect (s.sup.response.get q.kind) made.number
            (notifyBoth (.incident .raised q.kind made)
              { s with
                sup.incidents := s.sup.incidents ++ [made]
                sup.incidentCounter := nextCount 255 made.number })

/-- R156 and R157, with log entry 1 for the two free values: a raise that merges into no record of a full list. A NOTICE
is discarded and the list keeps every record. A PAUSE or HALT takes the place of the oldest NOTICE, with the REMOVED
notice before the RAISED one; without one it merges into the newest record of its class; a HALT that finds PAUSE records
alone displaces the oldest; a PAUSE that finds HALT records alone merges into the newest. -/
def Obligations.FullListYieldsToStrongerClass : Prop :=
  ∀ (q : Raise) (s : State), s.sup.incidents.length = 8 →
    (∀ x ∈ s.sup.incidents, ¬(x.kind = q.kind ∧ x.station = q.station ∧ x.eye = q.eye ∧ x.lane = q.lane)) →
    (s.sup.response.get q.kind = .notice →
      ∃ lost : Incident, lost.number = 0 ∧ lost.kind = q.kind ∧ lost.cls = .notice ∧ lost.station = q.station ∧
        lost.eye = q.eye ∧ lost.tag = q.tag ∧ lost.lane = q.lane ∧ lost.signals = q.signals ∧
        raiseIncident q s = notifyBoth (.incident .discarded q.kind lost) { s with free := s.free + 1 }) ∧
    (∀ (before behind : List Incident) (r : Incident), s.sup.response.get q.kind ≠ .notice →
      s.sup.incidents = before ++ r :: behind → (∀ x ∈ before, x.cls ≠ .notice) → r.cls = .notice →
        raiseIncident q s =
          listNew q (s.sup.response.get q.kind) (notifyBoth (.incident .removed r.kind r)
            { s with sup.incidents := before ++ behind })) ∧
    (∀ (before behind : List Incident) (r : Incident), s.sup.response.get q.kind ≠ .notice →
      (∀ x ∈ s.sup.incidents, x.cls ≠ .notice) → s.sup.incidents = before ++ r :: behind →
      r.cls = s.sup.response.get q.kind → (∀ x ∈ behind, x.cls ≠ r.cls) →
        ∃ merged : Incident, merged = { r with repeats := min 255 (r.repeats + 1), time := s.sup.seconds } ∧
          raiseIncident q s =
            classEffect r.cls r.number (notifyBoth (.incident .repeated q.kind merged)
              { s with sup.incidents := before ++ merged :: behind })) ∧
    (∀ (r : Incident) (behind : List Incident), s.sup.response.get q.kind = .halt →
      (∀ x ∈ s.sup.incidents, x.cls = .pause) → s.sup.incidents = r :: behind →
        raiseIncident q s =
          listNew q .halt (notifyBoth (.incident .removed r.kind r) { s with sup.incidents := behind })) ∧
    ∀ (r : Incident) (before : List Incident), s.sup.response.get q.kind = .pause →
      (∀ x ∈ s.sup.incidents, x.cls = .halt) → s.sup.incidents = before ++ [r] →
        ∃ merged : Incident, merged = { r with repeats := min 255 (r.repeats + 1), time := s.sup.seconds } ∧
          raiseIncident q s =
            pauseTunnel (.incident r.number) (notifyBoth (.incident .repeated q.kind merged)
              { s with sup.incidents := before ++ [merged] })

/-- R21, R35, R125, R141, R143, R147, R148 and R150: what a change of tunnel state does. The new state is held, the
start timer runs in STARTING alone, the exit-block timer stops outside RUNNING and DRAINING, the stall count is 0 on
entry into them, the grant is gone outside RUNNING. A PAUSE-class effect keeps the target mode, a HALT-class effect
keeps the mode the tunnel was in or heading for, clears MANUAL and counts a halt; neither acts in HALTED. -/
def Obligations.TunnelChangeEffects : Prop :=
  (∀ (new : Tunnel) (cause : Cause) (s : State),
      (changeTunnel new cause s).sup.tunnel = new ∧
      (changeTunnel new cause s).sup.startTimer = (if new.warns then some s.sup.consts.startWarn else none) ∧
      (new.runs = false → (changeTunnel new cause s).trk.exitTimer = none) ∧
      (new.runs = true → s.sup.tunnel.runs = true → (changeTunnel new cause s).trk.exitTimer = s.trk.exitTimer ∧
        (changeTunnel new cause s).pace.stall = s.pace.stall) ∧
      (new.runs = true → s.sup.tunnel.runs = false → (changeTunnel new cause s).pace.stall = 0 ∧
        (s.inputs.eyes.exit = true →
          (changeTunnel new cause s).trk.exitTimer = some s.sup.consts.exitBlockTime)) ∧
      (new ≠ .running → (changeTunnel new cause s).ent.grant = none) ∧
      (changeTunnel new cause s).sup.manual = s.sup.manual ∧
      (changeTunnel new cause s).sup.incidents = s.sup.incidents ∧
      (changeTunnel new cause s).sales = s.sales ∧ (changeTunnel new cause s).seq.table = s.seq.table ∧
      (changeTunnel new cause s).trk.queue.map (fun car => { car with schedule := [] }) =
        s.trk.queue.map (fun car => { car with schedule := [] })) ∧
  (∀ (n : Nat) (s : State),
      (classEffect .notice n s = s) ∧
      (s.sup.tunnel = .running → (classEffect .pause n s).sup.tunnel = .paused .running) ∧
      (s.sup.tunnel = .draining → (classEffect .pause n s).sup.tunnel = .paused .draining) ∧
      (∀ m, s.sup.tunnel = .starting m → (classEffect .pause n s).sup.tunnel = .paused m) ∧
      (s.sup.tunnel = .stopped ∨ (∃ m, s.sup.tunnel = .paused m) ∨ s.sup.tunnel.isHalted = true →
        classEffect .pause n s = s) ∧
      (s.sup.tunnel.isHalted = true → classEffect .halt n s = s) ∧
      (s.sup.tunnel.isHalted = false →
        (s.sup.tunnel = .stopped → (classEffect .halt n s).sup.tunnel = .halted .stopped) ∧
          (s.sup.tunnel = .starting .running ∨ s.sup.tunnel = .running ∨ s.sup.tunnel = .paused .running →
            (classEffect .halt n s).sup.tunnel = .halted .running) ∧
          (s.sup.tunnel = .starting .draining ∨ s.sup.tunnel = .draining ∨ s.sup.tunnel = .paused .draining →
            (classEffect .halt n s).sup.tunnel = .halted .draining) ∧
          (classEffect .halt n s).sup.manual = false ∧
          (classEffect .halt n s).sales =
            { s.sales with tally := { s.sales.tally with halts := min 4294967295 (s.sales.tally.halts + 1) } }))

/-! ### Stations at a pause and at a halt, closes -/

/-- R35, R93, R97, R101, R106, R107, R108, R109 and R141. A change of tunnel state announces itself to the stations and
then to the entrance: PAUSED holds, HALTED drops, STOPPED releases, RUNNING and DRAINING resume where they are entered
from another state; the arbiter searches in RUNNING, and the grant is withdrawn in every other state. At the entry into
PAUSED every READY or FIRING station is HELD with its proof timer stopped, every ARMING or RETRY_WAIT station is IDLE
with its timers stopped, every other station keeps its state, and every ACTIVE entry is HELD with its mark. At the entry
into HALTED every station but those in OFF_LINE and FAULT is IDLE with its timers stopped, and every ACTIVE and HELD
entry is INTERRUPTED with its mark. At the entry into STOPPED every HELD station is IDLE and nothing else of the
stations changes. A resumption makes every HELD entry ACTIVE and every HELD station FIRING or READY, with the recheck
and the proof timer for a PROOF_HOLD station without proof; then every INTERRUPTED entry PENDING where its car overlaps
and MISSED with reason HALT where it does not; then it tests the READY stations as unwanted, the IDLE ones for arming,
and the READY ones for overlapping cars. -/
def Obligations.PauseHoldsAndHaltDrops : Prop :=
  (∀ (new : Tunnel) (cause : Cause) (s : State), ∃ u : State,
      u = notifyBoth (.tunnelState new s.sup.tunnel s.sup.manual (pauseListed s) cause)
        { s with
          sup.tunnel := new
          sup.startTimer := startTimerAt new s
          trk.exitTimer := exitTimerAt s.sup.tunnel new s
          pace.stall := stallAt s.sup.tunnel new s } ∧
      (∀ m, new = .paused m → changeTunnel new cause s = withdrawGrant .tunnelState (holdAll u)) ∧
      (∀ m, new = .halted m → changeTunnel new cause s = withdrawGrant .tunnelState (dropAll u)) ∧
      (new = .stopped → changeTunnel new cause s = withdrawGrant .tunnelState (stopAll u)) ∧
      (∀ m, new = .starting m → changeTunnel new cause s = withdrawGrant .tunnelState u) ∧
      (new = .running →
        (s.sup.tunnel.runs = false → changeTunnel new cause s = arbitrate (resumeAll u)) ∧
        (s.sup.tunnel.runs = true → changeTunnel new cause s = arbitrate u)) ∧
      (new = .draining →
        (s.sup.tunnel.runs = false → changeTunnel new cause s = withdrawGrant .tunnelState (resumeAll u)) ∧
        (s.sup.tunnel.runs = true → changeTunnel new cause s = withdrawGrant .tunnelState u))) ∧
  (∀ s : State, ∃ a b c d : State,
      a = { s with trk.queue := s.trk.queue.map (mapEntries fun e =>
        if e.state = .held then { e with state := .active } else e) } ∧
      b = { a with seq.units := b.seq.units } ∧
      (∀ i : Fin 16,
        ((tabGet s.seq.units i).state ≠ .held → tabGet b.seq.units i = tabGet s.seq.units i) ∧
        ((tabGet s.seq.units i).state = .held →
          (0 < activeCount a i → (tabGet b.seq.units i).state = .firing) ∧
          (activeCount a i = 0 → (tabGet b.seq.units i).state = .ready) ∧
          (tabGet b.seq.units i).fails = (tabGet s.seq.units i).fails ∧
          (tabGet b.seq.units i).retryTimer = (tabGet s.seq.units i).retryTimer ∧
          ((tabGet s.seq.table i).mode = .proofHold → tabGet s.inputs.proofs i = false →
            (tabGet b.seq.units i).recheck = true ∧
              (tabGet b.seq.units i).proofTimer = some (tabGet s.seq.table i).proofWait) ∧
          ((tabGet s.seq.table i).mode ≠ .proofHold ∨ tabGet s.inputs.proofs i = true →
            (tabGet b.seq.units i).recheck = (tabGet s.seq.units i).recheck ∧
              (tabGet b.seq.units i).proofTimer = (tabGet s.seq.units i).proofTimer))) ∧
      c = { b with
        trk.queue := a.trk.queue.map fun car => { car with
          schedule := car.schedule.map fun e =>
            if e.state = .interrupted then
              if overlaps (tabGet s.seq.table e.station) car then { e with state := .pending }
              else { e with state := .missed .halt }
            else e } } ∧
      d = allStations.foldl (fun t i => if (tabGet t.seq.units i).state = .ready then testUnwanted i t else t) c ∧
      resumeAll s =
        allStations.foldl (fun t i => if (tabGet t.seq.units i).state = .ready then activate i t else t)
          (testArmAll d)) ∧
  (∀ (s : State) (i : Fin 16),
      ((tabGet s.seq.units i).state = .held →
        tabGet (stopAll s).seq.units i =
          { tabGet s.seq.units i with state := .idle, proofTimer := none, retryTimer := none, recheck := false }) ∧
      ((tabGet s.seq.units i).state ≠ .held → tabGet (stopAll s).seq.units i = tabGet s.seq.units i) ∧
      (stopAll s).trk.queue = s.trk.queue) ∧
  (∀ (s : State) (i : Fin 16),
      ((tabGet s.seq.units i).state = .ready ∨ (tabGet s.seq.units i).state = .firing →
        tabGet (holdAll s).seq.units i =
          { tabGet s.seq.units i with state := .held, proofTimer := none, recheck := false }) ∧
      ((tabGet s.seq.units i).state = .arming ∨ (tabGet s.seq.units i).state = .retryWait →
        tabGet (holdAll s).seq.units i =
          { tabGet s.seq.units i with state := .idle, proofTimer := none, retryTimer := none, recheck := false }) ∧
      ((tabGet s.seq.units i).state ∈ [.idle, .held, .fault, .offLine] →
        tabGet (holdAll s).seq.units i = tabGet s.seq.units i) ∧
      ((tabGet s.seq.units i).state ∉ [.fault, .offLine] →
        tabGet (dropAll s).seq.units i =
          { tabGet s.seq.units i with state := .idle, proofTimer := none, retryTimer := none, recheck := false }) ∧
      ((tabGet s.seq.units i).state ∈ [.fault, .offLine] →
        tabGet (dropAll s).seq.units i = tabGet s.seq.units i)) ∧
  ∀ s : State,
    (holdAll s).trk.queue = s.trk.queue.map (mapEntries fun e =>
      if e.state = .active then { e with state := .held } else e) ∧
    (dropAll s).trk.queue = s.trk.queue.map (mapEntries fun e =>
      if e.state = .active ∨ e.state = .held then { e with state := .interrupted } else e)

/-- R12, R44, R90, R93, R97, R101, R102 and R104, with the level form of log entry 12: at a close an ACTIVE entry ends
DONE without a mark and MISSED with the mark's reason with one, a HELD entry MISSED with reason PAUSE, an INTERRUPTED
one with reason HALT, and a PENDING one with reason FAULT, OFFLINE or NOT_READY by its station's state, or LATE where a
forward correction makes the close. Exactly the open entries whose car is past close end; an entry that has ended, and
every other entry, stays. The stations of the entries that end are then tested. A pulse closes for every car, a
correction and the setting of a length for their own car, with LATE for a forward correction alone; the tests for
overlapping cars and for arming follow, and a backward correction makes the first of them alone. -/
def Obligations.CloseEndsOpenEntries : Prop :=
  (∀ (late : Bool) (sel : Car → Bool) (s : State), ∃ ended : List (Fin 16),
    (∀ i, i ∈ ended ↔ ∃ car ∈ s.trk.queue, sel car = true ∧ ∃ e ∈ car.schedule, e.station = i ∧
      e.state ∈ [.pending, .active, .held, .interrupted] ∧ pastClose (tabGet s.seq.table i) car = true) ∧
    closeWindows late sel s = afterEnded ended
      { s with trk.queue := s.trk.queue.map fun car => if sel car then closeCar s late car else car }) ∧
  (∀ s : State, judgePulse s = testArmAll (activateAll (closeWindows false (fun _ => true) s))) ∧
  (∀ (tag : Nat) (s : State),
    judgeCorrection tag true s = testArmAll (activateAll (closeWindows true (fun car => car.tag == tag) s)) ∧
      judgeCorrection tag false s = activateAll s) ∧
  (∀ (tag len : Nat) (s : State),
    setLength tag len s = testArmAll (activateAll (closeWindows false (fun car => car.tag == tag)
      { s with trk.queue := s.trk.queue.map fun car => if car.tag = tag then { car with length := some len } else car }))) ∧
  ∀ (s : State) (late : Bool) (car : Car) (n : Nat) (e : Entry), car.schedule[n]? = some e →
    ∃ e', (closeCar s late car).schedule[n]? = some e' ∧ e'.station = e.station ∧ e'.level = e.level ∧ e'.mark = e.mark ∧
      (pastClose (tabGet s.seq.table e.station) car = false → e' = e) ∧
      (pastClose (tabGet s.seq.table e.station) car = true →
        (e.state = .active → e.mark = none → e'.state = .done) ∧
        (e.state = .active → e.mark = some .slack → e'.state = .missed .slack) ∧
        (e.state = .active → e.mark = some .proof → e'.state = .missed .proof) ∧
        (e.state = .active → e.mark = some .offline → e'.state = .missed .offline) ∧
        (e.state = .held → e'.state = .missed .pause) ∧
        (e.state = .interrupted → e'.state = .missed .halt) ∧
        (e.state = .pending → late = true → e'.state = .missed .late) ∧
        (e.state = .pending → late = false → (tabGet s.seq.units e.station).state = .fault →
          e'.state = .missed .fault) ∧
        (e.state = .pending → late = false → (tabGet s.seq.units e.station).state = .offLine →
          e'.state = .missed .offline) ∧
        (e.state = .pending → late = false → (tabGet s.seq.units e.station).state ∉ [.fault, .offLine] →
          e'.state = .missed .notReady) ∧
        (isOpen e.state = false → e' = e))

/-- R90, R93, R97, R101 and R102: when a station is wanted, arms, serves and rests. A car is past close when its length
is known and front - length is at least WC, overlaps when its front is at least WO and it is not past close; a station
is wanted while a car with a PENDING entry for it has reached its arm point and is not past close. A wanted IDLE station
of a running tunnel arms with its failed-attempt count 0, so that no wanted station is left IDLE. A READY or FIRING
station makes the PENDING entries of the overlapping cars ACTIVE and is then FIRING. At the end of its last ACTIVE entry
a FIRING station is READY if wanted and IDLE if not; an unwanted station in ARMING, RETRY_WAIT or READY without an
ACTIVE entry is IDLE. -/
def Obligations.StationsArmServeAndRest : Prop :=
  (∀ (r : StationRec) (car : Car),
    (pastClose r car = true ↔ ∃ len, car.length = some len ∧ r.sp + r.post + len ≤ car.front) ∧
    (overlaps r car = true ↔ r.sp - r.pre ≤ car.front ∧ pastClose r car = false)) ∧
  (∀ (s : State) (i : Fin 16), wanted s i = true ↔ ∃ car ∈ s.trk.queue,
    (∃ e ∈ car.schedule, e.station = i ∧ e.state = .pending) ∧
      (tabGet s.seq.table i).sp - (tabGet s.seq.table i).pre - s.sup.consts.armLead ≤ car.front ∧
      pastClose (tabGet s.seq.table i) car = false) ∧
  (∀ (i : Fin 16) (s : State),
    ((tabGet s.seq.units i).state = .idle → s.sup.tunnel.runs = true → wanted s i = true →
      testArm i s = beginAttempt i (moveStation i .arming (updateUnit i (fun x => { x with fails := 0 }) s))) ∧
    ((tabGet s.seq.units i).state ≠ .idle ∨ s.sup.tunnel.runs = false ∨ wanted s i = false → testArm i s = s)) ∧
  (∀ (i : Fin 16) (s : State), s.sup.tunnel.runs = true → wanted (testArmAll s) i = true →
    (tabGet (testArmAll s).seq.units i).state ≠ .idle) ∧
  (∀ (i : Fin 16) (s : State), ∃ u : State,
    u = { s with trk.queue := s.trk.queue.map fun car =>
      if overlaps (tabGet s.seq.table i) car then
        mapEntries (fun e => if e.station = i ∧ e.state = .pending then { e with state := .active } else e) car
      else car } ∧
    ((tabGet s.seq.units i).state = .firing → activate i s = u) ∧
    ((tabGet s.seq.units i).state = .ready → activeCount u i = 0 → activate i s = u) ∧
    ((tabGet s.seq.units i).state = .ready → 0 < activeCount u i → activate i s = moveStation i .firing u) ∧
    ((tabGet s.seq.units i).state ∉ [.ready, .firing] → activate i s = s)) ∧
  (∀ s : State, testArmAll s = allStations.foldl (fun t i => testArm i t) s ∧
    activateAll s = allStations.foldl (fun t i => activate i t) s) ∧
  (∀ (ended : List (Fin 16)) (s : State), afterEnded ended s =
    allStations.foldl (fun t i => if i ∈ ended then testUnwanted i (endFiring i t) else t) s) ∧
  ∀ (i : Fin 16) (s : State),
    ((tabGet s.seq.units i).state = .firing → activeCount s i = 0 →
      (wanted s i = true → endFiring i s = moveStation i .ready s) ∧
      (wanted s i = false → endFiring i s = moveStation i .idle s)) ∧
    ((tabGet s.seq.units i).state ≠ .firing ∨ 0 < activeCount s i → endFiring i s = s) ∧
    ((tabGet s.seq.units i).state ∈ [.arming, .retryWait, .ready] → activeCount s i = 0 → wanted s i = false →
      testUnwanted i s = moveStation i .idle s) ∧
    ((tabGet s.seq.units i).state ∉ [.arming, .retryWait, .ready] ∨ 0 < activeCount s i ∨ wanted s i = true →
      testUnwanted i s = s)

/-! ### Pacing and the collision test -/

/-- R119, R120, R122 and R123: the command, the expected current and the thresholds of every BRUSH station after the end
of an event, and that a FIRING brush runs between its limits. -/
def Obligations.BrushCommandFollowsBelt : Prop :=
  ∀ (s : State) (i : Fin 16) (b : BrushRec), (tabGet s.seq.table i).gear = .brush b →
    ∃ q : Pace, tabGet (driveLines s).pace.brushes i = some q ∧
      (tabGet (driveLines s).out.stations i).intensity = q.cmd ∧
      (s.sup.tunnel.runs = false → q.cmd = 0) ∧
      (s.sup.tunnel.runs = true → (tabGet s.seq.units i).state ∈ [.idle, .retryWait, .held, .fault, .offLine] →
        q.cmd = 0) ∧
      (s.sup.tunnel.runs = true → (tabGet s.seq.units i).state ∈ [.arming, .ready] → q.cmd = b.brMin) ∧
      (s.sup.tunnel.runs = true → (tabGet s.seq.units i).state = .firing → activeLevels s i = [] →
        q.cmd = clampTo (s.pace.vAvg * b.k * 256 / 65536) b.brMin b.brMax) ∧
      (s.sup.tunnel.runs = true → (tabGet s.seq.units i).state = .firing →
        ∀ l ∈ activeLevels s i, (∀ x ∈ activeLevels s i, x ≤ l) →
          q.cmd = clampTo (s.pace.vAvg * b.k * fourAt ⟨192, 256, 320, 384⟩ l / 65536) b.brMin b.brMax) ∧
      (s.sup.tunnel.runs = true → (tabGet s.seq.units i).state = .firing → b.brMin ≤ b.brMax →
        b.brMin ≤ q.cmd ∧ q.cmd ≤ b.brMax) ∧
      q.expected = min 4095 (b.icA + q.cmd * b.icB / 4096) ∧ q.overAt = min 4095 (q.expected + b.jamMargin) ∧
      q.underAt = q.expected - b.slackMargin

/-- R136: ANY is a collision when at least one enabled signal is present, ALL when every enabled signal is present, and an
empty enabled set never is; with a single enabled signal the two modes agree. -/
def Obligations.QualifierDecidesCollision : Prop :=
  ∀ enabled present : Signals,
    (qualifies .any enabled present = true ↔
      (enabled.current = true ∧ present.current = true) ∨ (enabled.bumper = true ∧ present.bumper = true) ∨
        (enabled.overtravel = true ∧ present.overtravel = true)) ∧
    (qualifies .all enabled present = true ↔
      enabled ≠ ⟨false, false, false⟩ ∧ (enabled.current = true → present.current = true) ∧
        (enabled.bumper = true → present.bumper = true) ∧
        (enabled.overtravel = true → present.overtravel = true)) ∧
    (∀ q, qualifies q ⟨false, false, false⟩ present = false) ∧
    (enabled = ⟨true, false, false⟩ ∨ enabled = ⟨false, true, false⟩ ∨ enabled = ⟨false, false, true⟩ →
      qualifies .all enabled present = qualifies .any enabled present)

/-! ### Status reads -/

/-- R184, with the item order of R202 and the last save outcome at the end (28 bytes, log entry 6): TUNNEL_STATUS
answers the items in order, the port's overflow flag as it stands, and clears that flag in the same event; nothing else
changes. -/
def Obligations.TunnelStatusReportsAndClearsFlag : Prop :=
  ∀ (p : Port) (s : State), Reaches p .tunnelStatus s →
    exec (.tunnelStatus p) s =
      .next (answeredOk p .tunnelStatus
        (b1 (tunnelCode s.sup.tunnel) ++ b1 (targetByte s.sup.tunnel) ++ b1 (preHaltByte s.sup.tunnel) ++
          b1 (flagBit 0 s.sup.manual + flagBit 1 (pauseListed s) + flagBit 2 s.inputs.estopClosed +
            flagBit 3 (saving s) + flagBit 4 s.store.defaulted + flagBit 5 (s.ports.get p).overflow) ++
          b1 ((s.sup.holder.map portCode).getD 0xFF) ++ b1 s.pace.resolved ++ b1 (s.pace.forced.getD 0) ++
          b2 s.out.speed ++ b2 s.pace.v ++ b2 s.pace.acc ++ b2 s.pace.vAvg ++ b1 s.pace.stall ++
          b1 s.trk.queue.length ++ b1 s.sup.incidents.length ++ b1 (laneCode s.ent.pointer) ++
          b1 ((s.ent.grant.map fun g => laneCode g.lane).getD 0xFF) ++ b1 (enableByte s.ent.enabled) ++
          b4 s.sup.seconds ++ b1 (causeCode s.store.cause) ++ b1 (outcomeCode s.store.lastOutcome))
        (updatePort p (fun u => { u with rx := RxPath.idle, overflow := false }) s))

/-- R50, R61, R62, R91, R124, R185, R186, R187 and R188, with the item orders of R202 and the page layout of log entry
7: each list read is answered OK with the fields its rule gives and changes nothing but its port. The terminal
reference that LANE_STATUS sends where the lane has no last-sale record is a free value (log entry 26), and the
counter of free values then advances. A tag that no record carries is refused NOT_FOUND; a part other than 1 and 2
(tested after the tag: log entry 24), an index above 7 or 15, and a lane, station, plan or code outside its range are
refused BAD_VALUE. -/
def Obligations.ListReadsAnswerAndChangeNothing : Prop :=
  (∀ (p : Port) (s : State), Reaches p .carList s →
      exec (.carList p .summary) s =
        .next (replied p .carList
          (b1 s.trk.queue.length ++ s.trk.queue.flatMap fun car => b1 car.tag ++ b2 car.front) s)) ∧
  (∀ (p : Port) (s : State) (older newer : List Car) (car : Car), Reaches p .carList s →
      s.trk.queue = older ++ car :: newer → (∀ x ∈ older, x.tag ≠ car.tag) →
        exec (.carList p (.record car.tag 1)) s = .next (replied p .carList
          (b1 car.tag ++ b1 1 ++ b2 car.front ++ b2 (car.length.getD 0) ++ b1 car.cls ++ b1 (passedByte car.passed) ++
            b1 (if car.tailgate then 1 else 0) ++ ticketBytes car.ticket) s) ∧
        exec (.carList p (.record car.tag 2)) s = .next (replied p .carList
          (b1 car.tag ++ b1 2 ++ b1 car.schedule.length ++ car.schedule.flatMap entryBytes) s)) ∧
  (∀ (p : Port) (index : Nat) (s : State), Reaches p .incidentList s → index ≤ 7 →
      exec (.incidentList p index) s = .next (replied p .incidentList
        (b1 s.sup.incidents.length ++ b1 (min 4 (s.sup.incidents.length - index)) ++ b1 index ++
          ((s.sup.incidents.drop index).take 4).flatMap incidentBytes) s)) ∧
  (∀ (p : Port) (index : Nat) (s : State), Reaches p .creditList s → index ≤ 15 →
      exec (.creditList p index) s = .next (replied p .creditList
        (b1 s.sales.credits.length ++ b1 (min 5 (s.sales.credits.length - index)) ++ b1 index ++
          ((s.sales.credits.drop index).take 5).flatMap creditBytes) s)) ∧
  (∀ (p : Port) (lane : Option Nat) (l : Lane) (s : State), Reaches p .laneStatus s →
      (laneOfPort p = some l ∧ lane = none) ∨ (laneOfPort p = none ∧ lane = some (laneCode l)) →
      ∃ (items last : List Byte) (u : State),
        items = b1 (laneCode l) ++
          b1 (flagBit 0 (s.ent.enabled.get l) + flagBit 1 (s.inputs.loops.get l) + flagBit 2 (s.out.arms.get l) +
            flagBit 3 (s.ent.grant.any fun g => g.lane == l)) ++
          b2 (((s.ent.grant.filter fun g => g.lane == l).map Grant.sale).getD 0) ++
          b1 (s.sales.lanes.get l).length ++
          ((s.sales.lanes.get l).flatMap fun t => b2 t.sale ++ b1 t.plan ++ b2 t.ref) ∧
        (∀ r, s.sales.lastSale.get l = some r → last = b2 r.sale ++ b2 r.ref ∧ u = frameDone p s) ∧
        (s.sales.lastSale.get l = none →
          (∃ x : BitVec 16, last = b2 0 ++ b2 x.toNat) ∧ u = { frameDone p s with free := s.free + 1 }) ∧
        exec (.laneStatus p lane) s = .next (answeredOk p .laneStatus (items ++ last) u)) ∧
  (∀ (p : Port) (s : State), Reaches p .stationStatus s →
      exec (.stationStatus p none) s = .next (replied p .stationStatus
        (allStations.flatMap fun i =>
          b1 (stationStateCode (tabGet s.seq.units i).state) ++ b1 (tabGet s.seq.units i).fails) s)) ∧
  (∀ (p : Port) (i : Fin 16) (s : State), Reaches p .stationStatus s →
      ∃ (r : StationRec) (u : StationUnit) (x : StationLines) (flags kind : Nat) (watch geometry gear : List Byte),
        r = tabGet s.seq.table i ∧ u = tabGet s.seq.units i ∧ x = tabGet s.out.stations i ∧
        flags = flagBit 0 (tabGet s.inputs.proofs i) + flagBit 1 x.arm + flagBit 2 x.fire ∧
        geometry = b2 r.sp ++ b2 r.pre ++ b2 r.post ++ b1 (activationCode r.mode) ++ b2 r.proofWait ++ b1 r.retries ∧
        (∀ t, r.gear = .spray t → kind = 0) ∧ (∀ t, r.gear = .air t → kind = 2) ∧
        (∀ t, r.gear = .spray t ∨ r.gear = .air t →
          gear = b2 t.one ++ b2 t.two ++ b2 t.three ++ b2 t.four ∧
          exec (.stationStatus p (some i.val)) s = .next (replied p .stationStatus
            (b1 i.val ++ b1 r.code ++ b1 kind ++ b1 (stationStateCode u.state) ++ b1 u.fails ++
              b1 flags ++ b2 x.intensity ++ b1 (activeCount s i) ++ geometry ++ gear) s)) ∧
        ∀ (b : BrushRec) (q : Pace) (slot : Slot), r.gear = .brush b → tabGet s.pace.brushes i = some q →
          slot = tabGet s.mon b.slot →
            watch = b2 q.expected ++ b2 q.overAt ++ b2 q.underAt ++ b1 slot.jam ++ b1 slot.slack ++ b1 slot.blank ++
              b2 slot.sample ∧
            gear = b1 b.slot.val ++ b2 b.k ++ b2 b.brMin ++ b2 b.brMax ++ b2 b.icA ++ b2 b.icB ++ b2 b.jamMargin ++
              b2 b.slackMargin ++ b1 b.jamN ++ b1 b.slackN ++ b1 b.jamBlank ++ b1 (qualifierCode b.qualifier) ++
              b1 (signalsByte b.signals) ∧
            exec (.stationStatus p (some i.val)) s = .next (replied p .stationStatus
              (b1 i.val ++ b1 r.code ++ b1 1 ++ b1 (stationStateCode u.state) ++ b1 u.fails ++
                b1 (flags + flagBit 3 slot.latch + flagBit 4 (tabGet s.inputs.bumpers b.slot) +
                  flagBit 5 (tabGet s.inputs.overtravels b.slot)) ++
                b2 x.intensity ++ b1 (activeCount s i) ++ watch ++ geometry ++ gear) s)) ∧
  (∀ (p : Port) (s : State), Reaches p .planList s →
      exec (.planListSummary p) s = .next (replied p .planList
        ((allPlans.flatMap fun i => b1 (planStateCode (tabGet s.sales.plans i).state) ++
          b2 (tabGet s.sales.plans i).price ++ b1 (tabGet s.sales.plans i).cls) ++ b1 s.sales.store.length) s)) ∧
  (∀ (p : Port) (i : Fin 12) (s : State), Reaches p .planList s →
      ∃ (q : Plan) (offset : Nat) (list : List SvcLevel) (cls : Nat), q = tabGet s.sales.plans i ∧
        offset = ((allPlans.filter fun j => j < i).map fun j => (tabGet s.sales.plans j).len).sum ∧
        list = (s.sales.store.drop offset).take q.len ∧
        cls = ((list.map SvcLevel.code).map (classLimit s)).foldr min q.cls ∧
        exec (.planListPlan p (i.val + 1)) s = .next (replied p .planList
          (b1 (i.val + 1) ++ b1 (planStateCode q.state) ++ b1 q.name.length ++ q.name.flatMap b1 ++ b2 q.price ++
            b1 q.cls ++ b1 (if q.state = .empty then 0xFF else offset) ++ b1 q.len ++ b1 list.length ++
            (list.flatMap fun e => b1 e.code ++ b1 e.level) ++ b1 cls) s)) ∧
  (∀ (s : State) (c : Fin 24), classLimit s (c.val + 1) = (tabGet s.sales.services c).limit) ∧
  (∀ (p : Port) (c : Fin 24) (s : State), Reaches p .planList s →
    exec (.planListService p (c.val + 1)) s = .next (replied p .planList
      (b1 (c.val + 1) ++ priceBytes (tabGet s.sales.services c).price ++ b1 (tabGet s.sales.services c).limit) s)) ∧
  ∀ (p : Port) (n part : Nat) (s : State),
    (Reaches p .carList s →
      ((∀ car ∈ s.trk.queue, car.tag ≠ n) →
        exec (.carList p (.record n part)) s = .next (refusedWith p .carList .notFound s)) ∧
      ((∃ car ∈ s.trk.queue, car.tag = n) → part ≠ 1 → part ≠ 2 →
        exec (.carList p (.record n part)) s = .next (refusedWith p .carList .badValue s))) ∧
    (Reaches p .incidentList s → 7 < n →
      exec (.incidentList p n) s = .next (refusedWith p .incidentList .badValue s)) ∧
    (Reaches p .creditList s → 15 < n → exec (.creditList p n) s = .next (refusedWith p .creditList .badValue s)) ∧
    (Reaches p .laneStatus s → laneOfPort p = none → 2 < n →
      exec (.laneStatus p (some n)) s = .next (refusedWith p .laneStatus .badValue s)) ∧
    (Reaches p .stationStatus s → 15 < n →
      exec (.stationStatus p (some n)) s = .next (refusedWith p .stationStatus .badValue s)) ∧
    (Reaches p .planList s →
      (n = 0 ∨ 12 < n → exec (.planListPlan p n) s = .next (refusedWith p .planList .badValue s)) ∧
      (n = 0 ∨ 24 < n → exec (.planListService p n) s = .next (refusedWith p .planList .badValue s)))

/-- R171, R172 and R173: a take puts the present tally set under the port's copy number, which advances, answers the part
asked for and, with clear from P4, zeroes the set after the copy; a read without take answers the port's copy and changes
nothing; a bad part or a clear without take is refused BAD_VALUE, a clear from P0 NOT_PERMITTED, a read without a copy
NOT_FOUND. -/
def Obligations.TallyReadTakesAndClears : Prop :=
  (∀ (part : Nat) (s : State), Reaches .p0 .tallyRead s → 1 ≤ part → part ≤ 3 →
      exec (.tallyRead .p0 part true false) s =
        .next (answeredOk .p0 .tallyRead
          (b1 s.sales.consoleCopy.counter ++ b1 part ++ tallyBytes s.sales.tally part)
          { frameDone .p0 s with
            sales.consoleCopy :=
              ⟨some (s.sales.consoleCopy.counter, s.sales.tally), nextCount 255 s.sales.consoleCopy.counter⟩ })) ∧
  (∀ (part : Nat) (clear : Bool) (s : State), Reaches .p4 .tallyRead s → 1 ≤ part → part ≤ 3 →
      exec (.tallyRead .p4 part true clear) s =
        .next (answeredOk .p4 .tallyRead
          (b1 s.sales.officeCopy.counter ++ b1 part ++ tallyBytes s.sales.tally part)
          { frameDone .p4 s with
            sales.officeCopy :=
              ⟨some (s.sales.officeCopy.counter, s.sales.tally), nextCount 255 s.sales.officeCopy.counter⟩
            sales.tally := if clear then Tally.zero else s.sales.tally })) ∧
  (∀ (p : Port) (part n : Nat) (t : Tally) (s : State), Reaches p .tallyRead s → 1 ≤ part → part ≤ 3 →
      (copyUnit p s).copy = some (n, t) →
        exec (.tallyRead p part false false) s =
          .next (replied p .tallyRead (b1 n ++ b1 part ++ tallyBytes t part) s)) ∧
  (∀ (p : Port) (part : Nat) (take clear : Bool) (s : State), Reaches p .tallyRead s →
      part = 0 ∨ 3 < part ∨ (clear = true ∧ take = false) →
        exec (.tallyRead p part take clear) s = .next (refusedWith p .tallyRead .badValue s)) ∧
  (∀ (part : Nat) (s : State), Reaches .p0 .tallyRead s → 1 ≤ part → part ≤ 3 →
      exec (.tallyRead .p0 part true true) s = .next (refusedWith .p0 .tallyRead .notPermitted s)) ∧
  ∀ (p : Port) (part : Nat) (s : State), Reaches p .tallyRead s → 1 ≤ part → part ≤ 3 →
    (copyUnit p s).copy = none →
      exec (.tallyRead p part false false) s = .next (refusedWith p .tallyRead .notFound s)

/-! ### Sales -/

/-- R58, R68 and R69: QUOTE fails at the first test of R68 that applies, in order, and otherwise answers the subtotal,
the credit applied, the total and the speed class of R69; it changes nothing but its port. A purchase that passes is
priced so in every request (`pricePurchase`), with its add-on levels clamped into 1 to 4. -/
def Obligations.QuoteTestsAndPrices : Prop :=
  (∀ (s : State) (c : Fin 24), addOnPrice s (c.val + 1) = (tabGet s.sales.services c).price) ∧
  ∀ (p : Port) (buy : Purchase) (s : State), Reaches p .quote s →
    (planIndex buy.plan = none ∨ 2 < buy.addOns.length ∨ (∃ q ∈ buy.addOns, codeIndex q.code = none) →
      exec (.quote p buy) s = .next (refusedWith p .quote .badValue s)) ∧
    ∀ i : Fin 12, buy.plan = i.val + 1 → buy.addOns.length ≤ 2 →
      (∀ q ∈ buy.addOns, 1 ≤ q.code ∧ q.code ≤ 24) →
      ((tabGet s.sales.plans i).state ≠ .onSale → exec (.quote p buy) s = .next (refusedWith p .quote .state s)) ∧
      ((tabGet s.sales.plans i).state = .onSale →
        ((∃ q ∈ buy.addOns, addOnPrice s q.code = none) →
          exec (.quote p buy) s = .next (refusedWith p .quote .badValue s)) ∧
        ((∀ q ∈ buy.addOns, addOnPrice s q.code ≠ none) →
          ((∃ q ∈ buy.addOns, ∃ e ∈ planList s i, e.code = q.code) ∨ ¬(buy.addOns.map RawPair.code).Nodup →
            exec (.quote p buy) s = .next (refusedWith p .quote .duplicate s)) ∧
          ((∀ q ∈ buy.addOns, ∀ e ∈ planList s i, e.code ≠ q.code) → (buy.addOns.map RawPair.code).Nodup →
            (buy.credit ≠ 0 → (∀ c ∈ s.sales.credits, c.number ≠ buy.credit) →
              exec (.quote p buy) s = .next (refusedWith p .quote .notFound s)) ∧
            ∀ value : Nat,
              (buy.credit = 0 ∧ value = 0) ∨
                (buy.credit ≠ 0 ∧ (s.sales.credits.find? fun c => c.number == buy.credit).map Credit.value = some value) →
              ∃ subtotal cls : Nat,
                subtotal = (tabGet s.sales.plans i).price +
                  (buy.addOns.map fun q => (addOnPrice s q.code).getD 0).sum ∧
                cls = (((planList s i).map SvcLevel.code ++ buy.addOns.map RawPair.code).map (classLimit s)).foldr min
                  (tabGet s.sales.plans i).cls ∧
                exec (.quote p buy) s = .next (replied p .quote
                  (b4 subtotal ++ b4 (min value subtotal) ++ b4 (subtotal - min value subtotal) ++ b1 cls) s) ∧
                pricePurchase buy s = .ok ⟨i, buy.addOns.map fun q => ⟨q.code, clampTo q.level 1 4⟩, subtotal,
                  min value subtotal, subtotal - min value subtotal, cls⟩)))

/-- R65, R66, R67, R68, R69, R70, R165 and R166: a SELL whose purchase passes tests 2 to 6 and whose lane has room takes
the next free sale number, puts its ticket at the tail of the lane, removes the named credit, sets the last-sale record,
counts the sale and lets the arbiter search; a lane of 4 tickets refuses it FULL. Before that it is refused by the first
of tests 1 to 5 that it fails (test 6 stands in CreditIssueDropsThenAllocates). A sale counts one ticket of its plan and
of its lane or of CONSOLE, the total as revenue of the plan, the add-ons with the sum of their prices, and one credit
redeemed where it names one, each count holding at its top. -/
def Obligations.SellPutsATicketInTheLane : Prop :=
  (∀ (p : Port) (n ref : Nat) (buy : Purchase) (s : State), Reaches p .sell s → LinesFollow s → laneOfPort p = none →
    2 < n → exec (.sell p (some n) buy ref) s = .next (refusedWith p .sell .badValue s)) ∧
  (∀ (p : Port) (lane : Option Nat) (l : Lane) (buy : Purchase) (ref : Nat) (s : State), Reaches p .sell s →
    LinesFollow s → (laneOfPort p = some l ∧ lane = none) ∨ (laneOfPort p = none ∧ lane = some (laneCode l)) →
      (planIndex buy.plan = none ∨ 2 < buy.addOns.length ∨ (∃ q ∈ buy.addOns, codeIndex q.code = none) →
        exec (.sell p lane buy ref) s = .next (refusedWith p .sell .badValue s)) ∧
      ∀ i : Fin 12, buy.plan = i.val + 1 → buy.addOns.length ≤ 2 → (∀ q ∈ buy.addOns, 1 ≤ q.code ∧ q.code ≤ 24) →
        ((tabGet s.sales.plans i).state ≠ .onSale →
          exec (.sell p lane buy ref) s = .next (refusedWith p .sell .state s)) ∧
        ((tabGet s.sales.plans i).state = .onSale →
          ((∃ q ∈ buy.addOns, addOnPrice s q.code = none) →
            exec (.sell p lane buy ref) s = .next (refusedWith p .sell .badValue s)) ∧
          ((∀ q ∈ buy.addOns, addOnPrice s q.code ≠ none) →
            (∃ q ∈ buy.addOns, ∃ e ∈ planList s i, e.code = q.code) ∨ ¬(buy.addOns.map RawPair.code).Nodup →
              exec (.sell p lane buy ref) s = .next (refusedWith p .sell .duplicate s)))) ∧
  (∀ (lane : TicketLane) (buy : Purchase) (q : Priced) (value : Nat) (t : Tally), ∃ u : Tally,
    u = { t with
      plans := tabSet t.plans q.plan
        ⟨min 65535 ((tabGet t.plans q.plan).sold + 1), min 4294967295 ((tabGet t.plans q.plan).revenue + q.total)⟩
      addOns := min 4294967295 (t.addOns + q.addOns.length)
      addOnRevenue := min 4294967295 (t.addOnRevenue + value)
      redeemed := min 4294967295 (t.redeemed + if buy.credit = 0 then 0 else 1) } ∧
    (∀ l, lane = .lane l →
      tallySale lane buy q value t = { u with lanes := t.lanes.set l (min 4294967295 (t.lanes.get l + 1)) }) ∧
    (lane = .console → tallySale lane buy q value t = { u with console := min 4294967295 (t.console + 1) })) ∧
  (∀ (s : State) (codes : List Nat), addOnTotal s codes = (codes.map fun c => (addOnPrice s c).getD 0).sum) ∧
  ∀ (p : Port) (lane : Option Nat) (l : Lane) (buy : Purchase) (ref : Nat) (q : Priced) (s : State),
    Reaches p .sell s →
    (laneOfPort p = some l ∧ lane = none) ∨ (laneOfPort p = none ∧ lane = some (laneCode l)) →
    pricePurchase buy s = .ok q →
      ((s.sales.lanes.get l).length < 4 →
        ∃ (n : Nat) (t : Ticket), n = (allocate 9999 (heldSales s) s.sales.saleCounter).1 ∧
          t = { sale := n, lane := .lane l, plan := q.plan.val + 1, list := planList s q.plan ++ q.addOns, cls := q.cls,
                paid := q.total, credit := if buy.credit = 0 then none else some buy.credit, ref := ref,
                addOns := q.addOns.length } ∧
          exec (.sell p lane buy ref) s =
            .next (answeredOk p .sell (b2 n ++ b4 q.total ++ b1 q.cls)
              (driveLines (arbitrate
                { frameDone p s with
                  sales.lanes := s.sales.lanes.set l (s.sales.lanes.get l ++ [t])
                  sales.lastSale := s.sales.lastSale.set l (some ⟨n, ref⟩)
                  sales.saleCounter := nextCount 9999 n
                  sales.credits := s.sales.credits.filter fun c => c.number != buy.credit
                  sales.tally :=
                    tallySale (.lane l) buy q (addOnTotal s (q.addOns.map SvcLevel.code)) s.sales.tally })))) ∧
      (4 ≤ (s.sales.lanes.get l).length → LinesFollow s →
        exec (.sell p lane buy ref) s = .next (refusedWith p .sell .full s))

/-- R33, R36, R66, R72, R164 and R168, with the four-byte total of LANE_RESET of log entry 10: VOID takes the ticket
with the sale number out of a lane queue (its own lane's for a lane port), counts the void and answers the paid amount;
LANE_RESET voids every ticket of its lane, each counted with its paid amount, and answers their number and their total.
A head that leaves withdraws the lane's grant, with its notice and a new search, and no other lane's. A VOID that finds
no such ticket is refused NOT_FOUND. -/
def Obligations.VoidAndLaneResetTakeTickets : Prop :=
  (∀ (p : Port) (l : Lane) (t : Ticket) (s : State), Reaches p .void s →
      (laneOfPort p = some l ∨ (laneOfPort p = none ∧ ∀ l' ∈ allLanes, l' ≠ l → queuedTicket s l' t.sale = none)) →
      queuedTicket s l t.sale = some t →
        ∃ u : State,
          u = { frameDone p s with
            sales.lanes := s.sales.lanes.set l ((s.sales.lanes.get l).filter fun x => x.sale != t.sale)
            sales.tally := { s.sales.tally with
              voids := min 4294967295 (s.sales.tally.voids + 1)
              voidValue := min 4294967295 (s.sales.tally.voidValue + t.paid) } } ∧
          exec (.void p t.sale) s = .next (answeredOk p .void (b2 t.sale ++ b4 t.paid)
            (driveLines (if (s.sales.lanes.get l).head? = some t then withdrawLane l .headRemoved u else u)))) ∧
  (∀ (p : Port) (sale : Nat) (s : State), Reaches p .void s → LinesFollow s →
      (∀ l ∈ allLanes, laneOfPort p = none ∨ laneOfPort p = some l → queuedTicket s l sale = none) →
        exec (.void p sale) s = .next (refusedWith p .void .notFound s)) ∧
  (∀ (l : Lane) (s : State), Reaches .p0 .laneReset s →
    exec (.laneReset .p0 (laneCode l)) s =
      .next (answeredOk .p0 .laneReset
        (b1 (s.sales.lanes.get l).length ++ b4 (min 4294967295 ((s.sales.lanes.get l).map Ticket.paid).sum))
        (driveLines (withdrawLane l .laneReset
          { frameDone .p0 s with
            sales.lanes := s.sales.lanes.set l []
            sales.tally := voidTickets (s.sales.lanes.get l) s.sales.tally })))) ∧
  (∀ t : Tally, voidTickets [] t = t) ∧
  (∀ (x : Ticket) (rest : List Ticket) (t : Tally), voidTickets (x :: rest) t = voidTickets rest { t with
    voids := min 4294967295 (t.voids + 1), voidValue := min 4294967295 (t.voidValue + x.paid) }) ∧
  ∀ (l : Lane) (reason : WithdrawReason) (s : State),
    (∀ g, s.ent.grant = some g → g.lane = l →
      withdrawLane l reason s = arbitrate (notify (portOfLane l) (.withdrawn l g.sale reason)
        { s with ent.grant := none, ent.grantTimer := none })) ∧
    ((∀ g, s.ent.grant = some g → g.lane ≠ l) → withdrawLane l reason s = s)

/-- R74, R75, R76, R90, R99, R100 and R167, with the layout of TOO_LATE of log entry 10: an accepted ADD_SERVICE extends
the ticket where it is, in its lane queue or in its car record, and counts the add-on; a bound ticket's car gets one
PENDING entry for each serving station, at its place in station-position order, and the stations are tested. The serving
stations of a code are those assigned to it; a commit point is SP - PRE - COMMIT_LEAD, floored at 0. A front at or
beyond the commit point of a serving station refuses it TOO_LATE with the lowest-numbered such station. Before that, in
the order of R74: NOT_FOUND for a sale number that no held ticket carries, or from a lane port one of another lane;
BAD_VALUE for a code outside 1 to 24 or without an add-on price; DUPLICATE for a code in the list; FULL for a list of
12. -/
def Obligations.AddServiceExtendsTheTicket : Prop :=
  (∀ (k : Constants) (r : StationRec), commitPoint k r = r.sp - r.pre - k.commitLead) ∧
  (∀ (s : State) (code : Nat), servingStations s code =
    allStations.filter fun i => decide (code ≠ 0 ∧ (tabGet s.seq.table i).code = code)) ∧
  (∀ (s : State) (e : Entry) (l : List Entry), ∃ before behind : List Entry, l = before ++ behind ∧
    insertEntry s e l = before ++ e :: behind ∧
    (∀ x ∈ before, (tabGet s.seq.table x.station).sp < (tabGet s.seq.table e.station).sp ∨
      ((tabGet s.seq.table x.station).sp = (tabGet s.seq.table e.station).sp ∧ x.station < e.station)) ∧
    ∀ x ∈ behind.head?, (tabGet s.seq.table e.station).sp < (tabGet s.seq.table x.station).sp ∨
      ((tabGet s.seq.table e.station).sp = (tabGet s.seq.table x.station).sp ∧ e.station ≤ x.station)) ∧
  (∀ (p : Port) (sale code level : Nat) (s : State), Reaches p .addService s → LinesFollow s →
    ((∀ l ∈ allLanes, ∀ t ∈ s.sales.lanes.get l, t.sale ≠ sale) →
      (∀ car ∈ s.trk.queue, ∀ t, car.ticket = some t → t.sale ≠ sale) →
      exec (.addService p sale code level) s = .next (refusedWith p .addService .notFound s)) ∧
    (∀ (l : Lane) (place : TicketPlace), laneOfPort p = some l → ticketPlace s sale = some place →
      place.ticket.lane ≠ .lane l →
      exec (.addService p sale code level) s = .next (refusedWith p .addService .notFound s)) ∧
    (∀ (place : TicketPlace), ticketPlace s sale = some place →
      laneOfPort p = none ∨ (∃ l, laneOfPort p = some l ∧ place.ticket.lane = .lane l) →
      (code = 0 ∨ 24 < code ∨ addOnPrice s code = none →
        exec (.addService p sale code level) s = .next (refusedWith p .addService .badValue s)) ∧
      (addOnPrice s code ≠ none → (∃ e ∈ place.ticket.list, e.code = code) →
        exec (.addService p sale code level) s = .next (refusedWith p .addService .duplicate s)) ∧
      (addOnPrice s code ≠ none → (∀ e ∈ place.ticket.list, e.code ≠ code) → 12 ≤ place.ticket.list.length →
        exec (.addService p sale code level) s = .next (refusedWith p .addService .full s)))) ∧
  ∀ (p : Port) (code level price : Nat) (s : State) (place : TicketPlace),
    Reaches p .addService s → namedTicket p s place.ticket.sale = some place → addOnPrice s code = some price →
    (∀ e ∈ place.ticket.list, e.code ≠ code) → place.ticket.list.length < 12 →
      ∃ (t : Ticket) (u : State),
        t = { place.ticket with
          list := place.ticket.list ++ [⟨code, clampTo level 1 4⟩]
          paid := min 4294967295 (place.ticket.paid + price)
          addOns := place.ticket.addOns + 1
          cls := min place.ticket.cls (classLimit s code) } ∧
        u = { frameDone p s with
          sales.tally := tallyPlanOf t.plan price (tallyAddOns 1 price s.sales.tally) } ∧
        (∀ (l : Lane) (x : Ticket), place = .queued l x →
          exec (.addService p t.sale code level) s =
            .next (answeredOk p .addService (b2 t.sale ++ b2 price ++ b4 t.paid ++ b1 t.cls ++ b1 t.list.length)
              (driveLines { u with
                sales.lanes := s.sales.lanes.set l
                  (updateFirst (fun y => y.sale == t.sale) (fun _ => t) (s.sales.lanes.get l)) }))) ∧
        (∀ (car : Car) (x : Ticket), place = .bound car x →
          (∀ i ∈ servingStations s code, car.front < commitPoint s.sup.consts (tabGet s.seq.table i)) →
            exec (.addService p t.sale code level) s =
              .next (answeredOk p .addService (b2 t.sale ++ b2 price ++ b4 t.paid ++ b1 t.cls ++ b1 t.list.length)
                (driveLines (testArmAll (updateCar car.tag (fun y =>
                  { y with
                    ticket := some t
                    schedule := ((servingStations s code).map (newEntry (clampTo level 1 4))).foldl
                      (fun l e => insertEntry s e l) y.schedule
                    cls := if t.cls < y.cls then t.cls else y.cls }) u))))) ∧
        (∀ (car : Car) (x : Ticket) (i : Fin 16) (below above : List (Fin 16)), place = .bound car x → LinesFollow s →
          servingStations s code = below ++ i :: above →
          (∀ j ∈ below, car.front < commitPoint s.sup.consts (tabGet s.seq.table j)) →
          commitPoint s.sup.consts (tabGet s.seq.table i) ≤ car.front →
            exec (.addService p t.sale code level) s =
              .next (sendAnswer p 0x13 ⟨.tooLate, b1 i.val⟩ (frameDone p s)))

/-- R68, R78, R79, R80 and R81, with the one-byte count of omitted stations of log entry 10: ATTACH binds the head
ticket of a lane, or a ticket it sells, to an unticketed record: the ticket, its class and a partial schedule, in
station-position order, of one PENDING entry for each serving station of each code whose commit point lies ahead of the
front; the serving stations whose commit point the front has reached are counted as omitted. The lane form takes the
head out of the lane and withdraws the lane's grant; the new-sale form takes the next sale number. A tag that no record
carries is refused NOT_FOUND and a ticketed record STATE; then the lane form is refused BAD_VALUE for a lane other than
A, B and C and NOT_FOUND for an empty lane queue, and the new-sale form as the first of tests 2 to 6 of R68 that it
fails. -/
def Obligations.AttachBindsATicket : Prop :=
  (∀ (s : State) (front : Nat) (t : Ticket), omittedCount s front t =
    (t.list.flatMap fun q => (servingStations s q.code).filter fun i =>
      decide (commitPoint s.sup.consts (tabGet s.seq.table i) ≤ front)).length) ∧
  (∀ (s : State) (reachable : Fin 16 → Bool) (list : List SvcLevel), buildSchedule s reachable list =
    orderSchedule s (list.flatMap fun q =>
      ((servingStations s q.code).filter reachable).map fun i => ⟨i, q.level, .pending, none⟩)) ∧
  (∀ (car : Car) (s : State), Reaches .p0 .attach s → LinesFollow s → carOf s car.tag = some car → car.ticket = none →
    (∀ n, 2 < n → exec (.attachLane .p0 car.tag n) s = .next (refusedWith .p0 .attach .badValue s)) ∧
    (∀ l : Lane, s.sales.lanes.get l = [] →
      exec (.attachLane .p0 car.tag (laneCode l)) s = .next (refusedWith .p0 .attach .notFound s)) ∧
    ∀ (buy : Purchase) (ref : Nat),
      (planIndex buy.plan = none ∨ 2 < buy.addOns.length ∨ (∃ q ∈ buy.addOns, codeIndex q.code = none) →
        exec (.attachNewSale .p0 car.tag buy ref) s = .next (refusedWith .p0 .attach .badValue s)) ∧
      ∀ i : Fin 12, buy.plan = i.val + 1 → buy.addOns.length ≤ 2 → (∀ q ∈ buy.addOns, 1 ≤ q.code ∧ q.code ≤ 24) →
        ((tabGet s.sales.plans i).state ≠ .onSale →
          exec (.attachNewSale .p0 car.tag buy ref) s = .next (refusedWith .p0 .attach .state s)) ∧
        ((tabGet s.sales.plans i).state = .onSale →
          ((∃ q ∈ buy.addOns, addOnPrice s q.code = none) →
            exec (.attachNewSale .p0 car.tag buy ref) s = .next (refusedWith .p0 .attach .badValue s)) ∧
          ((∀ q ∈ buy.addOns, addOnPrice s q.code ≠ none) →
            ((∃ q ∈ buy.addOns, ∃ e ∈ planList s i, e.code = q.code) ∨ ¬(buy.addOns.map RawPair.code).Nodup →
              exec (.attachNewSale .p0 car.tag buy ref) s = .next (refusedWith .p0 .attach .duplicate s)) ∧
            ((∀ q ∈ buy.addOns, ∀ e ∈ planList s i, e.code ≠ q.code) → (buy.addOns.map RawPair.code).Nodup →
              buy.credit ≠ 0 → (∀ c ∈ s.sales.credits, c.number ≠ buy.credit) →
                exec (.attachNewSale .p0 car.tag buy ref) s = .next (refusedWith .p0 .attach .notFound s))))) ∧
  (∀ (car : Car) (l : Lane) (t : Ticket) (rest : List Ticket) (s : State), Reaches .p0 .attach s →
      carOf s car.tag = some car → car.ticket = none → s.sales.lanes.get l = t :: rest →
        exec (.attachLane .p0 car.tag (laneCode l)) s =
          .next (answeredOk .p0 .attach (b1 car.tag ++ b2 t.sale ++ b1 (omittedCount s car.front t) ++ b1 t.cls)
            (driveLines (withdrawLane l .headRemoved (testArmAll (updateCar car.tag
              (fun y => { y with
                ticket := some t
                cls := t.cls
                schedule := buildSchedule s (fun i =>
                  car.front < commitPoint s.sup.consts (tabGet s.seq.table i)) t.list })
              { frameDone .p0 s with sales.lanes := s.sales.lanes.set l rest })))))) ∧
  (∀ (car : Car) (buy : Purchase) (ref : Nat) (q : Priced) (s : State), Reaches .p0 .attach s →
      carOf s car.tag = some car → car.ticket = none → pricePurchase buy s = .ok q →
        ∃ (n : Nat) (t : Ticket), n = (allocate 9999 (heldSales s) s.sales.saleCounter).1 ∧
          t = { sale := n, lane := .console, plan := q.plan.val + 1, list := planList s q.plan ++ q.addOns, cls := q.cls,
                paid := q.total, credit := if buy.credit = 0 then none else some buy.credit, ref := ref,
                addOns := q.addOns.length } ∧
          exec (.attachNewSale .p0 car.tag buy ref) s =
            .next (answeredOk .p0 .attach
              (b1 car.tag ++ b2 n ++ b1 (omittedCount s car.front t) ++ b1 t.cls ++ b4 q.total)
              (driveLines (testArmAll (updateCar car.tag
                (fun y => { y with
                  ticket := some t
                  cls := t.cls
                  schedule := buildSchedule s (fun i =>
                    car.front < commitPoint s.sup.consts (tabGet s.seq.table i)) t.list })
                { frameDone .p0 s with
                  sales.saleCounter := nextCount 9999 n
                  sales.credits := s.sales.credits.filter fun c => c.number != buy.credit
                  sales.tally :=
                    tallySale .console buy q (addOnTotal s (q.addOns.map SvcLevel.code)) s.sales.tally }))))) ∧
  ∀ (tag lane ref : Nat) (buy : Purchase) (s : State), Reaches .p0 .attach s → LinesFollow s →
    (carOf s tag = none →
      exec (.attachLane .p0 tag lane) s = .next (refusedWith .p0 .attach .notFound s) ∧
      exec (.attachNewSale .p0 tag buy ref) s = .next (refusedWith .p0 .attach .notFound s)) ∧
    ∀ car, carOf s tag = some car → car.ticket ≠ none →
      exec (.attachLane .p0 tag lane) s = .next (refusedWith .p0 .attach .state s) ∧
      exec (.attachNewSale .p0 tag buy ref) s = .next (refusedWith .p0 .attach .state s)

/-! ### The console's requests on incidents, lanes, cars and stations -/

/-- R158, R159, R160 and R157, with the one-byte counts of the ALL form of log entry 10: ACK_INCIDENT removes the record
with the number, refused NOT_FOUND where none has it and STATE for an ESTOP record while the loop is open and an
EXIT_BLOCKED record while the exit eye is blocked; with ALL it removes every other record, oldest first, and answers how
many left and how many stay. A removal that leaves no PAUSE-class record takes a PAUSED tunnel without MANUAL to
STARTING, the cause naming the last PAUSE-class record removed. -/
def Obligations.AcknowledgementRemovesRecords : Prop :=
  (∀ (s : State) (before behind : List Incident) (r : Incident), Reaches .p0 .ackIncident s →
      s.sup.incidents = before ++ r :: behind →
      (∀ x ∈ before, x.number ≠ r.number) → (∀ x ∈ behind, x.number ≠ r.number) →
      ((r.kind = .estop ∧ s.inputs.estopClosed = false) ∨ (r.kind = .exitBlocked ∧ s.inputs.eyes.exit = true) →
        LinesFollow s → exec (.ackIncident .p0 r.number) s = .next (refusedWith .p0 .ackIncident .state s)) ∧
      ((r.kind = .estop → s.inputs.estopClosed = true) → (r.kind = .exitBlocked → s.inputs.eyes.exit = false) →
        exec (.ackIncident .p0 r.number) s =
          .next (answeredOk .p0 .ackIncident (b1 r.number) (driveLines (afterRemoval [r]
            (notifyBoth (.incident .removed r.kind r)
              { frameDone .p0 s with sup.incidents := before ++ behind })))))) ∧
  (∀ (s : State) (n : Nat), Reaches .p0 .ackIncident s → LinesFollow s → (∀ x ∈ s.sup.incidents, x.number ≠ n) →
      exec (.ackIncident .p0 n) s = .next (refusedWith .p0 .ackIncident .notFound s)) ∧
  (∀ s : State, Reaches .p0 .ackIncident s →
      ∃ kept gone : List Incident,
        kept = s.sup.incidents.filter (ackBarred s) ∧ gone = s.sup.incidents.filter (fun r => !ackBarred s r) ∧
        (∀ r ∈ s.sup.incidents, ackBarred s r = true ↔
          (r.kind = .estop ∧ s.inputs.estopClosed = false) ∨ (r.kind = .exitBlocked ∧ s.inputs.eyes.exit = true)) ∧
        exec (.ackIncidentAll .p0) s =
          .next (answeredOk .p0 .ackIncident (b1 gone.length ++ b1 kept.length)
            (driveLines (afterRemoval gone (tellRemoved gone { frameDone .p0 s with sup.incidents := kept }))))) ∧
  ∀ (s : State) (gone front : List Incident) (r : Incident) (rest : List Incident), gone = front ++ r :: rest →
    r.cls = .pause → (∀ x ∈ rest, x.cls ≠ .pause) →
      (∀ m, s.sup.tunnel = .paused m → pauseListed s = false → s.sup.manual = false →
        afterRemoval gone s = changeTunnel (.starting m) (.incident r.number) s) ∧
      (pauseListed s = true ∨ s.sup.manual = true ∨ (∀ m, s.sup.tunnel ≠ .paused m) → afterRemoval gone s = s)

/-- R25, R36 and R164, with the one-byte flag of the answers of log entry 10: LANE_ENABLE sets the lane's flag and lets
the arbiter search, LANE_DISABLE clears it and withdraws the lane's grant; both answer the resulting flag. A lane code
other than 0, 1 and 2 is refused BAD_VALUE, in LANE_RESET too. -/
def Obligations.LaneFlagsEnableAndDisable : Prop :=
  (∀ (l : Lane) (s : State), Reaches .p0 .laneEnable s →
      exec (.laneEnable .p0 (laneCode l)) s =
        .next (answeredOk .p0 .laneEnable (b1 1)
          (driveLines (arbitrate { frameDone .p0 s with ent.enabled := s.ent.enabled.set l true })))) ∧
  (∀ (l : Lane) (g : Grant) (s : State), Reaches .p0 .laneDisable s → s.ent.grant = some g → g.lane = l →
      exec (.laneDisable .p0 (laneCode l)) s =
        .next (answeredOk .p0 .laneDisable (b1 0)
          (driveLines (arbitrate (notify (portOfLane l) (.withdrawn l g.sale .laneDisabled)
            { frameDone .p0 s with
              ent.enabled := s.ent.enabled.set l false
              ent.grant := none
              ent.grantTimer := none }))))) ∧
  (∀ (l : Lane) (s : State), Reaches .p0 .laneDisable s → (∀ g, s.ent.grant = some g → g.lane ≠ l) →
      exec (.laneDisable .p0 (laneCode l)) s =
        .next (answeredOk .p0 .laneDisable (b1 0)
          (driveLines { frameDone .p0 s with ent.enabled := s.ent.enabled.set l false }))) ∧
  ∀ (n : Nat) (s : State), 2 < n → LinesFollow s →
    (Reaches .p0 .laneEnable s → exec (.laneEnable .p0 n) s = .next (refusedWith .p0 .laneEnable .badValue s)) ∧
    (Reaches .p0 .laneDisable s → exec (.laneDisable .p0 n) s = .next (refusedWith .p0 .laneDisable .badValue s)) ∧
    (Reaches .p0 .laneReset s → exec (.laneReset .p0 n) s = .next (refusedWith .p0 .laneReset .badValue s))

/-- R4, R85, R163 and R169, with the one-byte counts of the answer of log entry 10: TUNNEL_CLEAR, in STOPPED and HALTED
alone, takes every record out of the tunnel queue, oldest first, with a CAR_EXIT notice of outcome CLEARED and a credit
where the car paid and an entry is not DONE; it answers the number of records and of credits, counts no exit and leaves
the tunnel state and the next-tag counter. -/
def Obligations.TunnelClearEmptiesTheQueue : Prop :=
  (∀ s : State, Reaches .p0 .tunnelClear s → s.sup.tunnel = .stopped ∨ s.sup.tunnel.isHalted = true →
      ∃ t : State,
        exec (.tunnelClear .p0) s =
          .next (answeredOk .p0 .tunnelClear (b1 s.trk.queue.length ++ b1 (clearCredits s.trk.queue)) t) ∧
        t = driveLines (s.trk.queue.foldl (fun u car => clearRecord car u) (frameDone .p0 s)) ∧
        t.trk.queue = [] ∧ t.sup.tunnel = s.sup.tunnel ∧ t.sup.incidents = s.sup.incidents ∧
        t.trk.nextTag = s.trk.nextTag ∧ t.sales.tally.exitComplete = s.sales.tally.exitComplete ∧
        t.sales.tally.exitShort = s.sales.tally.exitShort ∧
        t.sales.tally.exitUnticketed = s.sales.tally.exitUnticketed ∧ t.sales.lanes = s.sales.lanes ∧
        t.pace.v = s.pace.v ∧ t.ent.grant = s.ent.grant ∧
        t.pace.resolved = 4) ∧
  (∀ (car : Car) (u : State),
      clearRecord car u =
        leaveQueue car (notifyBoth (.carExit car.tag (car.ticket.map Ticket.sale) (car.ticket.map Ticket.plan) .cleared
          (clearCredit car u).2) (clearCredit car u).1) ∧
      (∀ x, car.ticket = some x → 0 < x.paid → (∃ e ∈ car.schedule, e.state ≠ .done) →
        clearCredit car u = ((issueCredit x.paid (some x.sale) (some x.plan) u).1,
          some (issueCredit x.paid (some x.sale) (some x.plan) u).2.1)) ∧
      (car.ticket = none ∨ (∃ x, car.ticket = some x ∧ x.paid = 0) ∨ (∀ e ∈ car.schedule, e.state = .done) →
        clearCredit car u = (u, none))) ∧
  ∀ s : State, Reaches .p0 .tunnelClear s → LinesFollow s → s.sup.tunnel ≠ .stopped → s.sup.tunnel.isHalted = false →
    exec (.tunnelClear .p0) s = .next (refusedWith .p0 .tunnelClear .state s)

/-- R110 and R111: STATION_OFF takes a station to OFF_LINE from every state and marks its ACTIVE and HELD entries
OFFLINE; STATION_ON takes an OFF_LINE station, and STATION_RESET a FAULT station, to IDLE with its failed-attempt count
0 and tests it; in any other state these two are refused STATE. All three answer the station and its state after the
request, and a station number above 15 is refused BAD_VALUE (the opening of section 5.7). -/
def Obligations.StationOffOnAndReset : Prop :=
  (∀ (i : Fin 16) (s : State), Reaches .p0 .stationOff s → (tabGet s.seq.units i).state ≠ .offLine →
      exec (.stationOff .p0 i.val) s =
        .next (answeredOk .p0 .stationOff (b1 i.val ++ b1 7)
          (driveLines (markEntries i .offline true (moveStation i .offLine (frameDone .p0 s)))))) ∧
  (∀ (i : Fin 16) (s : State), Reaches .p0 .stationOff s → (tabGet s.seq.units i).state = .offLine →
      exec (.stationOff .p0 i.val) s =
        .next (answeredOk .p0 .stationOff (b1 i.val ++ b1 7) (driveLines (frameDone .p0 s)))) ∧
  (∀ (i : Fin 16) (s : State) (k : ReqKind) (c : Instr), Reaches .p0 k s →
      (k = .stationOn ∧ c = .stationOn .p0 i.val ∧ (tabGet s.seq.units i).state = .offLine) ∨
        (k = .stationReset ∧ c = .stationReset .p0 i.val ∧ (tabGet s.seq.units i).state = .fault) →
      ∃ t : State, t = testArm i (moveStation i .idle (updateUnit i (fun u => { u with fails := 0 }) (frameDone .p0 s))) ∧
        exec c s =
          .next (answeredOk .p0 k (b1 i.val ++ b1 (stationStateCode (tabGet t.seq.units i).state)) (driveLines t))) ∧
  (∀ (i : Fin 16) (s : State), LinesFollow s →
      (Reaches .p0 .stationOn s → (tabGet s.seq.units i).state ≠ .offLine →
        exec (.stationOn .p0 i.val) s = .next (refusedWith .p0 .stationOn .state s)) ∧
      (Reaches .p0 .stationReset s → (tabGet s.seq.units i).state ≠ .fault →
        exec (.stationReset .p0 i.val) s = .next (refusedWith .p0 .stationReset .state s))) ∧
  (∀ (n : Nat) (s : State), LinesFollow s → 15 < n →
      (Reaches .p0 .stationOff s → exec (.stationOff .p0 n) s = .next (refusedWith .p0 .stationOff .badValue s)) ∧
      (Reaches .p0 .stationOn s → exec (.stationOn .p0 n) s = .next (refusedWith .p0 .stationOn .badValue s)) ∧
      (Reaches .p0 .stationReset s → exec (.stationReset .p0 n) s = .next (refusedWith .p0 .stationReset .badValue s))) ∧
  ∀ (i : Fin 16) (new : StationState) (s : State),
    (tabGet (moveStation i new s).seq.units i).state = new ∧
    (new ∈ [.idle, .fault, .offLine] →
      (tabGet (moveStation i new s).seq.units i).proofTimer = none ∧
      (tabGet (moveStation i new s).seq.units i).retryTimer = none ∧
      (tabGet (moveStation i new s).seq.units i).recheck = false) ∧
    ∀ j, j ≠ i → tabGet (moveStation i new s).seq.units j = tabGet s.seq.units j

/-! ### Tunnel control -/

/-- R142, with the state and target byte of the answer of log entry 10: OPEN by the control holder, row by row: in
STOPPED refused OCCUPIED while an eye is blocked, and with every eye clear and the loop closed to PAUSED or STARTING
with target RUNNING; in STARTING and PAUSED the target becomes RUNNING; in DRAINING to RUNNING; in RUNNING nothing; in
HALTED refused STATE. STOPPED with every eye clear and the loop open, which no reachable state is and R142 has no row
for, is refused STATE (log entry 18). -/
def Obligations.OpenFollowsItsTable : Prop :=
  ∀ (p : Port) (s : State), Reaches p .openTunnel s → s.sup.holder = some p →
    (s.sup.tunnel = .stopped → LinesFollow s →
      s.inputs.entrance = true ∨ s.inputs.eyes.exit = true ∨ (s.inputs.eyes.ce1 = true ∧ s.sup.consts.ce1 ≠ 0) ∨
        (s.inputs.eyes.ce2 = true ∧ s.sup.consts.ce2 ≠ 0) ∨ (s.inputs.eyes.ce3 = true ∧ s.sup.consts.ce3 ≠ 0) ∨
        (s.inputs.eyes.ce4 = true ∧ s.sup.consts.ce4 ≠ 0) →
      exec (.openTunnel p) s = .next (refusedWith p .openTunnel .occupied s)) ∧
    (s.sup.tunnel = .stopped → s.inputs.estopClosed = true → s.inputs.entrance = false → s.inputs.eyes.exit = false →
      (s.inputs.eyes.ce1 = true → s.sup.consts.ce1 = 0) → (s.inputs.eyes.ce2 = true → s.sup.consts.ce2 = 0) →
      (s.inputs.eyes.ce3 = true → s.sup.consts.ce3 = 0) → (s.inputs.eyes.ce4 = true → s.sup.consts.ce4 = 0) →
      (pauseListed s = true →
        exec (.openTunnel p) s = .next (answeredOk p .openTunnel (b1 4 ++ b1 2)
          (driveLines (changeTunnel (.paused .running) (.request .openTunnel) (frameDone p s))))) ∧
      (pauseListed s = false →
        exec (.openTunnel p) s = .next (answeredOk p .openTunnel (b1 1 ++ b1 2)
          (driveLines (changeTunnel (.starting .running) (.request .openTunnel) (frameDone p s)))))) ∧
    (s.sup.tunnel = .stopped → LinesFollow s → s.inputs.estopClosed = false → s.inputs.entrance = false →
      s.inputs.eyes.exit = false →
      (s.inputs.eyes.ce1 = true → s.sup.consts.ce1 = 0) → (s.inputs.eyes.ce2 = true → s.sup.consts.ce2 = 0) →
      (s.inputs.eyes.ce3 = true → s.sup.consts.ce3 = 0) → (s.inputs.eyes.ce4 = true → s.sup.consts.ce4 = 0) →
        exec (.openTunnel p) s = .next (refusedWith p .openTunnel .state s)) ∧
    (∀ m, s.sup.tunnel = .starting m →
      exec (.openTunnel p) s = .next (answeredOk p .openTunnel (b1 1 ++ b1 2)
        (driveLines { frameDone p s with sup.tunnel := .starting .running }))) ∧
    (∀ m, s.sup.tunnel = .paused m →
      exec (.openTunnel p) s = .next (answeredOk p .openTunnel (b1 4 ++ b1 2)
        (driveLines { frameDone p s with sup.tunnel := .paused .running }))) ∧
    (s.sup.tunnel = .draining →
      exec (.openTunnel p) s = .next (answeredOk p .openTunnel (b1 2 ++ b1 0xFF)
        (driveLines (changeTunnel .running (.request .openTunnel) (frameDone p s))))) ∧
    (s.sup.tunnel = .running →
      exec (.openTunnel p) s = .next (answeredOk p .openTunnel (b1 2 ++ b1 0xFF) (driveLines (frameDone p s)))) ∧
    (s.sup.tunnel.isHalted = true → LinesFollow s →
      exec (.openTunnel p) s = .next (refusedWith p .openTunnel .state s))

/-- R144, R145, R146 and R151: DRAIN and STOP by the control holder and RESTART from the console. DRAIN takes RUNNING to
DRAINING, or to STOPPED with the queue empty, and sets the target in STARTING and PAUSED; STOP takes the tunnel to
STOPPED with MANUAL clear once the queue is empty, refused OCCUPIED before; RESTART takes HALTED to the state of its
table. In HALTED STOP and RESTART are refused STATE while a HALT-class record is listed or the loop is open. -/
def Obligations.DrainStopAndRestart : Prop :=
  (∀ (p : Port) (s : State), Reaches p .drain s → s.sup.holder = some p →
      (s.sup.tunnel = .running → s.trk.queue ≠ [] →
        exec (.drain p) s = .next (answeredOk p .drain (b1 3 ++ b1 0xFF)
          (driveLines (changeTunnel .draining (.request .drain) (frameDone p s))))) ∧
      (s.sup.tunnel = .running → s.trk.queue = [] →
        exec (.drain p) s = .next (answeredOk p .drain (b1 0 ++ b1 0xFF)
          (driveLines (changeTunnel .stopped (.request .drain) (frameDone p s))))) ∧
      (∀ m, s.sup.tunnel = .starting m →
        exec (.drain p) s = .next (answeredOk p .drain (b1 1 ++ b1 3)
          (driveLines { frameDone p s with sup.tunnel := .starting .draining }))) ∧
      (∀ m, s.sup.tunnel = .paused m →
        exec (.drain p) s = .next (answeredOk p .drain (b1 4 ++ b1 3)
          (driveLines { frameDone p s with sup.tunnel := .paused .draining }))) ∧
      (s.sup.tunnel = .draining →
        exec (.drain p) s = .next (answeredOk p .drain (b1 3 ++ b1 0xFF) (driveLines (frameDone p s)))) ∧
      (s.sup.tunnel = .stopped ∨ s.sup.tunnel.isHalted = true → LinesFollow s →
        exec (.drain p) s = .next (refusedWith p .drain .state s))) ∧
  (∀ (p : Port) (s : State), Reaches p .stop s → s.sup.holder = some p →
      (s.sup.tunnel = .stopped →
        exec (.stop p) s = .next (answeredOk p .stop [] (driveLines (frameDone p s)))) ∧
      (s.sup.tunnel.isHalted = true → LinesFollow s →
        (∃ r ∈ s.sup.incidents, r.cls = .halt) ∨ s.inputs.estopClosed = false →
          exec (.stop p) s = .next (refusedWith p .stop .state s)) ∧
      (s.sup.tunnel ≠ .stopped →
        (s.sup.tunnel.isHalted = true →
          (∀ r ∈ s.sup.incidents, r.cls ≠ .halt) ∧ s.inputs.estopClosed = true) →
        (s.trk.queue ≠ [] → LinesFollow s → exec (.stop p) s = .next (refusedWith p .stop .occupied s)) ∧
        (s.trk.queue = [] →
          exec (.stop p) s = .next (answeredOk p .stop []
            (driveLines (changeTunnel .stopped (.request .stop) { frameDone p s with sup.manual := false })))))) ∧
  ∀ s : State, Reaches .p0 .restart s →
    (s.sup.tunnel.isHalted = false → LinesFollow s →
      exec (.restart .p0) s = .next (refusedWith .p0 .restart .state s)) ∧
    (s.sup.tunnel.isHalted = true → LinesFollow s →
      (∃ r ∈ s.sup.incidents, r.cls = .halt) ∨ s.inputs.estopClosed = false →
        exec (.restart .p0) s = .next (refusedWith .p0 .restart .state s)) ∧
    ((∀ r ∈ s.sup.incidents, r.cls ≠ .halt) → s.inputs.estopClosed = true →
      (s.sup.tunnel = .halted .stopped →
        exec (.restart .p0) s = .next (answeredOk .p0 .restart (b1 0 ++ b1 0xFF)
          (driveLines (changeTunnel .stopped (.request .restart) (frameDone .p0 s))))) ∧
      ∀ (pre : PreHalt) (m : TargetMode), s.sup.tunnel = .halted pre →
        (pre = .running ∧ m = .running) ∨ (pre = .draining ∧ m = .draining) →
        (pauseListed s = true →
          exec (.restart .p0) s = .next (answeredOk .p0 .restart (b1 4 ++ b1 (targetCode m))
            (driveLines (changeTunnel (.paused m) (.request .restart) (frameDone .p0 s))))) ∧
        (pauseListed s = false →
          exec (.restart .p0) s = .next (answeredOk .p0 .restart (b1 1 ++ b1 (targetCode m))
            (driveLines (changeTunnel (.starting m) (.request .restart) (frameDone .p0 s))))))

/-- R147 and R149: PAUSE from the console or from the holder sets MANUAL and takes RUNNING, DRAINING and STARTING to
PAUSED with the target kept; RESUME clears MANUAL and takes PAUSED to STARTING unless a PAUSE-class record is listed.
Elsewhere they are refused STATE. The answers carry the state and the pause reasons (log entry 10). -/
def Obligations.PauseAndResumeKeepTheTarget : Prop :=
  (∀ (p : Port) (s : State), Reaches p .pause s → p = .p0 ∨ s.sup.holder = some p →
      (∀ m, (s.sup.tunnel = .running ∧ m = .running) ∨ (s.sup.tunnel = .draining ∧ m = .draining) ∨
          s.sup.tunnel = .starting m →
        exec (.pause p) s = .next (answeredOk p .pause (b1 4 ++ b1 (1 + flagBit 1 (pauseListed s)))
          (driveLines (changeTunnel (.paused m) (.request .pause) { frameDone p s with sup.manual := true })))) ∧
      (∀ m, s.sup.tunnel = .paused m →
        exec (.pause p) s = .next (answeredOk p .pause (b1 4 ++ b1 (1 + flagBit 1 (pauseListed s)))
          (driveLines { frameDone p s with sup.manual := true }))) ∧
      (s.sup.tunnel = .stopped ∨ s.sup.tunnel.isHalted = true → LinesFollow s →
        exec (.pause p) s = .next (refusedWith p .pause .state s))) ∧
  ∀ (p : Port) (s : State), Reaches p .resume s → p = .p0 ∨ s.sup.holder = some p →
    (∀ m, s.sup.tunnel = .paused m → pauseListed s = false →
      exec (.resume p) s = .next (answeredOk p .resume (b1 1 ++ b1 0)
        (driveLines (changeTunnel (.starting m) (.request .resume) { frameDone p s with sup.manual := false })))) ∧
    (∀ m, s.sup.tunnel = .paused m → pauseListed s = true →
      exec (.resume p) s = .next (answeredOk p .resume (b1 4 ++ b1 2)
        (driveLines { frameDone p s with sup.manual := false }))) ∧
    ((∀ m, s.sup.tunnel ≠ .paused m) → LinesFollow s →
      exec (.resume p) s = .next (refusedWith p .resume .state s))

/-- R112, R113, R114 and R115: FORCE_SPEED by the holder forces the class clamped into 1 to 4 and the conveyor speed
output becomes its SPEED_TABLE entry; RELEASE_SPEED gives the output back to the lowest class of the tunnel queue, 4
when it is empty. Both answer the resolved class and the output. -/
def Obligations.ForcedClassDrivesTheConveyor : Prop :=
  (∀ (p : Port) (n : Nat) (s : State), Reaches p .forceSpeed s → s.sup.holder = some p →
      ∃ (c : Nat) (t : State), c = clampTo n 1 4 ∧ t = driveLines { frameDone p s with pace.forced := some c } ∧
        t.out.speed = fourAt s.sup.consts.speed c ∧
        exec (.forceSpeed p n) s =
          .next (answeredOk p .forceSpeed (b1 c ++ b1 t.pace.resolved ++ b2 t.out.speed) t)) ∧
  (∀ (p : Port) (s : State), Reaches p .releaseSpeed s → s.sup.holder = some p →
      ∃ t : State, t = driveLines { frameDone p s with pace.forced := none } ∧
        t.out.speed = fourAt s.sup.consts.speed t.pace.resolved ∧
        exec (.releaseSpeed p) s =
          .next (answeredOk p .releaseSpeed (b1 t.pace.resolved ++ b2 t.out.speed) t)) ∧
  ∀ s : State,
    (s.trk.queue = [] → (driveLines s).pace.resolved = 4) ∧
    (driveLines s).pace.resolved ≤ 4 ∧ (∀ car ∈ s.trk.queue, (driveLines s).pace.resolved ≤ car.cls) ∧
    ((driveLines s).pace.resolved = 4 ∨ ∃ car ∈ s.trk.queue, car.cls = (driveLines s).pace.resolved)

/-! ### Settings -/

/-- R49, R51, R52, R53, R54 and R55, no write in progress (R191 is stated above). DEFINE_PLAN fails at the first test of
R51 that applies and otherwise puts the clamped list in the run of the plan, moves the runs above it, and leaves the
plan DRAFT; ERASE_PLAN frees the run of a DRAFT or WITHDRAWN plan; PUBLISH and WITHDRAW move a plan between its states
and keep its contents. A request that finds the plan in the state it would produce is answered OK with the plan number
and the plan's state and changes nothing. The layout of the DEFINE_PLAN answer is log entry 10, that of these last
answers log entry 11. -/
def Obligations.PlanRequestsFollowTheirTests : Prop :=
  (∀ (plan : Nat) (name : List Nat) (price cls : Nat) (list : List RawPair) (s : State),
      s.store.writing = none → plan = 0 ∨ 12 < plan →
        (Reaches .p4 .definePlan s →
          exec (.definePlan .p4 plan name price cls list) s = .next (refusedWith .p4 .definePlan .badValue s)) ∧
        (Reaches .p4 .erasePlan s → exec (.erasePlan .p4 plan) s = .next (refusedWith .p4 .erasePlan .badValue s)) ∧
        (Reaches .p4 .publish s → exec (.publish .p4 plan) s = .next (refusedWith .p4 .publish .badValue s)) ∧
        (Reaches .p4 .withdraw s → exec (.withdraw .p4 plan) s = .next (refusedWith .p4 .withdraw .badValue s))) ∧
  (∀ (i : Fin 12) (name : List Nat) (price cls : Nat) (list : List RawPair) (s : State),
      Reaches .p4 .definePlan s → s.store.writing = none →
        ((tabGet s.sales.plans i).state = .onSale →
          exec (.definePlan .p4 (i.val + 1) name price cls list) s =
            .next (refusedWith .p4 .definePlan .state s)) ∧
        ((tabGet s.sales.plans i).state ≠ .onSale →
          list = [] ∨ 10 < list.length ∨ (∃ q ∈ list, q.code = 0 ∨ 24 < q.code) ∨ 16 < name.length ∨
              (∃ c ∈ name, c < 32 ∨ 126 < c) →
            exec (.definePlan .p4 (i.val + 1) name price cls list) s =
              .next (refusedWith .p4 .definePlan .badValue s)) ∧
        ((tabGet s.sales.plans i).state ≠ .onSale → 1 ≤ list.length → list.length ≤ 10 →
          (∀ q ∈ list, 1 ≤ q.code ∧ q.code ≤ 24) → name.length ≤ 16 → (∀ c ∈ name, 32 ≤ c ∧ c ≤ 126) →
          (¬(list.map RawPair.code).Nodup →
            exec (.definePlan .p4 (i.val + 1) name price cls list) s =
              .next (refusedWith .p4 .definePlan .duplicate s)) ∧
          ((list.map RawPair.code).Nodup → ∀ below own above : List SvcLevel,
            s.sales.store = below ++ own ++ above → below.length = planOffset s.sales.plans i →
            own.length = (tabGet s.sales.plans i).len →
              (96 < below.length + list.length + above.length →
                exec (.definePlan .p4 (i.val + 1) name price cls list) s =
                  .next (sendAnswer .p4 (kindByte .definePlan)
                    { code := .full, fields := b1 (below.length + own.length + above.length) } (frameDone .p4 s))) ∧
              (below.length + list.length + above.length ≤ 96 →
                exec (.definePlan .p4 (i.val + 1) name price cls list) s =
                  .next (answeredOk .p4 .definePlan
                    (b1 (i.val + 1) ++ b1 (clampTo cls 1 4) ++ b1 list.length ++
                      (list.flatMap fun q => b1 (clampTo q.level 1 4)) ++ b1 below.length ++ b1 list.length ++
                      b1 (below.length + list.length + above.length))
                    { frameDone .p4 s with
                      sales.plans := tabSet s.sales.plans i
                        { state := .draft, name := name, price := price, cls := clampTo cls 1 4, len := list.length }
                      sales.store :=
                        below ++ (list.map fun q => { code := q.code, level := clampTo q.level 1 4 }) ++ above }))))) ∧
  (∀ (i : Fin 12) (s : State), Reaches .p4 .erasePlan s → s.store.writing = none →
      ((tabGet s.sales.plans i).state = .onSale →
        exec (.erasePlan .p4 (i.val + 1)) s = .next (refusedWith .p4 .erasePlan .state s)) ∧
      ((tabGet s.sales.plans i).state = .empty →
        exec (.erasePlan .p4 (i.val + 1)) s =
          .next (replied .p4 .erasePlan (b1 (i.val + 1) ++ b1 0) s)) ∧
      ((tabGet s.sales.plans i).state = .draft ∨ (tabGet s.sales.plans i).state = .withdrawn →
        ∀ below own above : List SvcLevel, s.sales.store = below ++ own ++ above →
          below.length = planOffset s.sales.plans i → own.length = (tabGet s.sales.plans i).len →
            exec (.erasePlan .p4 (i.val + 1)) s =
              .next (answeredOk .p4 .erasePlan (b1 (i.val + 1) ++ b1 (below.length + above.length))
                { frameDone .p4 s with
                  sales.plans := tabSet s.sales.plans i { state := .empty, name := [], price := 0, cls := 4, len := 0 }
                  sales.store := below ++ above }))) ∧
  (∀ (i : Fin 12) (s : State), Reaches .p4 .publish s → s.store.writing = none →
      ((tabGet s.sales.plans i).state = .empty →
        exec (.publish .p4 (i.val + 1)) s = .next (refusedWith .p4 .publish .state s)) ∧
      ((tabGet s.sales.plans i).state = .onSale →
        exec (.publish .p4 (i.val + 1)) s = .next (replied .p4 .publish (b1 (i.val + 1) ++ b1 2) s)) ∧
      ((tabGet s.sales.plans i).state = .draft ∨ (tabGet s.sales.plans i).state = .withdrawn →
        exec (.publish .p4 (i.val + 1)) s =
          .next (answeredOk .p4 .publish (b1 (i.val + 1) ++ b1 2)
            { frameDone .p4 s with
              sales.plans := tabSet s.sales.plans i { tabGet s.sales.plans i with state := .onSale } }))) ∧
  ∀ (i : Fin 12) (s : State), Reaches .p4 .withdraw s → s.store.writing = none →
    ((tabGet s.sales.plans i).state = .empty ∨ (tabGet s.sales.plans i).state = .draft →
      exec (.withdraw .p4 (i.val + 1)) s = .next (refusedWith .p4 .withdraw .state s)) ∧
    ((tabGet s.sales.plans i).state = .withdrawn →
      exec (.withdraw .p4 (i.val + 1)) s = .next (replied .p4 .withdraw (b1 (i.val + 1) ++ b1 3) s)) ∧
    ((tabGet s.sales.plans i).state = .onSale →
      exec (.withdraw .p4 (i.val + 1)) s =
        .next (answeredOk .p4 .withdraw (b1 (i.val + 1) ++ b1 3)
          { frameDone .p4 s with
            sales.plans := tabSet s.sales.plans i { tabGet s.sales.plans i with state := .withdrawn } }))

/-- R59, R83, R86 and R153, no write in progress for the first two. SET_SERVICE replaces the entry of a code with the
price or none and the clamped class limit (log entry 14 for another presence byte and for a price sent with presence 0);
SET_RESPONSE gives a kind a class that the kind allows; ISSUE_CREDIT issues a credit of 1 to 65535 cents without origin
sale, in any state. Anything else is refused BAD_VALUE with every record unchanged. -/
def Obligations.ServiceResponseAndCreditSettings : Prop :=
  (∀ (c : Fin 24) (presence price limit : Nat) (s : State), Reaches .p4 .setService s → s.store.writing = none →
      ∀ stored : Option Nat, (presence = 0 ∧ stored = none) ∨ (presence = 1 ∧ stored = some price) →
        exec (.setService .p4 (c.val + 1) presence price limit) s =
          .next (answeredOk .p4 .setService (b1 (c.val + 1) ++ priceBytes stored ++ b1 (clampTo limit 1 4))
            { frameDone .p4 s with
              sales.services := tabSet s.sales.services c { price := stored, limit := clampTo limit 1 4 } })) ∧
  (∀ (code presence price limit : Nat) (s : State), Reaches .p4 .setService s → s.store.writing = none →
      code = 0 ∨ 24 < code ∨ 1 < presence →
        exec (.setService .p4 code presence price limit) s = .next (refusedWith .p4 .setService .badValue s)) ∧
  (∀ (k : IncidentKind) (c : IncidentClass) (s : State), Reaches .p4 .setResponse s → s.store.writing = none →
      ((k ∈ [.estop, .brushCollision, .carMissing, .conveyorStall, .queueOverflow] → c = .halt) →
        (k = .exitBlocked → c ≠ .notice) → (k ∈ [.unpaidEntry, .shortObject] → c ≠ .halt) →
          exec (.setResponse .p4 (incidentKindCode k) (classCode c)) s =
            .next (answeredOk .p4 .setResponse (b1 (incidentKindCode k) ++ b1 (classCode c))
              { frameDone .p4 s with sup.response := s.sup.response.set k c }) ∧
          (s.sup.response.set k c).get k = c ∧
          ∀ j, j ≠ k → (s.sup.response.set k c).get j = s.sup.response.get j) ∧
      ((k ∈ [.estop, .brushCollision, .carMissing, .conveyorStall, .queueOverflow] ∧ c ≠ .halt) ∨
          (k = .exitBlocked ∧ c = .notice) ∨ (k ∈ [.unpaidEntry, .shortObject] ∧ c = .halt) →
        exec (.setResponse .p4 (incidentKindCode k) (classCode c)) s =
          .next (refusedWith .p4 .setResponse .badValue s))) ∧
  (∀ (kind cls : Nat) (s : State), Reaches .p4 .setResponse s → s.store.writing = none →
      kind = 0 ∨ 11 < kind ∨ 2 < cls →
        exec (.setResponse .p4 kind cls) s = .next (refusedWith .p4 .setResponse .badValue s)) ∧
  (∀ (value plan : Nat) (s : State), Reaches .p4 .issueCredit s → 1 ≤ value → value ≤ 65535 → plan ≤ 12 →
      ∃ (n : Nat) (dropped : Option Nat) (t : State),
        issueCredit value none (if plan = 0 then none else some plan) (frameDone .p4 s) = (t, n, dropped) ∧
        exec (.issueCredit .p4 value plan) s =
          .next (answeredOk .p4 .issueCredit (b2 n ++ b2 (dropped.getD 0)) t)) ∧
  ∀ (value plan : Nat) (s : State), Reaches .p4 .issueCredit s → value = 0 ∨ 65535 < value ∨ 12 < plan →
    exec (.issueCredit .p4 value plan) s = .next (refusedWith .p4 .issueCredit .badValue s)

/-- R87, R88 and R99, no write in progress. SET_STATION fails at the first test of R88 that applies (the code tests, the
tunnel not STOPPED, a brush slot in use, a changed service code under a held entry; log entry 4 for a signal byte above
7); otherwise it stores the record with every field clamped and answers it. Where SP changed, every schedule is put in
station-position order, a permutation of what it was; no unit, no other record and no other station changes. -/
def Obligations.StationRecordsAreClamped : Prop :=
  (∀ (station : Nat) (raw : RawStation) (s : State), Reaches .p4 .setStation s → s.store.writing = none →
      LinesFollow s → stationForm raw = true →
      15 < station ∨ 24 < raw.code ∨ 2 < raw.kind ∨ 2 < raw.mode ∨
        (∃ b, raw.gear = .brush b ∧ (5 < b.slot ∨ 1 < b.qualifier ∨ 7 < b.signals)) →
        exec (.setStation .p4 station raw) s = .next (refusedWith .p4 .setStation .badValue s)) ∧
  (∀ (i : Fin 16) (raw : RawStation) (r : StationRec) (s : State), Reaches .p4 .setStation s →
      s.store.writing = none → stationForm raw = true → stationOperand raw = some r →
        (LinesFollow s → s.sup.tunnel ≠ .stopped →
          exec (.setStation .p4 i.val raw) s = .next (refusedWith .p4 .setStation .state s)) ∧
        (LinesFollow s → s.sup.tunnel = .stopped →
          (∃ (b b' : BrushRec) (j : Fin 16), r.gear = .brush b ∧ j ≠ i ∧ (tabGet s.seq.table j).gear = .brush b' ∧
            b'.slot = b.slot) →
          exec (.setStation .p4 i.val raw) s = .next (refusedWith .p4 .setStation .duplicate s)) ∧
        (s.sup.tunnel = .stopped →
          (∀ (b b' : BrushRec) (j : Fin 16), r.gear = .brush b → j ≠ i → (tabGet s.seq.table j).gear = .brush b' →
            b'.slot ≠ b.slot) →
          (LinesFollow s → r.code ≠ (tabGet s.seq.table i).code →
            (∃ car ∈ s.trk.queue, ∃ e ∈ car.schedule, e.station = i) →
            exec (.setStation .p4 i.val raw) s = .next (refusedWith .p4 .setStation .occupied s)) ∧
          (r.code = (tabGet s.seq.table i).code ∨ (∀ car ∈ s.trk.queue, ∀ e ∈ car.schedule, e.station ≠ i) →
            ∃ (q : StationRec) (u : State),
              q.code = r.code ∧ q.sp = min r.sp (s.sup.consts.tunnelLen - 1) ∧
              q.pre = min r.pre (min 4000 q.sp) ∧
              q.post = min r.post (min 4000 (s.sup.consts.tunnelLen - 1 - q.sp)) ∧ q.mode = r.mode ∧
              q.proofWait = clampTo r.proofWait 100 5000 ∧ q.retries = min r.retries 3 ∧
              (∀ t, r.gear = .spray t →
                q.gear = .spray ⟨min t.one 4095, min t.two 4095, min t.three 4095, min t.four 4095⟩) ∧
              (∀ t, r.gear = .air t →
                q.gear = .air ⟨min t.one 4095, min t.two 4095, min t.three 4095, min t.four 4095⟩) ∧
              (∀ b, r.gear = .brush b →
                q.gear = .brush
                  { slot := b.slot, k := min b.k 65535, brMin := min b.brMin 4095,
                    brMax := max (min b.brMin 4095) (min b.brMax 4095), icA := min b.icA 4095, icB := min b.icB 4095,
                    jamMargin := clampTo b.jamMargin 50 4095, slackMargin := min b.slackMargin 4095,
                    jamN := clampTo b.jamN 1 15, slackN := clampTo b.slackN 1 63, jamBlank := min b.jamBlank 50,
                    qualifier := b.qualifier, signals := b.signals }) ∧
              u = { frameDone .p4 s with seq.table := tabSet s.seq.table i q } ∧
              exec (.setStation .p4 i.val raw) s =
                .next (answeredOk .p4 .setStation (b1 i.val ++ stationBytes (rawOfStation q))
                  (driveLines (if q.sp = (tabGet s.seq.table i).sp then u
                    else { u with trk.queue := s.trk.queue.map fun car =>
                      { car with schedule := orderSchedule u car.schedule } })))))) ∧
  ∀ (s : State) (l : List Entry),
    (orderSchedule s l).Perm l ∧ (orderSchedule s l).Pairwise fun x y =>
      (tabGet s.seq.table x.station).sp < (tabGet s.seq.table y.station).sp ∨
        ((tabGet s.seq.table x.station).sp = (tabGet s.seq.table y.station).sp ∧ x.station ≤ y.station)

/-- R7, R89, R196, R197 and R198, no write in progress. SET_CONSTANTS is refused STATE outside STOPPED; in STOPPED the
clamped set is in force and is answered, the eyes are fitted anew, a clear count at or above CLEAR_MIN is lowered to
CLEAR_MIN - 1, the station table is clamped against a lowered TUNNEL_LEN with the schedules in order, and the tailgate
test follows where the entrance eye is BLOCKED. -/
def Obligations.ConstantsAreClampedAndApplied : Prop :=
  (∀ (c : Constants) (s : State), Reaches .p4 .setConstants s → s.store.writing = none → LinesFollow s →
      s.sup.tunnel ≠ .stopped →
        exec (.setConstants .p4 c) s = .next (refusedWith .p4 .setConstants .state s)) ∧
  (∀ (c : Constants) (s : State), Reaches .p4 .setConstants s → s.store.writing = none → s.sup.tunnel = .stopped →
      ∃ (k : Constants) (u v : State), k = clampConstants c ∧
        u = { frameDone .p4 s with
          sup.consts := k
          trk.eyes := settleEyes k (refitEyes k s.inputs.eyes s.trk.eyes)
          ent.eye := lowerSettling k.clearMin s.ent.eye } ∧
        (s.sup.consts.tunnelLen ≤ k.tunnelLen → v = u) ∧
        (k.tunnelLen < s.sup.consts.tunnelLen →
          v = reorderAll { u with seq.table := tabOf fun i => clampGeometry k.tunnelLen (tabGet s.seq.table i) }) ∧
        (s.ent.eye ≠ .blocked →
          exec (.setConstants .p4 c) s =
            .next (answeredOk .p4 .setConstants (constantBytes k) (driveLines v))) ∧
        (s.ent.eye = .blocked →
          exec (.setConstants .p4 c) s =
            .next (answeredOk .p4 .setConstants (constantBytes k) (driveLines (tailgateTest v))))) ∧
  (∀ c : Constants, ∃ k : Constants, k = clampConstants c ∧
      k.tunnelLen = clampTo c.tunnelLen 2000 60000 ∧
      (∀ x y, (x, y) ∈ [(c.ce1, k.ce1), (c.ce2, k.ce2), (c.ce3, k.ce3), (c.ce4, k.ce4)] →
        (x = 0 → y = 0) ∧ (x ≠ 0 → y = clampTo x 1 (k.tunnelLen - 1))) ∧
      k.eyeTol = clampTo c.eyeTol 10 2000 ∧ k.clearMin = clampTo c.clearMin 5 500 ∧
      k.lenMin = clampTo c.lenMin 500 8000 ∧ k.lenMax = clampTo c.lenMax k.lenMin 16000 ∧
      k.admitSpacing = clampTo c.admitSpacing 500 20000 ∧ k.armLead = min c.armLead 5000 ∧
      k.commitLead = min c.commitLead 5000 ∧ k.grantTimeout = clampTo c.grantTimeout 2 120 ∧
      k.startWarn = clampTo c.startWarn 2 30 ∧ k.exitBlockTime = clampTo c.exitBlockTime 1 60 ∧
      k.stallWindows = clampTo c.stallWindows 5 100 ∧
      k.speed = ⟨min c.speed.one 4095, min c.speed.two 4095, min c.speed.three 4095, min c.speed.four 4095⟩) ∧
  ∀ (k : Constants) (inputs : PerEye Bool) (old : PerEye (Option Debounce)) (j : Eye),
    (eyePosition k j = none → (settleEyes k (refitEyes k inputs old)).get j = none) ∧
    (∀ pos, eyePosition k j = some pos →
      (old.get j = none → inputs.get j = true → (settleEyes k (refitEyes k inputs old)).get j = some .blocked) ∧
      (old.get j = none → inputs.get j = false → (settleEyes k (refitEyes k inputs old)).get j = some .armed) ∧
      (old.get j = some .armed → (settleEyes k (refitEyes k inputs old)).get j = some .armed) ∧
      (old.get j = some .blocked → (settleEyes k (refitEyes k inputs old)).get j = some .blocked) ∧
      ∀ n, old.get j = some (.settling n) →
        (n < k.clearMin → (settleEyes k (refitEyes k inputs old)).get j = some (.settling n)) ∧
        (k.clearMin ≤ n → (settleEyes k (refitEyes k inputs old)).get j = some (.settling (k.clearMin - 1))))

/-- R189, R190, R192, R193, R194 and R195. SAVE takes the snapshot, clears the marker and answers the last outcome; a
verified completion makes the snapshot the stored image, sets the marker and tells P4 SAVE_DONE, a failed one leaves the
marker cleared and tells P4 SAVE_FAILED; with no write there is nothing to complete (log entry 5). A reset ends a write
with its marker cleared, makes every port idle at once (log entry 17) and puts every line off; what the image holds
after a failed or a cut write is a free value (log entry 16). The start-up event loads the image where the marker is set
and the defaults where it is not, resets the volatile records, reads the input lines, and raises ESTOP with the loop
open. A start-up of a part that is not held in reset does not occur (log entry 5). -/
def Obligations.SettingsSurviveAReset : Prop :=
  (∀ s : State, Reaches .p4 .save s → s.store.writing = none →
      exec (.save .p4) s =
        .next (answeredOk .p4 .save (b1 (outcomeCode s.store.lastOutcome))
          { frameDone .p4 s with
            store.marker := false
            store.writing := some
              { plans := s.sales.plans, store := s.sales.store, services := s.sales.services, table := s.seq.table,
                consts := s.sup.consts, response := s.sup.response, credits := s.sales.credits,
                tally := s.sales.tally, saleCounter := s.sales.saleCounter,
                creditCounter := s.sales.creditCounter } })) ∧
  (∀ (m : Image) (s : State), s.held = false → s.store.writing = some m →
      exec (.saveComplete true) s =
        .next (driveLines (notify .p4 .saveDone
          { s with store := { s.store with
            image := m, marker := true, writing := none, lastOutcome := .done, defaulted := false } })) ∧
      ∃ k : Image, exec (.saveComplete false) s =
        .next (driveLines (notify .p4 .saveFailed
          { s with
            store := { s.store with image := k, marker := false, writing := none, lastOutcome := .failed }
            free := s.free + 1 }))) ∧
  (∀ (v : Bool) (s : State), LinesFollow s → s.store.writing = none → exec (.saveComplete v) s = .next s) ∧
  (∀ s : State,
      (s.store.writing = none →
        exec .reset s =
          .next { s with
            held := true
            out := Outputs.off
            ports := ⟨PortUnit.idle, PortUnit.idle, PortUnit.idle, PortUnit.idle, PortUnit.idle⟩ }) ∧
      (s.store.writing ≠ none → ∃ k : Image,
        exec .reset s =
          .next { s with
            held := true
            out := Outputs.off
            ports := ⟨PortUnit.idle, PortUnit.idle, PortUnit.idle, PortUnit.idle, PortUnit.idle⟩
            store := { s.store with image := k, marker := false, writing := none }
            free := s.free + 1 })) ∧
  (∀ (cause : ResetCause) (s : State), s.held = false → exec (.startUp cause) s = .next s) ∧
  ∀ (cause : ResetCause) (s : State), s.held = true → ∃ (m : Image) (t : State),
    (s.store.marker = true → m = s.store.image) ∧ (s.store.marker = false → m = Image.defaults) ∧
    t.held = false ∧ t.inputs = s.inputs ∧ t.free = s.free ∧ t.pending = s.pending ∧
    t.ports = ⟨PortUnit.idle, PortUnit.idle, PortUnit.idle, PortUnit.idle, PortUnit.idle⟩ ∧
    t.sales =
      { plans := m.plans, store := m.store, services := m.services, lanes := ⟨[], [], []⟩,
        lastSale := ⟨none, none, none⟩, credits := m.credits, saleCounter := m.saleCounter,
        creditCounter := m.creditCounter, tally := m.tally, consoleCopy := ⟨none, 1⟩, officeCopy := ⟨none, 1⟩ } ∧
    t.ent =
      { enabled := ⟨true, true, true⟩, grant := none, pointer := .c, grantTimer := none,
        eye := if s.inputs.entrance then .blocked else .armed, measured := none } ∧
    t.trk.queue = [] ∧ t.trk.nextTag = 1 ∧ t.trk.exitMatch = none ∧ t.trk.exitTimer = none ∧
    (∀ k : Eye, t.trk.eyes.get k = (eyePosition m.consts k).map fun _ =>
      if s.inputs.eyes.get k then Debounce.blocked else Debounce.armed) ∧
    t.seq = { table := m.table, units := Vector.replicate 16 StationUnit.idle } ∧
    t.pace =
      { gate := 0, v := 0, acc := 0, vAvg := 0, stall := 0, resolved := 4, forced := none,
        brushes := Vector.replicate 16 none } ∧
    t.mon = Vector.replicate 6 Slot.idle ∧
    t.sup =
      { tunnel := .stopped, manual := false, startTimer := none, incidents := [], incidentCounter := 1, seconds := 0,
        response := m.response, holder := none, consts := m.consts } ∧
    (t.store.cause = cause ∧ t.store.writing = none ∧ t.store.lastOutcome = .none ∧ t.store.image = s.store.image ∧
      t.store.marker = s.store.marker ∧
      (t.store.defaulted = true ↔ s.store.marker = false)) ∧
    (s.inputs.estopClosed = true → exec (.startUp cause) s = .next (driveLines t)) ∧
    (s.inputs.estopClosed = false →
      exec (.startUp cause) s =
        .next (driveLines (raiseIncident (plainRaise .estop) t)))

/-! ### The events of the Port Unit -/

/-- R175, R176, R177, R180 and R181. A frame of a kind below 0x70 that names no request is answered UNKNOWN_KIND; a bad
length, a bad sum, a framing error, a kind of 0x70 or above and the gap timer's expiry leave the path in HUNT and nothing
else; a free transmitter takes the head frame, and a frame sent leaves its queue. A byte does what the state of the path
says: the byte that completes a sound frame runs its request, or is answered BAD_VALUE where its payload fits no form, or
NOT_PERMITTED where the role forbids the kind. A cause that the path's state does not allow, a stopped timer and an idle
transmitter change nothing (log entry 5). -/
def Obligations.PortEventsFollowTheirRules : Prop :=
  (∀ (p : Port) (kind : Nat) (s : State), s.held = false →
      ((∀ k, kindByte k ≠ kind) → kind < 0x70 →
        (roomForAnswer (s.ports.get p) = true →
          exec (.unknownKind p kind) s = .next (sendAnswer p kind (refusal .unknownKind) (frameDone p s))) ∧
        (roomForAnswer (s.ports.get p) = false → exec (.unknownKind p kind) s = .next (frameDone p s))) ∧
      ((∃ k, kindByte k = kind) ∨ 0x70 ≤ kind → exec (.unknownKind p kind) s = .next s)) ∧
  (∀ (p : Port) (cause : DiscardCause) (s : State), s.held = false →
      ((cause = .badLength ∧ (s.ports.get p).rx.state = .length) ∨
          (cause = .badSum ∧ (s.ports.get p).rx.state = .check) ∨
          (cause = .kindNotRequest ∧ (s.ports.get p).rx.state = .check) ∨
          (cause = .framing ∧ (s.ports.get p).rx.state ≠ .hunt) →
        exec (.frameDiscarded p cause) s = .next (frameDone p s)) ∧
      ((cause = .badLength ∧ (s.ports.get p).rx.state ≠ .length) ∨
          (cause = .badSum ∧ (s.ports.get p).rx.state ≠ .check) ∨
          (cause = .kindNotRequest ∧ (s.ports.get p).rx.state ≠ .check) ∨
          (cause = .framing ∧ (s.ports.get p).rx.state = .hunt) →
        exec (.frameDiscarded p cause) s = .next s)) ∧
  (∀ (p : Port) (s : State), s.held = false →
      (∀ n, (s.ports.get p).rx.gap = some n → exec (.gapTimerExpiry p) s = .next (frameDone p s)) ∧
      ((s.ports.get p).rx.gap = none → exec (.gapTimerExpiry p) s = .next s)) ∧
  (∀ (p : Port) (s : State), s.held = false →
      ((s.ports.get p).sending = false → (s.ports.get p).tx ≠ [] →
        exec (.txStart p) s = .next (updatePort p (fun u => { u with sending := true }) s)) ∧
      ((s.ports.get p).sending = true ∨ (s.ports.get p).tx = [] → exec (.txStart p) s = .next s) ∧
      (∀ (f : Frame) (rest : List Frame), (s.ports.get p).sending = true → (s.ports.get p).tx = f :: rest →
        exec (.txFrameSent p) s =
          .next (updatePort p (fun u => { u with tx := rest, sending := if rest = [] then false else true }) s)) ∧
      ((s.ports.get p).sending = false ∨ (s.ports.get p).tx = [] → exec (.txFrameSent p) s = .next s)) ∧
  ∀ (p : Port) (byte : Byte) (x : RxPath) (s : State), s.held = false → (s.ports.get p).rx = x →
    (x.state = .hunt → byte = 0xC5 →
      exec (.byteReceived p byte) s =
        .next (updatePort p (fun u => { u with rx := ⟨.length, 0, 0, [], some 20⟩ }) s)) ∧
    (x.state = .hunt → byte ≠ 0xC5 → exec (.byteReceived p byte) s = .next s) ∧
    (x.state = .length → 1 ≤ byte.toNat → byte.toNat ≤ 64 →
      exec (.byteReceived p byte) s =
        .next (updatePort p (fun u => { u with rx := ⟨.body, byte.toNat, byte.toNat, [], some 20⟩ }) s)) ∧
    (x.state = .length → byte.toNat = 0 ∨ 64 < byte.toNat → exec (.byteReceived p byte) s = .next (frameDone p s)) ∧
    (x.state = .body →
      exec (.byteReceived p byte) s =
        .next (updatePort p (fun u => { u with rx :=
          ⟨if x.expected ≤ 1 then .check else .body, x.len, x.expected - 1, x.buf ++ [byte], some 20⟩ }) s)) ∧
    (x.state = .check → (x.len + (x.buf.map BitVec.toNat).sum + byte.toNat) % 256 ≠ 0 →
      exec (.byteReceived p byte) s = .next (frameDone p s)) ∧
    ∀ (kind : Byte) (payload : List Byte), x.state = .check → x.buf = kind :: payload →
      (x.len + (x.buf.map BitVec.toNat).sum + byte.toNat) % 256 = 0 →
        (0x70 ≤ kind.toNat → exec (.byteReceived p byte) s = .next (frameDone p s)) ∧
        (kind.toNat < 0x70 → (∀ k, kindByte k ≠ kind.toNat) →
          exec (.byteReceived p byte) s = exec (.unknownKind p kind.toNat) s) ∧
        ∀ k : ReqKind, kindByte k = kind.toNat →
          (∀ c, decodeRequest p k payload = some c → exec (.byteReceived p byte) s = exec c s) ∧
          (decodeRequest p k payload = none →
            (Reaches p k s → exec (.byteReceived p byte) s = .next (refusedWith p k .badValue s)) ∧
            (roomForAnswer (s.ports.get p) = true → permitted k p = false →
              exec (.byteReceived p byte) s = .next (refusedWith p k .notPermitted s)) ∧
            (roomForAnswer (s.ports.get p) = false → exec (.byteReceived p byte) s = .next (frameDone p s)))

/-! ### Pulses and edges -/

/-- R4, R5, R6, R9, R15, R16, R17, R18, R19, R20, R29, R47, R84, R97, R105, R116, R145 and R169. A pulse is handled by
the Tracking Unit, the Station Sequencer, the Entrance Unit and the Pacing Unit in that order and counts into the gate
window. The Tracking Unit advances the fronts, makes the missing tests eye by eye and oldest record first against the
fronts before the pulse, and advances the settling eyes; the Entrance Unit advances its measurement and lets the arbiter
search. A front that goes above the top of an eye's window unpassed is CAR_MISSING. The exit eye's last settling pulse
removes the matched record: its schedule finalised and the stations of its entries tested, the exit counted under its
outcome, a credit for a SHORT outcome with an amount paid, CAR_EXIT to P0 and P4, and every other record keeps its
place. A record that leaves the queue, at the exit or otherwise, is forgotten as the exit match and as the measured
record, the stations of its entries are tested, and a DRAINING tunnel whose queue is then empty goes to STOPPED with the
empty queue as the cause. -/
def Obligations.PulsesTrackMissAndRemove : Prop :=
  (∀ s : State, trackPulse s =
      [Eye.ce1, .ce2, .ce3, .ce4, .exit].foldl settleEye
        ([Eye.ce1, .ce2, .ce3, .ce4, .exit].foldl
          (fun t k => s.trk.queue.foldl (fun t car => missingTest k car.tag car.front t) t)
          { s with trk.queue := advanceFronts none s.trk.queue })) ∧
  (∀ s : State, entrancePulse s = arbitrate (settleEntrance (measurePulse s))) ∧
  (∀ (k : Eye) (s : State), (∀ n, s.trk.eyes.get k ≠ some (.settling n)) → settleEye s k = s) ∧
  (∀ s : State, s.held = false →
      exec .encoderPulse s = .next (driveLines (countPulse (entrancePulse (judgePulse (trackPulse s))))) ∧
        (after .encoderPulse s).pace.gate = min 1023 (s.pace.gate + 1)) ∧
  (∀ (k : Eye) (old pos : Nat) (car : Car) (s : State), eyePosition s.sup.consts k = some pos →
      carOf s car.tag = some car →
      (old ≤ pos + s.sup.consts.eyeTol → pos + s.sup.consts.eyeTol < car.front → car.passed.get k = false →
        missingTest k car.tag old s =
          raiseIncident ⟨.carMissing, none, some k, some car.tag, none, none⟩ (markPassed k car.tag s)) ∧
      (pos + s.sup.consts.eyeTol < old ∨ car.front ≤ pos + s.sup.consts.eyeTol ∨ car.passed.get k = true →
        missingTest k car.tag old s = s)) ∧
  (∀ (k : Eye) (n : Nat) (s : State), s.trk.eyes.get k = some (.settling n) →
      (n + 1 < s.sup.consts.clearMin →
        settleEye s k = { s with trk.eyes := s.trk.eyes.set k (some (.settling (n + 1))) }) ∧
      (s.sup.consts.clearMin ≤ n + 1 → k ≠ .exit ∨ s.trk.exitMatch = none →
        settleEye s k = { s with trk.eyes := s.trk.eyes.set k (some .armed) }) ∧
      (∀ car, s.sup.consts.clearMin ≤ n + 1 → k = .exit → s.trk.exitMatch = some car.tag → carOf s car.tag = some car →
        settleEye s k = removeAtExit car { s with trk.eyes := s.trk.eyes.set k (some .armed) })) ∧
  (∀ (car : Car) (s : State), ∃ (gone : Car) (outcome : ExitOutcome) (credit : Option Nat) (t u : State),
      gone = { car with schedule := car.schedule.map fun e =>
        if e.state ∈ [.pending, .active, .held, .interrupted] then { e with state := .missed .late } else e } ∧
      (car.ticket = none → outcome = .unticketed) ∧
      (car.ticket ≠ none → (∀ e ∈ gone.schedule, e.state = .done) → outcome = .complete) ∧
      (car.ticket ≠ none → (∃ e ∈ gone.schedule, e.state ≠ .done) → outcome = .short) ∧
      t = updateTally (tallyExit outcome) (finalise car s) ∧
      (∀ x, car.ticket = some x → outcome = .short → 0 < x.paid →
        ∃ (n : Nat) (d : Option Nat), issueCredit x.paid (some x.sale) (some x.plan) t = (u, n, d) ∧
          credit = some n) ∧
      (outcome ≠ .short ∨ (∀ x, car.ticket = some x → x.paid = 0) → u = t ∧ credit = none) ∧
      (∃ v : State,
        v = { s with trk.queue := s.trk.queue.map fun x =>
          if x.tag = car.tag then { x with schedule := x.schedule.map fun e =>
            if e.state ∈ [.pending, .active, .held, .interrupted] then { e with state := .missed .late } else e }
          else x } ∧
        finalise car s = afterEnded (car.schedule.map Entry.station) v) ∧
      removeAtExit car s =
        leaveQueue gone (notifyBoth
          (.carExit car.tag (car.ticket.map Ticket.sale) (car.ticket.map Ticket.plan) outcome credit) u) ∧
      (removeAtExit car s).trk.queue.map Car.tag = (s.trk.queue.map Car.tag).filter (fun n => n != car.tag)) ∧
  (∀ (car : Car) (s : State), ∃ (u v : State) (m : Option Measure),
      (∀ x, s.ent.measured = some x → x.tag = car.tag → m = none) ∧
      ((∀ x, s.ent.measured = some x → x.tag ≠ car.tag) → m = s.ent.measured) ∧
      u = { s with
        trk.queue := s.trk.queue.filter fun x => x.tag != car.tag
        trk.exitMatch := if s.trk.exitMatch = some car.tag then none else s.trk.exitMatch
        ent.measured := m } ∧
      v = afterEnded (car.schedule.map Entry.station) u ∧
      (u.trk.queue = [] → s.sup.tunnel = .draining → leaveQueue car s = changeTunnel .stopped .queueEmpty v) ∧
      (u.trk.queue ≠ [] ∨ s.sup.tunnel ≠ .draining → leaveQueue car s = v)) ∧
  ∀ t : Tally,
    tallyExit .complete t = { t with exitComplete := min 4294967295 (t.exitComplete + 1) } ∧
      tallyExit .short t = { t with exitShort := min 4294967295 (t.exitShort + 1) } ∧
      tallyExit .unticketed t = { t with exitUnticketed := min 4294967295 (t.exitUnticketed + 1) } ∧
      tallyExit .cleared t = t

/-- R7, R8, R11, R14, R16, R21, R22 and R23. A blocking edge at a check eye or the exit eye is a new one in ARMED,
matched to the nearest candidate or a PHANTOM; in SETTLING it continues the blocking; an eye that is not fitted ignores
it. A clear edge takes BLOCKED to SETTLING with clear count 0. A blocking edge of the exit eye in RUNNING or DRAINING
starts the exit-block timer, every clear edge stops it and removes the EXIT_BLOCKED records of the eye, and its expiry
raises one. A command that gives a line the level it has changes nothing (log entry 5). -/
def Obligations.EyeEdgesDebounceAndMatch : Prop :=
  (∀ (k : CheckEye) (s : State), s.held = false → s.inputs.eyes.get (eyeOfCheck k) = false →
      ∃ (j : Eye) (u : State), j = eyeOfCheck k ∧ u = { s with inputs.eyes := s.inputs.eyes.set j true } ∧
        (s.trk.eyes.get j = none ∨ s.trk.eyes.get j = some .blocked →
          exec (.checkEyeBlockingEdge k) s = .next (driveLines u)) ∧
        (∀ n, s.trk.eyes.get j = some (.settling n) →
          exec (.checkEyeBlockingEdge k) s =
            .next (driveLines { u with trk.eyes := s.trk.eyes.set j (some .blocked) })) ∧
        (∀ pos, s.trk.eyes.get j = some .armed → eyePosition s.sup.consts j = some pos →
          (∀ car, candidate s j pos = some car →
            exec (.checkEyeBlockingEdge k) s =
              .next (driveLines (correctCar j pos car { u with trk.eyes := s.trk.eyes.set j (some .blocked) }))) ∧
          (candidate s j pos = none →
            exec (.checkEyeBlockingEdge k) s =
              .next (driveLines (raiseIncident ⟨.phantom, none, some j, none, none, none⟩
                { u with trk.eyes := s.trk.eyes.set j (some .blocked) }))))) ∧
  (∀ (k : CheckEye) (s : State), s.held = false → s.inputs.eyes.get (eyeOfCheck k) = true →
      ∃ (j : Eye) (u : State), j = eyeOfCheck k ∧ u = { s with inputs.eyes := s.inputs.eyes.set j false } ∧
        (s.trk.eyes.get j = some .blocked →
          exec (.checkEyeClearEdge k) s =
            .next (driveLines { u with trk.eyes := s.trk.eyes.set j (some (.settling 0)) })) ∧
        (s.trk.eyes.get j ≠ some .blocked → exec (.checkEyeClearEdge k) s = .next (driveLines u))) ∧
  (∀ s : State, s.held = false → s.inputs.eyes.exit = false →
      ∃ u : State,
        u = { s with
          inputs.eyes.exit := true
          trk.exitTimer := if s.sup.tunnel.runs then some s.sup.consts.exitBlockTime else s.trk.exitTimer } ∧
        (s.trk.eyes.exit = some .blocked → exec .exitEyeBlockingEdge s = .next (driveLines u)) ∧
        (∀ n, s.trk.eyes.exit = some (.settling n) →
          exec .exitEyeBlockingEdge s = .next (driveLines { u with trk.eyes.exit := some .blocked })) ∧
        (s.trk.eyes.exit = some .armed →
          (∀ car, candidate s .exit s.sup.consts.tunnelLen = some car →
            exec .exitEyeBlockingEdge s =
              .next (driveLines
                (correctCar .exit s.sup.consts.tunnelLen car { u with trk.eyes.exit := some .blocked }))) ∧
          (candidate s .exit s.sup.consts.tunnelLen = none →
            exec .exitEyeBlockingEdge s =
              .next (driveLines (raiseIncident ⟨.phantom, none, some .exit, none, none, none⟩
                { u with trk.eyes.exit := some .blocked }))))) ∧
  (∀ s : State, s.held = false → s.inputs.eyes.exit = true →
      ∃ u : State,
        u = { s with
          inputs.eyes.exit := false
          trk.exitTimer := none
          trk.eyes.exit := if s.trk.eyes.exit = some .blocked then some (.settling 0) else s.trk.eyes.exit } ∧
        exec .exitEyeClearEdge s =
          .next (driveLines (removeIncidents (fun r => r.kind == .exitBlocked && r.eye == some .exit) u))) ∧
  (∀ (n : Nat) (s : State), s.held = false → s.trk.exitTimer = some n →
      exec .exitBlockTimerExpiry s =
        .next (driveLines (raiseIncident ⟨.exitBlocked, none, some .exit, s.trk.exitMatch, none, none⟩
          { s with trk.exitTimer := none }))) ∧
  (∀ (k : CheckEye) (s : State),
      (s.inputs.eyes.get (eyeOfCheck k) = true → exec (.checkEyeBlockingEdge k) s = .next s) ∧
      (s.inputs.eyes.get (eyeOfCheck k) = false → exec (.checkEyeClearEdge k) s = .next s)) ∧
  (∀ s : State, (s.inputs.eyes.exit = true → exec .exitEyeBlockingEdge s = .next s) ∧
      (s.inputs.eyes.exit = false → exec .exitEyeClearEdge s = .next s)) ∧
  ∀ (k : Eye) (pos : Nat) (car : Car) (s : State), carOf s car.tag = some car →
    (∃ x, carOf (correctCar k pos car s) car.tag = some x ∧ x.passed.get k = true) ∧
      (k = .exit → (correctCar k pos car s).trk.exitMatch = some car.tag) ∧
      (k ≠ .exit → (correctCar k pos car s).trk.exitMatch = s.trk.exitMatch)

/-- R24, R32, R37, R39, R40, R41, R43, R44, R45 and R46. A new blocking edge at the entrance eye binds the head ticket
of the granted lane to a new record, consumes the grant and tells the lane ADMITTED; without a grant it makes an
unticketed record and UNPAID_ENTRY; with 12 records it makes none and raises QUEUE_OVERFLOW. The new record joins the
tail with front 0 and becomes the measured record. A blocking edge in SETTLING goes back to BLOCKED, with the TAILGATE
test for an entry count of LEN_MAX + 1 or more; a clear edge starts the settling and takes the entry count into the
clear-edge count. At a pulse the entry count runs while the entrance eye is not ARMED, with TAILGATE at LEN_MAX + 1 in
BLOCKED, and the last settling pulse completes the measurement: the record's length, or SHORT_OBJECT below LEN_MIN,
which removes an unticketed record and sets LEN_MIN for a ticketed one. A command that gives the line the level it has
changes nothing (log entry 5). -/
def Obligations.EntranceEdgesMakeRecords : Prop :=
  (∀ s : State, s.held = false → s.inputs.entrance = false → s.ent.eye = .armed →
      ∃ u : State, u = { s with inputs.entrance := true, ent.eye := .blocked } ∧
        (12 ≤ s.trk.queue.length →
          exec .entranceEyeBlockingEdge s =
            .next (driveLines (raiseIncident ⟨.queueOverflow, none, none, none, none, none⟩
              { u with ent.measured := none }))) ∧
        (s.trk.queue.length < 12 → ∃ n : Nat, n = (allocate 255 (s.trk.queue.map Car.tag) s.trk.nextTag).1 ∧
          (∀ (g : Grant) (t : Ticket) (rest : List Ticket), s.ent.grant = some g → s.sales.lanes.get g.lane = t :: rest →
            exec .entranceEyeBlockingEdge s =
              .next (driveLines (notify (portOfLane g.lane) (.admitted t.sale n)
                (startMeasure n (appendCar (some t)
                  { u with
                    sales.lanes := s.sales.lanes.set g.lane rest
                    ent.grant := none
                    ent.grantTimer := none }))))) ∧
          (s.ent.grant = none →
            exec .entranceEyeBlockingEdge s =
              .next (driveLines (raiseIncident ⟨.unpaidEntry, none, none, some n, none, none⟩
                (startMeasure n (appendCar none u))))))) ∧
  (∀ (n : Nat) (s : State), s.held = false → s.inputs.entrance = false → s.ent.eye = .settling n →
      ∃ u : State, u = { s with inputs.entrance := true, ent.eye := .blocked } ∧
        (∀ m, s.ent.measured = some m → s.sup.consts.lenMax < m.entry →
          exec .entranceEyeBlockingEdge s = .next (driveLines (raiseTailgate m.tag u))) ∧
        ((∀ m, s.ent.measured = some m → m.entry ≤ s.sup.consts.lenMax) →
          exec .entranceEyeBlockingEdge s = .next (driveLines u))) ∧
  (∀ s : State, s.held = false → s.inputs.entrance = true →
      (s.ent.eye = .blocked →
        exec .entranceEyeClearEdge s =
          .next (driveLines { s with
            inputs.entrance := false
            ent.eye := .settling 0
            ent.measured := s.ent.measured.map fun m => ⟨m.tag, m.entry, m.entry⟩ })) ∧
      (s.ent.eye ≠ .blocked → exec .entranceEyeClearEdge s = .next (driveLines { s with inputs.entrance := false }))) ∧
  (∀ s : State, (s.inputs.entrance = true → exec .entranceEyeBlockingEdge s = .next s) ∧
      (s.inputs.entrance = false → exec .entranceEyeClearEdge s = .next s)) ∧
  (∀ (ticket : Option Ticket) (s : State), ∃ (n : Nat) (u : State),
      n = (allocate 255 (s.trk.queue.map Car.tag) s.trk.nextTag).1 ∧
      u = { s with
        trk.queue := s.trk.queue ++
          [{ tag := n, front := 0, length := none, ticket := ticket, cls := (ticket.map Ticket.cls).getD 4,
             passed := ⟨false, false, false, false, false⟩, tailgate := false,
             schedule := match ticket with
               | none => []
               | some t => orderSchedule s (t.list.flatMap fun q =>
                   (servingStations s q.code).map fun i => ⟨i, q.level, .pending, none⟩) }]
        trk.nextTag := nextCount 255 n } ∧
      appendCar ticket s = testArmAll u) ∧
  (∀ (tag : Nat) (s : State),
    (∀ car, carOf s tag = some car → car.tailgate = true → raiseTailgate tag s = s) ∧
    ∀ car, carOf s tag = some car → car.tailgate = false →
      raiseTailgate tag s =
        raiseIncident ⟨.tailgate, none, none, some tag, car.ticket.bind fun t => laneOfTicket t.lane, none⟩
          { s with trk.queue := s.trk.queue.map fun x => if x.tag = tag then { x with tailgate := true } else x }) ∧
  ∀ s : State,
    (s.ent.measured = none ∨ s.ent.eye = .armed → measurePulse s = s) ∧
    (∀ m, s.ent.measured = some m → s.ent.eye ≠ .armed →
      (s.ent.eye = .blocked → m.entry = s.sup.consts.lenMax → m.entry < 65535 →
        measurePulse s =
          raiseTailgate m.tag { s with ent.measured := some ⟨m.tag, m.entry + 1, m.clearEdge⟩ }) ∧
      (s.ent.eye ≠ .blocked ∨ m.entry ≠ s.sup.consts.lenMax →
        measurePulse s = { s with ent.measured := some ⟨m.tag, min 65535 (m.entry + 1), m.clearEdge⟩ })) ∧
    (∀ n, s.ent.eye = .settling n →
      (n + 1 < s.sup.consts.clearMin → settleEntrance s = { s with ent.eye := .settling (n + 1) }) ∧
      (s.sup.consts.clearMin ≤ n + 1 →
        (s.ent.measured = none → settleEntrance s = { s with ent.eye := .armed }) ∧
        ∀ m car, s.ent.measured = some m → carOf s m.tag = some car →
          (s.sup.consts.lenMin ≤ min m.clearEdge 16383 →
            settleEntrance s = setLength m.tag (min m.clearEdge 16383)
              { s with ent.eye := .armed, ent.measured := none }) ∧
          (min m.clearEdge 16383 < s.sup.consts.lenMin →
            (car.ticket = none →
              settleEntrance s = raiseIncident ⟨.shortObject, none, none, some car.tag, none, none⟩
                (leaveQueue car { s with ent.eye := .armed, ent.measured := none })) ∧
            ∀ x, car.ticket = some x →
              settleEntrance s = raiseIncident ⟨.shortObject, none, none, some car.tag, laneOfTicket x.lane, none⟩
                (setLength car.tag s.sup.consts.lenMin { s with ent.eye := .armed, ent.measured := none }))))

/-! ### Stations: attempts and proof -/

/-- R91, R94, R95, R96, R97, R101, R103, R107, R128 and R129. A proof assertion takes an ARMING station to READY and
ends a recheck; a deassertion loses the proof of a PROOF_HOLD station in READY or FIRING; the proof timer's expiry fails
an attempt in ARMING and is a proof loss under a recheck; a failure below 1 + RETRIES leads to RETRY_WAIT or, for a
loss, to ARMING, the last one to FAULT with STATION_FAULT. The retry timer's expiry arms again where the station is
wanted in a running tunnel, and goes to IDLE elsewhere (log entry 13). A timer that is stopped does not expire, and a
command that gives a proof input the level it has changes nothing (log entry 5). A move of a station is told to its
slot. -/
def Obligations.ProofAttemptsAndRetries : Prop :=
  (∀ (i : Fin 16) (s : State), s.held = false → tabGet s.inputs.proofs i = false →
      ∃ u : State, u = { s with inputs.proofs := tabSet s.inputs.proofs i true } ∧
        ((tabGet s.seq.units i).state = .arming →
          exec (.proofAssert i) s = .next (driveLines (becomeReady i u))) ∧
        ((tabGet s.seq.units i).state ≠ .arming → (tabGet s.seq.units i).recheck = true →
          exec (.proofAssert i) s =
            .next (driveLines (updateUnit i (fun x => { x with recheck := false, proofTimer := none }) u))) ∧
        ((tabGet s.seq.units i).state ≠ .arming → (tabGet s.seq.units i).recheck = false →
          exec (.proofAssert i) s = .next (driveLines u))) ∧
  (∀ (i : Fin 16) (s : State), s.held = false → tabGet s.inputs.proofs i = true →
      ∃ u : State, u = { s with inputs.proofs := tabSet s.inputs.proofs i false } ∧
        ((tabGet s.seq.table i).mode = .proofHold → (tabGet s.seq.units i).state ∈ [.ready, .firing] →
          (tabGet s.seq.units i).recheck = false →
          exec (.proofDeassert i) s = .next (driveLines (loseProof i u))) ∧
        ((tabGet s.seq.table i).mode ≠ .proofHold ∨ (tabGet s.seq.units i).state ∉ [.ready, .firing] ∨
            (tabGet s.seq.units i).recheck = true →
          exec (.proofDeassert i) s = .next (driveLines u))) ∧
  (∀ (i : Fin 16) (n : Nat) (s : State), s.held = false → (tabGet s.seq.units i).proofTimer = some n →
      ∃ u : State, u = updateUnit i (fun x => { x with recheck := false, proofTimer := none }) s ∧
        ((tabGet s.seq.units i).state = .arming →
          exec (.proofTimerExpiry i) s = .next (driveLines (failAttempt i u))) ∧
        ((tabGet s.seq.units i).state ∈ [.ready, .firing] → (tabGet s.seq.units i).recheck = true →
          exec (.proofTimerExpiry i) s = .next (driveLines (loseProof i u)))) ∧
  (∀ (i : Fin 16) (n : Nat) (s : State), s.held = false → (tabGet s.seq.units i).retryTimer = some n →
      (tabGet s.seq.units i).state = .retryWait →
        ∃ u : State, u = updateUnit i (fun x => { x with retryTimer := none }) s ∧
          (s.sup.tunnel.runs = true → wanted s i = true →
            exec (.retryTimerExpiry i) s = .next (driveLines (beginAttempt i (moveStation i .arming u)))) ∧
          (s.sup.tunnel.runs = false ∨ wanted s i = false →
            exec (.retryTimerExpiry i) s = .next (driveLines (moveStation i .idle u)))) ∧
  (∀ (i : Fin 16) (s : State),
      (tabGet s.inputs.proofs i = true → exec (.proofAssert i) s = .next s) ∧
      (tabGet s.inputs.proofs i = false → exec (.proofDeassert i) s = .next s)) ∧
  (∀ (i : Fin 16) (s : State), LinesFollow s →
      ((tabGet s.seq.units i).proofTimer = none → exec (.proofTimerExpiry i) s = .next s) ∧
      ((tabGet s.seq.units i).retryTimer = none → exec (.retryTimerExpiry i) s = .next s)) ∧
  (∀ (i : Fin 16) (s : State), ∃ (u v : State),
      u = updateUnit i (fun x => { x with fails := x.fails + 1, proofTimer := none }) s ∧
      v = { u with trk.queue := s.trk.queue.map (mapEntries fun e =>
        if e.station = i ∧ e.state = .active ∧ e.mark = none then { e with mark := some .proof } else e) } ∧
      ((tabGet s.seq.units i).fails + 1 < 1 + (tabGet s.seq.table i).retries →
        failAttempt i s =
          updateUnit i (fun x => { x with retryTimer := some 500 }) (moveStation i .retryWait u) ∧
        loseProof i s =
          updateUnit i (fun x => { x with proofTimer := some (tabGet s.seq.table i).proofWait })
            (moveStation i .arming v)) ∧
      (1 + (tabGet s.seq.table i).retries ≤ (tabGet s.seq.units i).fails + 1 →
        failAttempt i s =
          raiseIncident ⟨.stationFault, some i, none, none, none, none⟩ (moveStation i .fault u) ∧
        loseProof i s =
          raiseIncident ⟨.stationFault, some i, none, none, none, none⟩ (moveStation i .fault v))) ∧
  (∀ (i : Fin 16) (s : State),
      ((tabGet s.seq.table i).mode = .direct ∨ tabGet s.inputs.proofs i = true →
        beginAttempt i s = becomeReady i s) ∧
      ((tabGet s.seq.table i).mode ≠ .direct → tabGet s.inputs.proofs i = false →
        beginAttempt i s =
          updateUnit i (fun x => { x with proofTimer := some (tabGet s.seq.table i).proofWait }) s) ∧
      ∃ u : State,
        u = { moveStation i .ready (updateUnit i (fun x => { x with proofTimer := none }) s) with
          trk.queue := s.trk.queue.map fun car =>
            if overlaps (tabGet s.seq.table i) car then
              mapEntries (fun e => if e.station = i ∧ e.state = .pending then { e with state := .active } else e) car
            else car } ∧
        (activeCount u i = 0 → becomeReady i s = u) ∧
        (0 < activeCount u i → becomeReady i s = moveStation i .firing u)) ∧
  ∀ (i : Fin 16) (new : StationState) (s : State), ∃ u : State,
    u = updateUnit i (fun x =>
      if new ∈ [.idle, .fault, .offLine] then
        { x with state := new, proofTimer := none, retryTimer := none, recheck := false }
      else { x with state := new }) s ∧
    ((∀ b, (tabGet s.seq.table i).gear ≠ .brush b) → moveStation i new s = u) ∧
    ∀ b, (tabGet s.seq.table i).gear = .brush b → ∃ old x : Slot, old = tabGet s.mon b.slot ∧
      moveStation i new s = { u with mon := tabSet s.mon b.slot x } ∧ x.sample = old.sample ∧
      ((tabGet s.seq.units i).state ∈ [.arming, .ready, .firing] → new ∉ [.arming, .ready, .firing] →
        x = { old with jam := 0, slack := 0, latch := false }) ∧
      (new = .arming → (tabGet s.seq.units i).state ∈ [.idle, .retryWait] → x = { old with blank := b.jamBlank }) ∧
      (new ∈ [.arming, .ready, .firing] → (tabGet s.seq.units i).state ∉ [.idle, .retryWait] ∨ new ≠ .arming →
        x = old)

/-! ### Scans and switches -/

/-- R127, R129, R130, R131, R133, R135, R137 and R138. A scan stores every sample; it lowers a blank count above 0 and
else makes the jam watch of a watched slot, makes the slack watch, marks the ACTIVE entries of a station whose slack
count is full, and raises BRUSH_COLLISION in slot order for each watched slot whose collision test passes, with the
station, the frontmost car with an ACTIVE entry and the signals present. A switch edge keeps the level and makes the
test of its slot alone, to active or to inactive (log entry 27); a command that gives the line the level it has changes
nothing (log entry 5). -/
def Obligations.ScansAndSwitchesFindCollisions : Prop :=
  (∀ (samples : Tab 6 (BitVec 12)) (s : State), s.held = false → ∃ u : State,
      u = { s with
        mon := tabOf fun k => (tabGet (scanSlots samples s) k).1
        trk.queue := s.trk.queue.map (mapEntries fun e =>
          if e.state = .active ∧ e.mark = none ∧ (allSlots.any fun k =>
              (tabGet (scanSlots samples s) k).2 && (brushOfSlot s k).map Prod.fst == some e.station) = true then
            { e with mark := some .slack }
          else e) } ∧
      exec (.scanComplete samples) s =
        .next (driveLines ((allSlots.filterMap (collisionOf u)).foldl (fun t q => raiseIncident q t) u))) ∧
  (∀ (samples : Tab 6 (BitVec 12)) (s : State) (k : Fin 6), ∃ (old new : Slot) (mark : Bool), old = tabGet s.mon k ∧
      tabGet (scanSlots samples s) k = (new, mark) ∧ new.sample = (tabGet samples k).toNat ∧
      new.blank = old.blank - 1 ∧
      (brushOfSlot s k = none ∨
          (∃ i b, brushOfSlot s k = some (i, b) ∧ (tabGet s.seq.units i).state ∉ [.arming, .ready, .firing]) →
        new.jam = old.jam ∧ new.slack = old.slack ∧ new.latch = old.latch ∧ mark = false) ∧
      ∀ i b, brushOfSlot s k = some (i, b) → (tabGet s.seq.units i).state ∈ [.arming, .ready, .firing] →
        (0 < old.blank → new.jam = old.jam ∧ new.latch = old.latch) ∧
        (old.blank = 0 → new.sample < (thresholdsOf s i).1 → new.jam = 0 ∧ new.latch = old.latch) ∧
        (old.blank = 0 → (thresholdsOf s i).1 ≤ new.sample →
          new.jam = min 15 (old.jam + 1) ∧ (new.latch = true ↔ old.latch = true ∨ b.jamN ≤ new.jam)) ∧
        (((tabGet s.seq.units i).state ≠ .firing ∨ activeCount s i = 0 ∨ b.slackMargin = 0 ∨
            (thresholdsOf s i).2 < new.sample) → new.slack = 0 ∧ mark = false) ∧
        ((tabGet s.seq.units i).state = .firing → 0 < activeCount s i → b.slackMargin ≠ 0 →
          new.sample ≤ (thresholdsOf s i).2 →
          (old.slack + 1 < b.slackN → new.slack = old.slack + 1 ∧ mark = false) ∧
          (b.slackN ≤ old.slack + 1 → new.slack = 0 ∧ mark = true))) ∧
  (∀ (s : State) (k : Fin 6),
      (brushOfSlot s k = none ↔ ∀ (i : Fin 16) (b : BrushRec), (tabGet s.seq.table i).gear = .brush b → b.slot ≠ k) ∧
      ∀ i b, brushOfSlot s k = some (i, b) → (tabGet s.seq.table i).gear = .brush b ∧ b.slot = k ∧
        ∃ present : Signals, present.current = (tabGet s.mon k).latch ∧ present.bumper = tabGet s.inputs.bumpers k ∧
          present.overtravel = tabGet s.inputs.overtravels k ∧
          ((tabGet s.seq.units i).state ∈ [.arming, .ready, .firing] → qualifies b.qualifier b.signals present = true →
            collisionOf s k = some ⟨.brushCollision, some i, none,
              (s.trk.queue.find? fun car =>
                car.schedule.any fun e => e.station == i && e.state == .active).map Car.tag, none, some present⟩) ∧
          ((tabGet s.seq.units i).state ∉ [.arming, .ready, .firing] ∨
              qualifies b.qualifier b.signals present = false → collisionOf s k = none)) ∧
  ∀ (k : Fin 6) (line : Switch) (active : Bool) (s : State), s.held = false → ∃ u : State,
    (line = .bumper → u = { s with inputs.bumpers := tabSet s.inputs.bumpers k active }) ∧
    (line = .overtravel → u = { s with inputs.overtravels := tabSet s.inputs.overtravels k active }) ∧
    (switchLevel s k line = active → exec (.bumperOvertravelEdge k line active) s = .next s) ∧
    (switchLevel s k line ≠ active →
      (∀ q, collisionOf u k = some q →
        exec (.bumperOvertravelEdge k line active) s = .next (driveLines (raiseIncident q u))) ∧
      (collisionOf u k = none → exec (.bumperOvertravelEdge k line active) s = .next (driveLines u)))

/-! ### E-stop, start timer, gate window, seconds -/

/-- R116, R117, R118, R125, R126, R143, R152 and R154. An open edge of the E-stop loop raises ESTOP, a close edge
changes only the level; the start timer's expiry enters the target mode, or STOPPED where DRAINING finds the queue
empty; a window end takes the gate counter into v, S and v_avg and counts an empty window of a running tunnel, with
CONVEYOR_STALL when the count comes to STALL_WINDOWS; a second counts up and holds at the top. A stopped timer does not
expire and an edge with no change of level is none (log entry 5). -/
def Obligations.LoopTimersAndWindows : Prop :=
  (∀ s : State, s.held = false →
      (s.inputs.estopClosed = true →
        exec .estopLoopOpen s =
          .next (driveLines (raiseIncident ⟨.estop, none, none, none, none, none⟩
            { s with inputs.estopClosed := false }))) ∧
      (s.inputs.estopClosed = false →
        exec .estopLoopClose s = .next (driveLines { s with inputs.estopClosed := true }))) ∧
  (∀ s : State, (s.inputs.estopClosed = false → exec .estopLoopOpen s = .next s) ∧
      (s.inputs.estopClosed = true → exec .estopLoopClose s = .next s)) ∧
  (∀ (n : Nat) (s : State), s.held = false → s.sup.startTimer = some n →
      (s.sup.tunnel = .starting .running →
        exec .startTimerExpiry s = .next (driveLines (changeTunnel .running .startTimer s))) ∧
      (s.sup.tunnel = .starting .draining → s.trk.queue ≠ [] →
        exec .startTimerExpiry s = .next (driveLines (changeTunnel .draining .startTimer s))) ∧
      (s.sup.tunnel = .starting .draining → s.trk.queue = [] →
        exec .startTimerExpiry s = .next (driveLines (changeTunnel .stopped .startTimer s)))) ∧
  (∀ s : State, LinesFollow s →
      (s.sup.startTimer = none → exec .startTimerExpiry s = .next s) ∧
      (s.ent.grantTimer = none → exec .grantTimerExpiry s = .next s) ∧
      (s.trk.exitTimer = none → exec .exitBlockTimerExpiry s = .next s)) ∧
  (∀ s : State, s.held = false → ∃ (acc : Nat) (u : State),
      acc = s.pace.acc - s.pace.acc / 4 + s.pace.gate ∧
      u = { s with
        pace.gate := 0
        pace.v := s.pace.gate
        pace.acc := acc
        pace.vAvg := (acc + 2) / 4 } ∧
      (s.sup.tunnel.runs = false → exec .gateWindowEnd s = .next (driveLines u)) ∧
      (s.sup.tunnel.runs = true → s.pace.gate ≠ 0 →
        exec .gateWindowEnd s = .next (driveLines { u with pace.stall := 0 })) ∧
      (s.sup.tunnel.runs = true → s.pace.gate = 0 → s.pace.stall + 1 ≤ 100 →
        (s.pace.stall + 1 ≠ s.sup.consts.stallWindows →
          exec .gateWindowEnd s = .next (driveLines { u with pace.stall := s.pace.stall + 1 })) ∧
        (s.pace.stall + 1 = s.sup.consts.stallWindows →
          exec .gateWindowEnd s =
            .next (driveLines (raiseIncident ⟨.conveyorStall, none, none, none, none, none⟩
              { u with pace.stall := s.pace.stall + 1 }))))) ∧
  (∀ acc gate : Nat, acc ≤ 4092 → gate ≤ 1023 →
      acc - acc / 4 + gate ≤ 4092 ∧ (acc - acc / 4 + gate + 2) / 4 ≤ 1023) ∧
  ∀ s : State, s.held = false →
    exec .secondsTick s = .next (driveLines { s with sup.seconds := min 4294967295 (s.sup.seconds + 1) })
end

