-- ==== Sys2Proof/Laws/State.lean ====
section
/-! SUPPORT. What each plain update of the state writes and what it leaves: one lemma per update, a conjunction of one
equation per field, all by definition; and the laws of the fixed groups of records. -/

namespace Sys2Proof.Machine

/-! ### Tables and groups -/

@[simp] theorem tabGet_tabSet_same {n : Nat} {α : Type} (t : Tab n α) (i : Fin n) (x : α) :
    tabGet (tabSet t i x) i = x := by simp [tabGet, tabSet]

theorem tabGet_tabSet_ne {n : Nat} {α : Type} (t : Tab n α) (i j : Fin n) (x : α) (h : i ≠ j) :
    tabGet (tabSet t i x) j = tabGet t j := by
  simp [tabGet, tabSet, Fin.val_ne_of_ne h]

@[simp] theorem tabGet_tabOf {n : Nat} {α : Type} (f : Fin n → α) (i : Fin n) : tabGet (tabOf f) i = f i := by
  simp [tabGet, tabOf]

/-- A table read at each index is the table. -/
theorem tab_ext {n : Nat} {α : Type} (t u : Tab n α) (h : ∀ i, tabGet t i = tabGet u i) : t = u := by
  ext i hi
  exact h ⟨i, hi⟩

@[simp] theorem PerLane.get_set_same {α : Type} (t : PerLane α) (l : Lane) (x : α) : (t.set l x).get l = x := by
  cases l <;> rfl

theorem PerLane.get_set_ne {α : Type} (t : PerLane α) (l m : Lane) (x : α) (h : l ≠ m) :
    (t.set l x).get m = t.get m := by
  cases l <;> cases m <;> first | rfl | exact absurd rfl h

@[simp] theorem PerPort.get_set_same {α : Type} (t : PerPort α) (p : Port) (x : α) : (t.set p x).get p = x := by
  cases p <;> rfl

theorem PerPort.get_set_ne {α : Type} (t : PerPort α) (p q : Port) (x : α) (h : p ≠ q) :
    (t.set p x).get q = t.get q := by
  cases p <;> cases q <;> first | rfl | exact absurd rfl h

@[simp] theorem PerPort.set_set {α : Type} (t : PerPort α) (p : Port) (x y : α) : (t.set p x).set p y = t.set p y := by
  cases p <;> rfl

@[simp] theorem PerEye.get_set_same {α : Type} (t : PerEye α) (k : Eye) (x : α) : (t.set k x).get k = x := by
  cases k <;> rfl

theorem PerEye.get_set_ne {α : Type} (t : PerEye α) (k j : Eye) (x : α) (h : k ≠ j) :
    (t.set k x).get j = t.get j := by
  cases k <;> cases j <;> first | rfl | exact absurd rfl h

theorem Response.get_set_same (r : Response) (k : IncidentKind) (c : IncidentClass) : (r.set k c).get k = c := by
  cases k <;> rfl

theorem Response.get_set_ne (r : Response) (k j : IncidentKind) (c : IncidentClass) (h : k ≠ j) :
    (r.set k c).get j = r.get j := by
  cases k <;> cases j <;> first | rfl | exact absurd rfl h

/-! ### Plain updates -/

/-- What a change of one port writes and leaves. -/
@[simp] theorem updatePort_fields (p : Port) (f : PortUnit → PortUnit) (s : State) :
    (updatePort p f s).ports = s.ports.set p (f (s.ports.get p)) ∧ (updatePort p f s).held = s.held ∧
    (updatePort p f s).inputs = s.inputs ∧ (updatePort p f s).out = s.out ∧
    (updatePort p f s).sales = s.sales ∧ (updatePort p f s).ent = s.ent ∧ (updatePort p f s).trk = s.trk ∧
    (updatePort p f s).seq = s.seq ∧ (updatePort p f s).pace = s.pace ∧ (updatePort p f s).mon = s.mon ∧
    (updatePort p f s).sup = s.sup ∧ (updatePort p f s).store = s.store ∧ (updatePort p f s).free = s.free ∧
    (updatePort p f s).pending = s.pending :=
  ⟨rfl, rfl, rfl, rfl, rfl, rfl, rfl, rfl, rfl, rfl, rfl, rfl, rfl, rfl⟩

/-- What the end of a frame writes and leaves. -/
@[simp] theorem frameDone_fields (p : Port) (s : State) :
    (frameDone p s).held = s.held ∧ (frameDone p s).inputs = s.inputs ∧ (frameDone p s).out = s.out ∧
    (frameDone p s).sales = s.sales ∧ (frameDone p s).ent = s.ent ∧ (frameDone p s).trk = s.trk ∧
    (frameDone p s).seq = s.seq ∧ (frameDone p s).pace = s.pace ∧ (frameDone p s).mon = s.mon ∧
    (frameDone p s).sup = s.sup ∧ (frameDone p s).store = s.store ∧ (frameDone p s).free = s.free ∧
    (frameDone p s).pending = s.pending :=
  ⟨rfl, rfl, rfl, rfl, rfl, rfl, rfl, rfl, rfl, rfl, rfl, rfl, rfl⟩

/-- What a change of a receive path writes and leaves. -/
@[simp] theorem setRx_fields (p : Port) (x : RxPath) (s : State) :
    (setRx p x s).held = s.held ∧ (setRx p x s).inputs = s.inputs ∧ (setRx p x s).out = s.out ∧
    (setRx p x s).sales = s.sales ∧ (setRx p x s).ent = s.ent ∧ (setRx p x s).trk = s.trk ∧
    (setRx p x s).seq = s.seq ∧ (setRx p x s).pace = s.pace ∧ (setRx p x s).mon = s.mon ∧
    (setRx p x s).sup = s.sup ∧ (setRx p x s).store = s.store ∧ (setRx p x s).free = s.free ∧
    (setRx p x s).pending = s.pending :=
  ⟨rfl, rfl, rfl, rfl, rfl, rfl, rfl, rfl, rfl, rfl, rfl, rfl, rfl⟩

/-- What a notice writes and leaves. -/
@[simp] theorem notify_fields (p : Port) (n : Notice) (s : State) :
    (notify p n s).held = s.held ∧ (notify p n s).inputs = s.inputs ∧ (notify p n s).out = s.out ∧
    (notify p n s).sales = s.sales ∧ (notify p n s).ent = s.ent ∧ (notify p n s).trk = s.trk ∧
    (notify p n s).seq = s.seq ∧ (notify p n s).pace = s.pace ∧ (notify p n s).mon = s.mon ∧
    (notify p n s).sup = s.sup ∧ (notify p n s).store = s.store ∧ (notify p n s).free = s.free ∧
    (notify p n s).pending = s.pending :=
  ⟨rfl, rfl, rfl, rfl, rfl, rfl, rfl, rfl, rfl, rfl, rfl, rfl, rfl⟩

/-- What a notice to P0 and P4 writes and leaves. -/
@[simp] theorem notifyBoth_fields (n : Notice) (s : State) :
    (notifyBoth n s).held = s.held ∧ (notifyBoth n s).inputs = s.inputs ∧ (notifyBoth n s).out = s.out ∧
    (notifyBoth n s).sales = s.sales ∧ (notifyBoth n s).ent = s.ent ∧ (notifyBoth n s).trk = s.trk ∧
    (notifyBoth n s).seq = s.seq ∧ (notifyBoth n s).pace = s.pace ∧ (notifyBoth n s).mon = s.mon ∧
    (notifyBoth n s).sup = s.sup ∧ (notifyBoth n s).store = s.store ∧ (notifyBoth n s).free = s.free ∧
    (notifyBoth n s).pending = s.pending :=
  ⟨rfl, rfl, rfl, rfl, rfl, rfl, rfl, rfl, rfl, rfl, rfl, rfl, rfl⟩

/-- What an answer writes and leaves. -/
@[simp] theorem sendAnswer_fields (p : Port) (k : Nat) (a : Answer) (s : State) :
    (sendAnswer p k a s).held = s.held ∧ (sendAnswer p k a s).inputs = s.inputs ∧
    (sendAnswer p k a s).out = s.out ∧ (sendAnswer p k a s).sales = s.sales ∧
    (sendAnswer p k a s).ent = s.ent ∧ (sendAnswer p k a s).trk = s.trk ∧ (sendAnswer p k a s).seq = s.seq ∧
    (sendAnswer p k a s).pace = s.pace ∧ (sendAnswer p k a s).mon = s.mon ∧ (sendAnswer p k a s).sup = s.sup ∧
    (sendAnswer p k a s).store = s.store ∧ (sendAnswer p k a s).free = s.free ∧
    (sendAnswer p k a s).pending = s.pending :=
  ⟨rfl, rfl, rfl, rfl, rfl, rfl, rfl, rfl, rfl, rfl, rfl, rfl, rfl⟩

/-- What the end of an event writes and leaves. -/
@[simp] theorem driveLines_fields (s : State) :
    (driveLines s).pace.resolved = resolvedClass s ∧ (driveLines s).pace.brushes = tabOf (paceOf s) ∧
    (driveLines s).out = outputsOf s ∧ (driveLines s).held = s.held ∧ (driveLines s).inputs = s.inputs ∧
    (driveLines s).ports = s.ports ∧ (driveLines s).sales = s.sales ∧ (driveLines s).ent = s.ent ∧
    (driveLines s).trk = s.trk ∧ (driveLines s).seq = s.seq ∧ (driveLines s).pace.gate = s.pace.gate ∧
    (driveLines s).pace.v = s.pace.v ∧ (driveLines s).pace.acc = s.pace.acc ∧
    (driveLines s).pace.vAvg = s.pace.vAvg ∧ (driveLines s).pace.stall = s.pace.stall ∧
    (driveLines s).pace.forced = s.pace.forced ∧ (driveLines s).mon = s.mon ∧ (driveLines s).sup = s.sup ∧
    (driveLines s).store = s.store ∧ (driveLines s).free = s.free ∧ (driveLines s).pending = s.pending :=
  ⟨rfl, rfl, rfl, rfl, rfl, rfl, rfl, rfl, rfl, rfl, rfl, rfl, rfl, rfl, rfl, rfl, rfl, rfl, rfl, rfl, rfl⟩

/-- What a change of the tally set writes and leaves. -/
@[simp] theorem updateTally_fields (f : Tally → Tally) (s : State) :
    (updateTally f s).sales.tally = f s.sales.tally ∧ (updateTally f s).held = s.held ∧
    (updateTally f s).inputs = s.inputs ∧ (updateTally f s).out = s.out ∧ (updateTally f s).ports = s.ports ∧
    (updateTally f s).sales.plans = s.sales.plans ∧ (updateTally f s).sales.store = s.sales.store ∧
    (updateTally f s).sales.services = s.sales.services ∧ (updateTally f s).sales.lanes = s.sales.lanes ∧
    (updateTally f s).sales.lastSale = s.sales.lastSale ∧ (updateTally f s).sales.credits = s.sales.credits ∧
    (updateTally f s).sales.saleCounter = s.sales.saleCounter ∧
    (updateTally f s).sales.creditCounter = s.sales.creditCounter ∧
    (updateTally f s).sales.consoleCopy = s.sales.consoleCopy ∧
    (updateTally f s).sales.officeCopy = s.sales.officeCopy ∧ (updateTally f s).ent = s.ent ∧
    (updateTally f s).trk = s.trk ∧ (updateTally f s).seq = s.seq ∧ (updateTally f s).pace = s.pace ∧
    (updateTally f s).mon = s.mon ∧ (updateTally f s).sup = s.sup ∧ (updateTally f s).store = s.store ∧
    (updateTally f s).free = s.free ∧ (updateTally f s).pending = s.pending :=
  ⟨rfl, rfl, rfl, rfl, rfl, rfl, rfl, rfl, rfl, rfl, rfl, rfl, rfl, rfl, rfl, rfl, rfl, rfl, rfl, rfl, rfl, rfl, rfl, rfl⟩

/-- What a change of one station writes and leaves. -/
@[simp] theorem updateUnit_fields (i : Fin 16) (f : StationUnit → StationUnit) (s : State) :
    (updateUnit i f s).seq.units = tabSet s.seq.units i (f (tabGet s.seq.units i)) ∧
    (updateUnit i f s).held = s.held ∧ (updateUnit i f s).inputs = s.inputs ∧ (updateUnit i f s).out = s.out ∧
    (updateUnit i f s).ports = s.ports ∧ (updateUnit i f s).sales = s.sales ∧ (updateUnit i f s).ent = s.ent ∧
    (updateUnit i f s).trk = s.trk ∧ (updateUnit i f s).seq.table = s.seq.table ∧
    (updateUnit i f s).pace = s.pace ∧ (updateUnit i f s).mon = s.mon ∧ (updateUnit i f s).sup = s.sup ∧
    (updateUnit i f s).store = s.store ∧ (updateUnit i f s).free = s.free ∧
    (updateUnit i f s).pending = s.pending :=
  ⟨rfl, rfl, rfl, rfl, rfl, rfl, rfl, rfl, rfl, rfl, rfl, rfl, rfl, rfl, rfl⟩

/-- What a change of one slot writes and leaves. -/
@[simp] theorem updateSlot_fields (k : Fin 6) (f : Slot → Slot) (s : State) :
    (updateSlot k f s).mon = tabSet s.mon k (f (tabGet s.mon k)) ∧ (updateSlot k f s).held = s.held ∧
    (updateSlot k f s).inputs = s.inputs ∧ (updateSlot k f s).out = s.out ∧
    (updateSlot k f s).ports = s.ports ∧ (updateSlot k f s).sales = s.sales ∧ (updateSlot k f s).ent = s.ent ∧
    (updateSlot k f s).trk = s.trk ∧ (updateSlot k f s).seq = s.seq ∧ (updateSlot k f s).pace = s.pace ∧
    (updateSlot k f s).sup = s.sup ∧ (updateSlot k f s).store = s.store ∧ (updateSlot k f s).free = s.free ∧
    (updateSlot k f s).pending = s.pending :=
  ⟨rfl, rfl, rfl, rfl, rfl, rfl, rfl, rfl, rfl, rfl, rfl, rfl, rfl, rfl⟩

/-- What a change of every record writes and leaves. -/
@[simp] theorem mapQueue_fields (f : Car → Car) (s : State) :
    (mapQueue f s).trk.queue = s.trk.queue.map f ∧ (mapQueue f s).held = s.held ∧
    (mapQueue f s).inputs = s.inputs ∧ (mapQueue f s).out = s.out ∧ (mapQueue f s).ports = s.ports ∧
    (mapQueue f s).sales = s.sales ∧ (mapQueue f s).ent = s.ent ∧ (mapQueue f s).trk.nextTag = s.trk.nextTag ∧
    (mapQueue f s).trk.eyes = s.trk.eyes ∧ (mapQueue f s).trk.exitMatch = s.trk.exitMatch ∧
    (mapQueue f s).trk.exitTimer = s.trk.exitTimer ∧ (mapQueue f s).seq = s.seq ∧
    (mapQueue f s).pace = s.pace ∧ (mapQueue f s).mon = s.mon ∧ (mapQueue f s).sup = s.sup ∧
    (mapQueue f s).store = s.store ∧ (mapQueue f s).free = s.free ∧ (mapQueue f s).pending = s.pending :=
  ⟨rfl, rfl, rfl, rfl, rfl, rfl, rfl, rfl, rfl, rfl, rfl, rfl, rfl, rfl, rfl, rfl, rfl, rfl⟩

/-- What the end of a grant writes and leaves. -/
@[simp] theorem clearGrant_fields (s : State) :
    (clearGrant s).ent.grant = none ∧ (clearGrant s).ent.grantTimer = none ∧ (clearGrant s).held = s.held ∧
    (clearGrant s).inputs = s.inputs ∧ (clearGrant s).out = s.out ∧ (clearGrant s).ports = s.ports ∧
    (clearGrant s).sales = s.sales ∧ (clearGrant s).ent.enabled = s.ent.enabled ∧
    (clearGrant s).ent.pointer = s.ent.pointer ∧ (clearGrant s).ent.eye = s.ent.eye ∧
    (clearGrant s).ent.measured = s.ent.measured ∧ (clearGrant s).trk = s.trk ∧ (clearGrant s).seq = s.seq ∧
    (clearGrant s).pace = s.pace ∧ (clearGrant s).mon = s.mon ∧ (clearGrant s).sup = s.sup ∧
    (clearGrant s).store = s.store ∧ (clearGrant s).free = s.free ∧ (clearGrant s).pending = s.pending :=
  ⟨rfl, rfl, rfl, rfl, rfl, rfl, rfl, rfl, rfl, rfl, rfl, rfl, rfl, rfl, rfl, rfl, rfl, rfl, rfl⟩

/-- What a change of the incident list writes and leaves. -/
@[simp] theorem setIncidents_fields (l : List Incident) (s : State) :
    (setIncidents l s).sup.incidents = l ∧ (setIncidents l s).held = s.held ∧
    (setIncidents l s).inputs = s.inputs ∧ (setIncidents l s).out = s.out ∧
    (setIncidents l s).ports = s.ports ∧ (setIncidents l s).sales = s.sales ∧ (setIncidents l s).ent = s.ent ∧
    (setIncidents l s).trk = s.trk ∧ (setIncidents l s).seq = s.seq ∧ (setIncidents l s).pace = s.pace ∧
    (setIncidents l s).mon = s.mon ∧ (setIncidents l s).sup.tunnel = s.sup.tunnel ∧
    (setIncidents l s).sup.manual = s.sup.manual ∧ (setIncidents l s).sup.startTimer = s.sup.startTimer ∧
    (setIncidents l s).sup.incidentCounter = s.sup.incidentCounter ∧
    (setIncidents l s).sup.seconds = s.sup.seconds ∧ (setIncidents l s).sup.response = s.sup.response ∧
    (setIncidents l s).sup.holder = s.sup.holder ∧ (setIncidents l s).sup.consts = s.sup.consts ∧
    (setIncidents l s).store = s.store ∧ (setIncidents l s).free = s.free ∧
    (setIncidents l s).pending = s.pending :=
  ⟨rfl, rfl, rfl, rfl, rfl, rfl, rfl, rfl, rfl, rfl, rfl, rfl, rfl, rfl, rfl, rfl, rfl, rfl, rfl, rfl, rfl, rfl⟩

/-- What the start of a measurement writes and leaves. -/
@[simp] theorem startMeasure_fields (tag : Nat) (s : State) :
    (startMeasure tag s).ent.measured = some { tag := tag, entry := 0, clearEdge := 0 } ∧
    (startMeasure tag s).held = s.held ∧ (startMeasure tag s).inputs = s.inputs ∧
    (startMeasure tag s).out = s.out ∧ (startMeasure tag s).ports = s.ports ∧
    (startMeasure tag s).sales = s.sales ∧ (startMeasure tag s).ent.enabled = s.ent.enabled ∧
    (startMeasure tag s).ent.grant = s.ent.grant ∧ (startMeasure tag s).ent.pointer = s.ent.pointer ∧
    (startMeasure tag s).ent.grantTimer = s.ent.grantTimer ∧ (startMeasure tag s).ent.eye = s.ent.eye ∧
    (startMeasure tag s).trk = s.trk ∧ (startMeasure tag s).seq = s.seq ∧ (startMeasure tag s).pace = s.pace ∧
    (startMeasure tag s).mon = s.mon ∧ (startMeasure tag s).sup = s.sup ∧
    (startMeasure tag s).store = s.store ∧ (startMeasure tag s).free = s.free ∧
    (startMeasure tag s).pending = s.pending :=
  ⟨rfl, rfl, rfl, rfl, rfl, rfl, rfl, rfl, rfl, rfl, rfl, rfl, rfl, rfl, rfl, rfl, rfl, rfl, rfl⟩

/-- What a record out of the queue writes and leaves. -/
@[simp] theorem dropRecord_fields (tag : Nat) (s : State) :
    (dropRecord tag s).trk.queue = (s.trk.queue.filter fun car => car.tag != tag) ∧
    (dropRecord tag s).trk.exitMatch = (if s.trk.exitMatch = some tag then none else s.trk.exitMatch) ∧
    (dropRecord tag s).ent.measured = abandonMeasure tag s.ent.measured ∧ (dropRecord tag s).held = s.held ∧
    (dropRecord tag s).inputs = s.inputs ∧ (dropRecord tag s).out = s.out ∧
    (dropRecord tag s).ports = s.ports ∧ (dropRecord tag s).sales = s.sales ∧
    (dropRecord tag s).ent.enabled = s.ent.enabled ∧ (dropRecord tag s).ent.grant = s.ent.grant ∧
    (dropRecord tag s).ent.pointer = s.ent.pointer ∧ (dropRecord tag s).ent.grantTimer = s.ent.grantTimer ∧
    (dropRecord tag s).ent.eye = s.ent.eye ∧ (dropRecord tag s).trk.nextTag = s.trk.nextTag ∧
    (dropRecord tag s).trk.eyes = s.trk.eyes ∧ (dropRecord tag s).trk.exitTimer = s.trk.exitTimer ∧
    (dropRecord tag s).seq = s.seq ∧ (dropRecord tag s).pace = s.pace ∧ (dropRecord tag s).mon = s.mon ∧
    (dropRecord tag s).sup = s.sup ∧ (dropRecord tag s).store = s.store ∧ (dropRecord tag s).free = s.free ∧
    (dropRecord tag s).pending = s.pending :=
  ⟨rfl, rfl, rfl, rfl, rfl, rfl, rfl, rfl, rfl, rfl, rfl, rfl, rfl, rfl, rfl, rfl, rfl, rfl, rfl, rfl, rfl, rfl, rfl⟩

/-- What a change of a debounce state writes and leaves. -/
@[simp] theorem setEye_fields (k : Eye) (d : Option Debounce) (s : State) :
    (setEye k d s).trk.eyes = s.trk.eyes.set k d ∧ (setEye k d s).held = s.held ∧
    (setEye k d s).inputs = s.inputs ∧ (setEye k d s).out = s.out ∧ (setEye k d s).ports = s.ports ∧
    (setEye k d s).sales = s.sales ∧ (setEye k d s).ent = s.ent ∧ (setEye k d s).trk.queue = s.trk.queue ∧
    (setEye k d s).trk.nextTag = s.trk.nextTag ∧ (setEye k d s).trk.exitMatch = s.trk.exitMatch ∧
    (setEye k d s).trk.exitTimer = s.trk.exitTimer ∧ (setEye k d s).seq = s.seq ∧
    (setEye k d s).pace = s.pace ∧ (setEye k d s).mon = s.mon ∧ (setEye k d s).sup = s.sup ∧
    (setEye k d s).store = s.store ∧ (setEye k d s).free = s.free ∧ (setEye k d s).pending = s.pending :=
  ⟨rfl, rfl, rfl, rfl, rfl, rfl, rfl, rfl, rfl, rfl, rfl, rfl, rfl, rfl, rfl, rfl, rfl, rfl⟩

/-- What a counted pulse writes and leaves. -/
@[simp] theorem countPulse_fields (s : State) :
    (countPulse s).pace.gate = satAdd 1023 s.pace.gate 1 ∧ (countPulse s).held = s.held ∧
    (countPulse s).inputs = s.inputs ∧ (countPulse s).out = s.out ∧ (countPulse s).ports = s.ports ∧
    (countPulse s).sales = s.sales ∧ (countPulse s).ent = s.ent ∧ (countPulse s).trk = s.trk ∧
    (countPulse s).seq = s.seq ∧ (countPulse s).pace.v = s.pace.v ∧ (countPulse s).pace.acc = s.pace.acc ∧
    (countPulse s).pace.vAvg = s.pace.vAvg ∧ (countPulse s).pace.stall = s.pace.stall ∧
    (countPulse s).pace.resolved = s.pace.resolved ∧ (countPulse s).pace.forced = s.pace.forced ∧
    (countPulse s).pace.brushes = s.pace.brushes ∧ (countPulse s).mon = s.mon ∧ (countPulse s).sup = s.sup ∧
    (countPulse s).store = s.store ∧ (countPulse s).free = s.free ∧ (countPulse s).pending = s.pending :=
  ⟨rfl, rfl, rfl, rfl, rfl, rfl, rfl, rfl, rfl, rfl, rfl, rfl, rfl, rfl, rfl, rfl, rfl, rfl, rfl, rfl, rfl⟩

/-- What a change of a lane queue writes and leaves. -/
@[simp] theorem setLane_fields (l : Lane) (q : List Ticket) (s : State) :
    (setLane l q s).sales.lanes = s.sales.lanes.set l q ∧ (setLane l q s).held = s.held ∧
    (setLane l q s).inputs = s.inputs ∧ (setLane l q s).out = s.out ∧ (setLane l q s).ports = s.ports ∧
    (setLane l q s).sales.plans = s.sales.plans ∧ (setLane l q s).sales.store = s.sales.store ∧
    (setLane l q s).sales.services = s.sales.services ∧ (setLane l q s).sales.lastSale = s.sales.lastSale ∧
    (setLane l q s).sales.credits = s.sales.credits ∧ (setLane l q s).sales.saleCounter = s.sales.saleCounter ∧
    (setLane l q s).sales.creditCounter = s.sales.creditCounter ∧ (setLane l q s).sales.tally = s.sales.tally ∧
    (setLane l q s).sales.consoleCopy = s.sales.consoleCopy ∧
    (setLane l q s).sales.officeCopy = s.sales.officeCopy ∧ (setLane l q s).ent = s.ent ∧
    (setLane l q s).trk = s.trk ∧ (setLane l q s).seq = s.seq ∧ (setLane l q s).pace = s.pace ∧
    (setLane l q s).mon = s.mon ∧ (setLane l q s).sup = s.sup ∧ (setLane l q s).store = s.store ∧
    (setLane l q s).free = s.free ∧ (setLane l q s).pending = s.pending :=
  ⟨rfl, rfl, rfl, rfl, rfl, rfl, rfl, rfl, rfl, rfl, rfl, rfl, rfl, rfl, rfl, rfl, rfl, rfl, rfl, rfl, rfl, rfl, rfl, rfl⟩

/-- What a change of one plan writes and leaves. -/
@[simp] theorem updatePlan_fields (i : Fin 12) (f : Plan → Plan) (s : State) :
    (updatePlan i f s).sales.plans = tabSet s.sales.plans i (f (tabGet s.sales.plans i)) ∧
    (updatePlan i f s).held = s.held ∧ (updatePlan i f s).inputs = s.inputs ∧ (updatePlan i f s).out = s.out ∧
    (updatePlan i f s).ports = s.ports ∧ (updatePlan i f s).sales.store = s.sales.store ∧
    (updatePlan i f s).sales.services = s.sales.services ∧ (updatePlan i f s).sales.lanes = s.sales.lanes ∧
    (updatePlan i f s).sales.lastSale = s.sales.lastSale ∧ (updatePlan i f s).sales.credits = s.sales.credits ∧
    (updatePlan i f s).sales.saleCounter = s.sales.saleCounter ∧
    (updatePlan i f s).sales.creditCounter = s.sales.creditCounter ∧
    (updatePlan i f s).sales.tally = s.sales.tally ∧
    (updatePlan i f s).sales.consoleCopy = s.sales.consoleCopy ∧
    (updatePlan i f s).sales.officeCopy = s.sales.officeCopy ∧ (updatePlan i f s).ent = s.ent ∧
    (updatePlan i f s).trk = s.trk ∧ (updatePlan i f s).seq = s.seq ∧ (updatePlan i f s).pace = s.pace ∧
    (updatePlan i f s).mon = s.mon ∧ (updatePlan i f s).sup = s.sup ∧ (updatePlan i f s).store = s.store ∧
    (updatePlan i f s).free = s.free ∧ (updatePlan i f s).pending = s.pending :=
  ⟨rfl, rfl, rfl, rfl, rfl, rfl, rfl, rfl, rfl, rfl, rfl, rfl, rfl, rfl, rfl, rfl, rfl, rfl, rfl, rfl, rfl, rfl, rfl, rfl⟩

/-- What a plan with its list writes and leaves. -/
@[simp] theorem storePlan_fields (i : Fin 12) (q : Plan) (list : List SvcLevel) (s : State) :
    (storePlan i q list s).sales.plans = tabSet s.sales.plans i q ∧
    (storePlan i q list s).sales.store = repack i list s ∧ (storePlan i q list s).held = s.held ∧
    (storePlan i q list s).inputs = s.inputs ∧ (storePlan i q list s).out = s.out ∧
    (storePlan i q list s).ports = s.ports ∧ (storePlan i q list s).sales.services = s.sales.services ∧
    (storePlan i q list s).sales.lanes = s.sales.lanes ∧
    (storePlan i q list s).sales.lastSale = s.sales.lastSale ∧
    (storePlan i q list s).sales.credits = s.sales.credits ∧
    (storePlan i q list s).sales.saleCounter = s.sales.saleCounter ∧
    (storePlan i q list s).sales.creditCounter = s.sales.creditCounter ∧
    (storePlan i q list s).sales.tally = s.sales.tally ∧
    (storePlan i q list s).sales.consoleCopy = s.sales.consoleCopy ∧
    (storePlan i q list s).sales.officeCopy = s.sales.officeCopy ∧ (storePlan i q list s).ent = s.ent ∧
    (storePlan i q list s).trk = s.trk ∧ (storePlan i q list s).seq = s.seq ∧
    (storePlan i q list s).pace = s.pace ∧ (storePlan i q list s).mon = s.mon ∧
    (storePlan i q list s).sup = s.sup ∧ (storePlan i q list s).store = s.store ∧
    (storePlan i q list s).free = s.free ∧ (storePlan i q list s).pending = s.pending :=
  ⟨rfl, rfl, rfl, rfl, rfl, rfl, rfl, rfl, rfl, rfl, rfl, rfl, rfl, rfl, rfl, rfl, rfl, rfl, rfl, rfl, rfl, rfl, rfl, rfl⟩

/-- What a service table entry writes and leaves. -/
@[simp] theorem setServiceEntry_fields (c : Fin 24) (price : Option Nat) (limit : Nat) (s : State) :

    (setServiceEntry c price limit s).sales.services = tabSet s.sales.services c { price := price, limit := clampTo limit 1 4 } ∧
    (setServiceEntry c price limit s).held = s.held ∧ (setServiceEntry c price limit s).inputs = s.inputs ∧
    (setServiceEntry c price limit s).out = s.out ∧ (setServiceEntry c price limit s).ports = s.ports ∧
    (setServiceEntry c price limit s).sales.plans = s.sales.plans ∧
    (setServiceEntry c price limit s).sales.store = s.sales.store ∧
    (setServiceEntry c price limit s).sales.lanes = s.sales.lanes ∧
    (setServiceEntry c price limit s).sales.lastSale = s.sales.lastSale ∧
    (setServiceEntry c price limit s).sales.credits = s.sales.credits ∧
    (setServiceEntry c price limit s).sales.saleCounter = s.sales.saleCounter ∧
    (setServiceEntry c price limit s).sales.creditCounter = s.sales.creditCounter ∧
    (setServiceEntry c price limit s).sales.tally = s.sales.tally ∧
    (setServiceEntry c price limit s).sales.consoleCopy = s.sales.consoleCopy ∧
    (setServiceEntry c price limit s).sales.officeCopy = s.sales.officeCopy ∧
    (setServiceEntry c price limit s).ent = s.ent ∧ (setServiceEntry c price limit s).trk = s.trk ∧
    (setServiceEntry c price limit s).seq = s.seq ∧ (setServiceEntry c price limit s).pace = s.pace ∧
    (setServiceEntry c price limit s).mon = s.mon ∧ (setServiceEntry c price limit s).sup = s.sup ∧
    (setServiceEntry c price limit s).store = s.store ∧ (setServiceEntry c price limit s).free = s.free ∧
    (setServiceEntry c price limit s).pending = s.pending :=
  ⟨rfl, rfl, rfl, rfl, rfl, rfl, rfl, rfl, rfl, rfl, rfl, rfl, rfl, rfl, rfl, rfl, rfl, rfl, rfl, rfl, rfl, rfl, rfl, rfl⟩

/-- What another target mode writes and leaves. -/
@[simp] theorem setTunnel_fields (t : Tunnel) (s : State) :
    (setTunnel t s).sup.tunnel = t ∧ (setTunnel t s).held = s.held ∧ (setTunnel t s).inputs = s.inputs ∧
    (setTunnel t s).out = s.out ∧ (setTunnel t s).ports = s.ports ∧ (setTunnel t s).sales = s.sales ∧
    (setTunnel t s).ent = s.ent ∧ (setTunnel t s).trk = s.trk ∧ (setTunnel t s).seq = s.seq ∧
    (setTunnel t s).pace = s.pace ∧ (setTunnel t s).mon = s.mon ∧ (setTunnel t s).sup.manual = s.sup.manual ∧
    (setTunnel t s).sup.startTimer = s.sup.startTimer ∧ (setTunnel t s).sup.incidents = s.sup.incidents ∧
    (setTunnel t s).sup.incidentCounter = s.sup.incidentCounter ∧ (setTunnel t s).sup.seconds = s.sup.seconds ∧
    (setTunnel t s).sup.response = s.sup.response ∧ (setTunnel t s).sup.holder = s.sup.holder ∧
    (setTunnel t s).sup.consts = s.sup.consts ∧ (setTunnel t s).store = s.store ∧
    (setTunnel t s).free = s.free ∧ (setTunnel t s).pending = s.pending :=
  ⟨rfl, rfl, rfl, rfl, rfl, rfl, rfl, rfl, rfl, rfl, rfl, rfl, rfl, rfl, rfl, rfl, rfl, rfl, rfl, rfl, rfl, rfl⟩

/-- What the MANUAL flag writes and leaves. -/
@[simp] theorem setManual_fields (x : Bool) (s : State) :
    (setManual x s).sup.manual = x ∧ (setManual x s).held = s.held ∧ (setManual x s).inputs = s.inputs ∧
    (setManual x s).out = s.out ∧ (setManual x s).ports = s.ports ∧ (setManual x s).sales = s.sales ∧
    (setManual x s).ent = s.ent ∧ (setManual x s).trk = s.trk ∧ (setManual x s).seq = s.seq ∧
    (setManual x s).pace = s.pace ∧ (setManual x s).mon = s.mon ∧ (setManual x s).sup.tunnel = s.sup.tunnel ∧
    (setManual x s).sup.startTimer = s.sup.startTimer ∧ (setManual x s).sup.incidents = s.sup.incidents ∧
    (setManual x s).sup.incidentCounter = s.sup.incidentCounter ∧ (setManual x s).sup.seconds = s.sup.seconds ∧
    (setManual x s).sup.response = s.sup.response ∧ (setManual x s).sup.holder = s.sup.holder ∧
    (setManual x s).sup.consts = s.sup.consts ∧ (setManual x s).store = s.store ∧
    (setManual x s).free = s.free ∧ (setManual x s).pending = s.pending :=
  ⟨rfl, rfl, rfl, rfl, rfl, rfl, rfl, rfl, rfl, rfl, rfl, rfl, rfl, rfl, rfl, rfl, rfl, rfl, rfl, rfl, rfl, rfl⟩

/-- What the control holder writes and leaves. -/
@[simp] theorem setHolder_fields (h : Option Port) (s : State) :
    (setHolder h s).sup.holder = h ∧ (setHolder h s).held = s.held ∧ (setHolder h s).inputs = s.inputs ∧
    (setHolder h s).out = s.out ∧ (setHolder h s).ports = s.ports ∧ (setHolder h s).sales = s.sales ∧
    (setHolder h s).ent = s.ent ∧ (setHolder h s).trk = s.trk ∧ (setHolder h s).seq = s.seq ∧
    (setHolder h s).pace = s.pace ∧ (setHolder h s).mon = s.mon ∧ (setHolder h s).sup.tunnel = s.sup.tunnel ∧
    (setHolder h s).sup.manual = s.sup.manual ∧ (setHolder h s).sup.startTimer = s.sup.startTimer ∧
    (setHolder h s).sup.incidents = s.sup.incidents ∧
    (setHolder h s).sup.incidentCounter = s.sup.incidentCounter ∧ (setHolder h s).sup.seconds = s.sup.seconds ∧
    (setHolder h s).sup.response = s.sup.response ∧ (setHolder h s).sup.consts = s.sup.consts ∧
    (setHolder h s).store = s.store ∧ (setHolder h s).free = s.free ∧ (setHolder h s).pending = s.pending :=
  ⟨rfl, rfl, rfl, rfl, rfl, rfl, rfl, rfl, rfl, rfl, rfl, rfl, rfl, rfl, rfl, rfl, rfl, rfl, rfl, rfl, rfl, rfl⟩

/-- What the forced class writes and leaves. -/
@[simp] theorem setForced_fields (c : Option Nat) (s : State) :
    (setForced c s).pace.forced = c ∧ (setForced c s).held = s.held ∧ (setForced c s).inputs = s.inputs ∧
    (setForced c s).out = s.out ∧ (setForced c s).ports = s.ports ∧ (setForced c s).sales = s.sales ∧
    (setForced c s).ent = s.ent ∧ (setForced c s).trk = s.trk ∧ (setForced c s).seq = s.seq ∧
    (setForced c s).pace.gate = s.pace.gate ∧ (setForced c s).pace.v = s.pace.v ∧
    (setForced c s).pace.acc = s.pace.acc ∧ (setForced c s).pace.vAvg = s.pace.vAvg ∧
    (setForced c s).pace.stall = s.pace.stall ∧ (setForced c s).pace.resolved = s.pace.resolved ∧
    (setForced c s).pace.brushes = s.pace.brushes ∧ (setForced c s).mon = s.mon ∧ (setForced c s).sup = s.sup ∧
    (setForced c s).store = s.store ∧ (setForced c s).free = s.free ∧ (setForced c s).pending = s.pending :=
  ⟨rfl, rfl, rfl, rfl, rfl, rfl, rfl, rfl, rfl, rfl, rfl, rfl, rfl, rfl, rfl, rfl, rfl, rfl, rfl, rfl, rfl⟩

/-- What a lane enable flag writes and leaves. -/
@[simp] theorem setEnabled_fields (l : Lane) (x : Bool) (s : State) :
    (setEnabled l x s).ent.enabled = s.ent.enabled.set l x ∧ (setEnabled l x s).held = s.held ∧
    (setEnabled l x s).inputs = s.inputs ∧ (setEnabled l x s).out = s.out ∧
    (setEnabled l x s).ports = s.ports ∧ (setEnabled l x s).sales = s.sales ∧
    (setEnabled l x s).ent.grant = s.ent.grant ∧ (setEnabled l x s).ent.pointer = s.ent.pointer ∧
    (setEnabled l x s).ent.grantTimer = s.ent.grantTimer ∧ (setEnabled l x s).ent.eye = s.ent.eye ∧
    (setEnabled l x s).ent.measured = s.ent.measured ∧ (setEnabled l x s).trk = s.trk ∧
    (setEnabled l x s).seq = s.seq ∧ (setEnabled l x s).pace = s.pace ∧ (setEnabled l x s).mon = s.mon ∧
    (setEnabled l x s).sup = s.sup ∧ (setEnabled l x s).store = s.store ∧ (setEnabled l x s).free = s.free ∧
    (setEnabled l x s).pending = s.pending :=
  ⟨rfl, rfl, rfl, rfl, rfl, rfl, rfl, rfl, rfl, rfl, rfl, rfl, rfl, rfl, rfl, rfl, rfl, rfl, rfl⟩

/-- What a station record writes and leaves. -/
@[simp] theorem putStation_fields (i : Fin 16) (r : StationRec) (s : State) :
    (putStation i r s).seq.table = tabSet s.seq.table i r ∧ (putStation i r s).held = s.held ∧
    (putStation i r s).inputs = s.inputs ∧ (putStation i r s).out = s.out ∧
    (putStation i r s).ports = s.ports ∧ (putStation i r s).sales = s.sales ∧ (putStation i r s).ent = s.ent ∧
    (putStation i r s).trk = s.trk ∧ (putStation i r s).seq.units = s.seq.units ∧
    (putStation i r s).pace = s.pace ∧ (putStation i r s).mon = s.mon ∧ (putStation i r s).sup = s.sup ∧
    (putStation i r s).store = s.store ∧ (putStation i r s).free = s.free ∧
    (putStation i r s).pending = s.pending :=
  ⟨rfl, rfl, rfl, rfl, rfl, rfl, rfl, rfl, rfl, rfl, rfl, rfl, rfl, rfl, rfl⟩

/-- What a proof input writes and leaves. -/
@[simp] theorem setProof_fields (i : Fin 16) (x : Bool) (s : State) :
    (setProof i x s).inputs.proofs = tabSet s.inputs.proofs i x ∧ (setProof i x s).held = s.held ∧
    (setProof i x s).inputs.eyes = s.inputs.eyes ∧ (setProof i x s).inputs.entrance = s.inputs.entrance ∧
    (setProof i x s).inputs.loops = s.inputs.loops ∧ (setProof i x s).inputs.bumpers = s.inputs.bumpers ∧
    (setProof i x s).inputs.overtravels = s.inputs.overtravels ∧
    (setProof i x s).inputs.estopClosed = s.inputs.estopClosed ∧ (setProof i x s).out = s.out ∧
    (setProof i x s).ports = s.ports ∧ (setProof i x s).sales = s.sales ∧ (setProof i x s).ent = s.ent ∧
    (setProof i x s).trk = s.trk ∧ (setProof i x s).seq = s.seq ∧ (setProof i x s).pace = s.pace ∧
    (setProof i x s).mon = s.mon ∧ (setProof i x s).sup = s.sup ∧ (setProof i x s).store = s.store ∧
    (setProof i x s).free = s.free ∧ (setProof i x s).pending = s.pending :=
  ⟨rfl, rfl, rfl, rfl, rfl, rfl, rfl, rfl, rfl, rfl, rfl, rfl, rfl, rfl, rfl, rfl, rfl, rfl, rfl, rfl⟩

/-- What an eye input writes and leaves. -/
@[simp] theorem setEyeInput_fields (k : Eye) (x : Bool) (s : State) :
    (setEyeInput k x s).inputs.eyes = s.inputs.eyes.set k x ∧ (setEyeInput k x s).held = s.held ∧
    (setEyeInput k x s).inputs.entrance = s.inputs.entrance ∧
    (setEyeInput k x s).inputs.loops = s.inputs.loops ∧ (setEyeInput k x s).inputs.proofs = s.inputs.proofs ∧
    (setEyeInput k x s).inputs.bumpers = s.inputs.bumpers ∧
    (setEyeInput k x s).inputs.overtravels = s.inputs.overtravels ∧
    (setEyeInput k x s).inputs.estopClosed = s.inputs.estopClosed ∧ (setEyeInput k x s).out = s.out ∧
    (setEyeInput k x s).ports = s.ports ∧ (setEyeInput k x s).sales = s.sales ∧
    (setEyeInput k x s).ent = s.ent ∧ (setEyeInput k x s).trk = s.trk ∧ (setEyeInput k x s).seq = s.seq ∧
    (setEyeInput k x s).pace = s.pace ∧ (setEyeInput k x s).mon = s.mon ∧ (setEyeInput k x s).sup = s.sup ∧
    (setEyeInput k x s).store = s.store ∧ (setEyeInput k x s).free = s.free ∧
    (setEyeInput k x s).pending = s.pending :=
  ⟨rfl, rfl, rfl, rfl, rfl, rfl, rfl, rfl, rfl, rfl, rfl, rfl, rfl, rfl, rfl, rfl, rfl, rfl, rfl, rfl⟩

/-- What the entrance eye input writes and leaves. -/
@[simp] theorem setEntranceInput_fields (x : Bool) (s : State) :
    (setEntranceInput x s).inputs.entrance = x ∧ (setEntranceInput x s).held = s.held ∧
    (setEntranceInput x s).inputs.eyes = s.inputs.eyes ∧ (setEntranceInput x s).inputs.loops = s.inputs.loops ∧
    (setEntranceInput x s).inputs.proofs = s.inputs.proofs ∧
    (setEntranceInput x s).inputs.bumpers = s.inputs.bumpers ∧
    (setEntranceInput x s).inputs.overtravels = s.inputs.overtravels ∧
    (setEntranceInput x s).inputs.estopClosed = s.inputs.estopClosed ∧ (setEntranceInput x s).out = s.out ∧
    (setEntranceInput x s).ports = s.ports ∧ (setEntranceInput x s).sales = s.sales ∧
    (setEntranceInput x s).ent = s.ent ∧ (setEntranceInput x s).trk = s.trk ∧
    (setEntranceInput x s).seq = s.seq ∧ (setEntranceInput x s).pace = s.pace ∧
    (setEntranceInput x s).mon = s.mon ∧ (setEntranceInput x s).sup = s.sup ∧
    (setEntranceInput x s).store = s.store ∧ (setEntranceInput x s).free = s.free ∧
    (setEntranceInput x s).pending = s.pending :=
  ⟨rfl, rfl, rfl, rfl, rfl, rfl, rfl, rfl, rfl, rfl, rfl, rfl, rfl, rfl, rfl, rfl, rfl, rfl, rfl, rfl⟩

/-- What a loop input writes and leaves. -/
@[simp] theorem setLoop_fields (l : Lane) (x : Bool) (s : State) :
    (setLoop l x s).inputs.loops = s.inputs.loops.set l x ∧ (setLoop l x s).held = s.held ∧
    (setLoop l x s).inputs.eyes = s.inputs.eyes ∧ (setLoop l x s).inputs.entrance = s.inputs.entrance ∧
    (setLoop l x s).inputs.proofs = s.inputs.proofs ∧ (setLoop l x s).inputs.bumpers = s.inputs.bumpers ∧
    (setLoop l x s).inputs.overtravels = s.inputs.overtravels ∧
    (setLoop l x s).inputs.estopClosed = s.inputs.estopClosed ∧ (setLoop l x s).out = s.out ∧
    (setLoop l x s).ports = s.ports ∧ (setLoop l x s).sales = s.sales ∧ (setLoop l x s).ent = s.ent ∧
    (setLoop l x s).trk = s.trk ∧ (setLoop l x s).seq = s.seq ∧ (setLoop l x s).pace = s.pace ∧
    (setLoop l x s).mon = s.mon ∧ (setLoop l x s).sup = s.sup ∧ (setLoop l x s).store = s.store ∧
    (setLoop l x s).free = s.free ∧ (setLoop l x s).pending = s.pending :=
  ⟨rfl, rfl, rfl, rfl, rfl, rfl, rfl, rfl, rfl, rfl, rfl, rfl, rfl, rfl, rfl, rfl, rfl, rfl, rfl, rfl⟩

/-- What the E-stop loop writes and leaves. -/
@[simp] theorem setLoopClosed_fields (x : Bool) (s : State) :
    (setLoopClosed x s).inputs.estopClosed = x ∧ (setLoopClosed x s).held = s.held ∧
    (setLoopClosed x s).inputs.eyes = s.inputs.eyes ∧ (setLoopClosed x s).inputs.entrance = s.inputs.entrance ∧
    (setLoopClosed x s).inputs.loops = s.inputs.loops ∧ (setLoopClosed x s).inputs.proofs = s.inputs.proofs ∧
    (setLoopClosed x s).inputs.bumpers = s.inputs.bumpers ∧
    (setLoopClosed x s).inputs.overtravels = s.inputs.overtravels ∧ (setLoopClosed x s).out = s.out ∧
    (setLoopClosed x s).ports = s.ports ∧ (setLoopClosed x s).sales = s.sales ∧
    (setLoopClosed x s).ent = s.ent ∧ (setLoopClosed x s).trk = s.trk ∧ (setLoopClosed x s).seq = s.seq ∧
    (setLoopClosed x s).pace = s.pace ∧ (setLoopClosed x s).mon = s.mon ∧ (setLoopClosed x s).sup = s.sup ∧
    (setLoopClosed x s).store = s.store ∧ (setLoopClosed x s).free = s.free ∧
    (setLoopClosed x s).pending = s.pending :=
  ⟨rfl, rfl, rfl, rfl, rfl, rfl, rfl, rfl, rfl, rfl, rfl, rfl, rfl, rfl, rfl, rfl, rfl, rfl, rfl, rfl⟩

/-- What the entrance eye writes and leaves. -/
@[simp] theorem setEntranceEye_fields (d : Debounce) (s : State) :
    (setEntranceEye d s).ent.eye = d ∧ (setEntranceEye d s).held = s.held ∧
    (setEntranceEye d s).inputs = s.inputs ∧ (setEntranceEye d s).out = s.out ∧
    (setEntranceEye d s).ports = s.ports ∧ (setEntranceEye d s).sales = s.sales ∧
    (setEntranceEye d s).ent.enabled = s.ent.enabled ∧ (setEntranceEye d s).ent.grant = s.ent.grant ∧
    (setEntranceEye d s).ent.pointer = s.ent.pointer ∧ (setEntranceEye d s).ent.grantTimer = s.ent.grantTimer ∧
    (setEntranceEye d s).ent.measured = s.ent.measured ∧ (setEntranceEye d s).trk = s.trk ∧
    (setEntranceEye d s).seq = s.seq ∧ (setEntranceEye d s).pace = s.pace ∧ (setEntranceEye d s).mon = s.mon ∧
    (setEntranceEye d s).sup = s.sup ∧ (setEntranceEye d s).store = s.store ∧
    (setEntranceEye d s).free = s.free ∧ (setEntranceEye d s).pending = s.pending :=
  ⟨rfl, rfl, rfl, rfl, rfl, rfl, rfl, rfl, rfl, rfl, rfl, rfl, rfl, rfl, rfl, rfl, rfl, rfl, rfl⟩

/-- What the end of a gate window writes and leaves. -/
@[simp] theorem closeWindow_fields (s : State) :
    (closeWindow s).pace.gate = 0 ∧ (closeWindow s).pace.v = s.pace.gate ∧
    (closeWindow s).pace.acc = s.pace.acc - s.pace.acc / 4 + s.pace.gate ∧
    (closeWindow s).pace.vAvg = (s.pace.acc - s.pace.acc / 4 + s.pace.gate + 2) / 4 ∧
    (closeWindow s).held = s.held ∧ (closeWindow s).inputs = s.inputs ∧ (closeWindow s).out = s.out ∧
    (closeWindow s).ports = s.ports ∧ (closeWindow s).sales = s.sales ∧ (closeWindow s).ent = s.ent ∧
    (closeWindow s).trk = s.trk ∧ (closeWindow s).seq = s.seq ∧ (closeWindow s).pace.stall = s.pace.stall ∧
    (closeWindow s).pace.resolved = s.pace.resolved ∧ (closeWindow s).pace.forced = s.pace.forced ∧
    (closeWindow s).pace.brushes = s.pace.brushes ∧ (closeWindow s).mon = s.mon ∧ (closeWindow s).sup = s.sup ∧
    (closeWindow s).store = s.store ∧ (closeWindow s).free = s.free ∧ (closeWindow s).pending = s.pending :=
  ⟨rfl, rfl, rfl, rfl, rfl, rfl, rfl, rfl, rfl, rfl, rfl, rfl, rfl, rfl, rfl, rfl, rfl, rfl, rfl, rfl, rfl⟩

/-- What a second writes and leaves. -/
@[simp] theorem tickSeconds_fields (s : State) :
    (tickSeconds s).sup.seconds = satAdd Config.amountMax s.sup.seconds 1 ∧ (tickSeconds s).held = s.held ∧
    (tickSeconds s).inputs = s.inputs ∧ (tickSeconds s).out = s.out ∧ (tickSeconds s).ports = s.ports ∧
    (tickSeconds s).sales = s.sales ∧ (tickSeconds s).ent = s.ent ∧ (tickSeconds s).trk = s.trk ∧
    (tickSeconds s).seq = s.seq ∧ (tickSeconds s).pace = s.pace ∧ (tickSeconds s).mon = s.mon ∧
    (tickSeconds s).sup.tunnel = s.sup.tunnel ∧ (tickSeconds s).sup.manual = s.sup.manual ∧
    (tickSeconds s).sup.startTimer = s.sup.startTimer ∧ (tickSeconds s).sup.incidents = s.sup.incidents ∧
    (tickSeconds s).sup.incidentCounter = s.sup.incidentCounter ∧
    (tickSeconds s).sup.response = s.sup.response ∧ (tickSeconds s).sup.holder = s.sup.holder ∧
    (tickSeconds s).sup.consts = s.sup.consts ∧ (tickSeconds s).store = s.store ∧
    (tickSeconds s).free = s.free ∧ (tickSeconds s).pending = s.pending :=
  ⟨rfl, rfl, rfl, rfl, rfl, rfl, rfl, rfl, rfl, rfl, rfl, rfl, rfl, rfl, rfl, rfl, rfl, rfl, rfl, rfl, rfl, rfl⟩

/-- What a free reference writes and leaves. -/
@[simp] theorem takeReference_fields (l : Lane) (s : State) :
    (takeReference l s).free = (if s.sales.lastSale.get l = none then s.free + 1 else s.free) ∧
    (takeReference l s).held = s.held ∧ (takeReference l s).inputs = s.inputs ∧
    (takeReference l s).out = s.out ∧ (takeReference l s).ports = s.ports ∧
    (takeReference l s).sales = s.sales ∧ (takeReference l s).ent = s.ent ∧ (takeReference l s).trk = s.trk ∧
    (takeReference l s).seq = s.seq ∧ (takeReference l s).pace = s.pace ∧ (takeReference l s).mon = s.mon ∧
    (takeReference l s).sup = s.sup ∧ (takeReference l s).store = s.store ∧
    (takeReference l s).pending = s.pending :=
  ⟨rfl, rfl, rfl, rfl, rfl, rfl, rfl, rfl, rfl, rfl, rfl, rfl, rfl, rfl⟩

/-- What a write without a verified image writes and leaves. -/
@[simp] theorem spoilImage_fields (s : State) :
    (spoilImage s).store.image = Config.spoiledImage s.free ∧ (spoilImage s).store.marker = false ∧
    (spoilImage s).store.writing = none ∧ (spoilImage s).free = s.free + 1 ∧ (spoilImage s).held = s.held ∧
    (spoilImage s).inputs = s.inputs ∧ (spoilImage s).out = s.out ∧ (spoilImage s).ports = s.ports ∧
    (spoilImage s).sales = s.sales ∧ (spoilImage s).ent = s.ent ∧ (spoilImage s).trk = s.trk ∧
    (spoilImage s).seq = s.seq ∧ (spoilImage s).pace = s.pace ∧ (spoilImage s).mon = s.mon ∧
    (spoilImage s).sup = s.sup ∧ (spoilImage s).store.lastOutcome = s.store.lastOutcome ∧
    (spoilImage s).store.cause = s.store.cause ∧ (spoilImage s).store.defaulted = s.store.defaulted ∧
    (spoilImage s).pending = s.pending :=
  ⟨rfl, rfl, rfl, rfl, rfl, rfl, rfl, rfl, rfl, rfl, rfl, rfl, rfl, rfl, rfl, rfl, rfl, rfl, rfl⟩

/-- What the start of a write writes and leaves. -/
@[simp] theorem startWrite_fields (s : State) :
    (startWrite s).store.marker = false ∧ (startWrite s).store.writing = some (imageOf s) ∧
    (startWrite s).held = s.held ∧ (startWrite s).inputs = s.inputs ∧ (startWrite s).out = s.out ∧
    (startWrite s).ports = s.ports ∧ (startWrite s).sales = s.sales ∧ (startWrite s).ent = s.ent ∧
    (startWrite s).trk = s.trk ∧ (startWrite s).seq = s.seq ∧ (startWrite s).pace = s.pace ∧
    (startWrite s).mon = s.mon ∧ (startWrite s).sup = s.sup ∧ (startWrite s).store.image = s.store.image ∧
    (startWrite s).store.lastOutcome = s.store.lastOutcome ∧ (startWrite s).store.cause = s.store.cause ∧
    (startWrite s).store.defaulted = s.store.defaulted ∧ (startWrite s).free = s.free ∧
    (startWrite s).pending = s.pending :=
  ⟨rfl, rfl, rfl, rfl, rfl, rfl, rfl, rfl, rfl, rfl, rfl, rfl, rfl, rfl, rfl, rfl, rfl, rfl, rfl⟩

end Sys2Proof.Machine
end

