-- ==== Sys2Proof/Laws/Ops.lean ====
section
/-! SUPPORT. What each shared operation can change, said once: the operations of the Station Sequencer write the stations,
the slots and the entries alone; the arbiter writes the grant and the notices alone; a change of tunnel state and a raise
write what `ChangeFrame` and `RaiseFrame` list. -/

namespace Sys2Proof.Machine

/-! ### A list of changes -/

/-- A relation that one step of a fold keeps holds after the fold. -/
theorem foldl_keeps {α : Type} (R : State → State → Prop) (hr : ∀ s, R s s) (ht : ∀ a b c, R a b → R b c → R a c)
    (f : State → α → State) (hf : ∀ s x, R s (f s x)) (l : List α) : ∀ s, R s (l.foldl f s) := by
  induction l with
  | nil => exact hr
  | cons x xs ih => intro s; exact ht _ _ _ (hf s x) (ih (f s x))

/-! ### Ports alone -/

/-- The states differ in the ports alone. -/
def PortsOnly (s t : State) : Prop := t = { s with ports := t.ports }

theorem PortsOnly.refl (s : State) : PortsOnly s s := rfl

theorem PortsOnly.trans (a b c : State) (h : PortsOnly a b) (k : PortsOnly b c) : PortsOnly a c := by
  unfold PortsOnly at *; rw [k, h]

theorem updatePort_portsOnly (p : Port) (f : PortUnit → PortUnit) (s : State) : PortsOnly s (updatePort p f s) := rfl

theorem notify_portsOnly (p : Port) (n : Notice) (s : State) : PortsOnly s (notify p n s) := rfl

theorem notifyBoth_portsOnly (n : Notice) (s : State) : PortsOnly s (notifyBoth n s) := rfl

theorem sendAnswer_portsOnly (p : Port) (k : Nat) (a : Answer) (s : State) : PortsOnly s (sendAnswer p k a s) := rfl

theorem frameDone_portsOnly (p : Port) (s : State) : PortsOnly s (frameDone p s) := rfl

theorem tellRemoved_portsOnly (gone : List Incident) (s : State) : PortsOnly s (tellRemoved gone s) := by
  unfold tellRemoved
  exact foldl_keeps PortsOnly PortsOnly.refl PortsOnly.trans _ (fun s _ => notifyBoth_portsOnly _ s) gone s

/-- A request writes what its owner writes, and the ports. -/
theorem respond_cases (p : Port) (k : ReqKind) (form : Bool) (owner : State → State × Answer) (s : State) :
    PortsOnly s (respond p k form owner s) ∨
      (s.held = false ∧ roomForAnswer (s.ports.get p) = true ∧ permitted k p = true ∧ form = true ∧
        respond p k form owner s =
          sendAnswer p (kindByte k) (owner (frameDone p s)).2 (owner (frameDone p s)).1) := by
  unfold respond
  cases hh : s.held <;> simp only [Bool.false_eq_true, if_false, if_true]
  · cases hr : roomForAnswer (s.ports.get p) <;> simp only [Bool.false_eq_true, if_false, if_true]
    · exact .inl rfl
    · cases hp : permitted k p <;> simp only [Bool.false_eq_true, if_false, if_true]
      · exact .inl rfl
      · cases form <;> simp only [Bool.false_eq_true, if_false, if_true]
        · exact .inl rfl
        · exact .inr ⟨trivial, trivial, trivial, trivial, trivial⟩
  · exact .inl rfl

/-! ### The Station Sequencer -/

/-- A car record without its schedule. -/
def Car.bare (car : Car) : Car := { car with schedule := [] }

/-- The states differ in the stations, the slots and the schedules alone. -/
def SeqOnly (s t : State) : Prop :=
  t = { s with seq.units := t.seq.units, mon := t.mon, trk.queue := t.trk.queue } ∧
    t.trk.queue.map Car.bare = s.trk.queue.map Car.bare

theorem SeqOnly.refl (s : State) : SeqOnly s s := ⟨rfl, rfl⟩

theorem SeqOnly.trans (a b c : State) (h : SeqOnly a b) (k : SeqOnly b c) : SeqOnly a c := by
  obtain ⟨h1, h2⟩ := h
  obtain ⟨k1, k2⟩ := k
  refine ⟨?_, k2.trans h2⟩
  rw [k1, h1]

/-- A fold of operations that write the stations, the slots and the schedules alone. -/
theorem foldl_seqOnly {α : Type} (f : State → α → State) (hf : ∀ s x, SeqOnly s (f s x)) (l : List α) (s : State) :
    SeqOnly s (l.foldl f s) :=
  foldl_keeps SeqOnly SeqOnly.refl SeqOnly.trans f hf l s

theorem updateUnit_seqOnly (i : Fin 16) (f : StationUnit → StationUnit) (s : State) : SeqOnly s (updateUnit i f s) :=
  ⟨rfl, rfl⟩

theorem updateSlot_seqOnly (k : Fin 6) (f : Slot → Slot) (s : State) : SeqOnly s (updateSlot k f s) := ⟨rfl, rfl⟩

/-- A change of entries alone. -/
theorem mapQueue_seqOnly (f : Car → Car) (hf : ∀ car, (f car).bare = car.bare) (s : State) :
    SeqOnly s (mapQueue f s) := by
  refine ⟨rfl, ?_⟩
  simp [mapQueue, List.map_map, Function.comp_def, hf]

theorem mapEntries_bare (f : Entry → Entry) (car : Car) : (mapEntries f car).bare = car.bare := rfl

theorem mapEntries_seqOnly (f : Entry → Entry) (s : State) : SeqOnly s (mapQueue (mapEntries f) s) :=
  mapQueue_seqOnly _ (mapEntries_bare f) s

theorem tellMonitor_seqOnly (i : Fin 16) (old new : StationState) (s : State) : SeqOnly s (tellMonitor i old new s) := by
  unfold tellMonitor
  split
  · exact SeqOnly.refl s
  · exact updateSlot_seqOnly _ _ s

theorem moveStation_seqOnly (i : Fin 16) (new : StationState) (s : State) : SeqOnly s (moveStation i new s) := by
  unfold moveStation
  exact (updateUnit_seqOnly i _ s).trans _ _ _ (tellMonitor_seqOnly i _ _ _)

theorem markEntries_seqOnly (i : Fin 16) (m : MissMark) (heldToo : Bool) (s : State) :
    SeqOnly s (markEntries i m heldToo s) := by
  unfold markEntries
  exact mapEntries_seqOnly _ s

theorem activate_seqOnly (i : Fin 16) (s : State) : SeqOnly s (activate i s) := by
  have h : ∀ s : State, ∀ r : StationRec, SeqOnly s (mapQueue (fun car =>
      if overlaps r car then
        mapEntries (fun e => if e.station = i ∧ e.state = .pending then { e with state := .active } else e) car
      else car) s) := fun s r => mapQueue_seqOnly _ (fun car => by split <;> rfl) s
  unfold activate
  simp only
  split
  · split
    · exact (h s _).trans _ _ _ (moveStation_seqOnly _ _ _)
    · exact h s _
  · exact SeqOnly.refl s

theorem becomeReady_seqOnly (i : Fin 16) (s : State) : SeqOnly s (becomeReady i s) := by
  unfold becomeReady
  exact ((updateUnit_seqOnly i _ s).trans _ _ _ (moveStation_seqOnly i _ _)).trans _ _ _ (activate_seqOnly i _)

theorem beginAttempt_seqOnly (i : Fin 16) (s : State) : SeqOnly s (beginAttempt i s) := by
  unfold beginAttempt
  simp only
  split
  · exact becomeReady_seqOnly i s
  · exact updateUnit_seqOnly i _ s

theorem armStation_seqOnly (i : Fin 16) (s : State) : SeqOnly s (armStation i s) := by
  unfold armStation
  exact ((updateUnit_seqOnly i _ s).trans _ _ _ (moveStation_seqOnly i _ _)).trans _ _ _ (beginAttempt_seqOnly i _)

theorem testArm_seqOnly (i : Fin 16) (s : State) : SeqOnly s (testArm i s) := by
  unfold testArm
  split
  · exact armStation_seqOnly i s
  · exact SeqOnly.refl s

theorem testArmAll_seqOnly (s : State) : SeqOnly s (testArmAll s) := by
  unfold testArmAll
  exact foldl_seqOnly _ (fun s i => testArm_seqOnly i s) _ s

theorem testUnwanted_seqOnly (i : Fin 16) (s : State) : SeqOnly s (testUnwanted i s) := by
  unfold testUnwanted
  simp only
  split
  · exact moveStation_seqOnly i _ s
  · exact SeqOnly.refl s

theorem endFiring_seqOnly (i : Fin 16) (s : State) : SeqOnly s (endFiring i s) := by
  unfold endFiring
  split
  · exact moveStation_seqOnly i _ s
  · exact SeqOnly.refl s

theorem afterEnded_seqOnly (ended : List (Fin 16)) (s : State) : SeqOnly s (afterEnded ended s) := by
  unfold afterEnded
  refine foldl_seqOnly _ (fun s i => ?_) _ s
  split
  · exact (endFiring_seqOnly i s).trans _ _ _ (testUnwanted_seqOnly i _)
  · exact SeqOnly.refl s

theorem closeWindows_seqOnly (late : Bool) (sel : Car → Bool) (s : State) : SeqOnly s (closeWindows late sel s) := by
  unfold closeWindows
  exact (mapQueue_seqOnly _ (fun car => by split <;> rfl) s).trans _ _ _ (afterEnded_seqOnly _ _)

theorem activateAll_seqOnly (s : State) : SeqOnly s (activateAll s) := by
  unfold activateAll
  exact foldl_seqOnly _ (fun s i => activate_seqOnly i s) _ s

theorem judgePulse_seqOnly (s : State) : SeqOnly s (judgePulse s) := by
  unfold judgePulse
  exact ((closeWindows_seqOnly _ _ s).trans _ _ _ (activateAll_seqOnly _)).trans _ _ _ (testArmAll_seqOnly _)

theorem judgeLength_seqOnly (tag : Nat) (s : State) : SeqOnly s (judgeLength tag s) := by
  unfold judgeLength
  exact ((closeWindows_seqOnly _ _ s).trans _ _ _ (activateAll_seqOnly _)).trans _ _ _ (testArmAll_seqOnly _)

theorem judgeCorrection_seqOnly (tag : Nat) (forward : Bool) (s : State) :
    SeqOnly s (judgeCorrection tag forward s) := by
  unfold judgeCorrection
  split
  · exact ((closeWindows_seqOnly _ _ s).trans _ _ _ (activateAll_seqOnly _)).trans _ _ _ (testArmAll_seqOnly _)
  · exact activateAll_seqOnly s

theorem holdStation_seqOnly (s : State) (i : Fin 16) : SeqOnly s (holdStation s i) := by
  unfold holdStation
  split
  · exact (updateUnit_seqOnly i _ s).trans _ _ _ (moveStation_seqOnly i _ _)
  · exact (updateUnit_seqOnly i _ s).trans _ _ _ (moveStation_seqOnly i _ _)
  · exact moveStation_seqOnly i _ s
  · exact moveStation_seqOnly i _ s
  all_goals exact SeqOnly.refl s

theorem holdAll_seqOnly (s : State) : SeqOnly s (holdAll s) := by
  unfold holdAll
  exact (foldl_seqOnly holdStation holdStation_seqOnly _ s).trans _ _ _ (mapEntries_seqOnly _ _)

theorem dropStation_seqOnly (s : State) (i : Fin 16) : SeqOnly s (dropStation s i) := by
  unfold dropStation
  split <;> first | exact moveStation_seqOnly i _ s | exact SeqOnly.refl s

theorem dropAll_seqOnly (s : State) : SeqOnly s (dropAll s) := by
  unfold dropAll
  exact (foldl_seqOnly dropStation dropStation_seqOnly _ s).trans _ _ _ (mapEntries_seqOnly _ _)

theorem stopAll_seqOnly (s : State) : SeqOnly s (stopAll s) := by
  unfold stopAll
  refine foldl_seqOnly _ (fun s i => ?_) _ s
  split
  · exact moveStation_seqOnly i _ s
  · exact SeqOnly.refl s

theorem resumeStation_seqOnly (s : State) (i : Fin 16) : SeqOnly s (resumeStation s i) := by
  unfold resumeStation
  simp only
  split
  · split
    · exact (moveStation_seqOnly i _ s).trans _ _ _ (updateUnit_seqOnly i _ _)
    · exact moveStation_seqOnly i _ s
  · exact SeqOnly.refl s

theorem activateReady_seqOnly (s : State) : SeqOnly s (activateReady s) := by
  unfold activateReady
  refine foldl_seqOnly _ (fun s i => ?_) _ s
  split
  · exact activate_seqOnly i s
  · exact SeqOnly.refl s

theorem resumeAll_seqOnly (s : State) : SeqOnly s (resumeAll s) := by
  unfold resumeAll
  simp only
  refine SeqOnly.trans _ _ _ ?_ (activateReady_seqOnly _)
  refine SeqOnly.trans _ _ _ ?_ (testArmAll_seqOnly _)
  refine SeqOnly.trans _ _ _ ?_ (foldl_seqOnly _ (fun s i => ?_) _ _)
  · refine SeqOnly.trans _ _ _ ?_ (mapQueue_seqOnly _ (fun car => mapEntries_bare _ car) _)
    exact (mapEntries_seqOnly _ s).trans _ _ _ (foldl_seqOnly resumeStation resumeStation_seqOnly _ _)
  · split
    · exact testUnwanted_seqOnly i s
    · exact SeqOnly.refl s

theorem sequencerAt_seqOnly (old new : Tunnel) (s : State) : SeqOnly s (sequencerAt old new s) := by
  unfold sequencerAt
  split
  · exact holdAll_seqOnly s
  · exact dropAll_seqOnly s
  · exact stopAll_seqOnly s
  · split
    · exact SeqOnly.refl s
    · exact resumeAll_seqOnly s
  · split
    · exact SeqOnly.refl s
    · exact resumeAll_seqOnly s
  · exact SeqOnly.refl s

/-! ### The arbiter -/

/-- The states differ in the grant, the pointer, the grant timer and the ports alone. -/
def GrantOnly (s t : State) : Prop :=
  t = { s with ports := t.ports, ent.grant := t.ent.grant, ent.pointer := t.ent.pointer,
               ent.grantTimer := t.ent.grantTimer }

theorem GrantOnly.refl (s : State) : GrantOnly s s := rfl

theorem GrantOnly.trans (a b c : State) (h : GrantOnly a b) (k : GrantOnly b c) : GrantOnly a c := by
  unfold GrantOnly at *; rw [k, h]

theorem arbitrate_grantOnly (s : State) : GrantOnly s (arbitrate s) := by
  unfold arbitrate
  split
  · split
    · rfl
    · rfl
  · rfl

/-- What the arbiter does: nothing, or the grant of the first eligible lane's head ticket (R29, R30). -/
theorem arbitrate_cases (s : State) :
    arbitrate s = s ∨
      ∃ l t, admissionOpen s = true ∧ nextGrant s = some (l, t) ∧ arbitrate s = issueGrant l t s := by
  unfold arbitrate
  split
  · next h =>
    split
    · next l t hn => exact .inr ⟨l, t, h, hn, rfl⟩
    · exact .inl rfl
  · exact .inl rfl

theorem withdrawGrant_grantOnly (r : WithdrawReason) (s : State) : GrantOnly s (withdrawGrant r s) := by
  unfold withdrawGrant
  split
  · rfl
  · exact GrantOnly.trans s _ _ (show GrantOnly s (notify _ _ (clearGrant s)) from rfl) (arbitrate_grantOnly _)

theorem withdrawLane_grantOnly (l : Lane) (r : WithdrawReason) (s : State) : GrantOnly s (withdrawLane l r s) := by
  unfold withdrawLane
  split
  · exact withdrawGrant_grantOnly r s
  · rfl

theorem entranceAt_grantOnly (new : Tunnel) (s : State) : GrantOnly s (entranceAt new s) := by
  unfold entranceAt
  split
  · exact arbitrate_grantOnly s
  · exact withdrawGrant_grantOnly _ s

/-! ### Changes of tunnel state -/

/-- What a change of tunnel state may write: the tunnel state, the start timer, the exit-block timer, the stall count, the
grant, the stations, the slots, the schedules and the ports. -/
def ChangeFrame (s t : State) : Prop :=
  t = { s with
    ports := t.ports
    sup.tunnel := t.sup.tunnel
    sup.startTimer := t.sup.startTimer
    trk.exitTimer := t.trk.exitTimer
    trk.queue := t.trk.queue
    pace.stall := t.pace.stall
    seq.units := t.seq.units
    mon := t.mon
    ent.grant := t.ent.grant
    ent.pointer := t.ent.pointer
    ent.grantTimer := t.ent.grantTimer } ∧
  t.trk.queue.map Car.bare = s.trk.queue.map Car.bare

theorem ChangeFrame.refl (s : State) : ChangeFrame s s := ⟨rfl, rfl⟩

theorem ChangeFrame.trans (a b c : State) (h : ChangeFrame a b) (k : ChangeFrame b c) : ChangeFrame a c := by
  obtain ⟨h1, h2⟩ := h
  obtain ⟨k1, k2⟩ := k
  refine ⟨?_, k2.trans h2⟩
  rw [k1, h1]

theorem ChangeFrame.ofPorts (s t : State) (h : PortsOnly s t) : ChangeFrame s t := by
  unfold PortsOnly at h; rw [h]; exact ⟨rfl, rfl⟩

theorem ChangeFrame.ofSeq (s t : State) (h : SeqOnly s t) : ChangeFrame s t := by
  refine ⟨?_, h.2⟩
  rw [h.1]

theorem ChangeFrame.ofGrant (s t : State) (h : GrantOnly s t) : ChangeFrame s t := by
  unfold GrantOnly at h; rw [h]; exact ⟨rfl, rfl⟩

theorem changeTunnel_frame (new : Tunnel) (cause : Cause) (s : State) : ChangeFrame s (changeTunnel new cause s) := by
  unfold changeTunnel
  simp only
  refine ChangeFrame.trans _ _ _ ?_ (.ofGrant _ _ (entranceAt_grantOnly _ _))
  refine ChangeFrame.trans _ _ _ ?_ (.ofSeq _ _ (sequencerAt_seqOnly _ _ _))
  refine ChangeFrame.trans _ _ _ ?_ (.ofPorts _ _ (notifyBoth_portsOnly _ _))
  exact ⟨rfl, rfl⟩

/-- The tunnel state after a change (R141). -/
@[simp] theorem changeTunnel_tunnel (new : Tunnel) (cause : Cause) (s : State) :
    (changeTunnel new cause s).sup.tunnel = new := by
  unfold changeTunnel
  simp only
  have h1 := entranceAt_grantOnly new (sequencerAt s.sup.tunnel new
    (notifyBoth (.tunnelState new s.sup.tunnel s.sup.manual (pauseListed s) cause)
      { s with
        sup.tunnel := new, sup.startTimer := startTimerAt new s, trk.exitTimer := exitTimerAt s.sup.tunnel new s,
        pace.stall := stallAt s.sup.tunnel new s }))
  have h2 := (sequencerAt_seqOnly s.sup.tunnel new
    (notifyBoth (.tunnelState new s.sup.tunnel s.sup.manual (pauseListed s) cause)
      { s with
        sup.tunnel := new, sup.startTimer := startTimerAt new s, trk.exitTimer := exitTimerAt s.sup.tunnel new s,
        pace.stall := stallAt s.sup.tunnel new s })).1
  have e1 := congrArg (fun t => t.sup.tunnel) h1
  have e2 := congrArg (fun t => t.sup.tunnel) h2
  exact e1.trans e2

theorem pauseTunnel_frame (cause : Cause) (s : State) : ChangeFrame s (pauseTunnel cause s) := by
  unfold pauseTunnel
  split <;> first | exact changeTunnel_frame _ _ s | exact ChangeFrame.refl s

/-- PAUSED from the three states that move, the others kept (R147, R148). -/
theorem pauseTunnel_tunnel (cause : Cause) (s : State) :
    (pauseTunnel cause s).sup.tunnel = (match s.sup.tunnel with
      | .running => .paused .running
      | .draining => .paused .draining
      | .starting t => .paused t
      | .stopped => .stopped
      | .paused t => .paused t
      | .halted m => .halted m) := by
  unfold pauseTunnel
  split <;> simp_all

/-! ### Raises -/

/-- What a raise may write: what a change of tunnel state may, the incident list and its counter, the MANUAL flag, the
tally set and the counter of free values. -/
def RaiseFrame (s t : State) : Prop :=
  t = { s with
    ports := t.ports
    sup.tunnel := t.sup.tunnel
    sup.startTimer := t.sup.startTimer
    sup.manual := t.sup.manual
    sup.incidents := t.sup.incidents
    sup.incidentCounter := t.sup.incidentCounter
    sales.tally := t.sales.tally
    trk.exitTimer := t.trk.exitTimer
    trk.queue := t.trk.queue
    pace.stall := t.pace.stall
    seq.units := t.seq.units
    mon := t.mon
    ent.grant := t.ent.grant
    ent.pointer := t.ent.pointer
    ent.grantTimer := t.ent.grantTimer
    free := t.free } ∧
  t.trk.queue.map Car.bare = s.trk.queue.map Car.bare

theorem RaiseFrame.refl (s : State) : RaiseFrame s s := ⟨rfl, rfl⟩

theorem RaiseFrame.trans (a b c : State) (h : RaiseFrame a b) (k : RaiseFrame b c) : RaiseFrame a c := by
  obtain ⟨h1, h2⟩ := h
  obtain ⟨k1, k2⟩ := k
  refine ⟨?_, k2.trans h2⟩
  rw [k1, h1]

theorem RaiseFrame.ofChange (s t : State) (h : ChangeFrame s t) : RaiseFrame s t := by
  refine ⟨?_, h.2⟩
  rw [h.1]

theorem haltTunnel_frame (cause : Cause) (s : State) : RaiseFrame s (haltTunnel cause s) := by
  unfold haltTunnel
  split
  · exact RaiseFrame.refl s
  all_goals
    refine RaiseFrame.trans _ _ _ ?_ (.ofChange _ _ (changeTunnel_frame _ _ _))
    exact ⟨rfl, rfl⟩

/-- A HALT-class raise leaves the tunnel HALTED (R150). -/
theorem haltTunnel_halted (cause : Cause) (s : State) : (haltTunnel cause s).sup.tunnel.isHalted = true := by
  unfold haltTunnel
  split
  · next h => rw [h]; rfl
  all_goals rw [changeTunnel_tunnel]; rfl

theorem classEffect_frame (c : IncidentClass) (number : Nat) (s : State) : RaiseFrame s (classEffect c number s) := by
  cases c
  · exact RaiseFrame.refl s
  · exact .ofChange _ _ (pauseTunnel_frame _ s)
  · exact haltTunnel_frame _ s

theorem listNew_frame (q : Raise) (c : IncidentClass) (s : State) : RaiseFrame s (listNew q c s) := by
  unfold listNew
  simp only
  refine RaiseFrame.trans _ _ _ ?_ (classEffect_frame _ _ _)
  exact ⟨rfl, rfl⟩

theorem mergeInto_frame (q : Raise) (c : IncidentClass) (r : Incident) (s : State) :
    RaiseFrame s (mergeInto q c r s) := by
  unfold mergeInto
  refine RaiseFrame.trans _ _ _ ?_ (classEffect_frame _ _ _)
  exact ⟨rfl, rfl⟩

theorem mergeNewest_frame (k c : IncidentClass) (q : Raise) (s : State) : RaiseFrame s (mergeNewest k c q s) := by
  unfold mergeNewest
  split
  · exact RaiseFrame.refl s
  · refine RaiseFrame.trans _ _ _ ?_ (classEffect_frame _ _ _)
    exact ⟨rfl, rfl⟩

theorem displace_frame (k c : IncidentClass) (q : Raise) (s : State) : RaiseFrame s (displace k c q s) := by
  unfold displace
  split
  · exact RaiseFrame.refl s
  · refine RaiseFrame.trans _ _ _ ?_ (listNew_frame _ _ _)
    exact ⟨rfl, rfl⟩

theorem raiseOverflow_frame (q : Raise) (c : IncidentClass) (s : State) : RaiseFrame s (raiseOverflow q c s) := by
  unfold raiseOverflow
  cases c <;> simp only
  · exact ⟨rfl, rfl⟩
  · split
    · exact displace_frame _ _ _ s
    · split <;> exact mergeNewest_frame _ _ _ s
  · split
    · exact displace_frame _ _ _ s
    · split
      · exact mergeNewest_frame _ _ _ s
      · exact displace_frame _ _ _ s

theorem raiseIncident_frame (q : Raise) (s : State) : RaiseFrame s (raiseIncident q s) := by
  unfold raiseIncident
  simp only
  split
  · exact mergeInto_frame _ _ _ s
  · split
    · exact listNew_frame _ _ s
    · exact raiseOverflow_frame _ _ s

theorem raiseEach_frame (l : List Raise) (s : State) : RaiseFrame s (raiseEach l s) := by
  unfold raiseEach
  exact foldl_keeps RaiseFrame RaiseFrame.refl RaiseFrame.trans _ (fun s q => raiseIncident_frame q s) l s

theorem afterRemoval_frame (gone : List Incident) (s : State) : ChangeFrame s (afterRemoval gone s) := by
  unfold afterRemoval
  split
  · split
    · exact ChangeFrame.refl s
    · exact changeTunnel_frame _ _ s
  · exact ChangeFrame.refl s

theorem removeIncidents_frame (p : Incident → Bool) (s : State) : RaiseFrame s (removeIncidents p s) := by
  unfold removeIncidents
  simp only
  refine RaiseFrame.trans _ _ _ ?_ (.ofChange _ _ (afterRemoval_frame _ _))
  refine RaiseFrame.trans _ _ _ ?_ (.ofChange _ _ (.ofPorts _ _ (tellRemoved_portsOnly _ _)))
  exact ⟨rfl, rfl⟩

/-! ### Numbers -/

/-- The value after a counter lies in its range. -/
theorem nextCount_range (top n : Nat) (h : 1 ≤ top) : 1 ≤ nextCount top n ∧ nextCount top n ≤ top := by
  unfold nextCount; split <;> omega

/-- A search for a free number stays in the range of the counter. -/
theorem firstFree_range (top : Nat) (used : List Nat) (h : 1 ≤ top) :
    ∀ tries n, 1 ≤ n → n ≤ top → 1 ≤ firstFree top used tries n ∧ firstFree top used tries n ≤ top := by
  intro tries
  induction tries with
  | zero => intro n h1 h2; exact ⟨h1, h2⟩
  | succ k ih =>
    intro n h1 h2
    unfold firstFree
    split
    · exact ih _ (nextCount_range top n h).1 (nextCount_range top n h).2
    · exact ⟨h1, h2⟩

theorem satAdd_le (top x n : Nat) : satAdd top x n ≤ top := Nat.min_le_left _ _

theorem clampTo_range (x lo hi : Nat) (h : lo ≤ hi) : lo ≤ clampTo x lo hi ∧ clampTo x lo hi ≤ hi := by
  unfold clampTo; split <;> [omega; split <;> omega]

/-! ### The end of an event -/

/-- The lines follow from what an event leaves, and a second computation of them changes nothing. -/
@[simp] theorem driveLines_idem (s : State) : driveLines (driveLines s) = driveLines s := rfl

/-- An event of a running part. -/
theorem event_running (f : State → State) (s : State) (h : s.held = false) : event f s = driveLines (f s) := by
  simp [event, h]

/-- A part held in reset takes no event. -/
theorem event_held (f : State → State) (s : State) (h : s.held = true) : event f s = s := by simp [event, h]

/-- The lines do not depend on the ports. -/
theorem driveLines_ports (s : State) (x : PerPort PortUnit) :
    driveLines { s with ports := x } = { driveLines s with ports := x } := rfl

end Sys2Proof.Machine
end

