-- ==== Sys2Proof/Laws/Events.lean ====
section
/-! SUPPORT. What no event of the tunnel writes: `Kept` lists the records that only requests, input lines, the seconds tick
and a reset change, and each shared operation of the Tracking Unit, the Entrance Unit, the Station Sequencer, the Current
Monitor and the Pacing Unit keeps them. -/

namespace Sys2Proof.Machine

/-- The records that only requests, input lines, the seconds tick and a reset change. -/
structure Kept (s t : State) : Prop where
  held : t.held = s.held
  inputs : t.inputs = s.inputs
  plans : t.sales.plans = s.sales.plans
  planStore : t.sales.store = s.sales.store
  services : t.sales.services = s.sales.services
  saleCounter : t.sales.saleCounter = s.sales.saleCounter
  lastSale : t.sales.lastSale = s.sales.lastSale
  consoleCopy : t.sales.consoleCopy = s.sales.consoleCopy
  officeCopy : t.sales.officeCopy = s.sales.officeCopy
  enabled : t.ent.enabled = s.ent.enabled
  table : t.seq.table = s.seq.table
  forced : t.pace.forced = s.pace.forced
  response : t.sup.response = s.sup.response
  seconds : t.sup.seconds = s.sup.seconds
  holder : t.sup.holder = s.sup.holder
  consts : t.sup.consts = s.sup.consts
  settings : t.store = s.store
  pending : t.pending = s.pending

theorem Kept.refl (s : State) : Kept s s := by constructor <;> rfl

theorem Kept.trans (a b c : State) (h : Kept a b) (k : Kept b c) : Kept a c := by
  constructor
  · rw [k.held, h.held]
  · rw [k.inputs, h.inputs]
  · rw [k.plans, h.plans]
  · rw [k.planStore, h.planStore]
  · rw [k.services, h.services]
  · rw [k.saleCounter, h.saleCounter]
  · rw [k.lastSale, h.lastSale]
  · rw [k.consoleCopy, h.consoleCopy]
  · rw [k.officeCopy, h.officeCopy]
  · rw [k.enabled, h.enabled]
  · rw [k.table, h.table]
  · rw [k.forced, h.forced]
  · rw [k.response, h.response]
  · rw [k.seconds, h.seconds]
  · rw [k.holder, h.holder]
  · rw [k.consts, h.consts]
  · rw [k.settings, h.settings]
  · rw [k.pending, h.pending]

theorem Kept.ofRaise (s t : State) (h : RaiseFrame s t) : Kept s t := by
  rw [h.1]; constructor <;> rfl

theorem Kept.ofChange (s t : State) (h : ChangeFrame s t) : Kept s t := .ofRaise s t (.ofChange s t h)

theorem Kept.ofSeq (s t : State) (h : SeqOnly s t) : Kept s t := .ofChange s t (.ofSeq s t h)

theorem Kept.ofGrant (s t : State) (h : GrantOnly s t) : Kept s t := .ofChange s t (.ofGrant s t h)

theorem Kept.ofPorts (s t : State) (h : PortsOnly s t) : Kept s t := .ofChange s t (.ofPorts s t h)

/-- A fold of operations that keep the records. -/
theorem foldl_kept {α : Type} (f : State → α → State) (hf : ∀ s x, Kept s (f s x)) (l : List α) (s : State) :
    Kept s (l.foldl f s) :=
  foldl_keeps Kept Kept.refl Kept.trans f hf l s

theorem raiseIncident_kept (q : Raise) (s : State) : Kept s (raiseIncident q s) :=
  .ofRaise _ _ (raiseIncident_frame q s)

theorem driveLines_kept (s : State) : Kept s (driveLines s) := by constructor <;> rfl

theorem updateTally_kept (f : Tally → Tally) (s : State) : Kept s (updateTally f s) := by constructor <;> rfl

theorem issueCredit_kept (value : Nat) (origin plan : Option Nat) (s : State) :
    Kept s (issueCredit value origin plan s).1 := by constructor <;> rfl

theorem mapQueue_kept (f : Car → Car) (s : State) : Kept s (mapQueue f s) := by constructor <;> rfl

theorem updateCar_kept (tag : Nat) (f : Car → Car) (s : State) : Kept s (updateCar tag f s) := by constructor <;> rfl

theorem markPassed_kept (k : Eye) (tag : Nat) (s : State) : Kept s (markPassed k tag s) := by constructor <;> rfl

theorem setEye_kept (k : Eye) (d : Option Debounce) (s : State) : Kept s (setEye k d s) := by constructor <;> rfl

theorem dropRecord_kept (tag : Nat) (s : State) : Kept s (dropRecord tag s) := by constructor <;> rfl

theorem clearGrant_kept (s : State) : Kept s (clearGrant s) := by constructor <;> rfl

theorem startMeasure_kept (tag : Nat) (s : State) : Kept s (startMeasure tag s) := by constructor <;> rfl

/-! ### The tunnel queue -/

theorem appendCar_kept (ticket : Option Ticket) (s : State) : Kept s (appendCar ticket s) := by
  unfold appendCar
  refine Kept.trans _ _ _ ?_ (.ofSeq _ _ (testArmAll_seqOnly _))
  constructor <;> rfl

theorem drainIfEmpty_kept (s : State) : Kept s (drainIfEmpty s) := by
  unfold drainIfEmpty
  split
  · exact .ofChange _ _ (changeTunnel_frame _ _ s)
  · exact Kept.refl s

theorem leaveQueue_kept (car : Car) (s : State) : Kept s (leaveQueue car s) := by
  unfold leaveQueue
  refine Kept.trans _ _ _ ?_ (drainIfEmpty_kept _)
  exact (dropRecord_kept _ s).trans _ _ _ (.ofSeq _ _ (afterEnded_seqOnly _ _))

theorem missingTest_kept (k : Eye) (tag old : Nat) (s : State) : Kept s (missingTest k tag old s) := by
  unfold missingTest
  split
  · split
    · exact (markPassed_kept _ _ s).trans _ _ _ (raiseIncident_kept _ _)
    · exact Kept.refl s
  · exact Kept.refl s

theorem missingTests_kept (olds : List (Nat × Nat)) (s : State) : Kept s (missingTests olds s) := by
  unfold missingTests
  exact foldl_kept _ (fun s k => foldl_kept _ (fun s q => missingTest_kept k q.1 q.2 s) olds s) _ s

theorem finalise_kept (car : Car) (s : State) : Kept s (finalise car s) := by
  unfold finalise
  exact (updateCar_kept _ _ s).trans _ _ _ (.ofSeq _ _ (afterEnded_seqOnly _ _))

theorem exitCredit_kept (car : Car) (s : State) : Kept s (exitCredit car s).1 := by
  unfold exitCredit
  split
  · exact Kept.refl s
  · simp only
    split
    · exact issueCredit_kept _ _ _ s
    · exact Kept.refl s

theorem removeAtExit_kept (car : Car) (s : State) : Kept s (removeAtExit car s) := by
  unfold removeAtExit
  simp only
  refine Kept.trans _ _ _ ?_ (leaveQueue_kept _ _)
  refine Kept.trans _ _ _ ?_ (.ofPorts _ _ (notifyBoth_portsOnly _ _))
  refine Kept.trans _ _ _ ?_ (exitCredit_kept _ _)
  exact (finalise_kept car s).trans _ _ _ (updateTally_kept _ _)

theorem exitRemoval_kept (s : State) : Kept s (exitRemoval s) := by
  unfold exitRemoval
  split
  · exact removeAtExit_kept _ s
  · exact Kept.refl s

theorem settleEye_kept (s : State) (k : Eye) : Kept s (settleEye s k) := by
  unfold settleEye
  split
  · split
    · simp only
      split
      · exact (setEye_kept _ _ s).trans _ _ _ (exitRemoval_kept _)
      · exact setEye_kept _ _ s
    · exact setEye_kept _ _ s
  all_goals exact Kept.refl s

theorem trackPulse_kept (s : State) : Kept s (trackPulse s) := by
  unfold trackPulse
  refine Kept.trans _ _ _ ?_ (foldl_kept _ settleEye_kept _ _)
  refine Kept.trans _ _ _ ?_ (missingTests_kept _ _)
  constructor <;> rfl

theorem noteMatch_kept (k : Eye) (tag : Nat) (s : State) : Kept s (noteMatch k tag s) := by
  unfold noteMatch
  split
  · constructor <;> rfl
  · exact Kept.refl s

theorem arbitrate_kept (s : State) : Kept s (arbitrate s) := .ofGrant _ _ (arbitrate_grantOnly s)

theorem correctCar_kept (k : Eye) (pos : Nat) (car : Car) (s : State) : Kept s (correctCar k pos car s) := by
  have h : ∀ t, Kept s t → Kept s (if isNewest t car.tag then arbitrate t else t) := by
    intro t ht
    split
    · exact ht.trans _ _ _ (arbitrate_kept _)
    · exact ht
  unfold correctCar
  simp only
  refine h _ ?_
  refine Kept.trans _ _ _ ?_ (.ofSeq _ _ (judgeCorrection_seqOnly _ _ _))
  refine Kept.trans _ _ _ ?_ (foldl_kept _ (fun s j => ?_) _ _)
  · refine Kept.trans _ _ _ ?_ (noteMatch_kept _ _ _)
    constructor <;> rfl
  · split
    · exact Kept.refl s
    · exact missingTest_kept _ _ _ s

theorem matchEye_kept (k : Eye) (s : State) : Kept s (matchEye k s) := by
  unfold matchEye
  split
  · exact Kept.refl s
  · split
    · exact correctCar_kept _ _ _ s
    · exact raiseIncident_kept _ s

theorem eyeBlocked_kept (k : Eye) (s : State) : Kept s (eyeBlocked k s) := by
  unfold eyeBlocked
  split
  · exact (setEye_kept _ _ s).trans _ _ _ (matchEye_kept _ _)
  · exact setEye_kept _ _ s
  all_goals exact Kept.refl s

theorem eyeCleared_kept (k : Eye) (s : State) : Kept s (eyeCleared k s) := by
  unfold eyeCleared
  split <;> first | exact setEye_kept _ _ s | exact Kept.refl s

theorem raiseTailgate_kept (tag : Nat) (s : State) : Kept s (raiseTailgate tag s) := by
  unfold raiseTailgate
  split
  · split
    · exact Kept.refl s
    · exact (updateCar_kept _ _ s).trans _ _ _ (raiseIncident_kept _ _)
  · exact Kept.refl s

theorem measurePulse_kept (s : State) : Kept s (measurePulse s) := by
  unfold measurePulse
  split
  · exact Kept.refl s
  · split
    · exact Kept.refl s
    · simp only
      split
      · refine Kept.trans _ _ _ ?_ (raiseTailgate_kept _ _)
        constructor <;> rfl
      · constructor <;> rfl

theorem setLength_kept (tag len : Nat) (s : State) : Kept s (setLength tag len s) := by
  unfold setLength
  exact (updateCar_kept _ _ s).trans _ _ _ (.ofSeq _ _ (judgeLength_seqOnly _ _))

theorem shortObject_kept (car : Car) (s : State) : Kept s (shortObject car s) := by
  unfold shortObject
  simp only
  split
  · exact (leaveQueue_kept _ s).trans _ _ _ (raiseIncident_kept _ _)
  · exact (setLength_kept _ _ s).trans _ _ _ (raiseIncident_kept _ _)

theorem completeMeasure_kept (s : State) : Kept s (completeMeasure s) := by
  unfold completeMeasure
  split
  · exact Kept.refl s
  · simp only
    split
    · constructor <;> rfl
    · split
      · refine Kept.trans _ _ _ ?_ (setLength_kept _ _ _)
        constructor <;> rfl
      · refine Kept.trans _ _ _ ?_ (shortObject_kept _ _)
        constructor <;> rfl

theorem settleEntrance_kept (s : State) : Kept s (settleEntrance s) := by
  unfold settleEntrance
  split
  · split
    · refine Kept.trans _ _ _ ?_ (completeMeasure_kept _)
      constructor <;> rfl
    · constructor <;> rfl
  all_goals exact Kept.refl s

theorem pulse_kept (s : State) : Kept s (pulse s) := by
  have h : ∀ t, Kept t (countPulse t) := fun t => by constructor <;> rfl
  unfold pulse entrancePulse
  refine Kept.trans _ _ _ ?_ (h _)
  refine Kept.trans _ _ _ ?_ (arbitrate_kept _)
  refine Kept.trans _ _ _ ?_ (settleEntrance_kept _)
  refine Kept.trans _ _ _ ?_ (measurePulse_kept _)
  exact (trackPulse_kept s).trans _ _ _ (.ofSeq _ _ (judgePulse_seqOnly _))

/-! ### The exit and the entrance -/

theorem exitBlocked_kept (s : State) : Kept s (exitBlocked s) := by
  unfold exitBlocked startExitTimer
  split
  · refine Kept.trans _ _ _ ?_ (eyeBlocked_kept _ _)
    constructor <;> rfl
  · exact eyeBlocked_kept _ s

theorem removeIncidents_kept (p : Incident → Bool) (s : State) : Kept s (removeIncidents p s) :=
  .ofRaise _ _ (removeIncidents_frame p s)

theorem exitCleared_kept (s : State) : Kept s (exitCleared s) := by
  have h : ∀ t : State, Kept t { t with trk.exitTimer := none } := fun t => by constructor <;> rfl
  unfold exitCleared
  exact ((eyeCleared_kept .exit s).trans _ _ _ (h _)).trans _ _ _ (removeIncidents_kept _ _)

theorem exitBlockExpired_kept (s : State) : Kept s (exitBlockExpired s) := by
  unfold exitBlockExpired
  split
  · exact Kept.refl s
  · refine Kept.trans _ _ _ ?_ (raiseIncident_kept _ _)
    constructor <;> rfl

theorem enterUnpaid_kept (s : State) : Kept s (enterUnpaid s) := by
  unfold enterUnpaid
  exact ((appendCar_kept _ s).trans _ _ _ (startMeasure_kept _ _)).trans _ _ _ (raiseIncident_kept _ _)

theorem setLane_kept (l : Lane) (q : List Ticket) (s : State) : Kept s (setLane l q s) := by constructor <;> rfl

theorem bindHead_kept (l : Lane) (t : Ticket) (s : State) : Kept s (bindHead l t s) := by
  unfold bindHead
  simp only
  refine Kept.trans _ _ _ ?_ (.ofPorts _ _ (notify_portsOnly _ _ _))
  refine Kept.trans _ _ _ ?_ (startMeasure_kept _ _)
  refine Kept.trans _ _ _ ?_ (appendCar_kept _ _)
  exact (setLane_kept _ _ s).trans _ _ _ (clearGrant_kept _)

theorem newObject_kept (s : State) : Kept s (newObject s) := by
  unfold newObject
  split
  · refine Kept.trans _ _ _ ?_ (raiseIncident_kept _ _)
    constructor <;> rfl
  · split
    · exact bindHead_kept _ _ s
    · exact enterUnpaid_kept s

theorem tailgateTest_kept (s : State) : Kept s (tailgateTest s) := by
  unfold tailgateTest
  split
  · split
    · exact raiseTailgate_kept _ s
    · exact Kept.refl s
  · exact Kept.refl s

theorem entranceBlocked_kept (s : State) : Kept s (entranceBlocked s) := by
  have h : ∀ d, Kept s (setEntranceEye d s) := fun d => by constructor <;> rfl
  unfold entranceBlocked
  split
  · exact (h _).trans _ _ _ (newObject_kept _)
  · exact (h _).trans _ _ _ (tailgateTest_kept _)
  · exact Kept.refl s

theorem entranceCleared_kept (s : State) : Kept s (entranceCleared s) := by
  unfold entranceCleared
  split <;> first | exact Kept.refl s | (constructor <;> rfl)

theorem grantExpired_kept (s : State) : Kept s (grantExpired s) := by
  unfold grantExpired
  split
  · exact Kept.refl s
  · exact .ofGrant _ _ (withdrawGrant_grantOnly _ s)

theorem startExpired_kept (s : State) : Kept s (startExpired s) := by
  unfold startExpired
  split
  · exact .ofChange _ _ (changeTunnel_frame _ _ s)
  · exact Kept.refl s

/-! ### Stations, monitor, pacing -/

theorem giveUp_kept (i : Fin 16) (s : State) : Kept s (giveUp i s) := by
  unfold giveUp countFailure
  refine Kept.trans _ _ _ ?_ (raiseIncident_kept _ _)
  exact .ofSeq _ _ ((updateUnit_seqOnly i _ s).trans _ _ _ (moveStation_seqOnly i _ _))

theorem failAttempt_kept (i : Fin 16) (s : State) : Kept s (failAttempt i s) := by
  unfold failAttempt countFailure
  split
  · exact .ofSeq _ _ (((updateUnit_seqOnly i _ s).trans _ _ _ (moveStation_seqOnly i _ _)).trans _ _ _
      (updateUnit_seqOnly i _ _))
  · exact giveUp_kept i s

theorem loseProof_kept (i : Fin 16) (s : State) : Kept s (loseProof i s) := by
  unfold loseProof countFailure
  simp only
  refine Kept.trans _ _ _ (.ofSeq _ _ (markEntries_seqOnly i .proof false s)) ?_
  split
  · exact .ofSeq _ _ (((updateUnit_seqOnly i _ _).trans _ _ _ (moveStation_seqOnly i _ _)).trans _ _ _
      (updateUnit_seqOnly i _ _))
  · exact giveUp_kept i _

theorem proofOn_kept (i : Fin 16) (s : State) : Kept s (proofOn i s) := by
  unfold proofOn
  simp only
  split
  · exact .ofSeq _ _ (becomeReady_seqOnly i s)
  · split
    · exact .ofSeq _ _ (updateUnit_seqOnly i _ s)
    · exact Kept.refl s

theorem proofOff_kept (i : Fin 16) (s : State) : Kept s (proofOff i s) := by
  unfold proofOff
  simp only
  split
  · exact loseProof_kept i s
  · exact Kept.refl s

theorem proofExpired_kept (i : Fin 16) (s : State) : Kept s (proofExpired i s) := by
  unfold proofExpired
  simp only
  split
  · exact Kept.refl s
  · refine Kept.trans _ _ _ (.ofSeq _ _ (updateUnit_seqOnly i (fun u => { u with recheck := false, proofTimer := none }) s)) ?_
    split
    · exact failAttempt_kept i _
    · split
      · exact loseProof_kept i _
      · exact Kept.refl _

theorem retryExpired_kept (i : Fin 16) (s : State) : Kept s (retryExpired i s) := by
  unfold retryExpired
  simp only
  split
  · exact Kept.refl s
  · refine Kept.trans _ _ _ (.ofSeq _ _ (updateUnit_seqOnly i (fun u => { u with retryTimer := none }) s)) ?_
    split
    · split
      · exact .ofSeq _ _ ((moveStation_seqOnly i _ _).trans _ _ _ (beginAttempt_seqOnly i _))
      · exact .ofSeq _ _ (moveStation_seqOnly i _ _)
    · exact Kept.refl _

theorem slackMark_kept (s : State) (k : Fin 6) : Kept s (slackMark s k) := by
  unfold slackMark
  split
  · exact Kept.refl s
  · exact .ofSeq _ _ (markEntries_seqOnly _ _ _ s)

theorem scan_kept (samples : Tab 6 (BitVec 12)) (s : State) : Kept s (scan samples s) := by
  unfold scan
  simp only
  refine Kept.trans _ _ _ ?_ (.ofRaise _ _ (raiseEach_frame _ _))
  refine Kept.trans _ _ _ ?_ (foldl_kept _ (fun s k => ?_) _ _)
  · constructor <;> rfl
  · split
    · exact slackMark_kept s k
    · exact Kept.refl s

theorem switchEdge_kept (k : Fin 6) (s : State) : Kept s (switchEdge k s) :=
  .ofRaise _ _ (raiseEach_frame _ s)

theorem windowEnd_kept (s : State) : Kept s (windowEnd s) := by
  have h : ∀ n, Kept (closeWindow s) { closeWindow s with pace.stall := n } := fun n => by constructor <;> rfl
  unfold windowEnd stallWatch
  refine Kept.trans s (closeWindow s) _ (by constructor <;> rfl) ?_
  simp only
  split
  · exact (h _).trans _ _ _ (raiseIncident_kept _ _)
  · exact h _

/-! ### Requests that change nothing but what their rules name -/

theorem withdrawLane_kept (l : Lane) (r : WithdrawReason) (s : State) : Kept s (withdrawLane l r s) :=
  .ofGrant _ _ (withdrawLane_grantOnly l r s)

theorem takeTicket_kept (l : Lane) (t : Ticket) (s : State) : Kept s (takeTicket l t s) := by
  unfold takeTicket
  simp only
  split
  · exact (setLane_kept _ _ s).trans _ _ _ (withdrawLane_kept _ _ _)
  · exact setLane_kept _ _ s

theorem bindTicket_kept (car : Car) (t : Ticket) (s : State) : Kept s (bindTicket car t s) := by
  unfold bindTicket
  exact (updateCar_kept _ _ s).trans _ _ _ (.ofSeq _ _ (testArmAll_seqOnly _))

theorem placeTicket_kept (place : TicketPlace) (code level : Nat) (t : Ticket) (s : State) :
    Kept s (placeTicket place code level t s) := by
  cases place
  · exact setLane_kept _ _ s
  · exact (updateCar_kept _ _ s).trans _ _ _ (.ofSeq _ _ (testArmAll_seqOnly _))

theorem clearCredit_kept (car : Car) (s : State) : Kept s (clearCredit car s).1 := by
  unfold clearCredit
  split
  · exact Kept.refl s
  · simp only
    split
    · exact issueCredit_kept _ _ _ s
    · exact Kept.refl s

theorem clearRecord_kept (car : Car) (s : State) : Kept s (clearRecord car s) := by
  unfold clearRecord
  simp only
  refine Kept.trans _ _ _ ?_ (leaveQueue_kept _ _)
  exact (clearCredit_kept car s).trans _ _ _ (.ofPorts _ _ (notifyBoth_portsOnly _ _))

end Sys2Proof.Machine
end

