-- ==== Sys2Proof/Tests/Slice0.lean ====
section
/-! SUPPORT. The model's own tests: ill-formed commands that `wellFormed` refuses, one named witness for each statement with
hypotheses (a concrete state and operands that meet them, clause by clause), and single steps whose expected values are those
of the worked sequences of spec/ (the section is named at each). -/

set_option Elab.async false

namespace Sys2Proof.Tests

open Machine

/-! ### Small states -/

/-- The tunnel in a state, quiet otherwise. -/
def on (t : Tunnel) : State := driveLines { State.reset with sup.tunnel := t }

/-- A running tunnel with car records in its queue. -/
def running (queue : List Car) : State := driveLines { on .running with trk.queue := queue }

/-- A port holds tunnel control. -/
def heldBy (p : Port) (s : State) : State := { s with sup.holder := some p }

/-- A write is in progress. -/
def writing (s : State) : State := { s with store.writing := some Image.defaults }

/-- A port with a transmit queue. -/
def sending (p : Port) (tx : List Frame) (busy : Bool) (s : State) : State :=
  updatePort p (fun u => { u with tx := tx, sending := busy }) s

/-- A port with a receive path. -/
def receiving (p : Port) (x : RxPath) (s : State) : State := updatePort p (fun u => { u with rx := x }) s

/-- An incident list. -/
def listing (l : List Incident) (s : State) : State := { s with sup.incidents := l }

/-- The part held in reset. -/
def inReset : State := after .reset State.reset

def clearEyes : PerEye Bool := ⟨false, false, false, false, false⟩

def plainCar (tag front : Nat) : Car := ⟨tag, front, some 4000, none, 4, clearEyes, false, []⟩

/-- Twelve records, 12 the newest. -/
def fullQueue : List Car := (List.range 12).map fun n => plainCar (n + 1) (24000 - 1500 * n)

def ticket (sale : Nat) (lane : TicketLane) (paid : Nat) : Ticket :=
  { sale := sale, lane := lane, plan := 4, list := [⟨11, 2⟩], cls := 3, paid := paid, credit := none, ref := 7,
    addOns := 0 }

def incident (n : Nat) (k : IncidentKind) (c : IncidentClass) : Incident :=
  ⟨n, k, c, none, none, none, none, none, 1, 0⟩

/-- A notice frame and an answer frame. -/
def note : Frame := ⟨0xF3, []⟩
def reply : Frame := ⟨0x81, [0]⟩

/-- A brush on slot 2: the station of section 6.6, with the defaults of R87 for the rest. -/
def brush : BrushRec :=
  { slot := 2, k := 8000, brMin := 400, brMax := 3000, icA := 300, icB := 2048, jamMargin := 900, slackMargin := 500,
    jamN := 3, slackN := 30, jamBlank := 20, qualifier := .any, signals := ⟨true, false, false⟩ }

def brushStation : StationRec :=
  { code := 9, sp := 7400, pre := 200, post := 300, mode := .direct, proofWait := 1500, retries := 2, gear := .brush brush }

/-- The spray arch of section 5.8. -/
def arch : StationRec :=
  { code := 6, sp := 6000, pre := 200, post := 300, mode := .proofStart, proofWait := 1500, retries := 2,
    gear := .spray Config.defaultLevels }

/-- A station's record and unit replaced. -/
def withStation (i : Fin 16) (r : StationRec) (st : StationState) (s : State) : State :=
  driveLines { s with
    seq.table := tabSet s.seq.table i r
    seq.units := tabSet s.seq.units i { StationUnit.idle with state := st } }

/-- A car with one entry for a station. -/
def carAt (tag front : Nat) (i : Fin 16) (level : Nat) (st : EntryState) : Car :=
  { plainCar tag front with schedule := [⟨i, level, st, none⟩] }

/-! ### Ill-formed commands, one for each check of `wellFormed` -/

theorem test_wellFormed_refuses_wide_fields :
    wellFormed (.carList .p0 (.record 256 1)) = false ∧ wellFormed (.incidentList .p0 256) = false ∧
    wellFormed (.stationStatus .p0 (some 256)) = false ∧ wellFormed (.tallyRead .p0 256 true false) = false ∧
    wellFormed (.void .p0 65536) = false ∧ wellFormed (.addService .p0 1 256 1) = false ∧
    wellFormed (.attachLane .p0 256 0) = false ∧ wellFormed (.setService .p4 1 1 65536 4) = false ∧
    wellFormed (.setResponse .p4 256 0) = false ∧ wellFormed (.issueCredit .p4 65536 0) = false ∧
    wellFormed (.setConstants .p4 { Config.defaultConstants with grantTimeout := 256 }) = false := by decide

theorem test_wellFormed_refuses_lane_forms :
    wellFormed (.laneStatus .p1 (some 0)) = false ∧ wellFormed (.laneStatus .p0 none) = false ∧
    wellFormed (.sell .p2 (some 1) ⟨4, [], 0⟩ 0) = false ∧ wellFormed (.sell .p0 none ⟨4, [], 0⟩ 0) = false := by decide

theorem test_wellFormed_refuses_long_payloads :
    wellFormed (.quote .p0 ⟨4, List.replicate 30 ⟨1, 1⟩, 0⟩) = false ∧
    wellFormed (.sell .p1 none ⟨4, List.replicate 29 ⟨1, 1⟩, 0⟩ 0) = false ∧
    wellFormed (.attachNewSale .p0 1 ⟨4, List.replicate 28 ⟨1, 1⟩, 0⟩ 0) = false ∧
    wellFormed (.definePlan .p4 1 (List.replicate 40 65) 0 1 (List.replicate 10 ⟨1, 1⟩)) = false := by decide

theorem test_wellFormed_refuses_what_cannot_arrive :
    wellFormed (.ackIncident .p0 0) = false ∧ wellFormed (.unknownKind .p0 0x70) = false ∧
    wellFormed (.unknownKind .p0 (kindByte .sell)) = false ∧
    wellFormed (.setStation .p4 0 ⟨0, 1, 0, 0, 0, 0, 0, 0, .brush ⟨256, 0, 0, 0, 0, 0, 0, 0, 0, 0, 0, 0, 0⟩⟩) = false ∧
    wellFormed (.setStation .p4 0 ⟨0, 0, 65536, 0, 0, 0, 0, 0, .levels ⟨0, 0, 0, 0⟩⟩) = false := by decide

/-! ### Frames (R199 to R201): the payload written out from the layout of R201 -/

/-- SELL from lane port P2: plan 4, k = 2, (11, 2), (14, 3), credit 41, reference 88. -/
theorem test_sell_payload :
    encodeRequest (.sell .p2 none ⟨4, [⟨11, 2⟩, ⟨14, 3⟩], 41⟩ 88) = some (.sell, [4, 2, 11, 2, 14, 3, 0, 41, 0, 88]) ∧
    decodeRequest .p2 .sell [4, 2, 11, 2, 14, 3, 0, 41, 0, 88] =
      some (.sell .p2 none ⟨4, [⟨11, 2⟩, ⟨14, 3⟩], 41⟩ 88) := by decide

/-- ISSUE_CREDIT of 500 cents without a plan, and SET_RESPONSE of PHANTOM to NOTICE. -/
theorem test_office_payloads :
    decodeRequest .p4 .issueCredit [1, 244, 0] = some (.issueCredit .p4 500 0) ∧
    decodeRequest .p4 .setResponse [6, 0] = some (.setResponse .p4 6 0) ∧
    decodeRequest .p0 .ackIncident [0] = some (.ackIncidentAll .p0) ∧
    decodeRequest .p0 .ackIncident [36] = some (.ackIncident .p0 36) := by decide

/-- A truncated SELL fits no form of its request (R201). -/
theorem test_sell_short_payload : decodeRequest .p2 .sell [4, 2, 11, 2, 14, 3, 0, 41, 0] = none := by decide

/-! ### Witnesses: the step, frames, invariants -/

theorem witness_StepRunsFrontCommand :
    { State.reset with pending := [.claim .p0, .reset] }.pending = Instr.claim .p0 :: [.reset] ∧
      State.reset.pending = [] := by decide

theorem witness_HeldPartTakesNoEvent :
    inReset.held = true ∧ Instr.claim .p0 ≠ .reset ∧ (∀ cause, Instr.claim .p0 ≠ .startUp cause) ∧
      exec (.claim .p0) inReset = .next inReset :=
  ⟨by decide +kernel, by decide, nofun, by rfl⟩

theorem witness_RequestFramesRoundTrip :
    wellFormed (.sell .p2 none ⟨4, [⟨11, 2⟩], 41⟩ 88) = true ∧
      requestPort (.sell .p2 none ⟨4, [⟨11, 2⟩], 41⟩ 88) = some .p2 ∧
      encodeRequest (.sell .p2 none ⟨4, [⟨11, 2⟩], 41⟩ 88) = some (.sell, [4, 1, 11, 2, 0, 41, 0, 88]) := by decide

theorem witness_FrameBytesRunTheirRequest :
    wellFormed (.claim .p0) = true ∧ requestPort (.claim .p0) = some .p0 ∧ encodeRequest (.claim .p0) = some (.claim, []) ∧
      State.reset.held = false ∧ (State.reset.ports.get .p0).rx.state = .hunt := by decide +kernel

/-- A claim waits at the front of the queue: the state of the witnesses of the invariants. -/
def claimed : State := { State.reset with pending := [.claim .p0] }

theorem witness_step : step claimed = .next (after (.claim .p0) State.reset) := by rfl

theorem witness_TransmitQueuesStayBounded :
    TxBounded claimed ∧ TxBounded (sending .p0 (List.replicate 7 note ++ [reply]) true claimed) := by
  unfold TxBounded PortBounded; decide +kernel

theorem witness_GrantOnlyWhileRunning :
    GrantHeld claimed ∧ GrantHeld { on .running with ent.grant := some ⟨.a, 1⟩, ent.grantTimer := some 20 } := by
  unfold GrantHeld; decide +kernel

theorem witness_HaltsHoldOutsideHalted :
    HaltsHold claimed ∧ HaltsHold (listing [incident 1 .estop .halt] (on (.halted .running))) := by
  unfold HaltsHold ResponseLegal; decide +kernel

theorem witness_QueuesStayBounded : QueuesBounded claimed ∧ QueuesBounded (running fullQueue) := by
  unfold QueuesBounded QueueSound LanesBounded; decide +kernel

theorem witness_NumberedListsStaySound :
    IncidentsSound claimed ∧ CreditsHold claimed ∧
      IncidentsSound (listing ((List.range 8).map fun n => incident (248 + n) .phantom .halt) claimed) ∧
      CreditsHold { claimed with sales.credits := (List.range 16).map fun n => ⟨9984 + n, 1, none, none⟩ } := by
  unfold IncidentsSound CreditsHold CreditsSound; decide +kernel

/-- Plan 2 with two entries in the store, WITHDRAWN. -/
def onePlan (st : PlanState) : State :=
  { State.reset with
    sales.plans := tabSet State.reset.sales.plans 1 ⟨st, [65], 900, 4, 2⟩
    sales.store := [⟨11, 2⟩, ⟨14, 1⟩] }

theorem witness_PlanStoreStaysPacked : StorePacked claimed ∧ StorePacked (onePlan .withdrawn) := by
  unfold StorePacked Packed; decide +kernel

theorem witness_RoleAndSaveTestsRefuse :
    (requestPort (.claim .p1) = some .p1 ∧ kindOf (.claim .p1) = some .claim ∧ State.reset.held = false ∧
      roomForAnswer (State.reset.ports.get .p1) = true ∧ permitted .claim .p1 = false) ∧
    (requestPort (.setService .p4 11 1 300 4) = some .p4 ∧ kindOf (.setService .p4 11 1 300 4) = some .setService ∧
      barredBySave .setService = true ∧ formFits (.setService .p4 11 1 300 4) = true ∧
      Reaches .p4 .setService (writing State.reset) ∧ LinesFollow (writing State.reset) ∧
      (writing State.reset).store.writing.isSome = true) := by
  unfold Reaches LinesFollow; decide +kernel

theorem witness_ControlIsHeldByOnePort :
    (Reaches .p0 .claim State.reset ∧ State.reset.sup.holder ≠ some .p4) ∧
    (Reaches .p0 .claim (heldBy .p4 State.reset) ∧ (heldBy .p4 State.reset).sup.holder = some .p4) ∧
    (Reaches .p4 .claim State.reset ∧ State.reset.sup.holder ≠ some .p0) ∧
    (Reaches .p4 .claim (heldBy .p0 State.reset) ∧ (heldBy .p0 State.reset).sup.holder = some .p0) ∧
    (Reaches .p0 .yield (heldBy .p0 State.reset) ∧ (heldBy .p0 State.reset).sup.holder = some .p0) ∧
    (requestPort (.pause .p4) = some .p4 ∧ kindOf (.pause .p4) = some .pause ∧ reservedToHolder .p4 .pause = true ∧
      Reaches .p4 .pause (heldBy .p0 (on .running)) ∧ LinesFollow (heldBy .p0 (on .running)) ∧
      (heldBy .p0 (on .running)).sup.holder ≠ some .p4) := by
  unfold Reaches LinesFollow; decide +kernel

theorem witness_SettingsChangeByTheirOwnRequests :
    exec .encoderPulse State.reset = .next (after .encoderPulse State.reset) ∧ carriesAny .encoderPulse = false ∧
      kindOf .encoderPulse = none ∧ Instr.encoderPulse ≠ .entranceEyeBlockingEdge ∧ Instr.encoderPulse ≠ .secondsTick ∧
      (∀ v, Instr.encoderPulse ≠ .saveComplete v) ∧ Instr.encoderPulse ≠ .reset :=
  ⟨by rfl, by decide, by decide, by decide, by decide, nofun, by decide⟩

/-! ### Witnesses: shared operations -/

/-- R2's example: tags 254, 255, 1 and 2 in use and the counter at 255 (and a fresh counter with nothing in use). -/
theorem witness_AllocationTakesFirstFreeNumber :
    (1 ≤ 255 ∧ 255 ≤ 255 ∧ [254, 255, 1, 2].length < 255) ∧ (1 ≤ 1 ∧ 1 ≤ 255 ∧ ([] : List Nat).length < 255) := by decide

/-- R2's example gives tag 3 and leaves the counter at 4. -/
theorem test_allocation_R2 : allocate 255 [254, 255, 1, 2] 255 = (3, 4) := by decide

/-- Section 4.10, start: credits 1, 2, 9997 and 9998, the counter at 9998. -/
def fourCredits : State :=
  { State.reset with
    sales.credits := [⟨1, 2000, none, none⟩, ⟨2, 1500, none, none⟩, ⟨9997, 1, some 6120, some 1⟩,
      ⟨9998, 1, some 6131, some 1⟩]
    sales.creditCounter := 9998 }

def sixteenCredits : State :=
  { State.reset with
    sales.credits := (List.range 16).map fun n => ⟨9984 + n, 1, none, none⟩
    sales.creditCounter := 9984 }

theorem witness_CreditIssueDropsThenAllocates :
    (CreditsSound fourCredits.sales.credits fourCredits.sales.creditCounter ∧ fourCredits.sales.credits.length < 16) ∧
    (CreditsSound sixteenCredits.sales.credits sixteenCredits.sales.creditCounter ∧
      sixteenCredits.sales.credits.length = 16) := by unfold CreditsSound; decide +kernel

/-- Section 4.10, steps 1 and 2: 9999 is issued and the counter wraps to 1; then 3 is issued and it stands at 4. -/
theorem test_credit_numbers_4_10 :
    (issueCredit 1100 (some 6140) (some 1) fourCredits).2.1 = 9999 ∧
    (issueCredit 1100 (some 6140) (some 1) fourCredits).1.sales.creditCounter = 1 ∧
    ((after (.issueCredit .p4 500 0) (issueCredit 1100 (some 6140) (some 1) fourCredits).1).sales.credits.map
      Credit.number) = [1, 2, 9997, 9998, 9999, 3] ∧
    (after (.issueCredit .p4 500 0) (issueCredit 1100 (some 6140) (some 1) fourCredits).1).sales.creditCounter = 4 := by
  decide +kernel

def sevenNotes : PortUnit := { PortUnit.idle with tx := List.replicate 7 note }
def eightAnswers : PortUnit := { PortUnit.idle with tx := List.replicate 8 reply }
def oneNoteSending : PortUnit := { PortUnit.idle with tx := note :: List.replicate 7 reply, sending := true }

/-- The P0 queue of section 10.8 before step 3: X1 in transmission, X2 to X7, A-CLR. -/
def clearedQueue : PortUnit :=
  { PortUnit.idle with
    tx := (List.range 7).map (fun n => ⟨0xF1, [BitVec.ofNat 8 (n + 1)]⟩) ++ [reply]
    sending := true
    overflow := true }

theorem witness_NoticesNeedRoom :
    (PortUnit.idle.tx.length < 8 ∧ (PortUnit.idle.tx.filter Frame.isNotice).length < 7) ∧
    7 ≤ (sevenNotes.tx.filter Frame.isNotice).length ∧ 8 ≤ eightAnswers.tx.length ∧
    (inReset.held = true ∧ (after .estopLoopOpen inReset).held = true) ∧
    (PortBounded sevenNotes ∧ ∀ f ∈ sevenNotes.tx, f.isNotice = true) ∧
    (Reaches .p0 .tunnelStatus State.reset ∧ (State.reset.ports.get .p0).tx.length < 8) ∧
    (Reaches .p0 .tunnelStatus (sending .p0 clearedQueue.tx true State.reset) ∧
      8 ≤ ((sending .p0 clearedQueue.tx true State.reset).ports.get .p0).tx.length) := by
  unfold PortBounded Reaches; decide +kernel

theorem witness_AnswersFindTheirPlace :
    PortUnit.idle.tx.length < 8 ∧
    (8 ≤ oneNoteSending.tx.length ∧ roomForAnswer oneNoteSending = false) ∧
    (8 ≤ clearedQueue.tx.length ∧
      clearedQueue.tx = [⟨0xF1, [1]⟩] ++ (⟨0xF1, [2]⟩ : Frame) :: (clearedQueue.tx.drop 2) ∧
      (⟨0xF1, [2]⟩ : Frame).isNotice = true ∧ (clearedQueue.sending = true → [(⟨0xF1, [1]⟩ : Frame)] ≠ []) ∧
      (∀ g ∈ (if clearedQueue.sending then [(⟨0xF1, [1]⟩ : Frame)].tail else [⟨0xF1, [1]⟩]), g.isNotice = false)) ∧
    (requestPort (.claim .p0) = some .p0 ∧ (sending .p0 (List.replicate 8 reply) true State.reset).held = false ∧
      roomForAnswer ((sending .p0 (List.replicate 8 reply) true State.reset).ports.get .p0) = false) ∧
    (requestPort (.claim .p0) = some .p0 ∧ kindOf (.claim .p0) = some .claim ∧
      roomForAnswer ((sending .p0 clearedQueue.tx true State.reset).ports.get .p0) = true) ∧
    roomForAnswer clearedQueue = true := by decide +kernel

/-- Section 10.8, step 3: the TUNNEL_STATUS answer displaces X2 and the flag is set again. -/
theorem test_answer_displaces_10_8 :
    ((after (.tunnelStatus .p0) (updatePort .p0 (fun _ => clearedQueue) State.reset)).ports.get .p0).tx.map Frame.payload =
      [[1], [3], [4], [5], [6], [7], [0]] ++
        (((after (.tunnelStatus .p0) (updatePort .p0 (fun _ => clearedQueue) State.reset)).ports.get .p0).tx.map
          Frame.payload).drop 7 ∧
    ((after (.tunnelStatus .p0) (updatePort .p0 (fun _ => clearedQueue) State.reset)).ports.get .p0).overflow = true := by
  decide +kernel

theorem witness_PulseAdvancesEveryFront :
    (FrontsFall [plainCar 1 65535, plainCar 2 65534, plainCar 3 100]) ∧
      (∀ car ∈ [plainCar 1 65535, plainCar 2 65534, plainCar 3 100], car.front ≤ 65535) := by
  simp [FrontsFall, plainCar]

/-- R5: the head holds at 65535, the next record one below it, the third moves on. -/
theorem test_pulse_saturates :
    (advanceFronts none [plainCar 1 65535, plainCar 2 65534, plainCar 3 100]).map Car.front = [65535, 65534, 101] := by
  decide

/-- Section 1.8, start: CE1 at 8000, tags 7 and 8, PHANTOM of class NOTICE. -/
def eyeState (f7 f8 : Nat) (ce1 : Debounce) : State :=
  driveLines { running [plainCar 7 f7, plainCar 8 f8] with
    sup.consts := { Config.defaultConstants with ce1 := 8000 }
    sup.response := { Response.standard with phantom := .notice }
    trk.eyes := { State.reset.trk.eyes with ce1 := some ce1 } }

theorem witness_EyeMatchTakesTheNearest :
    (candidate (eyeState 7930 850 .armed) .ce1 8000).isSome = true ∧
      candidate (eyeState 12940 5790 .armed) .ce1 8000 = none := by decide +kernel

/-- Section 1.8, step 1: tag 7 is matched, corrected to 8000 and has passed CE1; CE1 is BLOCKED. -/
theorem test_ce1_matched_edge_1_8 :
    (after (.checkEyeBlockingEdge .ce1) (eyeState 7930 850 .armed)).trk.queue.map
        (fun c => (c.tag, c.front, c.passed.ce1)) = [(7, 8000, true), (8, 850, false)] ∧
    (after (.checkEyeBlockingEdge .ce1) (eyeState 7930 850 .armed)).trk.eyes.ce1 = some .blocked := by decide +kernel

/-- Section 1.8, step 4: with no candidate the edge is a PHANTOM of class NOTICE at eye 1, and the tunnel runs on. -/
theorem test_ce1_phantom_1_8 :
    (after (.checkEyeBlockingEdge .ce1) (eyeState 12940 5790 .armed)).sup.incidents.map
        (fun r => (r.kind, r.cls, r.eye)) = [(.phantom, .notice, some .ce1)] ∧
    (after (.checkEyeBlockingEdge .ce1) (eyeState 12940 5790 .armed)).sup.tunnel = .running := by decide +kernel

/-- Section 1.8, step 7: the pulse that takes tag 8 to 8151 declares it missing and halts the tunnel. -/
theorem test_car_missing_1_8 :
    let t := after .encoderPulse { eyeState 15300 8150 .armed with
      trk.queue := [{ plainCar 7 15300 with passed := { clearEyes with ce1 := true } }, plainCar 8 8150] }
    t.trk.queue.map (fun c => (c.front, c.passed.ce1)) = [(15301, true), (8151, true)] ∧
      t.sup.incidents.map (fun r => (r.kind, r.eye, r.tag)) = [(.carMissing, some .ce1, some 8)] ∧
      t.sup.tunnel = .halted .running := by decide +kernel

theorem witness_CorrectionKeepsTheOrder :
    (FrontsFall ([plainCar 6 9000] ++ plainCar 7 7930 :: [plainCar 8 850]) ∧
      (([plainCar 6 9000] ++ plainCar 7 7930 :: [plainCar 8 850]).map Car.tag).Nodup ∧ 8000 ≤ 60000 ∧
      (∀ a ∈ [plainCar 6 9000].getLast?, 8000 < a.front) ∧ (∀ b ∈ [plainCar 8 850].head?, b.front < 8000)) ∧
    (FrontsFall ([plainCar 6 8000] ++ plainCar 7 7930 :: []) ∧ (∀ a ∈ [plainCar 6 8000].getLast?, a.front ≤ 8000)) ∧
    (FrontsFall ([] ++ plainCar 7 8100 :: [plainCar 8 8000]) ∧ (∀ b ∈ [plainCar 8 8000].head?, 8000 ≤ b.front)) := by
  simp [FrontsFall, plainCar]

/-- The first clauses of CorrectionKeepsTheOrder: a forward and a backward correction, a tag that has gone, a record that is
the newest and one that is not. -/
theorem witness_CorrectionKeepsTheOrder_judged :
    let u (f : Nat) := { running [plainCar 7 f, plainCar 8 850] with
      trk.queue := correctQueue 7 8000 none [plainCar 7 f, plainCar 8 850] }
    ((carOf (u 7930) 7).map Car.front = some 8000 ∧ 7930 < 8000) ∧
    ((carOf (u 8100) 7).map Car.front = some 8000 ∧ 8000 ≤ 8100) ∧ carOf (u 7930) 9 = none ∧
    (correctCar .ce1 8000 (plainCar 8 7930) (running [plainCar 8 7930])).trk.queue.getLast?.map Car.tag = some 8 ∧
    (correctCar .ce1 8000 (plainCar 7 7930) (u 7930)).trk.queue.getLast?.map Car.tag ≠ some 7 := by decide +kernel

/-- Section 2.7, start: lanes A 5101, B 5102 and 5104, loops A and B occupied, the pointer at C, the counter at 21. -/
def merge (t : Tunnel) (queue : List Car) : State :=
  driveLines { on t with
    sup.startTimer := if t.warns then some 5 else none
    sup.consts := { Config.defaultConstants with grantTimeout := 12 }
    inputs.loops := ⟨true, true, false⟩
    sales.lanes := ⟨[ticket 5101 (.lane .a) 900], [ticket 5102 (.lane .b) 900, ticket 5104 (.lane .b) 900], []⟩
    sales.saleCounter := 5105
    trk.nextTag := 21
    trk.queue := queue }

/-- Step 7 of section 2.7 before the expiry: B holds the grant, lane C waits with 5105. -/
def mergeGrant : State :=
  driveLines { merge .running [{ plainCar 21 10480 with length := some 4500 }] with
    trk.nextTag := 22
    ent.pointer := .b
    ent.grant := some ⟨.b, 5102⟩
    ent.grantTimer := some 12
    inputs.loops := ⟨false, true, true⟩
    sales.lanes := ⟨[], [ticket 5102 (.lane .b) 900, ticket 5104 (.lane .b) 900], [ticket 5105 (.lane .c) 900]⟩ }

theorem witness_ArbiterGrantsInTurn :
    (admissionOpen (merge .running []) = true ∧
      searchOrder (merge .running []).ent.pointer = [] ++ Lane.a :: [.b, .c] ∧
      eligible (merge .running []) .a = true ∧
      ((merge .running []).sales.lanes.get .a).head? = some (ticket 5101 (.lane .a) 900)) ∧
    admissionOpen (on .stopped) = false ∧ (∀ l ∈ allLanes, eligible (on .running) l = false) ∧
    (State.reset.held = false ∧ State.reset.inputs.loops.get .a = false) ∧
    ((merge .running []).held = false ∧ (merge .running []).inputs.loops.get .a = true) ∧
    (eligible (merge .running []) .b = true ∧ admissionOpen mergeGrant = false ∧
      ((mergeGrant.trk.queue.getLast?.map fun c => (c.length, decide (mergeGrant.sup.consts.admitSpacing ≤ c.front))) =
        some (some 4500, true))) ∧
    (mergeGrant.held = false ∧ mergeGrant.ent.grant = some ⟨.b, 5102⟩ ∧ mergeGrant.ent.grantTimer = some 12) := by
  decide +kernel

/-- Section 2.7, step 1: the start timer's expiry enters RUNNING and grants lane A. -/
theorem test_start_grants_2_7 :
    (after .startTimerExpiry (merge (.starting .running) [])).sup.tunnel = .running ∧
    (after .startTimerExpiry (merge (.starting .running) [])).ent.grant = some ⟨.a, 5101⟩ ∧
    (after .startTimerExpiry (merge (.starting .running) [])).out.arms = ⟨true, false, false⟩ := by decide +kernel

/-- Section 2.7, step 7: the timeout leaves the pointer at B, so the search grants C, whose ticket is 5105. -/
theorem test_grant_timeout_2_7 :
    (after .grantTimerExpiry mergeGrant).ent.grant = some ⟨.c, 5105⟩ ∧
    (after .grantTimerExpiry mergeGrant).ent.pointer = .c ∧
    ((after .grantTimerExpiry mergeGrant).sales.lanes.b.map Ticket.sale) = [5102, 5104] := by decide +kernel

/-- Section 2.7, step 2: the entrance edge binds 5101 to tag 21; the pointer stays. -/
theorem test_entrance_binds_2_7 :
    let t := after .entranceEyeBlockingEdge (after .startTimerExpiry (merge (.starting .running) []))
    t.trk.queue.map (fun c => (c.tag, c.front, c.length, c.ticket.map Ticket.sale)) = [(21, 0, none, some 5101)] ∧
      t.ent.grant = none ∧ t.ent.pointer = .a ∧ t.sales.lanes.a = [] ∧ t.trk.nextTag = 22 := by decide +kernel

/-- The list of section 8.11: records 30 to 37, the counter at 38, the tunnel HALTED. -/
def fullList : State :=
  driveLines (listing
    [{ incident 30 .unpaidEntry .notice with tag := some 64 }, { incident 31 .phantom .halt with eye := some .ce1 },
      { incident 32 .shortObject .notice with tag := some 65, lane := some .a },
      { incident 33 .tailgate .halt with tag := some 66, lane := some .b },
      { incident 34 .carMissing .halt with eye := some .ce2, tag := some 67 },
      { incident 35 .exitBlocked .pause with eye := some .exit }, incident 36 .estop .halt,
      { incident 37 .brushCollision .halt with station := some 8 }]
    { on (.halted .running) with sup.incidentCounter := 38 })

def eightOf (c : IncidentClass) : State :=
  driveLines (listing ((List.range 8).map fun n => { incident (n + 1) .exitBlocked c with tag := some n, eye := some .ce1 })
    (on (.halted .running)))

theorem witness_RaiseMergesOrJoinsTheTail :
    (fullList.sup.incidents = fullList.sup.incidents.take 2 ++
        { incident 32 .shortObject .notice with tag := some 65, lane := some .a } :: fullList.sup.incidents.drop 3 ∧
      ∀ x ∈ fullList.sup.incidents.take 2,
        ¬(x.kind = .shortObject ∧ x.station = none ∧ x.eye = none ∧ x.lane = some .a)) ∧
    (State.reset.sup.incidents.length < 8 ∧
      ∀ x ∈ State.reset.sup.incidents, ¬(x.kind = .estop ∧ x.station = none ∧ x.eye = none ∧ x.lane = none)) := by
  decide +kernel

/-- Section 8.11, steps 1 to 3: discarded; merged into 32 with tag 71; 30 displaced and 38 joined. -/
theorem test_full_list_8_11 :
    (raiseIncident ⟨.shortObject, none, none, some 70, none, none⟩ fullList).sup.incidents = fullList.sup.incidents ∧
    (((raiseIncident ⟨.shortObject, none, none, some 71, some .a, none⟩ fullList).sup.incidents.map
      fun r => (r.number, r.tag, r.repeats)).drop 2).head? = some (32, some 71, 2) ∧
    ((raiseIncident ⟨.phantom, none, some .ce3, none, none, none⟩ fullList).sup.incidents.map Incident.number) =
      [31, 32, 33, 34, 35, 36, 37, 38] := by decide +kernel

theorem witness_FullListYieldsToStrongerClass :
    (fullList.sup.incidents.length = 8 ∧ fullList.sup.response.get .unpaidEntry = .notice ∧
      ∀ x ∈ fullList.sup.incidents,
        ¬(x.kind = .unpaidEntry ∧ x.station = none ∧ x.eye = none ∧ x.lane = some .a)) ∧
    (fullList.sup.response.get .phantom ≠ .notice ∧
      fullList.sup.incidents = [] ++ { incident 30 .unpaidEntry .notice with tag := some 64 } ::
        fullList.sup.incidents.tail) ∧
    ((eightOf .halt).sup.incidents.length = 8 ∧ (eightOf .halt).sup.response.get .phantom = .halt ∧
      (∀ x ∈ (eightOf .halt).sup.incidents, x.cls ≠ .notice) ∧
      (eightOf .halt).sup.incidents = (eightOf .halt).sup.incidents.take 7 ++
        { incident 8 .exitBlocked .halt with tag := some 7, eye := some .ce1 } :: []) ∧
    ((eightOf .pause).sup.response.get .phantom = .halt ∧ (∀ x ∈ (eightOf .pause).sup.incidents, x.cls = .pause) ∧
      (eightOf .pause).sup.incidents = { incident 1 .exitBlocked .pause with tag := some 0, eye := some .ce1 } ::
        (eightOf .pause).sup.incidents.tail) ∧
    ((eightOf .halt).sup.response.get .exitBlocked = .pause ∧ (∀ x ∈ (eightOf .halt).sup.incidents, x.cls = .halt) ∧
      ∀ x ∈ (eightOf .halt).sup.incidents,
        ¬(x.kind = .exitBlocked ∧ x.station = none ∧ x.eye = some .exit ∧ x.lane = none)) := by decide +kernel

theorem witness_TunnelChangeEffects :
    (Tunnel.stopped.runs = false ∧ Tunnel.running.runs = true ∧ (on .draining).sup.tunnel.runs = true) ∧
    ((on .stopped).sup.tunnel.runs = false ∧ Tunnel.draining ≠ .running) ∧
    ((on .running).sup.tunnel = .running ∧ (on .draining).sup.tunnel = .draining) ∧
    ((on (.starting .draining)).sup.tunnel = .starting .draining ∧ (on .stopped).sup.tunnel = .stopped) ∧
    ((on (.halted .running)).sup.tunnel.isHalted = true ∧ (on .running).sup.tunnel.isHalted = false) ∧
    ((on .stopped).sup.tunnel.isHalted = false ∧ (on (.starting .draining)).sup.tunnel.isHalted = false ∧
      (on (.paused .running)).sup.tunnel.isHalted = false) := by decide +kernel

/-- Section 5.9, step 0: station 4 FIRING for tag 51 at 7000, EXIT_BLOCKED of class PAUSE. -/
def firing : State :=
  withStation 4 arch .firing (running [carAt 51 7000 4 3 .active])

theorem witness_PauseHoldsAndHaltDrops :
    (tabGet firing.seq.units 4).state = .firing ∧
    (tabGet (withStation 4 arch .retryWait State.reset).seq.units 4).state = .retryWait ∧
    (tabGet firing.seq.units 0).state ∈ [StationState.idle, .held, .fault, .offLine] ∧
    (tabGet firing.seq.units 4).state ∉ [StationState.fault, .offLine] ∧
    (tabGet (withStation 4 arch .fault State.reset).seq.units 4).state ∈ [StationState.fault, .offLine] ∧
    ((on (.starting .running)).sup.tunnel.runs = false ∧ (on .draining).sup.tunnel.runs = true) := by
  decide +kernel

/-- Station 4 HELD for tag 51 in a tunnel that starts, PROOF_HOLD or not, its entry HELD or DONE. -/
def heldStation (mode : Activation) (proof : Bool) (e : EntryState) : State :=
  let s := withStation 4 { arch with mode := mode } .held
    (driveLines { on (.starting .running) with trk.queue := [carAt 51 7000 4 3 e] })
  { s with inputs.proofs := tabSet s.inputs.proofs 4 proof }

/-- The resumption and the entry into STOPPED: a HELD station with and without an entry that resumes, with and without proof,
and a station that is not HELD. -/
theorem witness_PauseHoldsAndHaltDrops_resume :
    (let s := heldStation .proofHold false .held
      ; (tabGet s.seq.units 4).state = .held ∧ (tabGet s.seq.units 5).state ≠ .held ∧
        0 < activeCount { s with trk.queue := s.trk.queue.map (mapEntries fun e =>
          if e.state = .held then { e with state := .active } else e) } 4 ∧
        (tabGet s.seq.table 4).mode = .proofHold ∧ tabGet s.inputs.proofs 4 = false) ∧
    (let s := heldStation .direct true .done
      ; (tabGet s.seq.units 4).state = .held ∧
        activeCount { s with trk.queue := s.trk.queue.map (mapEntries fun e =>
          if e.state = .held then { e with state := .active } else e) } 4 = 0 ∧
        (tabGet s.seq.table 4).mode ≠ .proofHold ∧ tabGet s.inputs.proofs 4 = true) := by decide +kernel

/-- R107: the held station fires again with its recheck and proof timer; its third step makes a PENDING entry of an
overlapping car ACTIVE at a station that is READY then, and not at one that has gone to FIRING. -/
theorem test_resume_R107 :
    let t := after .startTimerExpiry { heldStation .proofHold false .held with sup.startTimer := some 5 }
    let two (e : EntryState) := { heldStation .direct true .done with
      sup.startTimer := some 5
      trk.queue := [carAt 51 7000 4 3 e, carAt 52 6500 4 1 .pending] }
    tabGet t.seq.units 4 = ⟨.firing, 0, some 1500, none, true⟩ ∧
      t.trk.queue.flatMap (fun c => c.schedule.map Entry.state) = [.active] ∧
      (after .startTimerExpiry (two .held)).trk.queue.flatMap (fun c => c.schedule.map Entry.state) =
        [.active, .pending] ∧
      (after .startTimerExpiry (two .done)).trk.queue.flatMap (fun c => c.schedule.map Entry.state) =
        [.done, .active] := by decide +kernel

/-- Section 5.9, steps 1 and 3: the pause holds the station and the entry, the halt drops them. -/
theorem test_pause_and_halt_5_9 :
    let paused := driveLines (raiseIncident ⟨.exitBlocked, none, some .exit, none, none, none⟩ firing)
    let halted := after .estopLoopOpen paused
    (paused.sup.tunnel = .paused .running ∧ (tabGet paused.seq.units 4).state = .held ∧
      tabGet paused.out.stations 4 = ⟨true, false, 0⟩ ∧
      paused.trk.queue.flatMap (fun c => c.schedule.map Entry.state) = [.held]) ∧
    (halted.sup.tunnel = .halted .running ∧ (tabGet halted.seq.units 4).state = .idle ∧
      halted.trk.queue.flatMap (fun c => c.schedule.map Entry.state) = [.interrupted]) := by decide +kernel

/-- Section 5.9, steps 4 to 7: RESTART lands in PAUSED, the exit eye's clearing in STARTING, the expiry revives the entry and
arms the station, the proof fires it. -/
theorem test_revival_5_9 :
    let s := { firing with inputs.eyes := { clearEyes with exit := true }, trk.eyes := { firing.trk.eyes with exit := some .blocked } }
    let halted := after .estopLoopOpen (driveLines (raiseIncident ⟨.exitBlocked, none, some .exit, none, none, none⟩ s))
    let restarted := after (.restart .p0) (after (.ackIncident .p0 2) (after .estopLoopClose halted))
    let cleared := after .exitEyeClearEdge restarted
    let started := after .startTimerExpiry cleared
    let proved := after (.proofAssert 4) started
    restarted.sup.tunnel = .paused .running ∧ cleared.sup.tunnel = .starting .running ∧
      (tabGet started.seq.units 4).state = .arming ∧
      started.trk.queue.flatMap (fun c => c.schedule.map Entry.state) = [.pending] ∧
      (tabGet proved.seq.units 4).state = .firing ∧ tabGet proved.out.stations 4 = ⟨true, true, 3072⟩ := by
  decide +kernel

/-- Every end of an entry at a close, at one past-close car of station 4. -/
theorem witness_CloseEndsOpenEntries :
    (carAt 51 10300 4 3 .active).schedule[0]? = some ⟨4, 3, .active, none⟩ ∧
    pastClose (tabGet firing.seq.table 4) (carAt 51 10300 4 3 .active) = true ∧
    pastClose (tabGet firing.seq.table 4) (carAt 51 10299 4 3 .active) = false ∧
    (tabGet (withStation 4 arch .fault State.reset).seq.units 4).state = .fault ∧
    (tabGet (withStation 4 arch .offLine State.reset).seq.units 4).state = .offLine ∧
    (tabGet firing.seq.units 4).state ∉ [StationState.fault, .offLine] ∧ isOpen .done = false := by decide +kernel

/-- Station 4 in a state of a running tunnel with tag 51 at a front, its entry in a state. -/
def atArch (st : StationState) (front : Nat) (e : EntryState) : State :=
  withStation 4 arch st (running [carAt 51 front 4 3 e])

theorem witness_StationsArmServeAndRest :
    ((tabGet (atArch .idle 5400 .pending).seq.units 4).state = .idle ∧
      (atArch .idle 5400 .pending).sup.tunnel.runs = true ∧ wanted (atArch .idle 5400 .pending) 4 = true) ∧
    (wanted (atArch .idle 5399 .pending) 4 = false ∧ (tabGet (atArch .ready 5400 .pending).seq.units 4).state ≠ .idle ∧
      State.reset.sup.tunnel.runs = false) ∧
    (testArmAll (atArch .idle 5400 .pending)).sup.tunnel.runs = true ∧
      wanted (testArmAll (atArch .idle 5400 .pending)) 4 = true ∧
    ((tabGet (atArch .firing 5800 .active).seq.units 4).state = .firing ∧
      (tabGet (atArch .ready 5800 .pending).seq.units 4).state = .ready ∧
      activeCount (atArch .ready 5799 .pending) 4 = 0 ∧
      0 < activeCount (activate 4 (atArch .ready 5800 .pending)) 4 ∧
      (tabGet (atArch .held 5800 .pending).seq.units 4).state ∉ [StationState.ready, .firing]) ∧
    (activeCount (atArch .firing 5800 .done) 4 = 0 ∧ wanted (atArch .firing 5800 .done) 4 = false ∧
      wanted (atArch .firing 5800 .pending) 4 = true ∧ 0 < activeCount (atArch .firing 5800 .active) 4) ∧
    ((tabGet (atArch .ready 5800 .done).seq.units 4).state ∈ [StationState.arming, .retryWait, .ready] ∧
      activeCount (atArch .ready 5800 .done) 4 = 0 ∧ wanted (atArch .ready 5800 .done) 4 = false ∧
      (tabGet (atArch .idle 5400 .pending).seq.units 4).state ∉ [StationState.arming, .retryWait, .ready]) := by
  decide +kernel

/-- Section 5.8, step 6: tag 51 closes DONE and the intensity falls to the level of tag 52. -/
theorem test_close_5_8 :
    let t := after .encoderPulse (withStation 4 arch .firing
      (running [carAt 51 10299 4 3 .active, { carAt 52 5899 4 1 .active with length := some 3800 }]))
    t.trk.queue.flatMap (fun c => c.schedule.map Entry.state) = [.done, .active] ∧
      tabGet t.out.stations 4 = ⟨true, true, 1024⟩ := by decide +kernel

/-- The brush of section 6.6 FIRING at level 3. -/
def brushing (vAvg : Nat) : State :=
  driveLines { withStation 8 brushStation .firing (running [carAt 60 7500 8 3 .active]) with pace.vAvg := vAvg }

theorem witness_BrushCommandFollowsBelt :
    (tabGet (brushing 30).seq.table 8).gear = .brush brush ∧ (brushing 30).sup.tunnel.runs = true ∧
    (tabGet (brushing 30).seq.units 8).state = .firing ∧ 3 ∈ activeLevels (brushing 30) 8 ∧
    (∀ x ∈ activeLevels (brushing 30) 8, x ≤ 3) ∧ brush.brMin ≤ brush.brMax ∧
    ((on .stopped).sup.tunnel.runs = false) ∧
    activeLevels (withStation 8 brushStation .firing (on .running)) 8 = [] ∧
    (tabGet (withStation 8 brushStation .ready (on .running)).seq.units 8).state ∈ [StationState.arming, .ready] ∧
    (tabGet (withStation 8 brushStation .held (on .running)).seq.units 8).state ∈
      [StationState.idle, .retryWait, .held, .fault, .offLine] := by decide +kernel

theorem witness_OutputLinesFollowState :
    (LinesFollow claimed ∧ LinesFollow inReset) ∧
    ((tabGet firing.seq.table 4).gear = .spray Config.defaultLevels ∧ (tabGet firing.seq.units 4).state = .firing ∧
      3 ∈ activeLevels firing 4 ∧ (∀ m ∈ activeLevels firing 4, m ≤ 3) ∧
      (tabGet (withStation 4 arch .ready State.reset).seq.units 4).state ≠ .firing) ∧
    ((tabGet (brushing 30).seq.table 8).gear = .brush brush ∧
      (tabGet (withStation 8 brushStation .held (on .running)).seq.units 8).state ∈
        [StationState.idle, .retryWait, .held, .fault, .offLine] ∧
      (on .running).sup.tunnel.runs = true ∧
      (tabGet (withStation 8 brushStation .ready (on .running)).seq.units 8).state ∈ [StationState.arming, .ready]) := by
  unfold LinesFollow; decide +kernel

/-- Section 6.6: at v_avg 30 the command is 1171, E 885, over 1785, under 385; at 8 the command stays BRMIN. -/
theorem test_brush_6_6 :
    tabGet (brushing 30).pace.brushes 8 = some ⟨1171, 885, 1785, 385⟩ ∧
    tabGet (brushing 8).pace.brushes 8 = some ⟨400, 500, 1400, 0⟩ := by decide +kernel

/-- Section 6.8: the limits of the arithmetic. -/
theorem test_brush_6_8 :
    rawCommand 1023 65535 4 = 392826 ∧
    paceOfCommand { brush with icA := 4095, icB := 4095, slackMargin := 0 } 4095 = ⟨4095, 4095, 4095, 4095⟩ := by decide

theorem witness_QualifierDecidesCollision :
    (⟨true, false, false⟩ : Signals) = ⟨true, false, false⟩ ∧ (⟨true, true, false⟩ : Signals) ≠ ⟨false, false, false⟩ := by
  decide

/-! ### Witnesses: status reads and sales -/

theorem witness_TunnelStatusReportsAndClearsFlag : Reaches .p2 .tunnelStatus State.reset := by
  unfold Reaches; decide +kernel

/-- The last save was done (code 1 of R199). -/
def saved : State := { State.reset with store.lastOutcome := .done }

theorem witness_ListReadsAnswerAndChangeNothing :
    (Reaches .p0 .carList (running fullQueue) ∧
      (running fullQueue).trk.queue = fullQueue.take 3 ++ plainCar 4 19500 :: fullQueue.drop 4 ∧
      (∀ x ∈ fullQueue.take 3, x.tag ≠ 4)) ∧
    (Reaches .p4 .incidentList fullList ∧ 7 ≤ 7) ∧ (Reaches .p4 .creditList sixteenCredits ∧ 15 ≤ 15) ∧
    (Reaches .p2 .laneStatus State.reset ∧ laneOfPort .p2 = some .b ∧ (none : Option Nat) = none) ∧
    (Reaches .p0 .laneStatus State.reset ∧ laneOfPort .p0 = none ∧ some 2 = some (laneCode .c)) ∧
    (State.reset.sales.lastSale.get .b = none ∧
      (let s := { State.reset with sales.lastSale := ⟨none, some ⟨5230, 88⟩, none⟩ }
        ; Reaches .p2 .laneStatus s ∧ s.sales.lastSale.get .b = some ⟨5230, 88⟩)) ∧
    Reaches .p0 .stationStatus State.reset ∧ Reaches .p2 .planList State.reset := by unfold Reaches; decide +kernel

/-- The station form of a SPRAY and of a BRUSH station, and the refusals of the reads. -/
theorem witness_ListReadsAnswerAndChangeNothing_refusals :
    (Reaches .p0 .stationStatus firing ∧ (tabGet firing.seq.table 4).gear = .spray Config.defaultLevels) ∧
    ((tabGet (brushing 30).seq.table 8).gear = .brush brush ∧
      tabGet (brushing 30).pace.brushes 8 = some ⟨1171, 885, 1785, 385⟩ ∧
      Slot.idle = tabGet (brushing 30).mon brush.slot) ∧
    (Reaches .p0 .carList (running fullQueue) ∧ (∀ car ∈ (running fullQueue).trk.queue, car.tag ≠ 13) ∧
      ∃ car ∈ (running fullQueue).trk.queue, car.tag = 12) ∧
    (Reaches .p0 .incidentList State.reset ∧ 7 < 8 ∧ Reaches .p0 .creditList State.reset ∧ 15 < 16) ∧
    (Reaches .p0 .laneStatus State.reset ∧ laneOfPort .p0 = none ∧ 2 < 3) ∧
    (Reaches .p0 .planList State.reset ∧ 12 < 13 ∧ 24 < 25) := by unfold Reaches; decide +kernel

/-- R188, R202: the station form has 28 bytes with the result, and 51 for a BRUSH station. -/
theorem test_station_form_lengths :
    ((after (.stationStatus .p0 (some 4)) firing).ports.p0.tx.map fun f => f.payload.length) = [28] ∧
    ((after (.stationStatus .p0 (some 8)) (brushing 30)).ports.p0.tx.map fun f => f.payload.length) = [51] := by
  decide +kernel

/-- R202: TUNNEL_STATUS has 28 bytes with the result, and a page carries the number listed, the count of the items that follow and the first
index (log entry 7); the last page of eight records is indices 4 to 7. -/
theorem test_status_bytes :
    ((after (.tunnelStatus .p0) saved).ports.p0.tx.map fun f => (f.payload.length, f.payload.getLast?)) =
      [(28, some 1)] ∧
    ((after (.incidentList .p0 4) fullList).ports.p0.tx.map fun f => f.payload.take 4) = [[0, 8, 4, 4]] ∧
    ((after (.creditList .p4 15) sixteenCredits).ports.p4.tx.map fun f => f.payload.take 4) = [[0, 16, 1, 15]] := by
  decide +kernel

/-- A read copy of the console, number 255. -/
def copied : State := { State.reset with sales.consoleCopy := ⟨some (255, Tally.zero), 1⟩ }

theorem witness_TallyReadTakesAndClears :
    (Reaches .p0 .tallyRead State.reset ∧ 1 ≤ 1 ∧ 1 ≤ 3) ∧ (Reaches .p4 .tallyRead State.reset ∧ 1 ≤ 3 ∧ 3 ≤ 3) ∧
    (Reaches .p0 .tallyRead copied ∧ (copyUnit .p0 copied).copy = some (255, Tally.zero)) ∧
    (copyUnit .p0 State.reset).copy = none := by unfold Reaches; decide +kernel

/-- Section 4.8, start. -/
def shop : State :=
  { State.reset with
    sales.plans := tabSet State.reset.sales.plans 3 ⟨.onSale, [], 1200, 3, 3⟩
    sales.store := [⟨2, 2⟩, ⟨5, 3⟩, ⟨9, 1⟩]
    sales.services :=
      tabSet (tabSet State.reset.sales.services 10 ⟨some 300, 4⟩) 13 ⟨some 250, 2⟩
    sales.credits := [⟨41, 1000, some 3987, some 2⟩, ⟨42, 600, none, none⟩]
    sales.saleCounter := 5230
    sales.lanes := ⟨[], [ticket 5227 (.lane .b) 900, { ticket 5229 (.lane .b) 900 with plan := 2 }], []⟩ }

def buy48 : Purchase := ⟨4, [⟨11, 2⟩, ⟨14, 3⟩], 41⟩

/-- What the purchase of section 4.8, step 1, costs. -/
def priced48 : Priced := ⟨3, [⟨11, 2⟩, ⟨14, 3⟩], 1750, 1000, 750, 2⟩

/-- Section 4.8, steps 1 and 2: subtotal 1750, credit 1000, total 750, class 2. -/
theorem test_price_4_8 : pricePurchase buy48 shop = .ok priced48 := by rfl

/-- The last clause of CreditIssueDropsThenAllocates: credit 43 is not listed, the purchase is good without it. -/
theorem witness_CreditIssueDropsThenAllocates_sell :
    Reaches .p2 .sell shop ∧ LinesFollow shop ∧ laneOfPort .p2 = some .b ∧
    pricePurchase { plan := 4, addOns := [⟨11, 2⟩, ⟨14, 3⟩], credit := 0 } shop =
      .ok { priced48 with credit := 0, total := 1750 } ∧
    ∀ c ∈ shop.sales.credits, c.number ≠ 43 := by
  refine ⟨?_, ?_, by decide, by rfl, by decide⟩
  · unfold Reaches; decide +kernel
  · unfold LinesFollow; decide +kernel

/-- Section 4.8, step 2, with the tallies of section 9.4, step 1. -/
theorem test_sell_4_8 :
    let t := after (.sell .p2 none buy48 88) shop
    t.sales.lanes.b.map Ticket.sale = [5227, 5229, 5230] ∧ t.sales.credits.map Credit.number = [42] ∧
      t.sales.saleCounter = 5231 ∧ t.sales.lastSale.b = some ⟨5230, 88⟩ ∧
      t.sales.lanes.b.getLast?.map Ticket.list = some [⟨2, 2⟩, ⟨5, 3⟩, ⟨9, 1⟩, ⟨11, 2⟩, ⟨14, 3⟩] ∧
      (tabGet t.sales.tally.plans 3).sold = 1 ∧ (tabGet t.sales.tally.plans 3).revenue = 750 ∧
      t.sales.tally.addOns = 2 ∧ t.sales.tally.addOnRevenue = 550 ∧ t.sales.tally.redeemed = 1 := by decide +kernel

/-- Section 4.8, step 3: the credit has gone, so the SELL is refused NOT_FOUND. -/
theorem test_sell_credit_gone_4_8 :
    let t := after (.sell .p2 none ⟨4, [⟨14, 6⟩], 41⟩ 0) (after (.sell .p2 none buy48 88) shop)
    t.sales.lanes.b.length = 3 ∧ t.ports.p2.tx.map Frame.payload = [[0, 20, 110, 0, 0, 2, 238, 2], [6]] := by
  decide +kernel

/-- Section 4.8, steps 6 and 8: VOID of 5229 counts 900 cents; ADD_SERVICE makes the ticket's paid amount 1500. -/
theorem test_void_and_add_4_8 :
    let s := after (.sell .p2 none ⟨4, [], 0⟩ 89) (after (.sell .p2 none buy48 88) shop)
    let t := after (.void .p2 5229) s
    let u := after (.addService .p2 5231 11 2) t
    t.sales.lanes.b.map Ticket.sale = [5227, 5230, 5231] ∧ t.sales.tally.voids = 1 ∧ t.sales.tally.voidValue = 900 ∧
      u.sales.lanes.b.getLast?.map (fun x => (x.paid, x.cls, x.list.length)) = some (1500, 3, 4) := by decide +kernel

theorem witness_QuoteTestsAndPrices :
    (Reaches .p2 .quote shop ∧ planIndex 0 = none ∧ planIndex 13 = none ∧
      2 < [(⟨1, 1⟩ : RawPair), ⟨2, 1⟩, ⟨3, 1⟩].length ∧ codeIndex 25 = none) ∧
    (buy48.plan = (3 : Fin 12).val + 1 ∧ buy48.addOns.length ≤ 2 ∧ (∀ q ∈ buy48.addOns, 1 ≤ q.code ∧ q.code ≤ 24)) ∧
    ((tabGet shop.sales.plans 0).state ≠ .onSale ∧ (tabGet shop.sales.plans 3).state = .onSale) ∧
    addOnPrice shop 12 = none ∧ (∀ q ∈ buy48.addOns, addOnPrice shop q.code ≠ none) ∧
    ((∀ q ∈ buy48.addOns, ∀ e ∈ planList shop 3, e.code ≠ q.code) ∧ (buy48.addOns.map RawPair.code).Nodup) ∧
    ¬([(⟨11, 1⟩ : RawPair), ⟨11, 2⟩].map RawPair.code).Nodup ∧
    ((40 : Nat) ≠ 0 ∧ ∀ c ∈ shop.sales.credits, c.number ≠ 40) ∧
    (buy48.credit ≠ 0 ∧ (shop.sales.credits.find? fun c => c.number == buy48.credit).map Credit.value = some 1000) := by
  unfold Reaches; decide +kernel

/-- Lane B with four tickets. -/
def fullLane : State :=
  { shop with sales.lanes := ⟨[], (List.range 4).map fun n => ticket (5227 + n) (.lane .b) 900, []⟩ }

theorem witness_SellPutsATicketInTheLane :
    (Reaches .p2 .sell shop ∧ laneOfPort .p2 = some .b ∧ pricePurchase buy48 shop = .ok priced48 ∧
      (shop.sales.lanes.get .b).length < 4) ∧
    (laneOfPort .p0 = none ∧ some 1 = some (laneCode .b)) ∧
    (pricePurchase buy48 fullLane = .ok priced48 ∧ 4 ≤ (fullLane.sales.lanes.get .b).length ∧ LinesFollow fullLane) := by
  unfold Reaches LinesFollow
  exact ⟨⟨by decide +kernel, by decide, by rfl, by decide +kernel⟩, by decide, by rfl, by decide +kernel,
    by decide +kernel⟩

/-- The refusals of a SELL by tests 1 to 5 of R68, on lane port P2 and on the console. -/
theorem witness_SellPutsATicketInTheLane_refusals :
    (Reaches .p0 .sell shop ∧ Reaches .p2 .sell shop ∧ LinesFollow shop ∧ laneOfPort .p0 = none ∧ 2 < 3) ∧
    (planIndex 13 = none ∧ codeIndex 25 = none ∧ (tabGet shop.sales.plans 0).state ≠ .onSale ∧
      buy48.plan = (3 : Fin 12).val + 1 ∧ (tabGet shop.sales.plans 3).state = .onSale ∧ addOnPrice shop 12 = none ∧
      (∀ q ∈ buy48.addOns, addOnPrice shop q.code ≠ none) ∧
      ¬([(⟨11, 1⟩ : RawPair), ⟨11, 2⟩].map RawPair.code).Nodup ∧ ∃ e ∈ planList shop 3, e.code = 9) := by
  unfold Reaches LinesFollow; decide +kernel

theorem witness_VoidAndLaneResetTakeTickets :
    (Reaches .p2 .void shop ∧ laneOfPort .p2 = some .b ∧
      queuedTicket shop .b 5229 = some { ticket 5229 (.lane .b) 900 with plan := 2 }) ∧
    (Reaches .p0 .void shop ∧ laneOfPort .p0 = none ∧ ∀ l ∈ allLanes, l ≠ .b → queuedTicket shop l 5227 = none) ∧
    (Reaches .p1 .void shop ∧ LinesFollow shop ∧
      ∀ l ∈ allLanes, laneOfPort .p1 = none ∨ laneOfPort .p1 = some l → queuedTicket shop l 5227 = none) ∧
    Reaches .p0 .laneReset shop ∧ (mergeGrant.ent.grant = some ⟨.b, 5102⟩ ∧ shop.ent.grant = none) := by
  unfold Reaches LinesFollow; decide +kernel

/-- Section 4.9, start: three stations, tags 41 and 42. -/
def conveyor : State :=
  driveLines { running
      [{ plainCar 41 4700 with
          cls := 3
          ticket := some { ticket 5225 (.lane .a) 1500 with list := [⟨2, 2⟩, ⟨5, 3⟩, ⟨9, 1⟩, ⟨11, 2⟩] } },
        plainCar 42 4650] with
    sales := { shop.sales with
      lanes := ⟨[], [{ ticket 5227 (.lane .b) 900 with plan := 2, list := [⟨11, 2⟩, ⟨14, 1⟩], cls := 2 }], []⟩ }
    seq.table :=
      tabSet (tabSet (tabSet State.reset.seq.table 3 { StationRec.blank with code := 14, sp := 5200, pre := 300 }) 6
        { StationRec.blank with code := 11, sp := 9000, pre := 400 }) 10
        { StationRec.blank with code := 14, sp := 15000, pre := 500 } }

/-- Section 4.9, step 1: the front has reached the commit point of station 3, so the add-on is refused TOO_LATE. -/
theorem test_add_too_late_4_9 :
    (after (.addService .p0 5225 14 2) conveyor).ports.p0.tx.map Frame.payload = [[8, 3]] ∧
    (after (.addService .p0 5225 14 2) conveyor).trk.queue = conveyor.trk.queue := by decide +kernel

/-- Section 4.9, step 2: tag 42 takes 5227 with stations 6 and 10, one station omitted, and class 2. -/
theorem test_attach_4_9 :
    let t := after (.attachLane .p0 42 1) conveyor
    t.ports.p0.tx.map Frame.payload = [[0, 42, 20, 107, 1, 2]] ∧ t.sales.lanes.b = [] ∧
      (carOf t 42).map (fun c => c.schedule.map fun e => (e.station.val, e.level)) = some [(6, 2), (10, 1)] ∧
      t.pace.resolved = 2 := by decide +kernel

theorem witness_AddServiceExtendsTheTicket :
    (Reaches .p2 .addService shop ∧
      namedTicket .p2 shop 5227 = some (.queued .b (ticket 5227 (.lane .b) 900)) ∧ addOnPrice shop 14 = some 250 ∧
      (∀ e ∈ (ticket 5227 (.lane .b) 900).list, e.code ≠ 14) ∧ (ticket 5227 (.lane .b) 900).list.length < 12) ∧
    (∃ car x, namedTicket .p0 conveyor 5225 = some (.bound car x) ∧ x.sale = 5225 ∧ LinesFollow conveyor ∧
      servingStations conveyor 14 = [] ++ (3 : Fin 16) :: [10] ∧
      commitPoint conveyor.sup.consts (tabGet conveyor.seq.table 3) ≤ car.front ∧
      (∀ i ∈ servingStations conveyor 20, car.front < commitPoint conveyor.sup.consts (tabGet conveyor.seq.table i))) := by
  unfold Reaches LinesFollow
  exact ⟨by decide +kernel, ⟨_, _, rfl, by decide +kernel, by decide +kernel, by decide +kernel, by decide +kernel,
    by decide +kernel⟩⟩

/-- The refusals of R74, in order: an unknown number, another lane's ticket, a code without a price, a code in the list, a
list of 12. -/
theorem witness_AddServiceExtendsTheTicket_refusals :
    (Reaches .p2 .addService shop ∧ LinesFollow shop ∧
      (∀ l ∈ allLanes, ∀ t ∈ shop.sales.lanes.get l, t.sale ≠ 5230) ∧
      (∀ car ∈ shop.trk.queue, ∀ t, car.ticket = some t → t.sale ≠ 5230)) ∧
    (Reaches .p1 .addService shop ∧ laneOfPort .p1 = some .a ∧
      ticketPlace shop 5227 = some (.queued .b (ticket 5227 (.lane .b) 900))) ∧
    (laneOfPort .p2 = some .b ∧ (ticket 5227 (.lane .b) 900).lane = .lane .b ∧ addOnPrice shop 12 = none ∧
      addOnPrice shop 11 ≠ none ∧ (∃ e ∈ (ticket 5227 (.lane .b) 900).list, e.code = 11)) ∧
    (let t := { ticket 5227 (.lane .b) 900 with list := (List.range 12).map fun n => ⟨n + 1, 1⟩ }
      let s := { shop with sales.lanes := ⟨[], [t], []⟩ }
      ; ticketPlace s 5227 = some (.queued .b t) ∧ addOnPrice s 14 ≠ none ∧ (∀ e ∈ t.list, e.code ≠ 14) ∧
        12 ≤ t.list.length) := by
  unfold Reaches LinesFollow
  exact ⟨⟨by decide +kernel, by decide +kernel, by decide +kernel, nofun⟩, by decide +kernel, by decide +kernel,
    by decide +kernel⟩

theorem witness_AttachBindsATicket :
    (Reaches .p0 .attach conveyor ∧ carOf conveyor 42 = some (plainCar 42 4650) ∧ (plainCar 42 4650).ticket = none ∧
      (conveyor.sales.lanes.get .b).head?.isSome = true) ∧
    pricePurchase buy48 conveyor = .ok priced48 ∧
    (LinesFollow conveyor ∧ carOf conveyor 43 = none ∧ ((carOf conveyor 41).bind Car.ticket).isSome = true) := by
  unfold Reaches LinesFollow
  exact ⟨by decide +kernel, by rfl, by decide +kernel⟩

/-- The refusals of R80 and R81 for the unticketed record of tag 42: lane 3, the empty lane A, and each test of R68. -/
theorem witness_AttachBindsATicket_refusals :
    (carOf conveyor 42 = some (plainCar 42 4650) ∧ LinesFollow conveyor ∧ 2 < 3 ∧ conveyor.sales.lanes.get .a = []) ∧
    (planIndex 13 = none ∧ codeIndex 25 = none ∧ (tabGet conveyor.sales.plans 0).state ≠ .onSale ∧
      buy48.plan = (3 : Fin 12).val + 1 ∧ (tabGet conveyor.sales.plans 3).state = .onSale ∧
      addOnPrice conveyor 12 = none ∧ (∀ q ∈ buy48.addOns, addOnPrice conveyor q.code ≠ none) ∧
      (∀ q ∈ buy48.addOns, ∀ e ∈ planList conveyor 3, e.code ≠ q.code) ∧ (buy48.addOns.map RawPair.code).Nodup ∧
      ¬([(⟨11, 1⟩ : RawPair), ⟨11, 2⟩].map RawPair.code).Nodup ∧ ∀ c ∈ conveyor.sales.credits, c.number ≠ 40) := by
  unfold LinesFollow; decide +kernel

/-! ### Witnesses: the console's requests and tunnel control -/

def pausedBy : State := driveLines (listing [incident 35 .exitBlocked .pause] (on (.paused .running)))

theorem witness_AcknowledgementRemovesRecords :
    (Reaches .p0 .ackIncident fullList ∧
      fullList.sup.incidents = fullList.sup.incidents.take 6 ++ incident 36 .estop .halt ::
        fullList.sup.incidents.drop 7 ∧
      (∀ x ∈ fullList.sup.incidents.take 6, x.number ≠ 36) ∧ (∀ x ∈ fullList.sup.incidents.drop 7, x.number ≠ 36) ∧
      fullList.inputs.estopClosed = true ∧ IncidentKind.estop ≠ .exitBlocked) ∧
    (let s := { fullList with inputs.estopClosed := false }; Reaches .p0 .ackIncident s ∧ LinesFollow s ∧ s.inputs.estopClosed = false) ∧
    (LinesFollow fullList ∧ ∀ x ∈ fullList.sup.incidents, x.number ≠ 38) ∧
    ([incident 35 .exitBlocked .pause] = [] ++ incident 35 .exitBlocked .pause :: [] ∧
      (on (.paused .running)).sup.tunnel = .paused .running ∧ pauseListed (on (.paused .running)) = false ∧
      (on (.paused .running)).sup.manual = false ∧ pauseListed pausedBy = true) := by
  unfold Reaches LinesFollow; decide +kernel

theorem witness_LaneFlagsEnableAndDisable :
    Reaches .p0 .laneEnable State.reset ∧
    (Reaches .p0 .laneDisable mergeGrant ∧ mergeGrant.ent.grant = some ⟨.b, 5102⟩) ∧
    (Reaches .p0 .laneDisable State.reset ∧ State.reset.ent.grant = none) ∧
    (2 < 3 ∧ LinesFollow State.reset ∧ Reaches .p0 .laneReset State.reset) := by
  unfold Reaches LinesFollow; decide +kernel

/-- Nine ticketed records in a halted tunnel (section 10.8). -/
def nineCars : State :=
  driveLines { on (.halted .running) with
    trk.queue := (List.range 9).map fun n =>
      { carAt (n + 1) (20000 - 1500 * n) 4 1 .interrupted with ticket := some (ticket (n + 1) (.lane .a) 900) } }

theorem witness_TunnelClearEmptiesTheQueue :
    (Reaches .p0 .tunnelClear nineCars ∧ nineCars.sup.tunnel.isHalted = true ∧ (on .stopped).sup.tunnel = .stopped) ∧
    ((ticket 1 (.lane .a) 900).paid > 0 ∧ ∃ e ∈ (carAt 1 20000 4 1 .interrupted).schedule, e.state ≠ .done) ∧
    (Reaches .p0 .tunnelClear (on .running) ∧ LinesFollow (on .running) ∧ (on .running).sup.tunnel ≠ .stopped ∧
      (on .running).sup.tunnel.isHalted = false) := by unfold Reaches LinesFollow; decide +kernel

/-- Section 10.8, step 1: nine cleared, nine credits; seven notices and the answer on P0, the flags of P0 and P4 set. -/
theorem test_tunnel_clear_10_8 :
    let t := after (.tunnelClear .p0) nineCars
    t.ports.p0.tx.length = 8 ∧ t.ports.p0.tx.getLast?.map Frame.payload = some [0, 9, 9] ∧
      t.ports.p4.tx.length = 7 ∧ t.ports.p0.overflow = true ∧ t.ports.p4.overflow = true ∧ t.trk.queue = [] ∧
      t.sales.credits.length = 9 := by decide +kernel

theorem witness_StationOffOnAndReset :
    (Reaches .p0 .stationOff firing ∧ (tabGet firing.seq.units 4).state ≠ .offLine) ∧
    (tabGet (withStation 4 arch .offLine State.reset).seq.units 4).state = .offLine ∧
    (Reaches .p0 .stationOn State.reset ∧ Reaches .p0 .stationReset State.reset ∧ LinesFollow State.reset ∧
      (tabGet State.reset.seq.units 4).state ≠ .offLine ∧ (tabGet State.reset.seq.units 4).state ≠ .fault) ∧
    ((tabGet (withStation 4 arch .fault State.reset).seq.units 4).state = .fault ∧ 15 < 16) := by
  unfold Reaches LinesFollow; decide +kernel

theorem witness_OpenFollowsItsTable :
    (Reaches .p0 .openTunnel (heldBy .p0 State.reset) ∧ (heldBy .p0 State.reset).sup.holder = some .p0 ∧
      LinesFollow (heldBy .p0 State.reset) ∧ State.reset.sup.tunnel = .stopped ∧
      State.reset.inputs.estopClosed = true ∧ State.reset.inputs.entrance = false ∧
      State.reset.inputs.eyes = clearEyes ∧ pauseListed State.reset = false) ∧
    pauseListed (listing [incident 1 .exitBlocked .pause] State.reset) = true ∧
    (let s := heldBy .p4 { State.reset with inputs.entrance := true }; Reaches .p4 .openTunnel s ∧ LinesFollow s ∧ s.inputs.entrance = true) ∧
    (let s := heldBy .p0 (on (.halted .stopped)); LinesFollow s ∧ s.sup.tunnel.isHalted = true) ∧
    (let s := heldBy .p0 { State.reset with inputs.estopClosed := false }
      ; Reaches .p0 .openTunnel s ∧ LinesFollow s ∧ s.sup.tunnel = .stopped ∧ s.inputs.estopClosed = false) ∧
    Reaches .p0 .openTunnel (heldBy .p0 (on .draining)) := by unfold Reaches LinesFollow; decide +kernel

/-- OPEN from STOPPED starts the warning of 5 seconds with the horn on and the drive off. -/
theorem test_open_starts :
    let t := after (.openTunnel .p0) (heldBy .p0 State.reset)
    t.sup.tunnel = .starting .running ∧ t.sup.startTimer = some 5 ∧ t.out.horn = true ∧ t.out.drive = false := by
  decide +kernel

theorem witness_DrainStopAndRestart :
    (Reaches .p0 .drain (heldBy .p0 (running fullQueue)) ∧ (running fullQueue).trk.queue ≠ [] ∧
      (on .running).trk.queue = [] ∧ LinesFollow (heldBy .p0 State.reset)) ∧
    (Reaches .p4 .stop (heldBy .p4 State.reset) ∧ LinesFollow (heldBy .p4 fullList) ∧
      (∃ r ∈ fullList.sup.incidents, r.cls = .halt) ∧ fullList.sup.tunnel.isHalted = true) ∧
    (Reaches .p0 .stop (heldBy .p0 nineCars) ∧ LinesFollow (heldBy .p0 nineCars) ∧ nineCars.trk.queue ≠ [] ∧
      (∀ r ∈ nineCars.sup.incidents, r.cls ≠ .halt) ∧ nineCars.inputs.estopClosed = true) ∧
    (Reaches .p0 .restart nineCars ∧ nineCars.sup.tunnel = .halted .running ∧ pauseListed nineCars = false ∧
      (on (.halted .stopped)).sup.tunnel = .halted .stopped ∧ (on .running).sup.tunnel.isHalted = false ∧
      LinesFollow (on .running)) ∧
    (let s := driveLines (listing [incident 35 .exitBlocked .pause] (on (.halted .draining))); Reaches .p0 .restart s ∧ pauseListed s = true ∧ ∀ r ∈ s.sup.incidents, r.cls ≠ .halt) := by
  unfold Reaches LinesFollow; decide +kernel

theorem witness_PauseAndResumeKeepTheTarget :
    (Reaches .p0 .pause (on .running) ∧ (on .running).sup.tunnel = .running) ∧
    (Reaches .p4 .pause (heldBy .p4 (on (.starting .draining))) ∧
      (heldBy .p4 (on (.starting .draining))).sup.holder = some .p4) ∧
    (Reaches .p0 .pause pausedBy ∧ pausedBy.sup.tunnel = .paused .running ∧ pauseListed pausedBy = true) ∧
    (Reaches .p0 .pause State.reset ∧ LinesFollow State.reset) ∧
    (Reaches .p0 .resume (on (.paused .draining)) ∧ pauseListed (on (.paused .draining)) = false) ∧
    (∀ m, (on .running).sup.tunnel ≠ .paused m) := by
  unfold Reaches LinesFollow
  exact ⟨by decide +kernel, by decide +kernel, by decide +kernel, by decide +kernel, by decide +kernel, nofun⟩

theorem witness_ForcedClassDrivesTheConveyor :
    (Reaches .p0 .forceSpeed (heldBy .p0 State.reset) ∧ (heldBy .p0 State.reset).sup.holder = some .p0) ∧
    Reaches .p4 .releaseSpeed (heldBy .p4 (running fullQueue)) ∧ State.reset.trk.queue = [] := by
  unfold Reaches; decide +kernel

/-- FORCE_SPEED of class 9 forces class 4: 2900; of class 0, class 1: 1400 (R114, the defaults of R196). -/
theorem test_force_speed :
    (after (.forceSpeed .p0 0) (heldBy .p0 State.reset)).out.speed = 1400 ∧
    (after (.forceSpeed .p0 9) (heldBy .p0 State.reset)).out.speed = 2900 := by decide +kernel

/-! ### Witnesses: settings -/

/-- Section 3.8, start: plans 2, 3, 5, 7 and 9 with lists of 4, 6, 8, 5 and 10 entries. -/
def plansOf38 : State :=
  let put (i : Fin 12) (st : PlanState) (n : Nat) (t : Tab 12 Plan) := tabSet t i ⟨st, [], 100, 4, n⟩
  { State.reset with
    sales.plans := put 8 .onSale 10 (put 6 .draft 5 (put 4 .withdrawn 8 (put 2 .onSale 6 (put 1 .onSale 4
      State.reset.sales.plans))))
    sales.store := (List.range 33).map fun n => ⟨n, 1⟩ }

def three : List RawPair := [⟨1, 0⟩, ⟨24, 9⟩, ⟨7, 4⟩]

theorem witness_PlanRequestsFollowTheirTests :
    (State.reset.store.writing = none ∧ Reaches .p4 .definePlan State.reset ∧ Reaches .p4 .erasePlan State.reset ∧
      Reaches .p4 .publish State.reset ∧ Reaches .p4 .withdraw State.reset ∧ 12 < 13) ∧
    (Reaches .p4 .definePlan plansOf38 ∧ plansOf38.store.writing = none ∧
      (tabGet plansOf38.sales.plans 2).state = .onSale ∧ (tabGet plansOf38.sales.plans 4).state = .withdrawn ∧
      (tabGet plansOf38.sales.plans 6).state = .draft ∧ (tabGet plansOf38.sales.plans 0).state = .empty) ∧
    (1 ≤ three.length ∧ three.length ≤ 10 ∧ (∀ q ∈ three, 1 ≤ q.code ∧ q.code ≤ 24) ∧ [32, 126].length ≤ 16 ∧
      (∀ c ∈ [32, 126], 32 ≤ c ∧ c ≤ 126) ∧ (three.map RawPair.code).Nodup ∧
      ¬([(⟨1, 1⟩ : RawPair), ⟨1, 2⟩].map RawPair.code).Nodup) ∧
    (plansOf38.sales.store = plansOf38.sales.store.take 10 ++ (plansOf38.sales.store.drop 10).take 8 ++
        plansOf38.sales.store.drop 18 ∧
      (plansOf38.sales.store.take 10).length = planOffset plansOf38.sales.plans 4 ∧
      ((plansOf38.sales.store.drop 10).take 8).length = (tabGet plansOf38.sales.plans 4).len ∧
      (plansOf38.sales.store.take 10).length + three.length + (plansOf38.sales.store.drop 18).length ≤ 96) ∧
    (let s := { (onePlan .draft) with sales.store := List.replicate 96 ⟨11, 2⟩ }
      ; s.sales.store = [] ++ List.replicate 2 ⟨11, 2⟩ ++ List.replicate 94 ⟨11, 2⟩ ∧
        planOffset s.sales.plans 1 = 0 ∧ (tabGet s.sales.plans 1).len = 2 ∧ 96 < 0 + three.length + 94) := by
  unfold Reaches; decide +kernel

/-- Section 3.8, steps 1 and 4: the store count becomes 28, plan 9 moves from 23 to 18; erasing plan 7 leaves 23. -/
theorem test_repack_3_8 :
    let t := after (.definePlan .p4 5 [] 500 9 three) plansOf38
    let u := after (.erasePlan .p4 7) t
    t.sales.store.length = 28 ∧ planOffset t.sales.plans 8 = 18 ∧
      planList t 4 = [⟨1, 1⟩, ⟨24, 4⟩, ⟨7, 4⟩] ∧ planList t 8 = planList plansOf38 8 ∧
      (tabGet t.sales.plans 4).state = .draft ∧ (tabGet t.sales.plans 4).cls = 4 ∧
      u.sales.store.length = 23 ∧ planList u 8 = planList plansOf38 8 := by decide +kernel

/-- R49: ERASE_PLAN of an EMPTY plan answers its state (0). -/
theorem test_erase_empty :
    (after (.erasePlan .p4 12) plansOf38).ports.p4.tx.map Frame.payload = [[0, 12, 0]] := by decide +kernel

theorem test_publish_and_withdraw :
    (tabGet (after (.publish .p4 2) (onePlan .withdrawn)).sales.plans 1).state = .onSale ∧
    (tabGet (after (.withdraw .p4 2) (onePlan .onSale)).sales.plans 1).state = .withdrawn := by decide +kernel

theorem witness_ServiceResponseAndCreditSettings :
    (Reaches .p4 .setService State.reset ∧ State.reset.store.writing = none ∧ Reaches .p4 .setResponse State.reset) ∧
    (IncidentKind.phantom ∉ [IncidentKind.estop, .brushCollision, .carMissing, .conveyorStall, .queueOverflow] ∧
      IncidentKind.phantom ≠ .exitBlocked ∧ IncidentKind.phantom ∉ [IncidentKind.unpaidEntry, .shortObject]) ∧
    (IncidentKind.exitBlocked = .exitBlocked ∧ 11 < 12 ∧ 2 < 3) ∧
    (Reaches .p4 .issueCredit State.reset ∧ 1 ≤ 65535 ∧ 65535 ≤ 65535 ∧ 12 ≤ 12 ∧ 65535 < 65536 ∧ 12 < 13) := by
  unfold Reaches; decide +kernel

theorem test_set_service_clamps :
    tabGet (after (.setService .p4 11 1 300 9) State.reset).sales.services 10 = ⟨some 300, 4⟩ ∧
    tabGet (after (.setService .p4 24 0 65535 0) State.reset).sales.services 23 = ⟨none, 1⟩ := by decide +kernel

theorem test_set_response : (after (.setResponse .p4 6 0) State.reset).sup.response.phantom = .notice ∧
    (after (.setResponse .p4 1 0) State.reset).sup.response.estop = .halt := by decide +kernel

def rawArch : RawStation := ⟨6, 0, 6000, 200, 300, 1, 1500, 2, .levels ⟨1024, 2048, 3072, 4095⟩⟩
def rawBrush : RawStation :=
  ⟨9, 1, 7400, 200, 300, 0, 1500, 2, .brush ⟨2, 8000, 400, 3000, 300, 2048, 900, 500, 3, 30, 20, 0, 1⟩⟩

theorem witness_StationRecordsAreClamped :
    (Reaches .p4 .setStation State.reset ∧ State.reset.store.writing = none ∧ LinesFollow State.reset ∧
      stationForm rawArch = true ∧ stationForm rawBrush = true ∧ 15 < 16 ∧
      stationForm { rawBrush with gear := .brush ⟨6, 0, 0, 0, 0, 0, 0, 0, 0, 0, 0, 0, 0⟩ } = true) ∧
    (stationOperand rawArch = some arch ∧ stationOperand rawBrush = some brushStation) ∧
    (LinesFollow (on .running) ∧ (on .running).sup.tunnel ≠ .stopped) ∧
    (let s := withStation 5 brushStation .idle State.reset
      ; LinesFollow s ∧ (tabGet s.seq.table 5).gear = .brush brush ∧ brushStation.gear = .brush brush ∧
        (5 : Fin 16) ≠ 4) ∧
    (let s := driveLines { State.reset with trk.queue := [carAt 51 7000 4 3 .pending] }
      ; LinesFollow s ∧ arch.code ≠ (tabGet s.seq.table 4).code ∧
        ∃ car ∈ s.trk.queue, ∃ e ∈ car.schedule, e.station = 4) ∧
    (∀ car ∈ State.reset.trk.queue, ∀ e ∈ car.schedule, e.station ≠ 4) ∧
    (∀ b, arch.gear ≠ .brush b) := by
  unfold Reaches LinesFollow
  exact ⟨by decide +kernel, by decide +kernel, by decide +kernel, by decide +kernel, by decide +kernel,
    by decide +kernel, nofun⟩

/-- R87 and R88: SP to TUNNEL_LEN - 1, PRE to 4000, POST to 0, PROOF_WAIT to 100, RETRIES to 3, BRMAX raised to BRMIN. -/
theorem test_station_clamps :
    (tabGet (after (.setStation .p4 4 ⟨6, 0, 65535, 65535, 9, 2, 0, 9, .levels ⟨65535, 0, 0, 0⟩⟩) State.reset).seq.table 4) =
      ⟨6, 23999, 4000, 0, .proofHold, 100, 3, .spray ⟨4095, 0, 0, 0⟩⟩ ∧
    ((tabGet (after (.setStation .p4 8 { rawBrush with
        gear := .brush ⟨2, 0, 900, 100, 0, 0, 0, 0, 0, 0, 99, 1, 7⟩ }) State.reset).seq.table 8).gear.brush?.map
      fun b => (b.brMin, b.brMax, b.jamMargin, b.jamN, b.slackN, b.jamBlank)) = some (900, 900, 50, 1, 1, 50) := by
  decide +kernel

theorem witness_ConstantsAreClampedAndApplied :
    (Reaches .p4 .setConstants (on .running) ∧ LinesFollow (on .running) ∧ (on .running).sup.tunnel ≠ .stopped) ∧
    (Reaches .p4 .setConstants State.reset ∧ State.reset.store.writing = none ∧ State.reset.sup.tunnel = .stopped) ∧
    (State.reset.sup.consts.tunnelLen ≤ (clampConstants { Config.defaultConstants with tunnelLen := 65535 }).tunnelLen ∧
      (clampConstants { Config.defaultConstants with tunnelLen := 0 }).tunnelLen < State.reset.sup.consts.tunnelLen) ∧
    (State.reset.ent.eye ≠ .blocked ∧ ({ State.reset with ent.eye := .blocked }).ent.eye = .blocked) ∧
    (eyePosition Config.defaultConstants .ce1 = none ∧ eyePosition Config.defaultConstants .exit = some 24000 ∧
      State.reset.trk.eyes.get .ce1 = none ∧ State.reset.trk.eyes.get .exit = some .armed) := by
  unfold Reaches LinesFollow; decide +kernel

theorem test_constants_clamp :
    let k := clampConstants
      { Config.defaultConstants with tunnelLen := 100, ce1 := 5000, ce2 := 0, lenMin := 9000, lenMax := 0, eyeTol := 0 }
    k.tunnelLen = 2000 ∧ k.ce1 = 1999 ∧ k.ce2 = 0 ∧ k.lenMin = 8000 ∧ k.lenMax = 8000 ∧ k.eyeTol = 10 := by decide

/-- Section 11.5, step 1: live credits 40 and 41. -/
def saveState : State :=
  { State.reset with
    sales.credits := [⟨40, 100, none, none⟩, ⟨41, 200, none, none⟩]
    sales.creditCounter := 42
    store := { State.reset.store with marker := true, image := Image.defaults, lastOutcome := .done, defaulted := false } }

theorem witness_SettingsSurviveAReset :
    (Reaches .p4 .save saveState ∧ saveState.store.writing = none) ∧
    (∃ m, (after (.save .p4) saveState).held = false ∧ (after (.save .p4) saveState).store.writing = some m) ∧
    (LinesFollow State.reset ∧ State.reset.store.writing = none ∧ State.reset.held = false) ∧
    (after (.save .p4) saveState).store.writing ≠ none ∧
    (inReset.held = true ∧ inReset.store.marker = false ∧ inReset.inputs.estopClosed = true) ∧
    (let s := after .reset saveState
      ; s.held = true ∧ s.store.marker = true) ∧
    (let s := after .estopLoopOpen inReset
      ; s.held = true ∧ s.inputs.estopClosed = false) := by
  unfold Reaches LinesFollow
  exact ⟨by decide +kernel, ⟨_, by decide +kernel, by rfl⟩, by decide +kernel, by decide +kernel, by decide +kernel,
    by decide +kernel, by decide +kernel⟩

/-- Section 11.5, steps 1 to 4: the write stores credits 40 and 41, the credit issued meanwhile stays live. -/
theorem test_save_11_5 :
    let t := after (.saveComplete true) (after (.issueCredit .p4 500 0) (after (.save .p4) saveState))
    t.store.marker = true ∧ t.store.image.credits.map Credit.number = [40, 41] ∧
      t.sales.credits.map Credit.number = [40, 41, 42] ∧
      t.ports.p4.tx.map Frame.payload = [[0, 1], [0, 0, 42, 0, 0], []] := by decide +kernel

/-- Section 11.5, steps 6 and 7: a reset during the write leaves the defaults. -/
theorem test_reset_in_write_11_5 :
    let t := after (.startUp .resetPin) (after .reset (after (.save .p4) saveState))
    t.sales.credits = [] ∧ t.sales.creditCounter = 1 ∧ t.store.defaulted = true ∧ t.store.cause = .resetPin ∧
      t.store.lastOutcome = .none ∧ t.held = false := by decide +kernel

/-- R178: the notice-overflow flags are clear after a start-up that finds the loop open too. -/
theorem test_startup_flags :
    ((after (.startUp .powerOn) (after .estopLoopOpen inReset)).ports.get .p0).overflow = false ∧
    ((after (.startUp .powerOn) (after .estopLoopOpen inReset)).ports.get .p4).overflow = false := by decide +kernel

/-- R194, step 5: an open loop at start-up halts with pre-halt mode STOPPED and counts a halt. -/
theorem test_startup_loop_open :
    let t := after (.startUp .powerOn) (after .estopLoopOpen inReset)
    t.sup.tunnel = .halted .stopped ∧ t.sales.tally.halts = 1 ∧ t.sup.incidents.map Incident.kind = [.estop] := by
  decide +kernel

/-! ### Witnesses: ports -/

def inBody : RxPath := ⟨.body, 1, 1, [], some 20⟩
def inCheck : RxPath := ⟨.check, 1, 0, [0x30], some 20⟩

theorem witness_PortEventsFollowTheirRules :
    (State.reset.held = false ∧ (∀ k, kindByte k ≠ 0x6F) ∧ 0x6F < 0x70 ∧
      roomForAnswer (State.reset.ports.get .p0) = true ∧
      roomForAnswer ((sending .p0 (List.replicate 8 reply) true State.reset).ports.get .p0) = false ∧
      (∃ k, kindByte k = 0x10)) ∧
    (((receiving .p0 { inBody with state := .length } State.reset).ports.get .p0).rx.state = .length ∧
      ((receiving .p0 inCheck State.reset).ports.get .p0).rx.state = .check ∧
      ((receiving .p0 inBody State.reset).ports.get .p0).rx.state ≠ .hunt) ∧
    (((receiving .p0 inBody State.reset).ports.get .p0).rx.gap = some 20 ∧ (State.reset.ports.get .p0).rx.gap = none) ∧
    (let u := (sending .p0 [note, reply] false State.reset).ports.get .p0
      ; u.sending = false ∧ u.tx ≠ []) ∧
    (let u := (sending .p0 [note, reply] true State.reset).ports.get .p0
      ; u.sending = true ∧ u.tx = note :: [reply]) ∧
    ((State.reset.ports.get .p0).rx.state = .hunt ∧ (64 : Byte).toNat ≤ 64 ∧ 64 < (65 : Byte).toNat) ∧
    (inCheck.state = .check ∧ inCheck.buf = 0x30 :: [] ∧
      (inCheck.len + (inCheck.buf.map BitVec.toNat).sum + (0xCF : Byte).toNat) % 256 = 0 ∧
      (inCheck.len + (inCheck.buf.map BitVec.toNat).sum + (0xCE : Byte).toNat) % 256 ≠ 0) := by
  refine ⟨⟨by decide +kernel, ?_, by decide, by decide +kernel, by decide +kernel, ⟨.quote, by decide⟩⟩, by decide +kernel,
    by decide +kernel, by decide +kernel, by decide +kernel, by decide +kernel, by decide⟩
  intro k; cases k <;> decide

/-- R175: a length of 0 and of 65 is discarded, 64 is taken. -/
theorem test_length_byte :
    (after (.byteReceived .p0 64) (after (.byteReceived .p0 0xC5) State.reset)).ports.p0.rx.state = .body ∧
    (after (.byteReceived .p0 65) (after (.byteReceived .p0 0xC5) State.reset)).ports.p0.rx.state = .hunt ∧
    (after (.byteReceived .p0 0) (after (.byteReceived .p0 0xC5) State.reset)).ports.p0.rx.state = .hunt := by
  decide +kernel

/-- The bytes of CLAIM on P0: start, LEN 1, KIND, CHECK; the last completes the frame and P0 holds control. -/
theorem test_claim_bytes :
    (receiveAll .p0 (frameBytes [BitVec.ofNat 8 (kindByte .claim)]) State.reset).sup.holder = some .p0 ∧
    (receiveAll .p0 (frameBytes [0x6F]) State.reset).ports.p0.tx.map Frame.payload = [[1]] := by decide +kernel

/-- R177: a frame sent leaves, and the transmitter takes the next one. -/
theorem test_tx_frames :
    (after (.txFrameSent .p0) (sending .p0 [note, reply] true State.reset)).ports.p0 =
      { PortUnit.idle with tx := [reply], sending := true } ∧
    (after (.txFrameSent .p0) (sending .p0 [reply] true State.reset)).ports.p0 = PortUnit.idle := by decide +kernel

/-! ### Witnesses: pulses, eyes, the entrance -/

/-- Section 1.9 before the 40th pulse of step 3: tag 12 matched at the exit, the eye at clear count 39. -/
def leaving : State :=
  driveLines { running
      [{ plainCar 12 28439 with
          length := some 4400
          ticket := some { ticket 4021 (.lane .a) 1450 with plan := 3 }
          schedule := [⟨4, 1, .done, none⟩, ⟨8, 1, .missed .notReady, none⟩]
          passed := { clearEyes with exit := true } }, plainCar 13 20639] with
    trk.exitMatch := some 12
    trk.eyes := { State.reset.trk.eyes with exit := some (.settling 39) }
    sales.creditCounter := 37 }

/-- Section 2.8 before the last pulse of step 3: tag 30 at entry count 6500 in BLOCKED, TAILGATE of class NOTICE. -/
def trailer : State :=
  driveLines { running [{ plainCar 30 6500 with length := none, ticket := some (ticket 1 (.lane .a) 900) }] with
    sup.response := { Response.standard with tailgate := .notice }
    ent.eye := .blocked
    ent.measured := some ⟨30, 6500, 4300⟩ }

theorem witness_PulsesTrackMissAndRemove :
    leaving.held = false ∧
    (eyePosition (eyeState 15301 8151 .armed).sup.consts .ce1 = some 8000 ∧
      carOf (eyeState 15301 8151 .armed) 8 = some (plainCar 8 8151) ∧
      8150 ≤ 8000 + (eyeState 15301 8151 .armed).sup.consts.eyeTol ∧
      8000 + (eyeState 15301 8151 .armed).sup.consts.eyeTol < 8151) ∧
    (leaving.trk.eyes.get .exit = some (.settling 39) ∧ leaving.sup.consts.clearMin ≤ 39 + 1 ∧
      38 + 1 < leaving.sup.consts.clearMin ∧ leaving.trk.exitMatch = some 12 ∧ (carOf leaving 12).isSome = true) ∧
    (∃ x, (plainCar 12 0).ticket = none ∧ (leaving.trk.queue.head?.bind Car.ticket) = some x ∧ 0 < x.paid) ∧
    (∀ n, leaving.trk.eyes.get .ce1 ≠ some (.settling n)) ∧
    (trailer.ent.measured = some ⟨30, 6500, 4300⟩ ∧ trailer.trk.queue.filter (fun x => x.tag != 30) = [] ∧
      (on .draining).sup.tunnel = .draining ∧ leaving.trk.queue.filter (fun x => x.tag != 12) ≠ []) :=
  ⟨by decide +kernel, by decide +kernel, by decide +kernel, ⟨_, rfl, rfl, by decide⟩, nofun, by decide +kernel⟩

/-- R16, R47 and R145: a record that leaves is forgotten as exit match and measured record, and the last one of a draining
tunnel stops it. -/
theorem test_record_leaves :
    let s := { trailer with sup.tunnel := .draining, trk.exitMatch := some 30 }
    let t := leaveQueue (plainCar 30 6500) s
    t.trk.queue = [] ∧ t.trk.exitMatch = none ∧ t.ent.measured = none ∧ t.sup.tunnel = .stopped ∧
      (leaveQueue (plainCar 30 6500) { s with sup.tunnel := .running }).sup.tunnel = .running := by decide +kernel

/-- Section 1.9, step 3: tag 12 leaves SHORT with credit 37 of 1450 cents; CAR_EXIT goes to P0 and P4. -/
theorem test_exit_1_9 :
    let t := after .encoderPulse leaving
    t.trk.queue.map (fun c => (c.tag, c.front)) = [(13, 20640)] ∧ t.trk.exitMatch = none ∧
      t.sales.credits.map (fun c => (c.number, c.value, c.origin)) = [(37, 1450, some 4021)] ∧
      t.sales.tally.exitShort = 1 ∧ t.ports.p0.tx.map Frame.payload = [[12, 15, 181, 3, 1, 0, 37]] ∧
      t.ports.p4.tx = t.ports.p0.tx := by decide +kernel

/-- Section 2.8, steps 3 and 5: TAILGATE at 6501 for tag 30 of lane A; the length set is 8200. -/
theorem test_trailer_2_8 :
    let t := after .encoderPulse trailer
    let u := after .encoderPulse { trailer with ent.eye := .settling 39, ent.measured := some ⟨30, 8239, 8200⟩ }
    (t.sup.incidents.map fun r => (r.kind, r.tag, r.lane)) = [(.tailgate, some 30, some .a)] ∧
      t.trk.queue.map Car.tailgate = [true] ∧ u.trk.queue.map Car.length = [some 8200] ∧ u.ent.eye = .armed ∧
      u.ent.measured = none := by decide +kernel

/-- Section 1.9, step 1: the exit eye matches tag 12, corrects it and starts the timer. -/
def atExit : State :=
  running [{ plainCar 12 23890 with length := some 4400 }, plainCar 13 16200]

theorem witness_EyeEdgesDebounceAndMatch :
    ((eyeState 7930 850 .armed).held = false ∧ (eyeState 7930 850 .armed).inputs.eyes.get (eyeOfCheck .ce1) = false ∧
      (eyeState 7930 850 .armed).trk.eyes.get .ce1 = some .armed ∧
      eyePosition (eyeState 7930 850 .armed).sup.consts .ce1 = some 8000 ∧
      (candidate (eyeState 7930 850 .armed) .ce1 8000).isSome = true) ∧
    (State.reset.trk.eyes.get .ce2 = none ∧ (eyeState 0 0 (.settling 39)).trk.eyes.get .ce1 = some (.settling 39)) ∧
    (let s := after (.checkEyeBlockingEdge .ce1) (eyeState 7930 850 .armed)
      ; s.held = false ∧ s.inputs.eyes.get .ce1 = true ∧ s.trk.eyes.get .ce1 = some .blocked) ∧
    (atExit.held = false ∧ atExit.inputs.eyes.exit = false ∧ atExit.trk.eyes.exit = some .armed ∧
      (candidate atExit .exit atExit.sup.consts.tunnelLen).isSome = true ∧
      candidate State.reset .exit State.reset.sup.consts.tunnelLen = none) ∧
    (let s := after .exitEyeBlockingEdge atExit
      ; s.held = false ∧ s.inputs.eyes.exit = true ∧ s.trk.exitTimer = some 8 ∧ (carOf s 12).isSome = true) ∧
    (State.reset.inputs.eyes.exit = false ∧ State.reset.inputs.entrance = false) := by
  decide +kernel

theorem test_exit_eye_1_9 :
    let t := after .exitEyeBlockingEdge atExit
    let u := after .exitEyeClearEdge t
    t.trk.queue.map Car.front = [24000, 16200] ∧ t.trk.exitMatch = some 12 ∧ t.trk.exitTimer = some 8 ∧
      u.trk.exitTimer = none ∧ u.trk.eyes.exit = some (.settling 0) ∧ u.trk.exitMatch = some 12 := by decide +kernel

/-- Section 1.9, last sentences: the expiry pauses the tunnel, the clear edge removes the incident. -/
theorem test_exit_blocked_1_9 :
    let t := after .exitBlockTimerExpiry (after .exitEyeBlockingEdge atExit)
    let u := after .exitEyeClearEdge t
    (t.sup.tunnel = .paused .running ∧ t.sup.incidents.map (fun r => (r.kind, r.eye, r.tag)) =
        [(.exitBlocked, some .exit, some 12)]) ∧
      u.sup.incidents = [] ∧ u.sup.tunnel = .starting .running := by decide +kernel

theorem witness_EntranceEdgesMakeRecords :
    (let s := after .startTimerExpiry (merge (.starting .running) [])
      ; s.held = false ∧ s.inputs.entrance = false ∧ s.ent.eye = .armed ∧ s.trk.queue.length < 12 ∧
        s.ent.grant = some ⟨.a, 5101⟩ ∧ s.sales.lanes.get .a = ticket 5101 (.lane .a) 900 :: []) ∧
    (State.reset.ent.grant = none ∧ 12 ≤ (running fullQueue).trk.queue.length ∧
      (running fullQueue).ent.eye = .armed) ∧
    (let s := { trailer with ent.eye := .settling 25, ent.measured := some ⟨30, 6501, 4300⟩ }
      ; s.held = false ∧ s.inputs.entrance = false ∧ s.ent.eye = .settling 25 ∧ s.sup.consts.lenMax < 6501) ∧
    (let s := { trailer with inputs.entrance := true }
      ; s.held = false ∧ s.inputs.entrance = true ∧ s.ent.eye = .blocked) ∧
    ((carOf trailer 30).map Car.tailgate = some false ∧
      (carOf (after .encoderPulse trailer) 30).map Car.tailgate = some true) ∧
    (trailer.ent.measured = some ⟨30, 6500, 4300⟩ ∧ trailer.ent.eye = .blocked ∧ 6500 = trailer.sup.consts.lenMax ∧
      6500 < 65535) ∧
    (State.reset.ent.measured = none ∧ State.reset.ent.eye = .armed ∧ 38 + 1 < trailer.sup.consts.clearMin) ∧
    (let s := { trailer with ent.eye := .settling 39, ent.measured := some ⟨30, 8240, 8200⟩ }
      ; s.ent.eye = .settling 39 ∧ s.sup.consts.clearMin ≤ 39 + 1 ∧ (carOf s 30).isSome = true ∧
        s.sup.consts.lenMin ≤ min 8200 16383 ∧ min 1999 16383 < s.sup.consts.lenMin ∧
        ((carOf s 30).bind Car.ticket).isSome = true ∧ (plainCar 30 0).ticket = none) := by decide +kernel

/-- R40 and R41: an unticketed record with UNPAID_ENTRY; QUEUE_OVERFLOW with 12 records, which halts. -/
theorem test_entrance_without_grant :
    ((after .entranceEyeBlockingEdge State.reset).trk.queue.map fun c => (c.tag, c.cls)) = [(1, 4)] ∧
    ((after .entranceEyeBlockingEdge State.reset).sup.incidents.map fun r => (r.kind, r.tag)) =
      [(.unpaidEntry, some 1)] ∧
    (after .entranceEyeBlockingEdge (running fullQueue)).sup.tunnel = .halted .running ∧
    (after .entranceEyeBlockingEdge (running fullQueue)).trk.queue.length = 12 := by decide +kernel

/-- Section 2.8, step 1: the clear edge takes the entry count. -/
theorem test_entrance_clear_2_8 :
    let t := after .entranceEyeClearEdge { trailer with inputs.entrance := true, ent.measured := some ⟨30, 4300, 0⟩ }
    t.ent.eye = .settling 0 ∧ t.ent.measured = some ⟨30, 4300, 4300⟩ := by decide +kernel

/-! ### Witnesses: stations, scans, timers -/

/-- Section 5.8 after step 1: station 4 ARMING with its proof timer running. -/
def arming : State :=
  let s := withStation 4 arch .arming (running [carAt 51 5850 4 3 .pending])
  driveLines { s with seq.units := tabSet s.seq.units 4 ⟨.arming, 0, some 1500, none, false⟩ }

/-- A PROOF_HOLD station FIRING with its proof input active. -/
def holding (recheck : Bool) (fails : Nat) : State :=
  let s := withStation 4 { arch with mode := .proofHold } .firing (running [carAt 51 7000 4 3 .active])
  driveLines { s with
    seq.units := tabSet s.seq.units 4 ⟨.firing, fails, if recheck then some 1500 else none, none, recheck⟩
    inputs.proofs := tabSet s.inputs.proofs 4 (!recheck) }

theorem witness_ProofAttemptsAndRetries :
    (arming.held = false ∧ tabGet arming.inputs.proofs 4 = false ∧ (tabGet arming.seq.units 4).state = .arming ∧
      (tabGet arming.seq.units 4).proofTimer = some 1500 ∧ (tabGet arming.seq.units 4).fails + 1 < 1 + 2) ∧
    ((holding true 0).held = false ∧ tabGet (holding true 0).inputs.proofs 4 = false ∧
      (tabGet (holding true 0).seq.units 4).recheck = true ∧ (tabGet (holding true 0).seq.units 4).proofTimer = some 1500) ∧
    (tabGet (holding false 0).inputs.proofs 4 = true ∧ (tabGet (holding false 0).seq.table 4).mode = .proofHold ∧
      (tabGet (holding false 0).seq.units 4).state ∈ [StationState.ready, .firing] ∧
      (tabGet (holding false 0).seq.units 4).recheck = false) ∧
    (let s := after (.proofTimerExpiry 4) arming
      ; s.held = false ∧ (tabGet s.seq.units 4).retryTimer = some 500 ∧ (tabGet s.seq.units 4).state = .retryWait ∧
        s.sup.tunnel.runs = true ∧ wanted s 4 = true) ∧
    (LinesFollow State.reset ∧ (tabGet State.reset.seq.units 4).proofTimer = none ∧
      (tabGet State.reset.seq.units 4).retryTimer = none) ∧
    (1 + (tabGet (holding false 2).seq.table 4).retries ≤ (tabGet (holding false 2).seq.units 4).fails + 1) ∧
    ((tabGet (brushing 30).seq.table 8).mode = .direct ∧ (tabGet arming.seq.table 4).mode ≠ .direct) ∧
    ((tabGet (brushing 30).seq.table 8).gear = .brush brush ∧ (∀ b, (tabGet arming.seq.table 4).gear ≠ .brush b)) := by
  unfold LinesFollow
  exact ⟨by decide +kernel, by decide +kernel, by decide +kernel, by decide +kernel, by decide +kernel, by decide +kernel,
    by decide +kernel, by decide +kernel, nofun⟩

/-- Section 5.8, steps 2 to 4. -/
theorem test_attempts_5_8 :
    let t := after (.proofTimerExpiry 4) arming
    let u := after (.retryTimerExpiry 4) t
    let v := after (.proofAssert 4) u
    tabGet t.seq.units 4 = ⟨.retryWait, 1, none, some 500, false⟩ ∧
      tabGet u.seq.units 4 = ⟨.arming, 1, some 1500, none, false⟩ ∧
      tabGet v.seq.units 4 = ⟨.firing, 1, none, none, false⟩ ∧ tabGet v.out.stations 4 = ⟨true, true, 3072⟩ ∧
      v.trk.queue.flatMap (fun c => c.schedule.map Entry.state) = [.active] := by decide +kernel

/-- Section 5.8, step 1: the pulse that takes tag 51 to 5400 arms the station. -/
theorem test_arming_5_8 :
    let t := after .encoderPulse (withStation 4 arch .idle (running [carAt 51 5399 4 3 .pending]))
    (tabGet t.seq.units 4).state = .arming ∧ tabGet t.out.stations 4 = ⟨true, false, 0⟩ := by decide +kernel

/-- R96: a proof loss goes back to ARMING with the mark PROOF, the third one to FAULT with STATION_FAULT. -/
theorem test_proof_loss :
    let t := after (.proofDeassert 4) (holding false 0)
    let u := after (.proofDeassert 4) (holding false 2)
    tabGet t.seq.units 4 = ⟨.arming, 1, some 1500, none, false⟩ ∧
      t.trk.queue.flatMap (fun c => c.schedule.map Entry.mark) = [some .proof] ∧
      (tabGet u.seq.units 4).state = .fault ∧ u.sup.incidents.map (fun r => (r.kind, r.station)) =
        [(.stationFault, some 4)] := by decide +kernel

/-- Section 7.6: two cars, the jam count of the slot at 2, and the samples of one scan. -/
def jam (mode : Qualifier) (signals : Signals) (latch : Bool) : State :=
  let s := withStation 8 { brushStation with gear := .brush { brush with qualifier := mode, signals := signals } } .firing
    (running [carAt 60 9100 8 3 .active, carAt 61 7300 8 3 .active])
  driveLines { s with pace.vAvg := 30, mon := tabSet s.mon 2 ⟨1905, 0, 2, 0, latch⟩ }

def samples (n : Nat) : Tab 6 (BitVec 12) := tabSet (Vector.replicate 6 0) 2 (BitVec.ofNat 12 n)

theorem witness_ScansAndSwitchesFindCollisions :
    (let s := jam .any ⟨true, true, true⟩ false
      ; s.held = false ∧ brushOfSlot s 2 = some (8, { brush with signals := ⟨true, true, true⟩ }) ∧
        (tabGet s.seq.units 8).state ∈ [StationState.arming, .ready, .firing] ∧ brushOfSlot s 0 = none ∧
        thresholdsOf s 8 = (1785, 385) ∧ (tabGet s.mon 2).blank = 0 ∧ 0 < activeCount s 8 ∧
        brush.slackMargin ≠ 0) ∧
    (let s := jam .any ⟨true, true, true⟩ true
      ; qualifies .any ⟨true, true, true⟩ (signalsOf s 2) = true ∧ (collisionOf s 2).isSome = true) ∧
    (let s := jam .all ⟨true, true, false⟩ true
      ; s.held = false ∧ switchLevel s 2 .bumper ≠ true ∧ switchLevel s 2 .overtravel = false ∧
        collisionOf s 2 = none ∧ (collisionOf (setSwitch 2 .bumper true s) 2).isSome = true) := by decide +kernel

/-- Section 7.6, scans 7 and 4: a third sample at or above 1785 halts the tunnel with tag 60; 1760 clears the count. -/
theorem test_jam_7_6 :
    let t := after (.scanComplete (samples 2210)) (jam .any ⟨true, true, true⟩ false)
    let u := after (.scanComplete (samples 1760)) (jam .any ⟨true, true, true⟩ false)
    t.sup.tunnel = .halted .running ∧ (t.sup.incidents.map fun r => (r.kind, r.station, r.tag, r.signals)) =
        [(.brushCollision, some 8, some 60, some ⟨true, false, false⟩)] ∧
      tabGet t.mon 2 = ⟨2210, 0, 0, 0, false⟩ ∧ tabGet u.mon 2 = ⟨1760, 0, 0, 0, false⟩ ∧ u.sup.tunnel = .running := by
  decide +kernel

/-- Section 7.7, scan 1: a blanked slot makes no jam watch. -/
theorem test_blank_7_7 :
    let s := jam .any ⟨true, true, true⟩ false
    tabGet (after (.scanComplete (samples 3880)) { s with mon := tabSet s.mon 2 ⟨0, 20, 0, 0, false⟩ }).mon 2 =
      ⟨3880, 19, 0, 0, false⟩ := by decide +kernel

/-- Section 7.8, step 6: with the latch set, the BUMPER edge passes the ALL test. -/
theorem test_bumper_7_8 :
    let t := after (.bumperOvertravelEdge 2 .bumper true) (jam .all ⟨true, true, false⟩ true)
    t.sup.tunnel = .halted .running ∧ (t.sup.incidents.map Incident.signals) = [some ⟨true, true, false⟩] := by
  decide +kernel

/-- Log entry 27: both switches closed when the station arms (ANY); one opening makes the test, which the other passes. -/
theorem test_edge_to_inactive :
    let s := { jam .any ⟨true, true, true⟩ false with
      inputs.bumpers := tabSet State.reset.inputs.bumpers 2 true
      inputs.overtravels := tabSet State.reset.inputs.overtravels 2 true }
    ((after (.bumperOvertravelEdge 2 .bumper false) s).sup.incidents.map Incident.signals) =
      [some ⟨false, false, true⟩] := by decide +kernel

theorem witness_LoopTimersAndWindows :
    (State.reset.held = false ∧ State.reset.inputs.estopClosed = true ∧
      (after .estopLoopOpen State.reset).inputs.estopClosed = false) ∧
    ((merge (.starting .running) []).sup.startTimer = some 5 ∧ (merge (.starting .draining) []).trk.queue = [] ∧
      (merge (.starting .draining) fullQueue).trk.queue ≠ []) ∧
    (LinesFollow State.reset ∧ State.reset.sup.startTimer = none ∧ State.reset.ent.grantTimer = none ∧
      State.reset.trk.exitTimer = none) ∧
    ((on .stopped).sup.tunnel.runs = false ∧ (on .running).sup.tunnel.runs = true ∧ (on .running).pace.gate = 0 ∧
      (on .running).pace.stall + 1 ≠ 20) ∧
    (let s := { on .running with pace.stall := 19 }
      ; s.held = false ∧ s.pace.stall + 1 = s.sup.consts.stallWindows ∧ s.pace.stall + 1 ≤ 100) ∧
    (4092 ≤ 4092 ∧ 1023 ≤ 1023) := by unfold LinesFollow; decide +kernel

/-- Section 6.6, windows 1 and 2: S 30 and v_avg 8, then S 53 and v_avg 13 with the command at 507. -/
theorem test_windows_6_6 :
    let t := after .gateWindowEnd { brushing 0 with pace.gate := 30 }
    let u := after .gateWindowEnd { t with pace.gate := 30 }
    (t.pace.acc = 30 ∧ t.pace.vAvg = 8 ∧ tabGet t.pace.brushes 8 = some ⟨400, 500, 1400, 0⟩) ∧
      u.pace.acc = 53 ∧ u.pace.vAvg = 13 ∧ tabGet u.pace.brushes 8 = some ⟨507, 553, 1453, 53⟩ := by decide +kernel

/-- R126: the twentieth empty window of a running tunnel halts it. -/
theorem test_stall :
    let t := after .gateWindowEnd { on .running with pace.stall := 19 }
    t.sup.tunnel = .halted .running ∧ t.sup.incidents.map Incident.kind = [.conveyorStall] := by decide +kernel

/-- R143: a DRAINING target with an empty queue ends in STOPPED. R154: the seconds counter holds at the top. -/
theorem test_start_draining_and_seconds :
    (after .startTimerExpiry (merge (.starting .draining) [])).sup.tunnel = .stopped ∧
    (after .secondsTick { State.reset with sup.seconds := 4294967295 }).sup.seconds = 4294967295 := by decide +kernel

end Sys2Proof.Tests
end

