-- ==== Sys2Proof/Proofs/Numbers.lean ====
section
/-! Allocation from a counter (R2, R65, R83, R154): the search for a free number, and why it ends at one. -/

namespace Sys2Proof.Machine

/-- What the search for a free number finds: the counter after some steps, each value before it listed, and free where the
tries were not used up. -/
theorem firstFree_spec (top : Nat) (used : List Nat) (tries : Nat) : ∀ n : Nat,
    ∃ k, k ≤ tries ∧ firstFree top used tries n = (nextCount top)^[k] n ∧
      (∀ j, j < k → (nextCount top)^[j] n ∈ used) ∧ (k < tries → (nextCount top)^[k] n ∉ used) := by
  induction tries with
  | zero =>
    intro n
    exact ⟨0, le_rfl, rfl, fun j hj => absurd hj (Nat.not_lt_zero j), fun h => absurd h (Nat.lt_irrefl 0)⟩
  | succ tries ih =>
    intro n
    by_cases hn : n ∈ used
    · obtain ⟨k, hk, hval, hbefore, hfree⟩ := ih (nextCount top n)
      refine ⟨k + 1, Nat.succ_le_succ hk, ?_, ?_, fun h => ?_⟩
      · simpa [firstFree, hn] using hval
      · intro j hj
        cases j with
        | zero => exact hn
        | succ j => exact hbefore j (Nat.lt_of_succ_lt_succ hj)
      · exact hfree (Nat.lt_of_succ_lt_succ h)
    · exact ⟨0, Nat.zero_le _, by simp [firstFree, hn], fun j hj => absurd hj (Nat.not_lt_zero j), fun _ => hn⟩

/-- The counter after k steps: it runs through 1 to top in a circle. -/
theorem nextCount_iterate (top n k : Nat) (hn : 1 ≤ n) (hnt : n ≤ top) :
    (nextCount top)^[k] n = (n - 1 + k) % top + 1 := by
  induction k with
  | zero => rw [Nat.add_zero, Nat.mod_eq_of_lt (by omega)]; exact (Nat.sub_add_cancel hn).symm
  | succ k ih =>
    have hlt : (n - 1 + k) % top < top := Nat.mod_lt _ (by omega)
    rw [Function.iterate_succ_apply', ih, ← Nat.add_assoc, ← Nat.mod_add_mod (n - 1 + k)]
    unfold nextCount
    split
    · next h => rw [Nat.mod_eq_of_lt h]
    · next h => rw [show (n - 1 + k) % top + 1 = top by omega, Nat.mod_self]

/-- Fewer than `top` steps give different values. -/
theorem nextCount_iterate_injOn (top n : Nat) (hn : 1 ≤ n) (hnt : n ≤ top) {i j : Nat} (hi : i < top) (hj : j < top)
    (h : (nextCount top)^[i] n = (nextCount top)^[j] n) : i = j := by
  rw [nextCount_iterate top n i hn hnt, nextCount_iterate top n j hn hnt] at h
  have hmod : n - 1 + i ≡ n - 1 + j [MOD top] := Nat.succ_injective h
  exact Nat.ModEq.eq_of_lt_of_lt (Nat.ModEq.add_left_cancel' (n - 1) hmod) hi hj

/-- The pigeonhole of an allocation: as many steps as there are listed numbers cannot all find a listed one. -/
theorem exists_iterate_not_mem (top : Nat) (used : List Nat) (n : Nat) (hn : 1 ≤ n) (hnt : n ≤ top)
    (hroom : used.length < top) : ∃ k ≤ used.length, (nextCount top)^[k] n ∉ used := by
  by_contra hall
  push Not at hall
  have hnodup : ((List.range (used.length + 1)).map fun k => (nextCount top)^[k] n).Nodup := by
    refine List.Nodup.map_on (fun i hi j hj h => ?_) List.nodup_range
    rw [List.mem_range] at hi hj
    exact nextCount_iterate_injOn top n hn hnt (by omega) (by omega) h
  have hsub : ((List.range (used.length + 1)).map fun k => (nextCount top)^[k] n) ⊆ used := by
    intro x hx
    obtain ⟨k, hk, rfl⟩ := List.mem_map.mp hx
    exact hall k (Nat.le_of_lt_succ (List.mem_range.mp hk))
  have hle := (List.subperm_of_subset hnodup hsub).length_le
  simp at hle

/-- An allocation with room: the first free value from the counter on (R2, R65, R83, R154). -/
theorem allocate_spec (top : Nat) (used : List Nat) (counter : Nat) (h1 : 1 ≤ counter) (h2 : counter ≤ top)
    (hroom : used.length < top) : ∃ k, k ≤ used.length ∧ (allocate top used counter).1 = (nextCount top)^[k] counter ∧
      (∀ j, j < k → (nextCount top)^[j] counter ∈ used) ∧ (nextCount top)^[k] counter ∉ used := by
  obtain ⟨k, hk, hval, hbefore, hfree⟩ := firstFree_spec top used used.length counter
  refine ⟨k, hk, hval, hbefore, ?_⟩
  rcases Nat.lt_or_ge k used.length with hlt | hge
  · exact hfree hlt
  · obtain ⟨m, hm, hnot⟩ := exists_iterate_not_mem top used counter h1 h2 hroom
    have hkm : ¬ m < k := fun hlt => hnot (hbefore m hlt)
    obtain rfl : m = k := by omega
    exact hnot

/-- The number allocated lies in the counter's range. -/
theorem allocate_range (top : Nat) (used : List Nat) (counter : Nat) (h1 : 1 ≤ counter) (h2 : counter ≤ top) :
    1 ≤ (allocate top used counter).1 ∧ (allocate top used counter).1 ≤ top :=
  firstFree_range top used (h1.trans h2) _ _ h1 h2

/-- No number in use is allocated. -/
theorem allocate_not_mem (top : Nat) (used : List Nat) (counter : Nat) (h1 : 1 ≤ counter) (h2 : counter ≤ top)
    (hroom : used.length < top) : (allocate top used counter).1 ∉ used := by
  obtain ⟨k, -, hval, -, hfree⟩ := allocate_spec top used counter h1 h2 hroom
  rwa [hval]

/-- Settles O17: the search takes at most as many steps as there are numbers in use, and these cannot cover as many values
of the counter's circle. -/
theorem allocationTakesFirstFreeNumber : Obligations.AllocationTakesFirstFreeNumber := by
  intro top used counter h1 h2 hroom
  obtain ⟨k, hk, hval, hbefore, -⟩ := allocate_spec top used counter h1 h2 hroom
  obtain ⟨hlow, hhigh⟩ := allocate_range top used counter h1 h2
  exact ⟨allocate_not_mem top used counter h1 h2 hroom, hlow, hhigh, rfl, k, hk, hval, hbefore⟩

end Sys2Proof.Machine
end

