-- ==== Sys2Proof/Proofs/Fronts.lean ====
section
/-! The fronts of the tunnel queue: the pulse (R5), the nearest candidate (R11) and the correction (R12). -/

namespace Sys2Proof.Machine

/-! ### The pulse -/

/-- The top of a front below the front of the record ahead (R5, R12). -/
def frontTop : Option Nat → Nat
  | none => Config.positionMax
  | some f => f - 1

theorem frontTop_some (f : Nat) : frontTop (some f) = f - 1 := rfl

theorem advanceFronts_nil (ahead : Option Nat) : advanceFronts ahead [] = [] := rfl

theorem advanceFronts_cons (ahead : Option Nat) (car : Car) (rest : List Car) :
    advanceFronts ahead (car :: rest) =
      { car with front := min (car.front + 1) (frontTop ahead) } ::
        advanceFronts (some (min (car.front + 1) (frontTop ahead))) rest := rfl

/-- A pulse writes the fronts alone (R5). -/
theorem advanceFronts_map {β : Type} (g : Car → β) (hg : ∀ car n, g { car with front := n } = g car)
    (queue : List Car) : ∀ ahead, (advanceFronts ahead queue).map g = queue.map g := by
  induction queue with
  | nil => exact fun _ => rfl
  | cons car rest ih => intro ahead; rw [advanceFronts_cons, List.map_cons, List.map_cons, hg, ih]

/-- The fronts fall strictly along a queue with a record put in front of it, exactly where its head is below that record
and they fall along the queue. -/
theorem frontsFall_cons (car : Car) (queue : List Car) :
    FrontsFall (car :: queue) ↔ (∀ b ∈ queue.head?, b.front < car.front) ∧ FrontsFall queue := by
  cases queue <;> simp [FrontsFall]

/-- The head of a queue after a pulse stands at most at the top below the record ahead. -/
theorem advanceFronts_head_le (ahead : Option Nat) (queue : List Car) :
    ∀ b ∈ (advanceFronts ahead queue).head?, b.front ≤ frontTop ahead := by
  cases queue with
  | nil => simp [advanceFronts_nil]
  | cons car rest => simp [advanceFronts_cons]

/-- R5, generalised over the record ahead. `bound` is the top of the first record's place: 65535 at the head of the queue,
one less at each later place; the record ahead holds its front there only if it stands at its own top. -/
theorem advanceFronts_spec (queue : List Car) : ∀ (ahead : Option Nat) (bound : Nat), FrontsFall queue →
    (∀ a ∈ queue.head?, a.front ≤ frontTop ahead ∧ (a.front = frontTop ahead → frontTop ahead = bound)) →
    frontTop ahead ≤ bound →
      FrontsFall (advanceFronts ahead queue) ∧
      ∀ (i : Nat) (old new : Car), queue[i]? = some old → (advanceFronts ahead queue)[i]? = some new →
        new.front ≤ bound - i ∧ (new.front = old.front + 1 ∨ (new.front = old.front ∧ old.front = bound - i)) := by
  induction queue with
  | nil => exact fun _ _ _ _ _ => ⟨trivial, fun i old new h => by simp at h⟩
  | cons car rest ih =>
    intro ahead bound hfall hhead htop
    obtain ⟨hle, hstuck⟩ := hhead car rfl
    obtain ⟨hbelow, hrest⟩ := (frontsFall_cons car rest).mp hfall
    have hstep : ∀ a ∈ rest.head?, a.front ≤ frontTop (some (min (car.front + 1) (frontTop ahead))) ∧
        (a.front = frontTop (some (min (car.front + 1) (frontTop ahead))) →
          frontTop (some (min (car.front + 1) (frontTop ahead))) = bound - 1) := by
      intro a ha
      have hlt := hbelow a ha
      simp only [frontTop_some] at hle hstuck ⊢
      omega
    obtain ⟨hfall', hplace⟩ := ih (some (min (car.front + 1) (frontTop ahead))) (bound - 1) hrest hstep
      (by simp only [frontTop_some]; omega)
    rw [advanceFronts_cons]
    refine ⟨(frontsFall_cons _ _).mpr ⟨fun b hb => ?_, hfall'⟩, fun i old new hold hnew => ?_⟩
    · have hb' := advanceFronts_head_le _ rest b hb
      cases rest with
      | nil => simp [advanceFronts_nil] at hb
      | cons a rest =>
        have hlt := hbelow a rfl
        simp only [frontTop_some] at hb' hle ⊢
        omega
    · cases i with
      | zero =>
        simp only [List.getElem?_cons_zero, Option.some.injEq] at hold hnew
        subst hold hnew
        simp only
        omega
      | succ i =>
        have := hplace i old new hold hnew
        omega

/-- Settles O21, by the generalisation over the record ahead. -/
theorem pulseAdvancesEveryFront : Obligations.PulseAdvancesEveryFront := by
  intro queue hfall hmax
  obtain ⟨hfall', hplace⟩ := advanceFronts_spec queue none 65535 hfall
    (fun a ha => ⟨hmax a (List.mem_of_mem_head? ha), fun _ => rfl⟩) le_rfl
  exact ⟨hfall', advanceFronts_map _ (fun _ _ => rfl) queue none, hplace⟩

/-! ### The nearest candidate -/

theorem isCandidate_iff (c : Constants) (k : Eye) (pos : Nat) (car : Car) :
    isCandidate c k pos car = true ↔
      pos - c.eyeTol ≤ car.front ∧ car.front ≤ pos + c.eyeTol ∧ car.passed.get k = false := by
  simp [isCandidate, and_assoc]

theorem nearest_eq_none_iff (pos : Nat) (l : List Car) : nearest pos l = none ↔ l = [] := by
  cases l with
  | nil => simp [nearest]
  | cons car rest =>
    simp only [nearest, reduceCtorEq, iff_false]
    split
    · simp
    · split <;> simp

/-- The nearest of a list stands nearer than every older record and not farther than any newer one (R11). -/
theorem nearest_spec (pos : Nat) (l : List Car) : ∀ car, nearest pos l = some car →
    ∃ older newer, l = older ++ car :: newer ∧ (∀ x ∈ older, distance pos car < distance pos x) ∧
      ∀ x ∈ newer, distance pos car ≤ distance pos x := by
  induction l with
  | nil => exact fun car h => by simp [nearest] at h
  | cons first rest ih =>
    intro car h
    simp only [nearest] at h
    split at h
    · next hrest =>
      obtain rfl := Option.some.inj h
      obtain rfl := (nearest_eq_none_iff pos rest).mp hrest
      exact ⟨[], [], rfl, by simp, by simp⟩
    · next other hrest =>
      obtain ⟨older, newer, hsplit, holder, hnewer⟩ := ih other hrest
      split at h
      · next hlt =>
        obtain rfl := Option.some.inj h
        exact ⟨first :: older, newer, by rw [hsplit]; rfl,
          fun x hx => (List.mem_cons.mp hx).elim (fun hx => hx ▸ hlt) (holder x), hnewer⟩
      · next hle =>
        obtain rfl := Option.some.inj h
        refine ⟨[], rest, rfl, by simp, fun x hx => ?_⟩
        have hother : distance pos other ≤ distance pos x := by
          rw [hsplit, List.mem_append, List.mem_cons] at hx
          obtain hx | rfl | hx := hx
          · exact (holder x hx).le
          · exact le_rfl
          · exact hnewer x hx
        omega

/-- A split of a filtered list comes from a split of the list. -/
theorem filter_eq_append_cons {α : Type} (p : α → Bool) (l : List α) : ∀ (before after : List α) (x : α),
    l.filter p = before ++ x :: after →
      ∃ before' after', l = before' ++ x :: after' ∧ before'.filter p = before ∧ after'.filter p = after := by
  intro before after x h
  obtain ⟨l1, l2, rfl, rfl, h2⟩ := List.filter_eq_append_iff.mp h
  obtain ⟨m1, m2, rfl, hm, hx, rfl⟩ := List.filter_eq_cons_iff.mp h2
  refine ⟨l1 ++ m1, m2, by simp, ?_, rfl⟩
  rw [List.filter_append, List.filter_eq_nil_iff.mpr hm, List.append_nil]

/-- Settles O22, by the split of the candidates at the nearest one. -/
theorem eyeMatchTakesTheNearest : Obligations.EyeMatchTakesTheNearest := by
  intro s k pos
  refine ⟨?_, fun car hcar => ?_⟩
  · rw [candidate, nearest_eq_none_iff, List.filter_eq_nil_iff]
    simp only [Bool.not_eq_true]
  · obtain ⟨older, newer, hsplit, holder, hnewer⟩ := nearest_spec pos _ car hcar
    have hmem : car ∈ s.trk.queue.filter (isCandidate s.sup.consts k pos) := by rw [hsplit]; simp
    obtain ⟨before, behind, hqueue, rfl, rfl⟩ := filter_eq_append_cons _ _ _ _ _ hsplit
    exact ⟨(isCandidate_iff _ _ _ _).mp (List.mem_filter.mp hmem).2, before, behind, hqueue,
      fun x hx hc => holder x (List.mem_filter.mpr ⟨hx, hc⟩), fun x hx hc => hnewer x (List.mem_filter.mpr ⟨hx, hc⟩)⟩

end Sys2Proof.Machine
end

