-- ==== Sys2Proof/Proofs/Requests.lean ====
section
/-! How a request that reaches its owner is answered (R180, R181), and the lines of a state that its lines follow. -/

namespace Sys2Proof.Machine

/-- A request that reaches its owner is answered by it (R180). -/
theorem respond_of_reaches {p : Port} {k : ReqKind} {s : State} (h : Reaches p k s)
    (owner : State → State × Answer) :
    respond p k true owner s = sendAnswer p (kindByte k) (owner (frameDone p s)).2 (owner (frameDone p s)).1 := by
  obtain ⟨hrun, hroom, hperm⟩ := h
  simp [respond, hrun, hroom, hperm]

/-- A running part whose lines follow its state: the end of an event after a completed frame changes no line. -/
theorem driveLines_frameDone {s : State} (hrun : s.held = false) (h : LinesFollow s) (p : Port) :
    driveLines (frameDone p s) = frameDone p s := by
  have hs : driveLines s = s := by simpa [LinesFollow, hrun] using h
  exact congrArg (frameDone p) hs

/-- A refusal by the owner leaves every record and every line unchanged (R181). -/
theorem respond_driven_refuse {p : Port} {k : ReqKind} {s : State} (h : Reaches p k s) (hl : LinesFollow s)
    (owner : State → State × Answer) (r : Result) (ho : owner (frameDone p s) = refuse r (frameDone p s)) :
    respond p k true (driven owner) s = refusedWith p k r s := by
  rw [respond_of_reaches h]
  simp only [driven, ho, refuse, driveLines_frameDone h.1 hl]
  rfl

end Sys2Proof.Machine
end

