-- ==== Sys2Proof/Proofs/TrackFrame.lean ====
section
/-! What the operations of the Tracking Unit and the Entrance Unit on records already in the tunnel queue may write: none of
them adds a record (R1, R4), and none touches the lane queues, the next-tag counter or the gate window. -/

namespace Sys2Proof.Machine

/-- What a raise may write, the eyes, the exit match, the measurement and the credits; no record joins the tunnel queue. -/
def TrackFrame (s t : State) : Prop :=
  t = { s with
    ports := t.ports
    sup.tunnel := t.sup.tunnel
    sup.startTimer := t.sup.startTimer
    sup.manual := t.sup.manual
    sup.incidents := t.sup.incidents
    sup.incidentCounter := t.sup.incidentCounter
    sales.tally := t.sales.tally
    sales.credits := t.sales.credits
    sales.creditCounter := t.sales.creditCounter
    trk.queue := t.trk.queue
    trk.eyes := t.trk.eyes
    trk.exitMatch := t.trk.exitMatch
    trk.exitTimer := t.trk.exitTimer
    pace.stall := t.pace.stall
    seq.units := t.seq.units
    mon := t.mon
    ent.grant := t.ent.grant
    ent.pointer := t.ent.pointer
    ent.grantTimer := t.ent.grantTimer
    ent.eye := t.ent.eye
    ent.measured := t.ent.measured
    free := t.free } ∧
  (t.trk.queue.map Car.tag).Sublist (s.trk.queue.map Car.tag)

theorem TrackFrame.refl (s : State) : TrackFrame s s := ⟨rfl, .refl _⟩

theorem TrackFrame.trans {a b c : State} (h : TrackFrame a b) (k : TrackFrame b c) : TrackFrame a c := by
  obtain ⟨h1, h2⟩ := h
  obtain ⟨k1, k2⟩ := k
  refine ⟨?_, k2.trans h2⟩
  rw [k1, h1]

theorem TrackFrame.of_queue {s : State} {q : List Car} (h : q.map Car.tag = s.trk.queue.map Car.tag) :
    TrackFrame s { s with trk.queue := q } :=
  ⟨rfl, h ▸ .refl _⟩

theorem TrackFrame.ite {s a b : State} {p : Prop} [Decidable p] (ha : TrackFrame s a) (hb : TrackFrame s b) :
    TrackFrame s (if p then a else b) := by
  split <;> assumption

/-- What does not depend on the schedules is the same in queues that differ in the schedules alone. -/
theorem map_of_map_bare {β : Type} (g : Car → β) (hg : ∀ car, g car.bare = g car) {l m : List Car}
    (h : l.map Car.bare = m.map Car.bare) : l.map g = m.map g := by
  simpa [List.map_map, Function.comp_def, hg] using congrArg (List.map g) h

theorem map_tag_of_map_bare {l m : List Car} (h : l.map Car.bare = m.map Car.bare) :
    l.map Car.tag = m.map Car.tag :=
  map_of_map_bare Car.tag (fun _ => rfl) h

theorem TrackFrame.ofRaise {s t : State} (h : RaiseFrame s t) : TrackFrame s t := by
  obtain ⟨hframe, hbare⟩ := h
  refine ⟨?_, by rw [map_tag_of_map_bare hbare]⟩
  rw [hframe]

theorem TrackFrame.ofChange {s t : State} (h : ChangeFrame s t) : TrackFrame s t := .ofRaise (.ofChange s t h)

theorem TrackFrame.ofSeq {s t : State} (h : SeqOnly s t) : TrackFrame s t := .ofChange (.ofSeq s t h)

theorem TrackFrame.ofGrant {s t : State} (h : GrantOnly s t) : TrackFrame s t := .ofChange (.ofGrant s t h)

theorem TrackFrame.ofPorts {s t : State} (h : PortsOnly s t) : TrackFrame s t := .ofChange (.ofPorts s t h)

theorem foldl_track {α : Type} (f : State → α → State) (hf : ∀ s x, TrackFrame s (f s x)) (l : List α) (s : State) :
    TrackFrame s (l.foldl f s) :=
  foldl_keeps TrackFrame .refl (fun _ _ _ => .trans) f hf l s

/-! ### The tunnel queue -/

/-- A change of every record that keeps its tag. -/
theorem mapQueue_track (f : Car → Car) (s : State) (hf : ∀ car, (f car).tag = car.tag := by intro _; rfl) :
    TrackFrame s (mapQueue f s) :=
  .of_queue (by simp [hf])

/-- A change of one record that keeps its tag. -/
theorem updateCar_track (tag : Nat) (f : Car → Car) (s : State)
    (hf : ∀ car, (f car).tag = car.tag := by intro _; rfl) : TrackFrame s (updateCar tag f s) :=
  mapQueue_track _ s fun car => by split <;> simp [hf]

theorem markPassed_track (k : Eye) (tag : Nat) (s : State) : TrackFrame s (markPassed k tag s) :=
  updateCar_track tag _ s

theorem setEye_track (k : Eye) (d : Option Debounce) (s : State) : TrackFrame s (setEye k d s) := ⟨rfl, .refl _⟩

theorem dropRecord_track (tag : Nat) (s : State) : TrackFrame s (dropRecord tag s) :=
  ⟨rfl, List.filter_sublist.map _⟩

theorem raiseIncident_track (q : Raise) (s : State) : TrackFrame s (raiseIncident q s) :=
  .ofRaise (raiseIncident_frame q s)

theorem drainIfEmpty_track (s : State) : TrackFrame s (drainIfEmpty s) :=
  .ite (.ofChange (changeTunnel_frame _ _ s)) (.refl s)

theorem leaveQueue_track (car : Car) (s : State) : TrackFrame s (leaveQueue car s) :=
  ((dropRecord_track car.tag s).trans (.ofSeq (afterEnded_seqOnly _ _))).trans (drainIfEmpty_track _)

theorem missingTest_track (k : Eye) (tag old : Nat) (s : State) : TrackFrame s (missingTest k tag old s) := by
  unfold missingTest
  split
  · exact .ite ((markPassed_track k tag s).trans (raiseIncident_track _ _)) (.refl s)
  · exact .refl s

theorem missingTests_track (olds : List (Nat × Nat)) (s : State) : TrackFrame s (missingTests olds s) := by
  unfold missingTests
  exact foldl_track _ (fun s k => foldl_track _ (fun s q => missingTest_track k q.1 q.2 s) olds s) _ s

theorem issueCredit_track (value : Nat) (origin plan : Option Nat) (s : State) :
    TrackFrame s (issueCredit value origin plan s).1 := ⟨rfl, .refl _⟩

theorem exitCredit_track (car : Car) (s : State) : TrackFrame s (exitCredit car s).1 := by
  unfold exitCredit
  split
  · exact .refl s
  · simp only
    split
    · exact issueCredit_track _ _ _ s
    · exact .refl s

theorem finalise_track (car : Car) (s : State) : TrackFrame s (finalise car s) :=
  (updateCar_track car.tag finaliseCar s).trans (.ofSeq (afterEnded_seqOnly _ _))

theorem updateTally_track (f : Tally → Tally) (s : State) : TrackFrame s (updateTally f s) := ⟨rfl, .refl _⟩

theorem removeAtExit_track (car : Car) (s : State) : TrackFrame s (removeAtExit car s) :=
  (((finalise_track car s).trans (updateTally_track _ _)).trans (exitCredit_track _ _)).trans
    ((TrackFrame.ofPorts (notifyBoth_portsOnly _ _)).trans (leaveQueue_track _ _))

theorem exitRemoval_track (s : State) : TrackFrame s (exitRemoval s) := by
  unfold exitRemoval
  split
  · exact removeAtExit_track _ s
  · exact .refl s

theorem settleEye_track (s : State) (k : Eye) : TrackFrame s (settleEye s k) := by
  unfold settleEye
  split
  · exact .ite (.ite ((setEye_track _ _ s).trans (exitRemoval_track _)) (setEye_track _ _ s))
      (setEye_track _ _ s)
  all_goals exact .refl s

theorem trackPulse_track (s : State) : TrackFrame s (trackPulse s) := by
  have hadvance : TrackFrame s { s with trk.queue := advanceFronts none s.trk.queue } :=
    .of_queue (advanceFronts_map Car.tag (fun _ _ => rfl) _ none)
  exact (hadvance.trans (missingTests_track _ _)).trans (foldl_track _ settleEye_track _ _)

/-- A correction writes the fronts alone (R12). -/
theorem correctQueue_map {β : Type} (g : Car → β) (hg : ∀ car n, g { car with front := n } = g car) (tag pos : Nat)
    (queue : List Car) : ∀ ahead, (correctQueue tag pos ahead queue).map g = queue.map g := by
  induction queue with
  | nil => exact fun _ => rfl
  | cons car rest ih =>
    intro ahead
    unfold correctQueue
    split
    · rw [List.map_cons, List.map_cons, hg]
    · rw [List.map_cons, List.map_cons, ih]

theorem noteMatch_track (k : Eye) (tag : Nat) (s : State) : TrackFrame s (noteMatch k tag s) :=
  .ite (⟨rfl, .refl _⟩) (.refl s)

theorem arbitrate_track (s : State) : TrackFrame s (arbitrate s) := .ofGrant (arbitrate_grantOnly s)

theorem correctCar_track (k : Eye) (pos : Nat) (car : Car) (s : State) : TrackFrame s (correctCar k pos car s) := by
  have harbiter : ∀ t, TrackFrame s t → TrackFrame s (if isNewest t car.tag then arbitrate t else t) :=
    fun t ht => .ite (ht.trans (arbitrate_track t)) ht
  have hcorrect : ∀ t : State, TrackFrame t { t with trk.queue := correctQueue car.tag pos none t.trk.queue } :=
    fun t => .of_queue (correctQueue_map Car.tag (fun _ _ => rfl) _ _ _ none)
  unfold correctCar
  refine harbiter _ (TrackFrame.trans ?_ (.ofSeq (judgeCorrection_seqOnly _ _ _)))
  refine TrackFrame.trans ?_ (foldl_track _ (fun s j => .ite (.refl s) (missingTest_track _ _ _ s)) _ _)
  exact ((markPassed_track _ _ s).trans (hcorrect _)).trans (noteMatch_track _ _ _)

theorem matchEye_track (k : Eye) (s : State) : TrackFrame s (matchEye k s) := by
  unfold matchEye
  split
  · exact .refl s
  · split
    · exact correctCar_track _ _ _ s
    · exact raiseIncident_track _ s

theorem eyeBlocked_track (k : Eye) (s : State) : TrackFrame s (eyeBlocked k s) := by
  unfold eyeBlocked
  split
  · exact (setEye_track _ _ s).trans (matchEye_track _ _)
  · exact setEye_track _ _ s
  all_goals exact .refl s

theorem eyeCleared_track (k : Eye) (s : State) : TrackFrame s (eyeCleared k s) := by
  unfold eyeCleared
  split
  · exact setEye_track _ _ s
  all_goals exact .refl s

/-! ### The entrance -/

theorem raiseTailgate_track (tag : Nat) (s : State) : TrackFrame s (raiseTailgate tag s) := by
  unfold raiseTailgate
  split
  · exact .ite (.refl s) ((updateCar_track _ _ s).trans (raiseIncident_track _ _))
  · exact .refl s

theorem measurePulse_track (s : State) : TrackFrame s (measurePulse s) := by
  have hcount : ∀ m, TrackFrame s { s with ent.measured := m } := fun _ => ⟨rfl, .refl _⟩
  unfold measurePulse
  split
  · exact .refl s
  · exact .ite (.refl s) (.ite ((hcount _).trans (raiseTailgate_track _ _)) (hcount _))

theorem setLength_track (tag len : Nat) (s : State) : TrackFrame s (setLength tag len s) :=
  (updateCar_track _ _ s).trans (.ofSeq (judgeLength_seqOnly _ _))

theorem shortObject_track (car : Car) (s : State) : TrackFrame s (shortObject car s) := by
  unfold shortObject
  split
  · exact (leaveQueue_track _ s).trans (raiseIncident_track _ _)
  · exact (setLength_track _ _ s).trans (raiseIncident_track _ _)

theorem completeMeasure_track (s : State) : TrackFrame s (completeMeasure s) := by
  have hforget : TrackFrame s { s with ent.measured := none } := ⟨rfl, .refl _⟩
  unfold completeMeasure
  split
  · exact .refl s
  · simp only
    split
    · exact hforget
    · exact .ite (hforget.trans (setLength_track _ _ _)) (hforget.trans (shortObject_track _ _))

theorem settleEntrance_track (s : State) : TrackFrame s (settleEntrance s) := by
  have heye : ∀ d, TrackFrame s { s with ent.eye := d } := fun _ => ⟨rfl, .refl _⟩
  unfold settleEntrance
  split
  · exact .ite ((heye _).trans (completeMeasure_track _)) (heye _)
  all_goals exact .refl s

theorem entrancePulse_track (s : State) : TrackFrame s (entrancePulse s) :=
  ((measurePulse_track s).trans (settleEntrance_track _)).trans (arbitrate_track _)

theorem tailgateTest_track (s : State) : TrackFrame s (tailgateTest s) := by
  unfold tailgateTest
  split
  · exact .ite (raiseTailgate_track _ s) (.refl s)
  · exact .refl s

theorem entranceCleared_track (s : State) : TrackFrame s (entranceCleared s) := by
  unfold entranceCleared
  split
  · exact ⟨rfl, .refl _⟩
  all_goals exact .refl s

theorem exitBlocked_track (s : State) : TrackFrame s (exitBlocked s) := by
  have htimer : TrackFrame s (startExitTimer s) := .ite (⟨rfl, .refl _⟩) (.refl s)
  exact htimer.trans (eyeBlocked_track _ _)

theorem removeIncidents_track (p : Incident → Bool) (s : State) : TrackFrame s (removeIncidents p s) :=
  .ofRaise (removeIncidents_frame p s)

theorem exitCleared_track (s : State) : TrackFrame s (exitCleared s) := by
  have htimer : ∀ t : State, TrackFrame t { t with trk.exitTimer := none } := fun _ => ⟨rfl, .refl _⟩
  exact ((eyeCleared_track .exit s).trans (htimer _)).trans (removeIncidents_track _ _)

theorem exitBlockExpired_track (s : State) : TrackFrame s (exitBlockExpired s) := by
  have htimer : TrackFrame s { s with trk.exitTimer := none } := ⟨rfl, .refl _⟩
  unfold exitBlockExpired
  split
  · exact .refl s
  · exact htimer.trans (raiseIncident_track _ _)

theorem grantExpired_track (s : State) : TrackFrame s (grantExpired s) := by
  unfold grantExpired
  split
  · exact .refl s
  · exact .ofGrant (withdrawGrant_grantOnly _ s)

theorem startExpired_track (s : State) : TrackFrame s (startExpired s) := by
  unfold startExpired
  split
  · exact .ofChange (changeTunnel_frame _ _ s)
  · exact .refl s

end Sys2Proof.Machine
end

