-- ==== Sys2Proof/Proofs/QueueBounds.lean ====
section
/-! The bounds of the tunnel queue and the lane queues (R2, R3, R66). Of all commands only three enlarge a queue: the new
object at the entrance (R39, R40), SELL (R70), and the start-up event, which empties them. Every other one shrinks them. -/

namespace Sys2Proof.Machine

/-! ### Operations that enlarge no queue -/

/-- No record joins the tunnel queue, no lane queue grows, and the next-tag counter stays. -/
structure Shrinks (s t : State) : Prop where
  tags : (t.trk.queue.map Car.tag).Sublist (s.trk.queue.map Car.tag)
  counter : t.trk.nextTag = s.trk.nextTag
  lanes : ∀ l, (t.sales.lanes.get l).length ≤ (s.sales.lanes.get l).length

theorem Shrinks.of_eq {s t : State} (hq : t.trk.queue.map Car.tag = s.trk.queue.map Car.tag)
    (hn : t.trk.nextTag = s.trk.nextTag) (hl : t.sales.lanes = s.sales.lanes) : Shrinks s t :=
  ⟨hq ▸ List.Sublist.refl _, hn, fun l => by rw [hl]⟩

theorem Shrinks.refl (s : State) : Shrinks s s := .of_eq rfl rfl rfl

theorem Shrinks.trans {a b c : State} (h : Shrinks a b) (k : Shrinks b c) : Shrinks a c :=
  ⟨k.tags.trans h.tags, k.counter.trans h.counter, fun l => (k.lanes l).trans (h.lanes l)⟩

theorem Shrinks.ite {s a b : State} {p : Prop} [Decidable p] (ha : Shrinks s a) (hb : Shrinks s b) :
    Shrinks s (if p then a else b) := by
  split <;> assumption

theorem Shrinks.pair_ite {s : State} {α : Type} {a b : State × α} {p : Prop} [Decidable p] (ha : Shrinks s a.1)
    (hb : Shrinks s b.1) : Shrinks s (if p then a else b).1 := by
  split <;> assumption

theorem Shrinks.ofTrack {s t : State} (h : TrackFrame s t) : Shrinks s t := by
  obtain ⟨hframe, htags⟩ := h
  exact ⟨htags, by rw [hframe], fun l => by rw [hframe]⟩

theorem Shrinks.ofRaise {s t : State} (h : RaiseFrame s t) : Shrinks s t := .ofTrack (.ofRaise h)

theorem Shrinks.ofChange {s t : State} (h : ChangeFrame s t) : Shrinks s t := .ofRaise (.ofChange s t h)

theorem Shrinks.ofSeq {s t : State} (h : SeqOnly s t) : Shrinks s t := .ofChange (.ofSeq s t h)

theorem Shrinks.ofGrant {s t : State} (h : GrantOnly s t) : Shrinks s t := .ofChange (.ofGrant s t h)

theorem Shrinks.ofPorts {s t : State} (h : PortsOnly s t) : Shrinks s t := .ofChange (.ofPorts s t h)

theorem raiseIncident_shrinks (q : Raise) (s : State) : Shrinks s (raiseIncident q s) :=
  .ofRaise (raiseIncident_frame q s)

theorem arbitrate_shrinks (s : State) : Shrinks s (arbitrate s) := .ofGrant (arbitrate_grantOnly s)

theorem updateTally_shrinks (f : Tally → Tally) (s : State) : Shrinks s (updateTally f s) := .of_eq rfl rfl rfl

theorem foldl_shrinks {α : Type} (f : State → α → State) (hf : ∀ s x, Shrinks s (f s x)) (l : List α) (s : State) :
    Shrinks s (l.foldl f s) :=
  foldl_keeps Shrinks .refl (fun _ _ _ => .trans) f hf l s

/-- The bounds are kept by an operation that enlarges no queue. -/
theorem Shrinks.bounded {s t : State} (h : Shrinks s t) (hs : QueuesBounded s) : QueuesBounded t := by
  obtain ⟨⟨hlen, hnodup, htags, hcounter⟩, hlanes⟩ := hs
  refine ⟨⟨?_, hnodup.sublist h.tags, fun car hcar => ?_, by rwa [h.counter]⟩,
    fun l hl => (h.lanes l).trans (hlanes l hl)⟩
  · have := h.tags.length_le
    simp only [List.length_map] at this
    omega
  · obtain ⟨old, hold, heq⟩ := List.mem_map.mp (h.tags.subset (List.mem_map_of_mem hcar))
    rw [← heq]
    exact htags old hold

theorem driveLines_shrinks (s : State) : Shrinks s (driveLines s) := .of_eq rfl rfl rfl

theorem event_shrinks {f : State → State} (hf : ∀ s, Shrinks s (f s)) (s : State) : Shrinks s (event f s) :=
  .ite (.refl s) ((hf s).trans (driveLines_shrinks _))

theorem lineEdge_shrinks {setLine f : State → State} (hf : ∀ s, Shrinks s (f s)) (now level : Bool) (s : State)
    (hset : ∀ s, Shrinks s (setLine s) := by intro _; exact .of_eq rfl rfl rfl) :
    Shrinks s (lineEdge now level setLine f s) :=
  .ite (.refl s) ((hset s).trans (event_shrinks hf _))

theorem portEvent_shrinks {f : State → State} (hf : ∀ s, Shrinks s (f s)) (s : State) : Shrinks s (portEvent f s) :=
  .ite (.refl s) (hf s)

theorem respond_shrinks {owner : State → State × Answer} (ho : ∀ s, Shrinks s (owner s).1) (p : Port) (k : ReqKind)
    (form : Bool) (s : State) : Shrinks s (respond p k form owner s) := by
  obtain h | ⟨-, -, -, -, h⟩ := respond_cases p k form owner s
  · exact .ofPorts h
  · rw [h]
    exact ((Shrinks.ofPorts (frameDone_portsOnly p s)).trans (ho _)).trans (.ofPorts (sendAnswer_portsOnly _ _ _ _))

theorem driven_shrinks {owner : State → State × Answer} (ho : ∀ s, Shrinks s (owner s).1) (s : State) :
    Shrinks s (driven owner s).1 :=
  (ho s).trans (driveLines_shrinks _)

theorem holderOnly_shrinks {owner : State → State × Answer} (ho : ∀ s, Shrinks s (owner s).1) (p : Port) (s : State) :
    Shrinks s (holderOnly p owner s).1 := by
  unfold holderOnly
  split
  · exact ho s
  · exact .refl s

theorem holderOrConsole_shrinks {owner : State → State × Answer} (ho : ∀ s, Shrinks s (owner s).1) (p : Port)
    (s : State) : Shrinks s (holderOrConsole p owner s).1 := by
  unfold holderOrConsole
  split
  · exact ho s
  · exact .refl s

/-! ### Pulses, stations, scans, windows -/

theorem pulse_shrinks (s : State) : Shrinks s (pulse s) := by
  have hcount : ∀ t, Shrinks t (countPulse t) := fun t => .of_eq rfl rfl rfl
  have hjudge := (trackPulse_track s).trans (.ofSeq (judgePulse_seqOnly _))
  exact (Shrinks.ofTrack (hjudge.trans (entrancePulse_track _))).trans (hcount _)


theorem updateUnit_shrinks (i : Fin 16) (f : StationUnit → StationUnit) (s : State) : Shrinks s (updateUnit i f s) :=
  .ofSeq (updateUnit_seqOnly i f s)

theorem moveStation_shrinks (i : Fin 16) (new : StationState) (s : State) : Shrinks s (moveStation i new s) :=
  .ofSeq (moveStation_seqOnly i new s)

theorem giveUp_shrinks (i : Fin 16) (s : State) : Shrinks s (giveUp i s) :=
  ((updateUnit_shrinks i _ s).trans (moveStation_shrinks i _ _)).trans (raiseIncident_shrinks _ _)

theorem failAttempt_shrinks (i : Fin 16) (s : State) : Shrinks s (failAttempt i s) :=
  .ite (((updateUnit_shrinks i _ s).trans (moveStation_shrinks i _ _)).trans (updateUnit_shrinks i _ _))
    (giveUp_shrinks i s)

theorem loseProof_shrinks (i : Fin 16) (s : State) : Shrinks s (loseProof i s) := by
  refine Shrinks.trans (.ofSeq (markEntries_seqOnly i .proof false s)) (.ite ?_ (giveUp_shrinks i _))
  exact ((updateUnit_shrinks i _ _).trans (moveStation_shrinks i _ _)).trans (updateUnit_shrinks i _ _)

theorem proofOn_shrinks (i : Fin 16) (s : State) : Shrinks s (proofOn i s) :=
  .ite (.ofSeq (becomeReady_seqOnly i s)) (.ite (updateUnit_shrinks i _ s) (.refl s))

theorem proofOff_shrinks (i : Fin 16) (s : State) : Shrinks s (proofOff i s) :=
  .ite (loseProof_shrinks i s) (.refl s)

theorem proofExpired_shrinks (i : Fin 16) (s : State) : Shrinks s (proofExpired i s) := by
  unfold proofExpired
  simp only
  split
  · exact .refl s
  · exact (updateUnit_shrinks i _ s).trans
      (.ite (failAttempt_shrinks i _) (.ite (loseProof_shrinks i _) (.refl _)))

theorem retryExpired_shrinks (i : Fin 16) (s : State) : Shrinks s (retryExpired i s) := by
  unfold retryExpired
  simp only
  split
  · exact .refl s
  · refine (updateUnit_shrinks i _ s).trans (.ite (.ite ?_ (moveStation_shrinks i _ _)) (.refl _))
    exact (moveStation_shrinks i _ _).trans (.ofSeq (beginAttempt_seqOnly i _))

theorem scan_shrinks (samples : Tab 6 (BitVec 12)) (s : State) : Shrinks s (scan samples s) := by
  have hmark : ∀ s k, Shrinks s (slackMark s k) := fun s k => by
    unfold slackMark
    split
    · exact .refl s
    · exact .ofSeq (markEntries_seqOnly _ _ _ s)
  have hslots : ∀ m, Shrinks s { s with mon := m } := fun _ => .of_eq rfl rfl rfl
  exact ((hslots _).trans (foldl_shrinks _ (fun s k => .ite (hmark s k) (.refl s)) _ _)).trans
    (.ofRaise (raiseEach_frame _ _))

theorem windowEnd_shrinks (s : State) : Shrinks s (windowEnd s) := by
  have hstall : ∀ n, Shrinks s { closeWindow s with pace.stall := n } := fun _ => .of_eq rfl rfl rfl
  exact .ite ((hstall _).trans (raiseIncident_shrinks _ _)) (hstall _)

/-! ### Requests -/

theorem setLane_shrinks (l : Lane) (q : List Ticket) (s : State) (h : q.length ≤ (s.sales.lanes.get l).length) :
    Shrinks s (setLane l q s) := by
  refine ⟨List.Sublist.refl _, rfl, fun m => ?_⟩
  by_cases hm : l = m
  · subst hm; simpa using h
  · simp [PerLane.get_set_ne _ _ _ _ hm]

theorem withdrawLane_shrinks (l : Lane) (r : WithdrawReason) (s : State) : Shrinks s (withdrawLane l r s) :=
  .ofGrant (withdrawLane_grantOnly l r s)

theorem updateFirst_length {α : Type} (p : α → Bool) (f : α → α) (l : List α) :
    (updateFirst p f l).length = l.length := by
  induction l with
  | nil => rfl
  | cons x xs ih =>
    unfold updateFirst
    split
    · rfl
    · simpa using ih

theorem placeTicket_shrinks (place : TicketPlace) (code level : Nat) (t : Ticket) (s : State) :
    Shrinks s (placeTicket place code level t s) := by
  cases place with
  | queued l x => exact setLane_shrinks l _ s (updateFirst_length _ _ _).le
  | bound car x => exact (Shrinks.ofTrack (updateCar_track _ _ s)).trans (.ofSeq (testArmAll_seqOnly _))

theorem bindTicket_shrinks (car : Car) (t : Ticket) (s : State) : Shrinks s (bindTicket car t s) :=
  (Shrinks.ofTrack (updateCar_track _ _ s)).trans (.ofSeq (testArmAll_seqOnly _))

theorem clearRecord_shrinks (car : Car) (s : State) : Shrinks s (clearRecord car s) := by
  have hcredit : Shrinks s (clearCredit car s).1 := by
    unfold clearCredit
    split
    · exact .refl s
    · simp only
      split
      · exact .ofTrack (issueCredit_track _ _ _ s)
      · exact .refl s
  exact (hcredit.trans (.ofPorts (notifyBoth_portsOnly _ _))).trans (.ofTrack (leaveQueue_track _ _))

theorem reorderAll_shrinks (s : State) : Shrinks s (reorderAll s) := .ofTrack (mapQueue_track _ s)

theorem returnStation_shrinks (i : Fin 16) (s : State) : Shrinks s (returnStation i s) :=
  ((updateUnit_shrinks i _ s).trans (moveStation_shrinks i _ _)).trans (.ofSeq (testArm_seqOnly i _))

theorem ownLaneStatus_shrinks (p : Port) (lane : Option Nat) (s : State) : Shrinks s (ownLaneStatus p lane s).1 := by
  unfold ownLaneStatus
  split
  · exact .refl s
  · exact .of_eq rfl rfl rfl

theorem ownTallyRead_shrinks (p : Port) (part : Nat) (take clear : Bool) (s : State) :
    Shrinks s (ownTallyRead p part take clear s).1 := by
  have htake : Shrinks s (takeCopy p s) := .ite (.of_eq rfl rfl rfl) (.of_eq rfl rfl rfl)
  unfold ownTallyRead
  refine .pair_ite (.refl s) (.pair_ite (.refl s) (.pair_ite ?_ ?_))
  · exact .ite (htake.trans (updateTally_shrinks _ _)) htake
  · split <;> exact .refl s

theorem takeTicket_shrinks (l : Lane) (t : Ticket) (s : State) : Shrinks s (takeTicket l t s) := by
  have hleave := setLane_shrinks l ((s.sales.lanes.get l).filter fun x => x.sale != t.sale) s
    (List.length_filter_le _ _)
  unfold takeTicket
  exact .ite (hleave.trans (withdrawLane_shrinks _ _ _)) hleave

theorem ownVoid_shrinks (p : Port) (sale : Nat) (s : State) : Shrinks s (ownVoid p sale s).1 := by
  unfold ownVoid
  split
  · exact .refl s
  · split
    · exact .refl s
    · exact (updateTally_shrinks _ s).trans (takeTicket_shrinks _ _ _)

theorem acceptAddOn_shrinks (place : TicketPlace) (code level price : Nat) (s : State) :
    Shrinks s (acceptAddOn place code level price s).1 := by
  unfold acceptAddOn
  exact (updateTally_shrinks _ s).trans (placeTicket_shrinks _ _ _ _ _)

theorem ownAddService_shrinks (p : Port) (sale code level : Nat) (s : State) :
    Shrinks s (ownAddService p sale code level s).1 := by
  unfold ownAddService
  split
  · exact .refl s
  · split
    · exact .refl s
    · refine .pair_ite (.refl s) (.pair_ite (.refl s) ?_)
      split
      · exact .refl s
      · exact acceptAddOn_shrinks _ _ _ _ s

theorem ownAttachLane_shrinks (tag lane : Nat) (s : State) : Shrinks s (ownAttachLane tag lane s).1 := by
  unfold ownAttachLane
  split
  · exact .refl s
  · split
    · exact .refl s
    · split
      · exact .refl s
      · next t rest hlane =>
        have htake := setLane_shrinks _ rest s (by rw [hlane]; exact Nat.le_succ _)
        dsimp only
        exact (htake.trans (bindTicket_shrinks _ _ _)).trans (withdrawLane_shrinks _ _ _)

theorem ownAttachNewSale_shrinks (tag : Nat) (buy : Purchase) (ref : Nat) (s : State) :
    Shrinks s (ownAttachNewSale tag buy ref s).1 := by
  have hsell : ∀ q, Shrinks s (sellTicket .console buy q s) := fun _ => .of_eq rfl rfl rfl
  unfold ownAttachNewSale
  split
  · exact .refl s
  · split
    · exact .refl s
    · dsimp only
      exact (hsell _).trans (bindTicket_shrinks _ _ _)

theorem ownAckIncident_shrinks (number : Nat) (s : State) : Shrinks s (ownAckIncident number s).1 := by
  unfold ownAckIncident
  split
  · exact .refl s
  · exact .pair_ite (.refl s) (.ofTrack (removeIncidents_track _ s))

theorem changeTunnel_shrinks (new : Tunnel) (cause : Cause) (s : State) : Shrinks s (changeTunnel new cause s) :=
  .ofChange (changeTunnel_frame new cause s)

theorem ownRestart_shrinks (s : State) : Shrinks s (ownRestart s).1 := by
  unfold ownRestart okTunnel
  split
  · exact .pair_ite (.refl s) (changeTunnel_shrinks _ _ s)
  all_goals exact .refl s

theorem ownLaneReset_shrinks (lane : Nat) (s : State) : Shrinks s (ownLaneReset lane s).1 := by
  unfold ownLaneReset
  split
  · exact .refl s
  · exact ((updateTally_shrinks _ s).trans (setLane_shrinks _ [] _ (Nat.zero_le _))).trans (withdrawLane_shrinks _ _ _)

theorem setEnabled_shrinks (l : Lane) (x : Bool) (s : State) : Shrinks s (setEnabled l x s) := .of_eq rfl rfl rfl

theorem ownLaneEnable_shrinks (lane : Nat) (s : State) : Shrinks s (ownLaneEnable lane s).1 := by
  unfold ownLaneEnable
  split
  · exact .refl s
  · exact (setEnabled_shrinks _ _ s).trans (arbitrate_shrinks _)

theorem ownLaneDisable_shrinks (lane : Nat) (s : State) : Shrinks s (ownLaneDisable lane s).1 := by
  unfold ownLaneDisable
  split
  · exact .refl s
  · exact (setEnabled_shrinks _ _ s).trans (withdrawLane_shrinks _ _ _)

theorem ownTunnelClear_shrinks (s : State) : Shrinks s (ownTunnelClear s).1 := by
  unfold ownTunnelClear
  split
  · exact foldl_shrinks _ (fun s car => clearRecord_shrinks car s) _ s
  · exact foldl_shrinks _ (fun s car => clearRecord_shrinks car s) _ s
  all_goals exact .refl s

theorem ownStationOff_shrinks (station : Nat) (s : State) : Shrinks s (ownStationOff station s).1 := by
  unfold ownStationOff okStation
  split
  · exact .refl s
  · exact .pair_ite (.refl s) ((moveStation_shrinks _ _ s).trans (.ofSeq (markEntries_seqOnly _ _ _ _)))

theorem ownStationOn_shrinks (station : Nat) (s : State) : Shrinks s (ownStationOn station s).1 := by
  unfold ownStationOn okStation
  split
  · exact .refl s
  · exact .pair_ite (returnStation_shrinks _ s) (.refl s)

theorem ownStationReset_shrinks (station : Nat) (s : State) : Shrinks s (ownStationReset station s).1 := by
  unfold ownStationReset okStation
  split
  · exact .refl s
  · exact .pair_ite (returnStation_shrinks _ s) (.refl s)

theorem ownClaim_shrinks (p : Port) (s : State) : Shrinks s (ownClaim p s).1 := by
  have hholder : ∀ h u, Shrinks u (setHolder h u) := fun _ _ => .of_eq rfl rfl rfl
  unfold ownClaim
  split
  · exact (Shrinks.ite (.ofPorts (notify_portsOnly _ _ s)) (.refl s)).trans (hholder _ _)
  · split
    · exact .refl s
    · exact hholder _ s

theorem setTunnel_shrinks (t : Tunnel) (s : State) : Shrinks s (setTunnel t s) := .of_eq rfl rfl rfl

theorem setManual_shrinks (x : Bool) (s : State) : Shrinks s (setManual x s) := .of_eq rfl rfl rfl

theorem ownOpen_shrinks (s : State) : Shrinks s (ownOpen s).1 := by
  unfold ownOpen okTunnel
  split
  · exact .pair_ite (.refl s) (.pair_ite (changeTunnel_shrinks _ _ s) (.refl s))
  · exact setTunnel_shrinks _ s
  · exact setTunnel_shrinks _ s
  · exact changeTunnel_shrinks .running (.request .openTunnel) s
  all_goals exact .refl s

theorem ownDrain_shrinks (s : State) : Shrinks s (ownDrain s).1 := by
  unfold ownDrain okTunnel
  split
  · exact changeTunnel_shrinks _ _ s
  · exact setTunnel_shrinks _ s
  · exact setTunnel_shrinks _ s
  all_goals exact .refl s

theorem ownStop_shrinks (s : State) : Shrinks s (ownStop s).1 := by
  have hchange : Shrinks s (changeTunnel .stopped (.request .stop) (setManual false s)) :=
    (setManual_shrinks _ s).trans (changeTunnel_shrinks _ _ _)
  have hstop : Shrinks s (stopIfEmpty s).1 := by
    unfold stopIfEmpty
    split
    · dsimp only
      exact hchange
    · exact .refl s
  unfold ownStop
  split
  · exact .refl s
  · exact .pair_ite (.refl s) hstop
  all_goals exact hstop

theorem ownPause_shrinks (s : State) : Shrinks s (ownPause s).1 := by
  have hpause : Shrinks s (pauseTunnel (.request .pause) (setManual true s)) :=
    (setManual_shrinks _ s).trans (.ofChange (pauseTunnel_frame _ _))
  unfold ownPause okPause
  split
  · exact hpause
  · exact hpause
  · exact hpause
  · exact setManual_shrinks _ s
  all_goals exact .refl s

theorem ownResume_shrinks (s : State) : Shrinks s (ownResume s).1 := by
  unfold ownResume okPause
  split
  · exact .pair_ite (setManual_shrinks _ s)
      ((setManual_shrinks false s).trans (changeTunnel_shrinks (.starting _) (.request .resume) _))
  all_goals exact .refl s

theorem ownDefinePlan_shrinks (plan : Nat) (name : List Nat) (price cls : Nat) (list : List RawPair) (s : State) :
    Shrinks s (ownDefinePlan plan name price cls list s).1 := by
  unfold ownDefinePlan
  refine .pair_ite (.refl s) ?_
  split
  · exact .refl s
  · refine .pair_ite (.refl s) (.pair_ite (.refl s) (.pair_ite (.refl s) (.pair_ite (.refl s) ?_)))
    exact .of_eq rfl rfl rfl

theorem ownErasePlan_shrinks (plan : Nat) (s : State) : Shrinks s (ownErasePlan plan s).1 := by
  unfold ownErasePlan
  refine .pair_ite (.refl s) ?_
  split
  · exact .refl s
  · split
    · exact .refl s
    · exact .refl s
    all_goals exact .of_eq rfl rfl rfl

theorem setPlanState_shrinks (i : Fin 12) (st : PlanState) (s : State) : Shrinks s (setPlanState i st s) :=
  .of_eq rfl rfl rfl

theorem ownPublish_shrinks (plan : Nat) (s : State) : Shrinks s (ownPublish plan s).1 := by
  unfold ownPublish
  refine .pair_ite (.refl s) ?_
  split
  · exact .refl s
  · split
    · exact .refl s
    · exact .refl s
    all_goals exact setPlanState_shrinks _ _ s

theorem ownWithdraw_shrinks (plan : Nat) (s : State) : Shrinks s (ownWithdraw plan s).1 := by
  unfold ownWithdraw
  refine .pair_ite (.refl s) ?_
  split
  · exact .refl s
  · split
    case h_4 => exact setPlanState_shrinks _ _ s
    all_goals exact .refl s

theorem ownSetService_shrinks (code presence price limit : Nat) (s : State) :
    Shrinks s (ownSetService code presence price limit s).1 := by
  unfold ownSetService
  refine .pair_ite (.refl s) ?_
  split
  · exact .of_eq rfl rfl rfl
  · exact .refl s

theorem ownSetStation_shrinks (station : Nat) (raw : RawStation) (s : State) :
    Shrinks s (ownSetStation station raw s).1 := by
  have hput : ∀ i r, Shrinks s (putStation i r s) := fun _ _ => .of_eq rfl rfl rfl
  unfold ownSetStation storeStation
  refine .pair_ite (.refl s) ?_
  split
  · refine .pair_ite (.refl s) (.pair_ite (.refl s) (.pair_ite (.refl s) ?_))
    exact .ite (hput _ _) ((hput _ _).trans (reorderAll_shrinks _))
  · exact .refl s

theorem reclampStations_shrinks (before after : Nat) (s : State) : Shrinks s (reclampStations before after s) := by
  have htable : ∀ t, Shrinks s { s with seq.table := t } := fun _ => .of_eq rfl rfl rfl
  exact .ite ((htable _).trans (reorderAll_shrinks _)) (.refl s)

theorem applyConstants_shrinks (c : Constants) (s : State) : Shrinks s (applyConstants c s) := by
  have hset : ∀ e d, Shrinks s { s with sup.consts := c, trk.eyes := e, ent.eye := d } :=
    fun _ _ => .of_eq rfl rfl rfl
  exact ((hset _ _).trans (reclampStations_shrinks _ _ _)).trans (.ite (.ofTrack (tailgateTest_track _)) (.refl _))

theorem ownSetConstants_shrinks (c : Constants) (s : State) : Shrinks s (ownSetConstants c s).1 := by
  unfold ownSetConstants
  exact .pair_ite (.refl s) (.pair_ite (.refl s) (applyConstants_shrinks _ s))

theorem ownSetResponse_shrinks (kind cls : Nat) (s : State) : Shrinks s (ownSetResponse kind cls s).1 := by
  unfold ownSetResponse
  refine .pair_ite (.refl s) ?_
  split
  · exact .pair_ite (.of_eq rfl rfl rfl) (.refl s)
  · exact .refl s

theorem ownIssueCredit_shrinks (value plan : Nat) (s : State) : Shrinks s (ownIssueCredit value plan s).1 := by
  unfold ownIssueCredit
  exact .pair_ite (.refl s) (.ofTrack (issueCredit_track _ _ _ s))

theorem ownSave_shrinks (s : State) : Shrinks s (ownSave s).1 := by
  unfold ownSave
  exact .pair_ite (.refl s) (.of_eq rfl rfl rfl)

/-- Every request but SELL enlarges no queue. -/
theorem runRequest_shrinks (c : Instr) (hc : ∀ p lane buy ref, c ≠ .sell p lane buy ref) (s : State) :
    Shrinks s (runRequest c s) := by
  cases c with
  | sell p lane buy ref => exact absurd rfl (hc p lane buy ref)
  | tunnelStatus p => exact respond_shrinks (fun _ => .of_eq rfl rfl rfl) _ _ _ s
  | carList | incidentList | creditList | stationStatus | planListSummary | planListPlan | planListService | quote =>
    exact respond_shrinks (fun u => .refl u) _ _ _ s
  | laneStatus p lane => exact respond_shrinks (ownLaneStatus_shrinks p lane) _ _ _ s
  | tallyRead p part take clear => exact respond_shrinks (ownTallyRead_shrinks p part take clear) _ _ _ s
  | void p sale => exact respond_shrinks (driven_shrinks (ownVoid_shrinks p sale)) _ _ _ s
  | addService p sale code level =>
    exact respond_shrinks (driven_shrinks (ownAddService_shrinks p sale code level)) _ _ _ s
  | attachLane p tag lane => exact respond_shrinks (driven_shrinks (ownAttachLane_shrinks tag lane)) _ _ _ s
  | attachNewSale p tag buy ref =>
    exact respond_shrinks (driven_shrinks (ownAttachNewSale_shrinks tag buy ref)) _ _ _ s
  | ackIncident p n => exact respond_shrinks (driven_shrinks (ownAckIncident_shrinks n)) _ _ _ s
  | ackIncidentAll p => exact respond_shrinks (driven_shrinks fun u => .ofTrack (removeIncidents_track _ u)) _ _ _ s
  | restart p => exact respond_shrinks (driven_shrinks ownRestart_shrinks) _ _ _ s
  | laneReset p l => exact respond_shrinks (driven_shrinks (ownLaneReset_shrinks l)) _ _ _ s
  | laneEnable p l => exact respond_shrinks (driven_shrinks (ownLaneEnable_shrinks l)) _ _ _ s
  | laneDisable p l => exact respond_shrinks (driven_shrinks (ownLaneDisable_shrinks l)) _ _ _ s
  | tunnelClear p => exact respond_shrinks (driven_shrinks ownTunnelClear_shrinks) _ _ _ s
  | stationOff p i => exact respond_shrinks (driven_shrinks (ownStationOff_shrinks i)) _ _ _ s
  | stationOn p i => exact respond_shrinks (driven_shrinks (ownStationOn_shrinks i)) _ _ _ s
  | stationReset p i => exact respond_shrinks (driven_shrinks (ownStationReset_shrinks i)) _ _ _ s
  | claim p => exact respond_shrinks (ownClaim_shrinks p) _ _ _ s
  | yield p => exact respond_shrinks (holderOnly_shrinks (fun _ => .of_eq rfl rfl rfl) p) _ _ _ s
  | openTunnel p => exact respond_shrinks (driven_shrinks (holderOnly_shrinks ownOpen_shrinks p)) _ _ _ s
  | drain p => exact respond_shrinks (driven_shrinks (holderOnly_shrinks ownDrain_shrinks p)) _ _ _ s
  | stop p => exact respond_shrinks (driven_shrinks (holderOnly_shrinks ownStop_shrinks p)) _ _ _ s
  | pause p => exact respond_shrinks (driven_shrinks (holderOrConsole_shrinks ownPause_shrinks p)) _ _ _ s
  | resume p => exact respond_shrinks (driven_shrinks (holderOrConsole_shrinks ownResume_shrinks p)) _ _ _ s
  | forceSpeed p cls =>
    exact respond_shrinks (driven_shrinks (holderOnly_shrinks (fun _ => .of_eq rfl rfl rfl) p)) _ _ _ s
  | releaseSpeed p =>
    exact respond_shrinks (driven_shrinks (holderOnly_shrinks (fun _ => .of_eq rfl rfl rfl) p)) _ _ _ s
  | definePlan p plan name price cls list =>
    exact respond_shrinks (ownDefinePlan_shrinks plan name price cls list) _ _ _ s
  | erasePlan p n => exact respond_shrinks (ownErasePlan_shrinks n) _ _ _ s
  | publish p n => exact respond_shrinks (ownPublish_shrinks n) _ _ _ s
  | withdraw p n => exact respond_shrinks (ownWithdraw_shrinks n) _ _ _ s
  | setService p code presence price limit =>
    exact respond_shrinks (ownSetService_shrinks code presence price limit) _ _ _ s
  | setStation p i r => exact respond_shrinks (driven_shrinks (ownSetStation_shrinks i r)) _ _ _ s
  | setConstants p k => exact respond_shrinks (driven_shrinks (ownSetConstants_shrinks k)) _ _ _ s
  | setResponse p kind cls => exact respond_shrinks (ownSetResponse_shrinks kind cls) _ _ _ s
  | issueCredit p value plan => exact respond_shrinks (ownIssueCredit_shrinks value plan) _ _ _ s
  | save p => exact respond_shrinks ownSave_shrinks _ _ _ s
  | _ => exact .refl s

/-! ### Operations that enlarge a queue -/

/-- An append keeps the bounds where the queue has room: the record's tag is one that no other record carries (R2, R3). -/
theorem QueuesBounded.append {s : State} (hs : QueuesBounded s) (hroom : s.trk.queue.length < 12)
    (ticket : Option Ticket) : QueuesBounded (appendCar ticket s) := by
  obtain ⟨⟨-, hnodup, htags, hlow, hhigh⟩, hlanes⟩ := hs
  have hused : (s.trk.queue.map Car.tag).length < 255 := by rw [List.length_map]; omega
  have hfree := allocate_not_mem 255 (s.trk.queue.map Car.tag) s.trk.nextTag hlow hhigh hused
  have hrange := allocate_range 255 (s.trk.queue.map Car.tag) s.trk.nextTag hlow hhigh
  refine (Shrinks.ofSeq (testArmAll_seqOnly _)).bounded ⟨⟨?_, ?_, ?_, nextCount_range 255 _ (by decide)⟩, hlanes⟩
  · simpa using Nat.succ_le_of_lt hroom
  · rw [List.map_append, List.nodup_append_comm]
    exact List.nodup_cons.mpr ⟨hfree, hnodup⟩
  · intro car hcar
    obtain hold | hnew := List.mem_append.mp hcar
    · exact htags car hold
    · rw [List.mem_singleton.mp hnew]
      exact hrange

/-- A new object at the entrance joins the tunnel queue only where it holds fewer than 12 records (R39 to R41). -/
theorem newObject_bounded (s : State) (hs : QueuesBounded s) : QueuesBounded (newObject s) := by
  have hforget : Shrinks s { s with ent.measured := none } := .of_eq rfl rfl rfl
  have hmeasure : ∀ tag u, Shrinks u (startMeasure tag u) := fun _ _ => .of_eq rfl rfl rfl
  unfold newObject bindHead enterUnpaid
  split
  · exact (hforget.trans (raiseIncident_shrinks _ _)).bounded hs
  · next hroom =>
    have hroom : s.trk.queue.length < 12 := Nat.lt_of_not_le hroom
    split
    · next l t _ =>
      have htake : Shrinks s (clearGrant (setLane l (s.sales.lanes.get l).tail s)) :=
        (setLane_shrinks l _ s (by simp)).trans (.of_eq rfl rfl rfl)
      have happend := (htake.bounded hs).append hroom (some t)
      exact ((hmeasure _ _).trans (.ofPorts (notify_portsOnly _ _ _))).bounded happend
    · exact ((hmeasure _ _).trans (raiseIncident_shrinks _ _)).bounded (hs.append hroom none)

theorem entranceBlocked_bounded (s : State) (hs : QueuesBounded s) : QueuesBounded (entranceBlocked s) := by
  have heye : ∀ d, Shrinks s (setEntranceEye d s) := fun _ => .of_eq rfl rfl rfl
  unfold entranceBlocked
  split
  · exact newObject_bounded _ ((heye _).bounded hs)
  · exact ((heye _).trans (.ofTrack (tailgateTest_track _))).bounded hs
  · exact hs

/-- A sold ticket joins a lane queue only where it holds fewer than 4 tickets (R66, R70). -/
theorem ownSell_bounded (p : Port) (lane : Option Nat) (buy : Purchase) (ref : Nat) (s : State)
    (hs : QueuesBounded s) : QueuesBounded (ownSell p lane buy ref s).1 := by
  unfold ownSell
  split
  · exact hs
  · next l _ =>
    split
    · exact hs
    · next q _ =>
      split
      · exact hs
      · next hroom =>
        have hroom : (s.sales.lanes.get l).length < 4 := Nat.lt_of_not_le hroom
        refine (arbitrate_shrinks _).bounded ⟨hs.1, fun m hm => ?_⟩
        by_cases hlm : l = m
        · subst hlm
          simpa [setLane, sellTicket, updateTally] using Nat.succ_le_of_lt hroom
        · simpa [setLane, sellTicket, updateTally, PerLane.get_set_ne _ _ _ _ hlm] using hs.2 m hm

theorem handleSell_bounded (p : Port) (lane : Option Nat) (buy : Purchase) (ref : Nat) (s : State)
    (hs : QueuesBounded s) : QueuesBounded (handleSell p lane buy ref s) := by
  unfold handleSell
  obtain h | ⟨-, -, -, -, h⟩ := respond_cases p .sell (laneForm p lane) (driven (ownSell p lane buy ref)) s
  · exact (Shrinks.ofPorts h).bounded hs
  · rw [h]
    refine (Shrinks.ofPorts (sendAnswer_portsOnly _ _ _ _)).bounded ((driveLines_shrinks _).bounded ?_)
    exact ownSell_bounded _ _ _ _ _ ((Shrinks.ofPorts (frameDone_portsOnly p s)).bounded hs)

theorem runRequest_bounded (c : Instr) (s : State) (hs : QueuesBounded s) : QueuesBounded (runRequest c s) := by
  by_cases hc : ∃ p lane buy ref, c = .sell p lane buy ref
  · obtain ⟨p, lane, buy, ref, rfl⟩ := hc
    exact handleSell_bounded p lane buy ref s hs
  · exact (runRequest_shrinks c (fun p lane buy ref h => hc ⟨p, lane, buy, ref, h⟩) s).bounded hs

/-- The start-up event empties every queue (R3, R66). -/
theorem loadRecords_bounded (cause : ResetCause) (s : State) : QueuesBounded (loadRecords cause s) := by
  refine ⟨⟨Nat.zero_le _, List.nodup_nil, fun car hcar => absurd hcar List.not_mem_nil, Nat.le_refl 1, ?_⟩, ?_⟩
  · change 1 ≤ 255
    decide
  · intro l _
    cases l <;> exact Nat.zero_le _

theorem startUp_bounded (cause : ResetCause) (s : State) (hs : QueuesBounded s) : QueuesBounded (startUp cause s) := by
  unfold startUp
  split
  · exact ((Shrinks.ite (.refl _) (raiseIncident_shrinks _ _)).trans (driveLines_shrinks _)).bounded
      (loadRecords_bounded cause s)
  · exact hs

/-! ### Frames received byte by byte -/

theorem frameDone_shrinks (p : Port) (s : State) : Shrinks s (frameDone p s) := .ofPorts (frameDone_portsOnly p s)

theorem handleUnknownKind_shrinks (p : Port) (kind : Nat) (s : State) : Shrinks s (handleUnknownKind p kind s) := by
  unfold handleUnknownKind
  exact .ite (.refl s) (.ite (.ite ((frameDone_shrinks p s).trans (.ofPorts (sendAnswer_portsOnly _ _ _ _)))
    (frameDone_shrinks p s)) (.refl s))

theorem handleFrame_bounded (p : Port) (kind : Nat) (payload : List Byte) (s : State) (hs : QueuesBounded s) :
    QueuesBounded (handleFrame p kind payload s) := by
  unfold handleFrame
  split
  · exact (frameDone_shrinks p s).bounded hs
  · split
    · exact (handleUnknownKind_shrinks p kind s).bounded hs
    · split
      · exact (respond_shrinks (fun u => .refl u) _ _ _ s).bounded hs
      · exact runRequest_bounded _ s hs

theorem setRx_shrinks (p : Port) (x : RxPath) (s : State) : Shrinks s (setRx p x s) :=
  .ofPorts (updatePort_portsOnly p _ s)

theorem receive_bounded (p : Port) (byte : Byte) (s : State) (hs : QueuesBounded s) :
    QueuesBounded (receive p byte s) := by
  unfold receive completeFrame
  simp only
  split
  · exact (Shrinks.ite (setRx_shrinks _ _ s) (.refl s)).bounded hs
  · exact (Shrinks.ite (setRx_shrinks _ _ s) (frameDone_shrinks p s)).bounded hs
  · exact (setRx_shrinks _ _ s).bounded hs
  · split
    · split
      · exact (frameDone_shrinks p s).bounded hs
      · exact handleFrame_bounded _ _ _ s hs
    · exact (frameDone_shrinks p s).bounded hs

/-! ### Every command -/

/-- Every command answers a next state: `after` is the whole of `exec`. -/
theorem exec_eq_after (c : Instr) (s : State) : exec c s = .next (after c s) := by cases c <;> rfl

/-- The command of a request handles the request and does nothing else (R180). -/
theorem after_request (c : Instr) (p : Port) (h : requestPort c = some p) (s : State) : after c s = runRequest c s := by
  cases c <;> first | rfl | exact absurd h nofun

theorem finishWrite_shrinks (verified : Bool) (s : State) : Shrinks s (finishWrite verified s) := by
  unfold finishWrite
  split
  · exact .refl s
  · exact .ite (.of_eq rfl rfl rfl) (.of_eq rfl rfl rfl)

theorem holdReset_shrinks (s : State) : Shrinks s (holdReset s) := by
  have hcut : Shrinks s (cutWrite s) := .ite (.of_eq rfl rfl rfl) (.refl s)
  exact hcut.trans (.of_eq rfl rfl rfl)

theorem discardFrame_shrinks (p : Port) (cause : DiscardCause) (s : State) : Shrinks s (discardFrame p cause s) :=
  .ite (frameDone_shrinks p s) (.refl s)

theorem gapExpired_shrinks (p : Port) (s : State) : Shrinks s (gapExpired p s) := by
  unfold gapExpired
  split
  · exact .refl s
  · exact frameDone_shrinks p s

theorem updatePort_shrinks (p : Port) (f : PortUnit → PortUnit) (s : State) : Shrinks s (updatePort p f s) :=
  .ofPorts (updatePort_portsOnly p f s)

theorem setSwitch_shrinks (k : Fin 6) (line : Switch) (x : Bool) (s : State) : Shrinks s (setSwitch k line x s) := by
  cases line <;> exact .of_eq rfl rfl rfl

/-- Every event but a blocking edge of the entrance eye, a received byte and the start-up event enlarges no queue. -/
theorem event_command_shrinks (c : Instr) (hrequest : requestPort c = none) (hentrance : c ≠ .entranceEyeBlockingEdge)
    (hbyte : carriesAny c = false) (s : State) : Shrinks s (after c s) := by
  cases c with
  | entranceEyeBlockingEdge => exact absurd rfl hentrance
  | startUp | byteReceived => exact absurd hbyte nofun
  | unknownKind p kind => exact handleUnknownKind_shrinks p kind s
  | frameDiscarded p cause => exact portEvent_shrinks (discardFrame_shrinks p cause) s
  | gapTimerExpiry p => exact portEvent_shrinks (gapExpired_shrinks p) s
  | txStart p => exact portEvent_shrinks (updatePort_shrinks p startFrame) s
  | txFrameSent p => exact portEvent_shrinks (updatePort_shrinks p endFrame) s
  | encoderPulse => exact event_shrinks pulse_shrinks s
  | checkEyeBlockingEdge k => exact lineEdge_shrinks (fun u => .ofTrack (eyeBlocked_track _ u)) _ _ s
  | checkEyeClearEdge k => exact lineEdge_shrinks (fun u => .ofTrack (eyeCleared_track _ u)) _ _ s
  | exitEyeBlockingEdge => exact lineEdge_shrinks (fun u => .ofTrack (exitBlocked_track u)) _ _ s
  | exitEyeClearEdge => exact lineEdge_shrinks (fun u => .ofTrack (exitCleared_track u)) _ _ s
  | entranceEyeClearEdge => exact lineEdge_shrinks (fun u => .ofTrack (entranceCleared_track u)) _ _ s
  | loopOccupied l => exact lineEdge_shrinks arbitrate_shrinks _ _ s
  | loopVacant l => exact lineEdge_shrinks .refl _ _ s
  | proofAssert i => exact lineEdge_shrinks (proofOn_shrinks i) _ _ s
  | proofDeassert i => exact lineEdge_shrinks (proofOff_shrinks i) _ _ s
  | bumperOvertravelEdge slot line active =>
    exact lineEdge_shrinks (fun u => .ofRaise (raiseEach_frame _ u)) _ _ s (setSwitch_shrinks slot line active)
  | estopLoopOpen => exact lineEdge_shrinks (raiseIncident_shrinks _) _ _ s
  | estopLoopClose => exact lineEdge_shrinks .refl _ _ s
  | reset => exact holdReset_shrinks s
  | grantTimerExpiry => exact event_shrinks (fun u => .ofTrack (grantExpired_track u)) s
  | startTimerExpiry => exact event_shrinks (fun u => .ofTrack (startExpired_track u)) s
  | exitBlockTimerExpiry => exact event_shrinks (fun u => .ofTrack (exitBlockExpired_track u)) s
  | proofTimerExpiry i => exact event_shrinks (proofExpired_shrinks i) s
  | retryTimerExpiry i => exact event_shrinks (retryExpired_shrinks i) s
  | gateWindowEnd => exact event_shrinks windowEnd_shrinks s
  | scanComplete samples => exact event_shrinks (scan_shrinks samples) s
  | secondsTick => exact event_shrinks (f := tickSeconds) (fun _ => .of_eq rfl rfl rfl) s
  | saveComplete verified => exact event_shrinks (finishWrite_shrinks verified) s
  | _ => exact absurd hrequest nofun

/-- Every command keeps the bounds of the queues. -/
theorem after_bounded (c : Instr) (s : State) (hs : QueuesBounded s) : QueuesBounded (after c s) := by
  cases hp : requestPort c with
  | some p =>
    rw [after_request c p hp]
    exact runRequest_bounded c s hs
  | none =>
    cases c with
    | entranceEyeBlockingEdge =>
      have hline : Shrinks s (setEntranceInput true s) := .of_eq rfl rfl rfl
      change QueuesBounded (lineEdge s.inputs.entrance true (setEntranceInput true) entranceBlocked s)
      unfold lineEdge event
      split
      · exact hs
      · split
        · exact hline.bounded hs
        · exact (driveLines_shrinks _).bounded (entranceBlocked_bounded _ (hline.bounded hs))
    | startUp cause => exact startUp_bounded cause s hs
    | byteReceived p byte =>
      change QueuesBounded (portEvent (receive p byte) s)
      unfold portEvent
      split
      · exact hs
      · exact receive_bounded p byte s hs
    | _ => exact (event_command_shrinks _ hp nofun rfl s).bounded hs

/-- Settles O10: a step takes its command out of the waiting queue, which the bounds do not speak of, and runs it. -/
theorem queuesStayBounded : Obligations.QueuesStayBounded := by
  intro s t hs hstep
  unfold step at hstep
  split at hstep
  · obtain rfl := Host.Outcome.next.inj hstep
    exact hs
  · next c rest _ =>
    rw [exec_eq_after] at hstep
    obtain rfl := Host.Outcome.next.inj hstep
    exact after_bounded c _ hs

end Sys2Proof.Machine
end

