-- ==== Sys2Proof/Proofs/TunnelChange.lean ====
section
/-! What a change of tunnel state and a raise's class effect write (R21, R35, R125, R141, R143, R147, R148, R150). -/

namespace Sys2Proof.Machine

/-! ### The arbiter outside RUNNING -/

theorem admissionOpen_of_not_running {s : State} (h : s.sup.tunnel ≠ .running) : admissionOpen s = false := by
  simp [admissionOpen, h]

/-- The arbiter grants nothing outside RUNNING (R27). -/
theorem arbitrate_of_not_running {s : State} (h : s.sup.tunnel ≠ .running) : arbitrate s = s := by
  simp [arbitrate, admissionOpen_of_not_running h]

/-- A grant withdrawn outside RUNNING is not followed by another one (R33, R35). -/
theorem withdrawGrant_grant_of_not_running (r : WithdrawReason) {s : State} (h : s.sup.tunnel ≠ .running) :
    (withdrawGrant r s).ent.grant = none := by
  unfold withdrawGrant
  split
  · next hnone => exact hnone
  · rw [arbitrate_of_not_running (by simpa using h)]
    simp

/-! ### A change of tunnel state -/

/-- The state in which a change of tunnel state announces itself to the blocks (R141). -/
def announced (new : Tunnel) (cause : Cause) (s : State) : State :=
  notifyBoth (.tunnelState new s.sup.tunnel s.sup.manual (pauseListed s) cause)
    { s with
      sup.tunnel := new
      sup.startTimer := startTimerAt new s
      trk.exitTimer := exitTimerAt s.sup.tunnel new s
      pace.stall := stallAt s.sup.tunnel new s }

/-- A change of tunnel state: the announcement, then the Station Sequencer, then the Entrance Unit (R141). -/
theorem changeTunnel_eq (new : Tunnel) (cause : Cause) (s : State) :
    changeTunnel new cause s = entranceAt new (sequencerAt s.sup.tunnel new (announced new cause s)) := rfl

/-- Neither the Station Sequencer nor the Entrance Unit writes the Supervisor, the exit-block timer or the pacing. -/
theorem entranceAt_sequencerAt_fields (old new : Tunnel) (s : State) :
    (entranceAt new (sequencerAt old new s)).sup = s.sup ∧
      (entranceAt new (sequencerAt old new s)).trk.exitTimer = s.trk.exitTimer ∧
      (entranceAt new (sequencerAt old new s)).pace = s.pace := by
  have hseq := (sequencerAt_seqOnly old new s).1
  have hgrant := entranceAt_grantOnly new (sequencerAt old new s)
  unfold GrantOnly at hgrant
  rw [hgrant, hseq]
  exact ⟨rfl, rfl, rfl⟩

/-- The timers and the stall count after a change (R21, R125, R143). -/
theorem changeTunnel_timers (new : Tunnel) (cause : Cause) (s : State) :
    (changeTunnel new cause s).sup.startTimer = startTimerAt new s ∧
      (changeTunnel new cause s).trk.exitTimer = exitTimerAt s.sup.tunnel new s ∧
      (changeTunnel new cause s).pace.stall = stallAt s.sup.tunnel new s := by
  obtain ⟨hsup, hexit, hpace⟩ := entranceAt_sequencerAt_fields s.sup.tunnel new (announced new cause s)
  rw [changeTunnel_eq, hsup, hexit, hpace]
  exact ⟨rfl, rfl, rfl⟩

/-- No grant is outstanding after a change to any state but RUNNING (R35). -/
theorem changeTunnel_grant (new : Tunnel) (cause : Cause) (s : State) (h : new ≠ .running) :
    (changeTunnel new cause s).ent.grant = none := by
  have hseq := (sequencerAt_seqOnly s.sup.tunnel new (announced new cause s)).1
  have htunnel : (sequencerAt s.sup.tunnel new (announced new cause s)).sup.tunnel = new := by rw [hseq]; rfl
  rw [changeTunnel_eq, entranceAt, if_neg h]
  exact withdrawGrant_grant_of_not_running _ (by rw [htunnel]; exact h)

/-- What a change of tunnel state leaves (R141). -/
theorem changeTunnel_keeps (new : Tunnel) (cause : Cause) (s : State) :
    (changeTunnel new cause s).sup.manual = s.sup.manual ∧
      (changeTunnel new cause s).sup.incidents = s.sup.incidents ∧ (changeTunnel new cause s).sales = s.sales ∧
      (changeTunnel new cause s).seq.table = s.seq.table ∧
      (changeTunnel new cause s).trk.queue.map Car.bare = s.trk.queue.map Car.bare := by
  obtain ⟨hframe, hbare⟩ := changeTunnel_frame new cause s
  refine ⟨?_, ?_, ?_, ?_, hbare⟩ <;> rw [hframe]

/-! ### The effect of a class -/

theorem pauseTunnel_of_stays (cause : Cause) {s : State}
    (h : s.sup.tunnel = .stopped ∨ (∃ m, s.sup.tunnel = .paused m) ∨ s.sup.tunnel.isHalted = true) :
    pauseTunnel cause s = s := by
  unfold pauseTunnel
  split <;> simp_all [Tunnel.isHalted]

theorem haltTunnel_of_halted (cause : Cause) {s : State} (h : s.sup.tunnel.isHalted = true) :
    haltTunnel cause s = s := by
  unfold haltTunnel
  split <;> simp_all [Tunnel.isHalted]

/-- The halts tally raised by one (R150). -/
def countHalt (s : State) : State :=
  { s with sup.manual := false, sales.tally.halts := raiseCount s.sales.tally.halts 1 }

/-- A HALT-class raise outside HALTED (R150). -/
theorem haltTunnel_of_not_halted (cause : Cause) {s : State} (h : s.sup.tunnel.isHalted = false) :
    haltTunnel cause s = changeTunnel (.halted (preHaltOf s.sup.tunnel)) cause (countHalt s) := by
  unfold haltTunnel
  split
  · next m hm => rw [hm] at h; exact absurd h nofun
  all_goals rfl

/-- Settles O27: the timers, the grant and the frame of a change, then the two classes that act. -/
theorem tunnelChangeEffects : Obligations.TunnelChangeEffects := by
  refine ⟨fun new cause s => ?_, fun n s => ?_⟩
  · obtain ⟨hstart, hexit, hstall⟩ := changeTunnel_timers new cause s
    obtain ⟨hmanual, hincidents, hsales, htable, hbare⟩ := changeTunnel_keeps new cause s
    refine ⟨changeTunnel_tunnel new cause s, hstart, fun hnew => ?_, fun hnew hold => ⟨?_, ?_⟩,
      fun hnew hold => ⟨?_, fun hblocked => ?_⟩, changeTunnel_grant new cause s,
      hmanual, hincidents, hsales, htable, hbare⟩
    · rw [hexit]; simp [exitTimerAt, hnew]
    · rw [hexit]; simp [exitTimerAt, hnew, hold]
    · rw [hstall]; simp [stallAt, hold]
    · rw [hstall]; simp [stallAt, hnew, hold]
    · rw [hexit]; simp [exitTimerAt, hnew, hold, hblocked]
  · have hpause := pauseTunnel_tunnel (.incident n) s
    refine ⟨rfl, fun h => ?_, fun h => ?_, fun m h => ?_, pauseTunnel_of_stays _, haltTunnel_of_halted _, fun h => ?_⟩
    · rw [h] at hpause; exact hpause
    · rw [h] at hpause; exact hpause
    · rw [h] at hpause; exact hpause
    · obtain ⟨hmanual, -, hsales, -, -⟩ := changeTunnel_keeps (.halted (preHaltOf s.sup.tunnel)) (.incident n) (countHalt s)
      simp only [classEffect, haltTunnel_of_not_halted _ h, changeTunnel_tunnel]
      refine ⟨fun ht => by rw [ht]; rfl, ?_, ?_, hmanual, hsales⟩
      · rintro (ht | ht | ht) <;> rw [ht] <;> rfl
      · rintro (ht | ht | ht) <;> rw [ht] <;> rfl

end Sys2Proof.Machine
end

