-- ==== Sys2Proof/Proofs/Closes.lean ====
section
/-! Closes (R102): which entries end, how, and when (R90, R104, R44). -/

namespace Sys2Proof.Machine

theorem isOpen_iff (st : EntryState) : isOpen st = true ↔ st ∈ [.pending, .active, .held, .interrupted] := by
  cases st <;> simp [isOpen]

/-- The stations at which an entry of a selected car ends now: those of the open entries whose car is past close. -/
theorem mem_closingStations (s : State) (sel : Car → Bool) (i : Fin 16) :
    i ∈ closingStations s sel ↔ ∃ car ∈ s.trk.queue, sel car = true ∧ ∃ e ∈ car.schedule, e.station = i ∧
      e.state ∈ [.pending, .active, .held, .interrupted] ∧ pastClose (tabGet s.seq.table i) car = true := by
  unfold closingStations
  rw [List.mem_flatMap]
  refine exists_congr fun car => and_congr_right fun _ => ?_
  split
  · next hsel =>
    simp only [hsel, true_and, List.mem_map, List.mem_filter, closesNow, Bool.and_eq_true, isOpen_iff]
    constructor
    · rintro ⟨e, ⟨hmem, hopen, hpast⟩, rfl⟩
      exact ⟨e, hmem, rfl, hopen, hpast⟩
    · rintro ⟨e, hmem, rfl, hopen, hpast⟩
      exact ⟨e, ⟨hmem, hopen, hpast⟩, rfl⟩
  · next hsel => simp [hsel]

/-- The entry at a place after a close (R102). -/
theorem closeCar_getElem? (s : State) (late : Bool) (car : Car) (n : Nat) (e : Entry) (h : car.schedule[n]? = some e) :
    (closeCar s late car).schedule[n]? = some (if closesNow s car e then
      { e with state := closedState late (tabGet s.seq.units e.station).state e } else e) := by
  simp [closeCar, mapEntries, h]

/-- How a PENDING entry ends at a close that is not late (R102). -/
theorem closedState_pending (st : StationState) (e : Entry) (h : e.state = .pending) :
    closedState false st e = .missed (match st with
      | .fault => .fault
      | .offLine => .offline
      | .idle | .arming | .retryWait | .ready | .firing | .held => .notReady) := by
  unfold closedState
  rw [h]
  cases st <;> rfl

/-- Settles O29: the two parts of a close (which entries, which end), then the events that close. -/
theorem closeEndsOpenEntries : Obligations.CloseEndsOpenEntries := by
  refine ⟨fun late sel s => ⟨closingStations s sel, mem_closingStations s sel, rfl⟩, fun s => rfl,
    fun tag s => ⟨rfl, rfl⟩, fun tag len s => rfl, fun s late car n e hn => ?_⟩
  refine ⟨_, closeCar_getElem? s late car n e hn, ?_⟩
  by_cases hcloses : closesNow s car e = true
  · obtain ⟨hopen, hpast⟩ : isOpen e.state = true ∧ pastClose (tabGet s.seq.table e.station) car = true := by
      simpa [closesNow] using hcloses
    rw [if_pos hcloses]
    refine ⟨rfl, rfl, rfl, fun h => absurd hpast (by simp [h]), fun _ => ?_⟩
    refine ⟨?_, ?_, ?_, ?_, ?_, ?_, ?_, ?_, ?_, ?_, fun h => absurd hopen (by simp [h])⟩
    · intro hst hmark; simp [closedState, hst, hmark]
    · intro hst hmark; simp [closedState, hst, hmark, markReason]
    · intro hst hmark; simp [closedState, hst, hmark, markReason]
    · intro hst hmark; simp [closedState, hst, hmark, markReason]
    · intro hst; simp [closedState, hst]
    · intro hst; simp [closedState, hst]
    · intro hst hlate; simp [closedState, hst, hlate]
    · intro hst hlate hunit; simp [hlate, closedState_pending _ e hst, hunit]
    · intro hst hlate hunit; simp [hlate, closedState_pending _ e hst, hunit]
    · intro hst hlate hunit
      simp only [hlate, closedState_pending _ e hst]
      cases hs : (tabGet s.seq.units e.station).state <;> simp_all
  · rw [if_neg hcloses]
    refine ⟨rfl, rfl, rfl, fun _ => rfl, fun hpast => ?_⟩
    have hended : isOpen e.state = false := by simpa [closesNow, hpast] using hcloses
    refine ⟨?_, ?_, ?_, ?_, ?_, ?_, ?_, ?_, ?_, ?_, fun _ => rfl⟩ <;> intro hst <;> simp [hst, isOpen] at hended

end Sys2Proof.Machine
end

