-- ==== Sys2Proof/Proofs/Correction.lean ====
section
/-! The match and correction of a record (R11, R12, R15, R16, R29, R104). -/

namespace Sys2Proof.Machine

/-! ### The corrected queue -/

/-- The record with the tag, behind records that carry other tags, takes the corrected front (R12). -/
theorem correctQueue_append (car : Car) (pos : Nat) (newer older : List Car) : ∀ ahead : Option Nat,
    (∀ x ∈ older, x.tag ≠ car.tag) →
      correctQueue car.tag pos ahead (older ++ car :: newer) = older ++
        { car with front := correctedFront pos ((older.getLast?.map Car.front).or ahead) (newer.head?.map Car.front) } ::
          newer := by
  induction older with
  | nil => intro ahead _; simp [correctQueue]
  | cons x xs ih =>
    intro ahead hne
    have hx : x.tag ≠ car.tag := hne x List.mem_cons_self
    rw [List.cons_append, correctQueue, if_neg hx, ih (some x.front) fun y hy => hne y (List.mem_cons_of_mem x hy)]
    cases hlast : xs.getLast? <;> simp [List.getLast?_cons, hlast]

/-- Fronts fall along a queue exactly where they fall along its two parts and across the join. -/
theorem frontsFall_append (car : Car) (newer older : List Car) :
    FrontsFall (older ++ car :: newer) ↔
      FrontsFall older ∧ (∀ a ∈ older.getLast?, car.front < a.front) ∧ (∀ b ∈ newer.head?, b.front < car.front) ∧
        FrontsFall newer := by
  induction older with
  | nil => simp [frontsFall_cons, FrontsFall]
  | cons x xs ih =>
    rw [List.cons_append, frontsFall_cons, ih, frontsFall_cons]
    cases xs with
    | nil => simp [FrontsFall]
    | cons y ys => simp [List.getLast?_cons, and_assoc]

/-- Where the corrected front lies: at the eye, unless a neighbour stands there or beyond it (R12). -/
theorem correctedFront_spec (pos front : Nat) (ahead behind : Option Nat) (hpos : pos ≤ 60000)
    (ha : ∀ f ∈ ahead, front < f) (hb : ∀ g ∈ behind, g < front) :
    (∀ f ∈ ahead, correctedFront pos ahead behind < f) ∧ (∀ g ∈ behind, g < correctedFront pos ahead behind) ∧
      ((∀ f ∈ ahead, pos < f) → (∀ g ∈ behind, g < pos) → correctedFront pos ahead behind = pos) ∧
      (∀ f ∈ ahead, f ≤ pos → correctedFront pos ahead behind = f - 1) ∧
      (∀ g ∈ behind, pos ≤ g → correctedFront pos ahead behind = g + 1) := by
  cases ahead <;> cases behind <;>
    simp only [Option.mem_def, reduceCtorEq, false_imp_iff, implies_true, Option.some.injEq, forall_eq',
      true_and, and_true, correctedFront, Config.positionMax] at ha hb ⊢ <;> omega

/-- The correction of one record in a queue of falling fronts (R12). -/
theorem correctQueue_keeps_order (older newer : List Car) (car : Car) (pos : Nat)
    (hfall : FrontsFall (older ++ car :: newer)) (htags : ((older ++ car :: newer).map Car.tag).Nodup)
    (hpos : pos ≤ 60000) : ∃ front : Nat,
      correctQueue car.tag pos none (older ++ car :: newer) = older ++ { car with front := front } :: newer ∧
      FrontsFall (older ++ { car with front := front } :: newer) ∧
      ((∀ a ∈ older.getLast?, pos < a.front) → (∀ b ∈ newer.head?, b.front < pos) → front = pos) ∧
      (∀ a ∈ older.getLast?, a.front ≤ pos → front = a.front - 1) ∧
      (∀ b ∈ newer.head?, pos ≤ b.front → front = b.front + 1) := by
  have hne : ∀ x ∈ older, x.tag ≠ car.tag := by
    rw [List.map_append, List.map_cons, List.nodup_append] at htags
    exact fun x hx => htags.2.2 _ (List.mem_map_of_mem hx) _ List.mem_cons_self
  obtain ⟨hold, hahead, hbehind, hnew⟩ := (frontsFall_append car newer older).mp hfall
  have hspec := correctedFront_spec pos car.front (older.getLast?.map Car.front) (newer.head?.map Car.front) hpos
    (by simpa [Option.mem_map] using hahead) (by simpa [Option.mem_map] using hbehind)
  simp only [Option.mem_map, forall_exists_index, and_imp, forall_apply_eq_imp_iff₂] at hspec
  obtain ⟨hbelow, habove, hfree, hlow, hhigh⟩ := hspec
  refine ⟨correctedFront pos (older.getLast?.map Car.front) (newer.head?.map Car.front), ?_,
    (frontsFall_append _ newer older).mpr ⟨hold, hbelow, habove, hnew⟩, hfree, hlow, hhigh⟩
  rw [correctQueue_append car pos newer older none hne, Option.or_none]

/-! ### The match and correction -/

/-- The state in which a correction makes its missing tests: the eye passed, the front corrected, a match of the exit eye
noted (R11, R12, R16). -/
def correctedState (k : Eye) (pos : Nat) (car : Car) (s : State) : State :=
  noteMatch k car.tag { markPassed k car.tag s with
    trk.queue := correctQueue car.tag pos none (markPassed k car.tag s).trk.queue }

theorem correctedState_eq (k : Eye) (pos : Nat) (car : Car) (s : State) :
    correctedState k pos car s = { s with
      trk.queue := correctQueue car.tag pos none (s.trk.queue.map fun x =>
        if x.tag = car.tag then { x with passed := x.passed.set k true } else x)
      trk.exitMatch := if k = .exit then some car.tag else s.trk.exitMatch } := by
  unfold correctedState noteMatch
  split <;> rfl

/-- The missing tests of a correction at the other eyes (R12, R15). -/
def otherTests (k : Eye) (car : Car) (s : State) : State :=
  allEyes.foldl (fun t j => if j = k then t else missingTest j car.tag car.front t) s

/-- The judgement of a correction by the Station Sequencer (R104). -/
def judgedState (k : Eye) (pos : Nat) (car : Car) (s : State) : State :=
  judgeCorrection car.tag (decide (car.front < frontOf (correctedState k pos car s) car.tag))
    (otherTests k car (correctedState k pos car s))

/-- A match and correction: corrected, tested, judged, and the arbiter where the record is the newest (R12, R29). -/
theorem correctCar_eq (k : Eye) (pos : Nat) (car : Car) (s : State) :
    correctCar k pos car s =
      if isNewest (judgedState k pos car s) car.tag then arbitrate (judgedState k pos car s)
      else judgedState k pos car s := rfl

theorem isNewest_iff (s : State) (tag : Nat) :
    isNewest s tag = true ↔ s.trk.queue.getLast?.map Car.tag = some tag := by
  simp [isNewest]

/-- Settles O23: the stages of a match and correction, and the order of the corrected queue. -/
theorem correctionKeepsTheOrder : Obligations.CorrectionKeepsTheOrder := by
  refine ⟨fun k pos car s => ?_, correctQueue_keeps_order⟩
  refine ⟨correctedState k pos car s, otherTests k car (correctedState k pos car s), judgedState k pos car s,
    correctedState_eq k pos car s, rfl, fun x hx => ?_, fun hnone => ?_, fun hlast => ?_, fun hlast => ?_⟩
  · have hfront : frontOf (correctedState k pos car s) car.tag = x.front := by simp [frontOf, hx]
    unfold judgedState
    rw [hfront]
    refine ⟨fun hforward => ?_, fun hbackward => ?_⟩
    · rw [decide_eq_true hforward]; rfl
    · rw [decide_eq_false (Nat.not_lt.mpr hbackward)]; rfl
  · have hfront : frontOf (correctedState k pos car s) car.tag = 0 := by simp [frontOf, hnone]
    unfold judgedState
    rw [hfront]
    rfl
  · rw [correctCar_eq, if_pos ((isNewest_iff _ _).mpr hlast)]
  · rw [correctCar_eq, if_neg (mt (isNewest_iff _ _).mp hlast)]

end Sys2Proof.Machine
end

