-- ==== Sys2Proof/Proofs/TunnelClear.lean ====
section
/-! TUNNEL_CLEAR (R163): each record leaves in turn, and what that leaves as it was in STOPPED and HALTED. -/

namespace Sys2Proof.Machine

/-! ### A record that leaves -/

theorem drainIfEmpty_tags (s : State) : (drainIfEmpty s).trk.queue.map Car.tag = s.trk.queue.map Car.tag := by
  unfold drainIfEmpty
  split
  · exact map_tag_of_map_bare (changeTunnel_frame _ _ s).2
  · rfl

/-- A record that leaves is taken out, and every other one keeps its place (R4). -/
theorem leaveQueue_tags (car : Car) (s : State) :
    (leaveQueue car s).trk.queue.map Car.tag = (s.trk.queue.map Car.tag).filter fun n => n != car.tag := by
  rw [leaveQueue, drainIfEmpty_tags, map_tag_of_map_bare (afterEnded_seqOnly _ _).2, List.filter_map]
  rfl

theorem drainIfEmpty_of_not_draining {s : State} (h : s.sup.tunnel ≠ .draining) : drainIfEmpty s = s :=
  if_neg fun hdrain => h hdrain.2

/-! ### The credit of a cleared record -/

theorem clearCredit_of_unticketed {car : Car} (h : car.ticket = none) (s : State) : clearCredit car s = (s, none) := by
  simp [clearCredit, h]

theorem clearCredit_of_ticket {car : Car} {t : Ticket} (h : car.ticket = some t) (s : State) :
    clearCredit car s = if (∃ e ∈ car.schedule, e.state ≠ .done) ∧ 0 < t.paid then
      ((issueCredit t.paid (some t.sale) (some t.plan) s).1,
        some (issueCredit t.paid (some t.sale) (some t.plan) s).2.1)
    else (s, none) := by
  simp [clearCredit, h]

/-- A credit changes the credit list, its counter and the credit counts alone. -/
theorem clearCredit_keeps (car : Car) (s : State) :
    (clearCredit car s).1 = { s with
      sales.credits := (clearCredit car s).1.sales.credits
      sales.creditCounter := (clearCredit car s).1.sales.creditCounter
      sales.tally.dropped := (clearCredit car s).1.sales.tally.dropped
      sales.tally.issued := (clearCredit car s).1.sales.tally.issued } := by
  cases h : car.ticket with
  | none => rw [clearCredit_of_unticketed h]
  | some t =>
    rw [clearCredit_of_ticket h]
    split <;> rfl

/-! ### Every record in turn -/

/-- What TUNNEL_CLEAR leaves where the tunnel is not DRAINING. -/
def ClearKeeps (s t : State) : Prop :=
  s.sup.tunnel ≠ .draining → t.sup = s.sup ∧ t.trk.nextTag = s.trk.nextTag ∧ t.pace = s.pace ∧
    t.ent.grant = s.ent.grant ∧ t.sales.lanes = s.sales.lanes ∧
    t.sales.tally.exitComplete = s.sales.tally.exitComplete ∧ t.sales.tally.exitShort = s.sales.tally.exitShort ∧
    t.sales.tally.exitUnticketed = s.sales.tally.exitUnticketed

theorem clearRecord_keeps (car : Car) (s : State) : ClearKeeps s (clearRecord car s) := by
  intro hs
  have hcredit := clearCredit_keeps car s
  have hstations := (afterEnded_seqOnly (car.schedule.map Entry.station) (dropRecord car.tag
    (notifyBoth (carExitNotice car .cleared (clearCredit car s).2) (clearCredit car s).1))).1
  have hsup : (clearCredit car s).1.sup = s.sup := by rw [hcredit]
  unfold clearRecord leaveQueue
  rw [drainIfEmpty_of_not_draining (by rw [hstations]; simpa [hsup] using hs), hstations]
  simp only [dropRecord_fields, notifyBoth_fields]
  rw [hcredit]
  simp

theorem clearAll_keeps (l : List Car) (s : State) : ClearKeeps s (l.foldl (fun u car => clearRecord car u) s) := by
  refine foldl_keeps ClearKeeps (fun _ _ => ⟨rfl, rfl, rfl, rfl, rfl, rfl, rfl, rfl⟩) (fun a b c hab hbc ha => ?_) _
    (fun u car => clearRecord_keeps car u) l s
  obtain ⟨h1, h2, h3, h4, h5, h6, h7, h8⟩ := hab ha
  obtain ⟨k1, k2, k3, k4, k5, k6, k7, k8⟩ := hbc (by rw [h1]; exact ha)
  exact ⟨k1.trans h1, k2.trans h2, k3.trans h3, k4.trans h4, k5.trans h5, k6.trans h6, k7.trans h7, k8.trans h8⟩

theorem clearRecord_tags (car : Car) (s : State) :
    (clearRecord car s).trk.queue.map Car.tag = (s.trk.queue.map Car.tag).filter fun n => n != car.tag := by
  rw [clearRecord, leaveQueue_tags, notifyBoth_portsOnly, clearCredit_keeps]

/-- The records left after a list of records has been cleared. -/
theorem mem_clearAll_tags (n : Nat) (l : List Car) : ∀ s : State,
    n ∈ (l.foldl (fun u car => clearRecord car u) s).trk.queue.map Car.tag →
      n ∈ s.trk.queue.map Car.tag ∧ n ∉ l.map Car.tag := by
  induction l with
  | nil => exact fun s h => ⟨h, List.not_mem_nil⟩
  | cons car rest ih =>
    intro s h
    obtain ⟨hmem, hrest⟩ := ih _ h
    rw [clearRecord_tags, List.mem_filter, bne_iff_ne] at hmem
    exact ⟨hmem.1, by simp only [List.map_cons, List.mem_cons, not_or]; exact ⟨hmem.2, hrest⟩⟩

/-- TUNNEL_CLEAR leaves no record (R163). -/
theorem clearAll_queue (s : State) : (s.trk.queue.foldl (fun u car => clearRecord car u) s).trk.queue = [] := by
  rw [← List.map_eq_nil_iff (f := Car.tag), List.eq_nil_iff_forall_not_mem]
  intro n hn
  obtain ⟨hmem, hnot⟩ := mem_clearAll_tags n _ s hn
  exact hnot hmem

/-! ### The request -/

theorem not_draining_of_cleared {t : Tunnel} (h : t = .stopped ∨ t.isHalted = true) : t ≠ .draining := by
  rintro rfl
  simp [Tunnel.isHalted] at h

theorem ownTunnelClear_accepts {s : State} (h : s.sup.tunnel = .stopped ∨ s.sup.tunnel.isHalted = true) :
    ownTunnelClear s = (s.trk.queue.foldl (fun u car => clearRecord car u) s,
      answerOk (b1 s.trk.queue.length ++ b1 (clearCredits s.trk.queue))) := by
  unfold ownTunnelClear
  split <;> simp_all [Tunnel.isHalted]

theorem ownTunnelClear_refuses {s : State} (h : s.sup.tunnel ≠ .stopped) (hh : s.sup.tunnel.isHalted = false) :
    ownTunnelClear s = refuse .state s := by
  unfold ownTunnelClear
  split <;> simp_all [Tunnel.isHalted]

/-- Settles O43: the accepted request, the credit of one record, and the refusal. -/
theorem tunnelClearEmptiesTheQueue : Obligations.TunnelClearEmptiesTheQueue := by
  refine ⟨fun s hreach hstate => ?_, fun car u => ⟨rfl, fun x hx hpaid hmiss => ?_, fun h => ?_⟩,
    fun s hreach hl hstopped hhalted => ?_⟩
  · have hqueue : (s.trk.queue.foldl (fun u car => clearRecord car u) (frameDone .p0 s)).trk.queue = [] :=
      clearAll_queue (frameDone .p0 s)
    obtain ⟨hsup, hnext, hpace, hgrant, hlanes, hcomplete, hshort, hunticketed⟩ :=
      clearAll_keeps s.trk.queue (frameDone .p0 s) (not_draining_of_cleared hstate)
    have hv : (s.trk.queue.foldl (fun u car => clearRecord car u) (frameDone .p0 s)).pace.v = s.pace.v :=
      congrArg Pacing.v hpace
    refine ⟨driveLines (s.trk.queue.foldl (fun u car => clearRecord car u) (frameDone .p0 s)), ?_, rfl, hqueue,
      congrArg Supervisor.tunnel hsup, congrArg Supervisor.incidents hsup, hnext, hcomplete, hshort, hunticketed, hlanes,
      hv, hgrant, ?_⟩
    · have howner := ownTunnelClear_accepts (s := frameDone .p0 s) hstate
      change Host.Outcome.next (respond .p0 .tunnelClear true (driven ownTunnelClear) s) = _
      rw [respond_of_reaches hreach, driven, howner]
      rfl
    · change resolvedClass _ = 4
      rw [resolvedClass, hqueue]
      rfl
  · rw [clearCredit_of_ticket hx, if_pos ⟨hmiss, hpaid⟩]
  · cases hx : car.ticket with
    | none => exact clearCredit_of_unticketed hx u
    | some x =>
      rw [clearCredit_of_ticket hx, if_neg]
      rintro ⟨⟨e, he, hdone⟩, hpaid⟩
      obtain h | ⟨y, hy, hfree⟩ | h := h
      · exact absurd (hx.symm.trans h) nofun
      · obtain rfl : x = y := Option.some.inj (hx.symm.trans hy)
        exact absurd hfree hpaid.ne'
      · exact hdone (h e he)
  · exact congrArg Host.Outcome.next
      (respond_driven_refuse hreach hl ownTunnelClear .state (ownTunnelClear_refuses hstopped hhalted))

end Sys2Proof.Machine
end

