-- ==== Sys2Proof/Proofs/Constants.lean ====
section
/-! SET_CONSTANTS (R7, R89, R196 to R198): the clamps, the eyes fitted anew, and what follows. -/

namespace Sys2Proof.Machine

theorem settleEyes_get (c : Constants) (e : PerEye (Option Debounce)) (j : Eye) :
    (settleEyes c e).get j = (e.get j).map (lowerSettling c.clearMin) := by
  cases j <;> rfl

theorem refitEyes_get (c : Constants) (inputs : PerEye Bool) (old : PerEye (Option Debounce)) (j : Eye) :
    (refitEyes c inputs old).get j = refitEye c inputs old j := by
  cases j <;> rfl

/-- An eye that is not fitted holds no debounce state (R7). -/
theorem refitEye_unfitted {c : Constants} {j : Eye} (h : eyePosition c j = none) (inputs : PerEye Bool)
    (old : PerEye (Option Debounce)) : refitEye c inputs old j = none := by
  simp [refitEye, h]

/-- A fitted eye keeps its debounce state, or takes it from its input where it becomes fitted (R7). -/
theorem refitEye_fitted {c : Constants} {j : Eye} {pos : Nat} (h : eyePosition c j = some pos) (inputs : PerEye Bool)
    (old : PerEye (Option Debounce)) :
    refitEye c inputs old j = some ((old.get j).getD (eyeFromInput (inputs.get j))) := by
  unfold refitEye
  rw [h]
  cases hold : old.get j <;> rfl

/-- A lowered CLEAR_MIN moves no eye into or out of BLOCKED (R198). -/
theorem lowerSettling_eq_blocked_iff (n : Nat) (d : Debounce) : lowerSettling n d = .blocked ↔ d = .blocked := by
  cases d <;> simp [lowerSettling]

theorem reclampStations_eye (before after : Nat) (s : State) : (reclampStations before after s).ent = s.ent := by
  unfold reclampStations
  split <;> rfl

theorem ownSetConstants_refuses (c : Constants) {s : State} (hw : s.store.writing = none)
    (ht : s.sup.tunnel ≠ .stopped) : ownSetConstants c s = refuse .state s := by
  simp [ownSetConstants, saving, hw, ht]

theorem ownSetConstants_accepts (c : Constants) {s : State} (hw : s.store.writing = none)
    (ht : s.sup.tunnel = .stopped) :
    ownSetConstants c s = (applyConstants (clampConstants c) s, answerOk (constantBytes (clampConstants c))) := by
  simp [ownSetConstants, saving, hw, ht]

theorem clampEye_spec (tunnelLen x : Nat) : (x = 0 → clampEye tunnelLen x = 0) ∧
    (x ≠ 0 → clampEye tunnelLen x = clampTo x 1 (tunnelLen - 1)) := by
  unfold clampEye
  exact ⟨fun h => if_pos h, fun h => if_neg h⟩

/-- Settles O52: the refusal, the application of the clamped set, the clamps, and the eyes fitted anew. -/
theorem constantsAreClampedAndApplied : Obligations.ConstantsAreClampedAndApplied := by
  refine ⟨fun c s hreach hw hl ht => ?_, fun c s hreach hw ht => ?_, fun c => ?_, fun k inputs old j => ?_⟩
  · exact congrArg Host.Outcome.next
      (respond_driven_refuse hreach hl (ownSetConstants c) .state (ownSetConstants_refuses c hw ht))
  · have howner := ownSetConstants_accepts c (s := frameDone .p4 s) hw ht
    have hexec : exec (.setConstants .p4 c) s = .next (answeredOk .p4 .setConstants (constantBytes (clampConstants c))
        (driveLines (applyConstants (clampConstants c) (frameDone .p4 s)))) := by
      change Host.Outcome.next (respond .p4 .setConstants true (driven (ownSetConstants c)) s) = _
      rw [respond_of_reaches hreach, driven, howner]
      rfl
    refine ⟨clampConstants c, _, reclampStations s.sup.consts.tunnelLen (clampConstants c).tunnelLen _, rfl, rfl,
      fun hle => if_neg (Nat.not_lt.mpr hle), fun hlt => if_pos hlt, fun heye => ?_, fun heye => ?_⟩
    · rw [hexec, applyConstants, tailgateNow, if_neg]
      · rfl
      · rw [reclampStations_eye]
        exact mt (lowerSettling_eq_blocked_iff _ _).mp heye
    · rw [hexec, applyConstants, tailgateNow, if_pos]
      · rfl
      · rw [reclampStations_eye]
        exact (lowerSettling_eq_blocked_iff _ _).mpr heye
  · refine ⟨clampConstants c, rfl, rfl, fun x y hxy => ?_, rfl, rfl, rfl, rfl, rfl, rfl, rfl, rfl, rfl, rfl, rfl, rfl⟩
    simp only [List.mem_cons, Prod.mk.injEq, List.not_mem_nil, or_false] at hxy
    obtain ⟨rfl, rfl⟩ | ⟨rfl, rfl⟩ | ⟨rfl, rfl⟩ | ⟨rfl, rfl⟩ := hxy <;> exact clampEye_spec _ _
  · rw [settleEyes_get, refitEyes_get]
    refine ⟨fun h => ?_, fun pos h => ?_⟩
    · rw [refitEye_unfitted h]; rfl
    · rw [refitEye_fitted h]
      refine ⟨fun hold hin => ?_, fun hold hin => ?_, fun hold => ?_, fun hold => ?_,
        fun n hold => ⟨fun hn => ?_, fun hn => ?_⟩⟩
      · rw [hold, hin]; rfl
      · rw [hold, hin]; rfl
      · rw [hold]; rfl
      · rw [hold]; rfl
      · simp [hold, lowerSettling, hn]
      · simp [hold, lowerSettling, hn]

end Sys2Proof.Machine
end

