-- ==== Sys2Proof/Proofs/Pulse.lean ====
section
/-! The pulse (R5, R6), the missing test (R15), settling (R9), the exit removal (R17 to R20) and a record that leaves (R4,
R47, R145). -/

namespace Sys2Proof.Machine

/-! ### The missing test -/

theorem missingTest_eq (k : Eye) (old pos : Nat) (car : Car) (s : State) (hpos : eyePosition s.sup.consts k = some pos)
    (hcar : carOf s car.tag = some car) :
    missingTest k car.tag old s =
      if old ≤ pos + s.sup.consts.eyeTol ∧ pos + s.sup.consts.eyeTol < car.front ∧ car.passed.get k = false then
        raiseIncident ⟨.carMissing, none, some k, some car.tag, none, none⟩ (markPassed k car.tag s)
      else s := by
  unfold missingTest
  rw [hpos, hcar]
  rfl

/-! ### Settling -/

theorem settleEye_of_not_settling {k : Eye} {s : State} (h : ∀ n, s.trk.eyes.get k ≠ some (.settling n)) :
    settleEye s k = s := by
  unfold settleEye
  split
  · next n hn => exact absurd hn (h n)
  all_goals rfl

theorem settleEye_of_settling {k : Eye} {n : Nat} {s : State} (h : s.trk.eyes.get k = some (.settling n)) :
    settleEye s k = if s.sup.consts.clearMin ≤ n + 1 then
        (if k = .exit then exitRemoval (setEye k (some .armed) s) else setEye k (some .armed) s)
      else setEye k (some (.settling (n + 1))) s := by
  unfold settleEye
  rw [h]

theorem exitRemoval_of_no_match {s : State} (h : s.trk.exitMatch = none) : exitRemoval s = s := by
  unfold exitRemoval
  rw [h]
  rfl

theorem exitRemoval_of_match {s : State} {car : Car} (h : s.trk.exitMatch = some car.tag)
    (hcar : carOf s car.tag = some car) : exitRemoval s = removeAtExit car s := by
  unfold exitRemoval
  rw [h, Option.bind_some, hcar]

/-! ### The exit -/

/-- Every entry of a finalised schedule is DONE or MISSED (R105). -/
theorem finaliseCar_missed (car : Car) :
    ∀ e ∈ (finaliseCar car).schedule, e.state ≠ .done → ∃ r, e.state = .missed r := by
  intro e he hdone
  obtain ⟨x, -, rfl⟩ := List.mem_map.mp he
  cases hx : x.state <;> simp_all [isOpen]

theorem finaliseCar_eq (car : Car) : finaliseCar car = { car with schedule := car.schedule.map fun e =>
    if e.state ∈ [.pending, .active, .held, .interrupted] then { e with state := .missed .late } else e } := by
  simp only [finaliseCar, mapEntries, isOpen_iff]

/-- The outcome of an exit (R18). -/
theorem exitOutcome_of_unticketed {car : Car} (h : car.ticket = none) : exitOutcome car = .unticketed := by
  simp [exitOutcome, h]

theorem exitOutcome_of_ticket {car : Car} {t : Ticket} (h : car.ticket = some t) :
    exitOutcome car = if ∀ e ∈ car.schedule, e.state = .done then .complete else .short := by
  simp [exitOutcome, h]

theorem exitOutcome_ticketed_short_iff {car : Car} {t : Ticket} (h : car.ticket = some t) :
    exitOutcome car = .short ↔ ∃ e ∈ car.schedule, e.state ≠ .done := by
  rw [exitOutcome_of_ticket h]
  split
  · next hdone => simpa using hdone
  · next hmiss => simpa using hmiss

theorem exitCredit_of_unticketed {car : Car} (h : car.ticket = none) (s : State) : exitCredit car s = (s, none) := by
  simp [exitCredit, h]

/-- The credit of a finalised exit: a SHORT one with an amount paid, since an entry that is not DONE is MISSED (R19, R84,
R105). -/
theorem exitCredit_finalised {car : Car} {t : Ticket} (h : car.ticket = some t) (s : State) :
    exitCredit (finaliseCar car) s = if exitOutcome (finaliseCar car) = .short ∧ 0 < t.paid then
      ((issueCredit t.paid (some t.sale) (some t.plan) s).1,
        some (issueCredit t.paid (some t.sale) (some t.plan) s).2.1)
    else (s, none) := by
  have hticket : (finaliseCar car).ticket = some t := h
  unfold exitCredit
  simp only [hticket, exitOutcome_ticketed_short_iff hticket, Bool.and_eq_true, decide_eq_true_eq, List.any_eq_true]
  refine if_congr (and_congr_left fun _ => exists_congr fun e => and_congr_right fun he => ?_) rfl rfl
  constructor
  · intro hmissed hdone
    simp [hdone] at hmissed
  · intro hdone
    obtain ⟨r, hr⟩ := finaliseCar_missed car e he hdone
    simp [hr]

/-- Every other exit brings no credit (R19). -/
theorem exitCredit_finalised_none {car : Car}
    (h : exitOutcome (finaliseCar car) ≠ .short ∨ ∀ x, car.ticket = some x → x.paid = 0) (s : State) :
    exitCredit (finaliseCar car) s = (s, none) := by
  cases hx : car.ticket with
  | none => exact exitCredit_of_unticketed (car := finaliseCar car) hx s
  | some x =>
    rw [exitCredit_finalised hx, if_neg]
    rintro ⟨hshort, hpaid⟩
    exact h.elim (fun h => h hshort) (fun h => absurd (h x hx) hpaid.ne')

theorem finalise_eq (car : Car) (s : State) : finalise car s = afterEnded (car.schedule.map Entry.station)
    { s with trk.queue := s.trk.queue.map fun x => if x.tag = car.tag then finaliseCar x else x } := rfl

/-- The queue after an exit removal (R17). -/
theorem removeAtExit_tags (car : Car) (s : State) :
    (removeAtExit car s).trk.queue.map Car.tag = (s.trk.queue.map Car.tag).filter fun n => n != car.tag := by
  have hcredit : ∀ u, (exitCredit (finaliseCar car) u).1.trk = u.trk := by
    intro u
    cases h : car.ticket with
    | none => rw [exitCredit_of_unticketed (car := finaliseCar car) h]
    | some t =>
      rw [exitCredit_finalised h]
      split <;> rfl
  have hfinal : (finalise car s).trk.queue.map Car.tag = s.trk.queue.map Car.tag := by
    rw [finalise_eq, map_tag_of_map_bare (afterEnded_seqOnly _ _).2, List.map_map]
    refine List.map_congr_left fun x _ => ?_
    simp only [Function.comp_apply]
    split <;> rfl
  rw [removeAtExit, leaveQueue_tags]
  simp only [notifyBoth_fields, hcredit, updateTally_fields, hfinal]
  rfl

/-! ### A record that leaves -/

theorem abandonMeasure_same {tag : Nat} {m : Option Measure} {x : Measure} (h : m = some x) (ht : x.tag = tag) :
    abandonMeasure tag m = none := by
  simp [abandonMeasure, h, ht]

theorem abandonMeasure_other {tag : Nat} {m : Option Measure} (h : ∀ x, m = some x → x.tag ≠ tag) :
    abandonMeasure tag m = m := by
  cases m with
  | none => rfl
  | some x => exact if_neg (h x rfl)

/-- The end of DRAINING is judged on the queue and the tunnel state, which the stations' test leaves (R145). -/
theorem leaveQueue_eq (car : Car) (s : State) :
    leaveQueue car s = if (dropRecord car.tag s).trk.queue = [] ∧ s.sup.tunnel = .draining then
        changeTunnel .stopped .queueEmpty (afterEnded (car.schedule.map Entry.station) (dropRecord car.tag s))
      else afterEnded (car.schedule.map Entry.station) (dropRecord car.tag s) := by
  obtain ⟨hframe, hbare⟩ := afterEnded_seqOnly (car.schedule.map Entry.station) (dropRecord car.tag s)
  have hempty : (afterEnded (car.schedule.map Entry.station) (dropRecord car.tag s)).trk.queue = [] ↔
      (dropRecord car.tag s).trk.queue = [] := by
    rw [← List.map_eq_nil_iff (f := Car.bare), hbare, List.map_eq_nil_iff]
  have htunnel : (afterEnded (car.schedule.map Entry.station) (dropRecord car.tag s)).sup.tunnel = s.sup.tunnel := by
    rw [hframe]; rfl
  unfold leaveQueue drainIfEmpty
  simp only [List.isEmpty_iff, hempty, htunnel]

/-! ### The pulse -/

/-- A pulse counts into the gate window, which no other part of it writes (R116). -/
theorem pulse_gate (s : State) : (pulse s).pace.gate = min 1023 (s.pace.gate + 1) := by
  have hframe : TrackFrame s (entrancePulse (judgePulse (trackPulse s))) :=
    ((trackPulse_track s).trans (.ofSeq (judgePulse_seqOnly _))).trans (entrancePulse_track _)
  have hgate : (entrancePulse (judgePulse (trackPulse s))).pace.gate = s.pace.gate := by rw [hframe.1]
  rw [pulse, (countPulse_fields _).1, hgate]
  rfl

/-- The missing tests of a pulse, over the records of the queue before it (R15). -/
theorem missingTests_records (queue : List Car) (s : State) :
    missingTests (queue.map fun car => (car.tag, car.front)) s =
      allEyes.foldl (fun t k => queue.foldl (fun t car => missingTest k car.tag car.front t) t) s := by
  simp only [missingTests, List.foldl_map]

/-- The state in which an exit's credit is issued: the schedule finalised and the exit counted (R18, R105). -/
def countedExit (car : Car) (s : State) : State :=
  updateTally (tallyExit (exitOutcome (finaliseCar car))) (finalise car s)

/-- Settles O55: the stages of a pulse, the missing test, settling, the exit removal, and a record that leaves. -/
theorem pulsesTrackMissAndRemove : Obligations.PulsesTrackMissAndRemove := by
  refine ⟨fun s => ?_, fun s => rfl, fun k s h => settleEye_of_not_settling h, fun s hrun => ?_,
    fun k old pos car s hpos hcar => ?_, fun k n s h => ?_, fun car s => ?_, fun car s => ?_,
    fun t => ⟨rfl, rfl, rfl, rfl⟩⟩
  · exact congrArg (allEyes.foldl settleEye) (missingTests_records _ _)
  · have hexec : exec .encoderPulse s = .next (driveLines (pulse s)) :=
      congrArg Host.Outcome.next (event_running pulse s hrun)
    refine ⟨hexec, ?_⟩
    rw [after, hexec]
    exact pulse_gate s
  · rw [missingTest_eq k old pos car s hpos hcar]
    refine ⟨fun hold htop hpass => if_pos ⟨hold, htop, hpass⟩, fun h => if_neg ?_⟩
    rintro ⟨hold, htop, hpass⟩
    obtain h | h | h := h
    · exact absurd hold (Nat.not_le.mpr h)
    · exact absurd htop (Nat.not_lt.mpr h)
    · exact absurd hpass (by simp [h])
  · rw [settleEye_of_settling h]
    refine ⟨fun hlt => if_neg (Nat.not_le.mpr hlt), fun hle hno => ?_, fun car hle hk hmatch hcar => ?_⟩
    · rw [if_pos hle]
      split
      · next hk => exact exitRemoval_of_no_match (hno.resolve_left (fun h => h hk))
      · rfl
    · rw [if_pos hle, if_pos hk]
      exact exitRemoval_of_match hmatch hcar
  · refine ⟨finaliseCar car, exitOutcome (finaliseCar car), (exitCredit (finaliseCar car) (countedExit car s)).2,
      countedExit car s, (exitCredit (finaliseCar car) (countedExit car s)).1, finaliseCar_eq car,
      fun h => exitOutcome_of_unticketed h, fun h hdone => ?_, fun h hmiss => ?_, rfl, fun x hx hshort hpaid => ?_,
      fun h => ?_, ⟨_, rfl, ?_⟩, rfl, removeAtExit_tags car s⟩
    · obtain ⟨x, hx⟩ := Option.ne_none_iff_exists'.mp h
      rw [exitOutcome_of_ticket (car := finaliseCar car) hx, if_pos hdone]
    · obtain ⟨x, hx⟩ := Option.ne_none_iff_exists'.mp h
      exact (exitOutcome_ticketed_short_iff (car := finaliseCar car) hx).mpr hmiss
    · rw [exitCredit_finalised hx, if_pos ⟨hshort, hpaid⟩]
      exact ⟨_, _, rfl, rfl⟩
    · rw [exitCredit_finalised_none h]
      exact ⟨rfl, rfl⟩
    · rw [finalise_eq]
      simp only [finaliseCar_eq]
  · refine ⟨dropRecord car.tag s, afterEnded (car.schedule.map Entry.station) (dropRecord car.tag s),
      abandonMeasure car.tag s.ent.measured, fun x hx ht => abandonMeasure_same hx ht, abandonMeasure_other, rfl, rfl,
      fun hempty hdrain => ?_, fun h => ?_⟩
    · rw [leaveQueue_eq, if_pos ⟨hempty, hdrain⟩]
    · rw [leaveQueue_eq, if_neg]
      rintro ⟨hempty, hdrain⟩
      exact h.elim (fun h => h hempty) (fun h => h hdrain)

end Sys2Proof.Machine
end

