-- ==== Sys2Proof/Proofs/EyeEdges.lean ====
section
/-! The edges of the check eyes and the exit eye, and the exit-block timer (R7, R8, R11, R14, R16, R21 to R23). -/

namespace Sys2Proof.Machine

/-! ### Edges -/

/-- A command that gives a line the level it has changes nothing (log entry 5). -/
theorem lineEdge_same {now level : Bool} (h : now = level) (setLine f : State → State) (s : State) :
    lineEdge now level setLine f s = s := if_pos h

/-- An edge of a running part. -/
theorem lineEdge_running {now level : Bool} (h : now ≠ level) (setLine f : State → State) (s : State)
    (hrun : (setLine s).held = false) : lineEdge now level setLine f s = driveLines (f (setLine s)) := by
  rw [lineEdge, if_neg h, event_running f _ hrun]

theorem eyeBlocked_ignored {k : Eye} {s : State} (h : s.trk.eyes.get k = none ∨ s.trk.eyes.get k = some .blocked) :
    eyeBlocked k s = s := by
  obtain h | h := h <;> simp only [eyeBlocked, h]

/-- A blocking edge in SETTLING continues the blocking (R8). -/
theorem eyeBlocked_continues {k : Eye} {n : Nat} {s : State} (h : s.trk.eyes.get k = some (.settling n)) :
    eyeBlocked k s = setEye k (some .blocked) s := by
  simp only [eyeBlocked, h]

/-- A new blocking edge with a candidate (R11). -/
theorem eyeBlocked_matches {k : Eye} {pos : Nat} {car : Car} {s : State} (h : s.trk.eyes.get k = some .armed)
    (hpos : eyePosition s.sup.consts k = some pos) (hcar : candidate s k pos = some car) :
    eyeBlocked k s = correctCar k pos car (setEye k (some .blocked) s) := by
  have hcar' : candidate (setEye k (some .blocked) s) k pos = some car := hcar
  simp only [eyeBlocked, h, matchEye, setEye_fields, hpos, hcar']

/-- A new blocking edge without a candidate (R14). -/
theorem eyeBlocked_phantom {k : Eye} {pos : Nat} {s : State} (h : s.trk.eyes.get k = some .armed)
    (hpos : eyePosition s.sup.consts k = some pos) (hcar : candidate s k pos = none) :
    eyeBlocked k s = raiseIncident ⟨.phantom, none, some k, none, none, none⟩ (setEye k (some .blocked) s) := by
  have hcar' : candidate (setEye k (some .blocked) s) k pos = none := hcar
  simp only [eyeBlocked, h, matchEye, setEye_fields, hpos, hcar']
  rfl

theorem PerEye.set_get {α : Type} (t : PerEye α) (k : Eye) : t.set k (t.get k) = t := by cases k <;> rfl

/-- A clear edge starts the settling of a BLOCKED eye (R8). -/
theorem eyeCleared_blocked {k : Eye} {s : State} (h : s.trk.eyes.get k = some .blocked) :
    eyeCleared k s = setEye k (some (.settling 0)) s := by
  simp only [eyeCleared, h]

/-- A clear edge moves no other eye (R7, R8). -/
theorem eyeCleared_stays {k : Eye} {s : State} (h : s.trk.eyes.get k ≠ some .blocked) : eyeCleared k s = s := by
  unfold eyeCleared
  split
  · next hblocked => exact absurd hblocked h
  all_goals rfl

theorem eyeCleared_eq (k : Eye) (s : State) : eyeCleared k s =
    setEye k (if s.trk.eyes.get k = some .blocked then some (.settling 0) else s.trk.eyes.get k) s := by
  split
  · next h => exact eyeCleared_blocked h
  · next h => rw [eyeCleared_stays h, setEye, PerEye.set_get]

theorem startExitTimer_eq (s : State) : startExitTimer s =
    { s with trk.exitTimer := if s.sup.tunnel.runs then some s.sup.consts.exitBlockTime else s.trk.exitTimer } := by
  unfold startExitTimer
  split <;> rfl

/-! ### The matched record -/

/-- A record's tag and whether it has passed an eye. -/
def passMark (k : Eye) (car : Car) : Nat × Bool := (car.tag, car.passed.get k)

/-- The exit match stays, and every record keeps its tag and whether it has passed the eye. -/
def PassKept (k : Eye) (s t : State) : Prop :=
  t.trk.queue.map (passMark k) = s.trk.queue.map (passMark k) ∧ t.trk.exitMatch = s.trk.exitMatch

theorem PassKept.refl (k : Eye) (s : State) : PassKept k s s := ⟨rfl, rfl⟩

theorem PassKept.trans {k : Eye} {a b c : State} (h : PassKept k a b) (h' : PassKept k b c) : PassKept k a c :=
  ⟨h'.1.trans h.1, h'.2.trans h.2⟩

theorem PassKept.ofRaise {k : Eye} {s t : State} (h : RaiseFrame s t) : PassKept k s t := by
  obtain ⟨hframe, hbare⟩ := h
  exact ⟨map_of_map_bare (passMark k) (fun _ => rfl) hbare, by rw [hframe]⟩

/-- Passing another eye leaves the marks of this one. -/
theorem markPassed_passKept {k j : Eye} (h : j ≠ k) (tag : Nat) (s : State) : PassKept k s (markPassed j tag s) := by
  refine ⟨?_, rfl⟩
  change (s.trk.queue.map _).map (passMark k) = _
  rw [List.map_map]
  refine List.map_congr_left fun car _ => ?_
  simp only [Function.comp_apply]
  split
  · simp [passMark, PerEye.get_set_ne _ _ _ _ h]
  · rfl

theorem missingTest_passKept {k j : Eye} (h : j ≠ k) (tag old : Nat) (s : State) :
    PassKept k s (missingTest j tag old s) := by
  unfold missingTest
  split
  · split
    · exact (markPassed_passKept h tag s).trans (.ofRaise (raiseIncident_frame _ _))
    · exact .refl k s
  · exact .refl k s

theorem otherTests_passKept (k : Eye) (car : Car) (s : State) : PassKept k s (otherTests k car s) := by
  unfold otherTests
  refine foldl_keeps (PassKept k) (.refl k) (fun _ _ _ => .trans) _ (fun t j => ?_) _ s
  split
  · exact .refl k t
  · next h => exact missingTest_passKept h _ _ t

/-- After the correction itself a match and correction keeps the marks of its eye and the exit match. -/
theorem correctCar_passKept (k : Eye) (pos : Nat) (car : Car) (s : State) :
    PassKept k (correctedState k pos car s) (correctCar k pos car s) := by
  have hjudged : PassKept k (correctedState k pos car s) (judgedState k pos car s) :=
    (otherTests_passKept k car _).trans (.ofRaise (.ofChange _ _ (.ofSeq _ _ (judgeCorrection_seqOnly _ _ _))))
  rw [correctCar_eq]
  split
  · exact hjudged.trans (.ofRaise (.ofChange _ _ (.ofGrant _ _ (arbitrate_grantOnly _))))
  · exact hjudged

/-- A record found by its tag is marked as its place in the queue of marks says. -/
theorem carOf_passMark (k : Eye) (s : State) (tag : Nat) :
    (carOf s tag).map (passMark k) = (s.trk.queue.map (passMark k)).find? fun q => q.1 == tag := by
  rw [List.find?_map]
  rfl

theorem PassKept.carOf {k : Eye} {s t : State} (h : PassKept k s t) (tag : Nat) :
    (Machine.carOf t tag).map (passMark k) = (Machine.carOf s tag).map (passMark k) := by
  rw [carOf_passMark, carOf_passMark, h.1]

/-- The record that carries a tag, after a change of that record which keeps the tag. -/
theorem carOf_updateCar (tag : Nat) (f : Car → Car) (hf : ∀ car, (f car).tag = car.tag) (s : State) :
    carOf (updateCar tag f s) tag = (carOf s tag).map f := by
  have hpred : ((fun x : Car => x.tag == tag) ∘ fun x : Car => if x.tag = tag then f x else x) =
      fun x => x.tag == tag := by
    funext x
    simp only [Function.comp_apply]
    split <;> simp [hf]
  change List.find? _ (s.trk.queue.map _) = _
  rw [List.find?_map, hpred]
  refine Option.map_congr fun car hcar => ?_
  rw [if_pos (by simpa using List.find?_some hcar)]

/-- The correction marks its record as having passed the eye (R11, R12). -/
theorem correctedState_passes (k : Eye) (pos : Nat) (car : Car) (s : State) (h : carOf s car.tag = some car) :
    (carOf (correctedState k pos car s) car.tag).map (passMark k) = some (car.tag, true) := by
  have hmarks : (correctedState k pos car s).trk.queue.map (passMark k) =
      (markPassed k car.tag s).trk.queue.map (passMark k) := by
    rw [correctedState_eq]
    exact correctQueue_map (passMark k) (fun _ _ => rfl) _ _ _ none
  rw [carOf_passMark, hmarks, ← carOf_passMark, markPassed, carOf_updateCar, h]
  · simp [passMark]
  · exact fun _ => rfl

theorem correctedState_exitMatch (k : Eye) (pos : Nat) (car : Car) (s : State) :
    (correctedState k pos car s).trk.exitMatch = if k = .exit then some car.tag else s.trk.exitMatch := by
  rw [correctedState_eq]

/-- Settles O56: the edges of the check eyes, those of the exit eye with its timer, the commands that are no edge, and the
matched record. -/
theorem eyeEdgesDebounceAndMatch : Obligations.EyeEdgesDebounceAndMatch := by
  refine ⟨fun k s hrun hclear => ?_, fun k s hrun hblocked => ?_, fun s hrun hclear => ?_, fun s hrun hblocked => ?_,
    fun n s hrun htimer => ?_, fun k s => ⟨fun h => ?_, fun h => ?_⟩, fun s => ⟨fun h => ?_, fun h => ?_⟩,
    fun k pos car s hcar => ?_⟩
  · have hexec : exec (.checkEyeBlockingEdge k) s =
        .next (driveLines (eyeBlocked (eyeOfCheck k) (setEyeInput (eyeOfCheck k) true s))) :=
      congrArg Host.Outcome.next (lineEdge_running (by simp [hclear]) _ _ s hrun)
    have hnext : ∀ t, eyeBlocked (eyeOfCheck k) (setEyeInput (eyeOfCheck k) true s) = t →
        exec (.checkEyeBlockingEdge k) s = .next (driveLines t) := fun t ht => ht ▸ hexec
    refine ⟨eyeOfCheck k, setEyeInput (eyeOfCheck k) true s, rfl, rfl, fun h => ?_, fun n h => ?_,
      fun pos h hpos => ⟨fun car hcar => ?_, fun hcar => ?_⟩⟩
    · exact hnext _ (eyeBlocked_ignored h)
    · exact hnext _ (eyeBlocked_continues h)
    · exact hnext _ (eyeBlocked_matches h hpos hcar)
    · exact hnext _ (eyeBlocked_phantom h hpos hcar)
  · have hexec : exec (.checkEyeClearEdge k) s =
        .next (driveLines (eyeCleared (eyeOfCheck k) (setEyeInput (eyeOfCheck k) false s))) :=
      congrArg Host.Outcome.next (lineEdge_running (by simp [hblocked]) _ _ s hrun)
    have hnext : ∀ t, eyeCleared (eyeOfCheck k) (setEyeInput (eyeOfCheck k) false s) = t →
        exec (.checkEyeClearEdge k) s = .next (driveLines t) := fun t ht => ht ▸ hexec
    exact ⟨eyeOfCheck k, setEyeInput (eyeOfCheck k) false s, rfl, rfl, fun h => hnext _ (eyeCleared_blocked h),
      fun h => hnext _ (eyeCleared_stays h)⟩
  · have hexec : exec .exitEyeBlockingEdge s =
        .next (driveLines (eyeBlocked .exit (startExitTimer (setEyeInput .exit true s)))) :=
      congrArg Host.Outcome.next (lineEdge_running (by simp [hclear]) _ _ s hrun)
    have hnext : ∀ t, eyeBlocked .exit (startExitTimer (setEyeInput .exit true s)) = t →
        exec .exitEyeBlockingEdge s = .next (driveLines t) := fun t ht => ht ▸ hexec
    rw [startExitTimer_eq] at hnext
    refine ⟨_, rfl, fun h => ?_, fun n h => ?_, fun h => ⟨fun car hcar => ?_, fun hcar => ?_⟩⟩
    · exact hnext _ (eyeBlocked_ignored (.inr h))
    · exact hnext _ (eyeBlocked_continues h)
    · exact hnext _ (eyeBlocked_matches h rfl hcar)
    · exact hnext _ (eyeBlocked_phantom h rfl hcar)
  · have hexec : exec .exitEyeClearEdge s = .next (driveLines (exitCleared (setEyeInput .exit false s))) :=
      congrArg Host.Outcome.next (lineEdge_running (by simp [hblocked]) _ _ s hrun)
    refine ⟨_, rfl, ?_⟩
    rw [hexec, exitCleared, eyeCleared_eq]
    rfl
  · have hexec : exec .exitBlockTimerExpiry s = .next (driveLines (exitBlockExpired s)) :=
      congrArg Host.Outcome.next (event_running _ s hrun)
    rw [hexec, exitBlockExpired, htimer]
    rfl
  · exact congrArg Host.Outcome.next (lineEdge_same h _ _ s)
  · exact congrArg Host.Outcome.next (lineEdge_same h _ _ s)
  · exact congrArg Host.Outcome.next (lineEdge_same h _ _ s)
  · exact congrArg Host.Outcome.next (lineEdge_same h _ _ s)
  · have hkept := correctCar_passKept k pos car s
    have hmark := (hkept.carOf car.tag).trans (correctedState_passes k pos car s hcar)
    obtain ⟨x, hx, hpass⟩ := Option.map_eq_some_iff.mp hmark
    have hmatch := hkept.2.trans (correctedState_exitMatch k pos car s)
    exact ⟨⟨x, hx, congrArg Prod.snd hpass⟩, fun hk => hmatch.trans (if_pos hk), fun hk => hmatch.trans (if_neg hk)⟩

end Sys2Proof.Machine
end

