-- ==== Sys2Proof/Proofs/Evolution.lean ====
section
/-! How the events of the tunnel and the requests on lanes, cars, stations and incidents are put together: each is a
sequence of moves (`Move`), so an invariant that every move keeps holds after all of them (`Evolves.keeps`). The requests
that change the tunnel state themselves (OPEN, DRAIN, STOP, PAUSE, RESUME, RESTART) and the start timer are not among
them. -/

namespace Sys2Proof.Machine

/-! ### Moves -/

/-- A change of records outside the ports, the tunnel state, the incidents, the settings store and the grant. -/
structure Quiet (s t : State) : Prop where
  held : t.held = s.held
  inputs : t.inputs = s.inputs
  ports : t.ports = s.ports
  tunnel : t.sup.tunnel = s.sup.tunnel
  incidents : t.sup.incidents = s.sup.incidents
  incidentCounter : t.sup.incidentCounter = s.sup.incidentCounter
  response : t.sup.response = s.sup.response
  settings : t.store = s.store
  grant : t.ent.grant = s.ent.grant
  grantTimer : t.ent.grantTimer = s.ent.grantTimer

/-- One of the shared operations that reach beyond the block they start in, or a quiet change. -/
inductive Move : State → State → Prop
  | quiet {s t : State} (h : Quiet s t) : Move s t
  | notify (p : Port) (n : Notice) (s : State) : Move s (notify p n s)
  | arbitrate (s : State) : Move s (arbitrate s)
  | withdraw (r : WithdrawReason) (s : State) : Move s (withdrawGrant r s)
  | consume (s : State) : Move s (clearGrant s)
  | raise (q : Raise) (s : State) : Move s (raiseIncident q s)
  | remove (p : Incident → Bool) (s : State) : Move s (removeIncidents p s)
  | drain (s : State) : Move s (drainIfEmpty s)

/-- A sequence of moves. -/
def Evolves : State → State → Prop := Relation.ReflTransGen Move

theorem Evolves.refl (s : State) : Evolves s s := Relation.ReflTransGen.refl

theorem Evolves.trans {a b c : State} (h : Evolves a b) (k : Evolves b c) : Evolves a c :=
  Relation.ReflTransGen.trans h k

theorem Evolves.move {s t : State} (h : Move s t) : Evolves s t := Relation.ReflTransGen.single h

theorem Evolves.quiet {s t : State} (h : Quiet s t := by constructor <;> rfl) : Evolves s t := .move (.quiet h)

theorem Evolves.ite {s a b : State} {p : Prop} [Decidable p] (ha : Evolves s a) (hb : Evolves s b) :
    Evolves s (if p then a else b) := by
  split <;> assumption

theorem Evolves.pair_ite {s : State} {α : Type} {a b : State × α} {p : Prop} [Decidable p] (ha : Evolves s a.1)
    (hb : Evolves s b.1) : Evolves s (if p then a else b).1 := by
  split <;> assumption

/-- What every move keeps holds after a sequence of them. -/
theorem Evolves.keeps {P : State → Prop} (hmove : ∀ s t, Move s t → P s → P t) {s t : State} (h : Evolves s t)
    (hs : P s) : P t := by
  induction h with
  | refl => exact hs
  | tail _ hlast ih => exact hmove _ _ hlast ih

theorem Evolves.ofSeq {s t : State} (h : SeqOnly s t) : Evolves s t :=
  .quiet (by rw [h.1]; constructor <;> rfl)

theorem foldl_evolves {α : Type} (f : State → α → State) (hf : ∀ s x, Evolves s (f s x)) (l : List α) (s : State) :
    Evolves s (l.foldl f s) :=
  foldl_keeps Evolves .refl (fun _ _ _ => .trans) f hf l s

theorem notifyBoth_evolves (n : Notice) (s : State) : Evolves s (notifyBoth n s) :=
  (Evolves.move (.notify .p0 n s)).trans (.move (.notify .p4 n _))

theorem arbitrate_evolves (s : State) : Evolves s (arbitrate s) := .move (.arbitrate s)

theorem withdrawLane_evolves (l : Lane) (r : WithdrawReason) (s : State) : Evolves s (withdrawLane l r s) :=
  .ite (.move (.withdraw r s)) (.refl s)

theorem raiseIncident_evolves (q : Raise) (s : State) : Evolves s (raiseIncident q s) := .move (.raise q s)

theorem raiseEach_evolves (l : List Raise) (s : State) : Evolves s (raiseEach l s) :=
  foldl_evolves _ (fun s q => raiseIncident_evolves q s) l s

theorem removeIncidents_evolves (p : Incident → Bool) (s : State) : Evolves s (removeIncidents p s) :=
  .move (.remove p s)

/-! ### The tunnel queue -/

theorem leaveQueue_evolves (car : Car) (s : State) : Evolves s (leaveQueue car s) :=
  ((Evolves.quiet (t := dropRecord car.tag s)).trans (.ofSeq (afterEnded_seqOnly _ _))).trans (.move (.drain _))

theorem missingTest_evolves (k : Eye) (tag old : Nat) (s : State) : Evolves s (missingTest k tag old s) := by
  have hpass : Evolves s (markPassed k tag s) := .quiet
  unfold missingTest
  split
  · exact .ite (hpass.trans (raiseIncident_evolves _ _)) (.refl s)
  · exact .refl s

theorem missingTests_evolves (olds : List (Nat × Nat)) (s : State) : Evolves s (missingTests olds s) := by
  unfold missingTests
  exact foldl_evolves _ (fun s k => foldl_evolves _ (fun s q => missingTest_evolves k q.1 q.2 s) olds s) _ s

theorem exitCredit_evolves (car : Car) (s : State) : Evolves s (exitCredit car s).1 := by
  unfold exitCredit
  split
  · exact .refl s
  · exact .pair_ite .quiet (.refl s)

theorem finalise_evolves (car : Car) (s : State) : Evolves s (finalise car s) :=
  (Evolves.quiet (t := updateCar car.tag finaliseCar s)).trans (.ofSeq (afterEnded_seqOnly _ _))

theorem removeAtExit_evolves (car : Car) (s : State) : Evolves s (removeAtExit car s) := by
  have htally : ∀ f u, Evolves u (updateTally f u) := fun _ _ => .quiet
  exact (((finalise_evolves car s).trans (htally _ _)).trans (exitCredit_evolves _ _)).trans
    ((notifyBoth_evolves _ _).trans (leaveQueue_evolves _ _))

theorem exitRemoval_evolves (s : State) : Evolves s (exitRemoval s) := by
  unfold exitRemoval
  split
  · exact removeAtExit_evolves _ s
  · exact .refl s

theorem setEye_evolves (k : Eye) (d : Option Debounce) (s : State) : Evolves s (setEye k d s) := .quiet

theorem settleEye_evolves (s : State) (k : Eye) : Evolves s (settleEye s k) := by
  unfold settleEye
  split
  · exact .ite (.ite ((setEye_evolves _ _ s).trans (exitRemoval_evolves _)) (setEye_evolves _ _ s))
      (setEye_evolves _ _ s)
  all_goals exact .refl s

theorem trackPulse_evolves (s : State) : Evolves s (trackPulse s) := by
  have hadvance : Evolves s { s with trk.queue := advanceFronts none s.trk.queue } := .quiet
  exact (hadvance.trans (missingTests_evolves _ _)).trans (foldl_evolves _ settleEye_evolves _ _)

theorem correctCar_evolves (k : Eye) (pos : Nat) (car : Car) (s : State) : Evolves s (correctCar k pos car s) := by
  have hcorrected : Evolves s (correctedState k pos car s) := by rw [correctedState_eq]; exact .quiet
  have htests : ∀ u, Evolves u (otherTests k car u) :=
    fun u => foldl_evolves _ (fun u j => .ite (.refl u) (missingTest_evolves _ _ _ u)) _ u
  have hjudged : Evolves s (judgedState k pos car s) :=
    (hcorrected.trans (htests _)).trans (.ofSeq (judgeCorrection_seqOnly _ _ _))
  rw [correctCar_eq]
  exact .ite (hjudged.trans (arbitrate_evolves _)) hjudged

theorem matchEye_evolves (k : Eye) (s : State) : Evolves s (matchEye k s) := by
  unfold matchEye
  split
  · exact .refl s
  · split
    · exact correctCar_evolves _ _ _ s
    · exact raiseIncident_evolves _ s

theorem eyeBlocked_evolves (k : Eye) (s : State) : Evolves s (eyeBlocked k s) := by
  unfold eyeBlocked
  split
  · exact (setEye_evolves _ _ s).trans (matchEye_evolves _ _)
  · exact setEye_evolves _ _ s
  all_goals exact .refl s

theorem eyeCleared_evolves (k : Eye) (s : State) : Evolves s (eyeCleared k s) := by
  rw [eyeCleared_eq]
  exact setEye_evolves _ _ s

theorem exitBlocked_evolves (s : State) : Evolves s (exitBlocked s) := by
  have htimer : Evolves s (startExitTimer s) := .ite .quiet (.refl s)
  exact htimer.trans (eyeBlocked_evolves _ _)

theorem exitCleared_evolves (s : State) : Evolves s (exitCleared s) := by
  have htimer : ∀ u : State, Evolves u { u with trk.exitTimer := none } := fun _ => .quiet
  exact ((eyeCleared_evolves .exit s).trans (htimer _)).trans (removeIncidents_evolves _ _)

theorem exitBlockExpired_evolves (s : State) : Evolves s (exitBlockExpired s) := by
  have htimer : Evolves s { s with trk.exitTimer := none } := .quiet
  unfold exitBlockExpired
  split
  · exact .refl s
  · exact htimer.trans (raiseIncident_evolves _ _)

/-! ### The entrance -/

theorem raiseTailgate_evolves (tag : Nat) (s : State) : Evolves s (raiseTailgate tag s) := by
  have hmark : ∀ f, Evolves s (updateCar tag f s) := fun _ => .quiet
  unfold raiseTailgate
  split
  · exact .ite (.refl s) ((hmark _).trans (raiseIncident_evolves _ _))
  · exact .refl s

theorem measurePulse_evolves (s : State) : Evolves s (measurePulse s) := by
  have hcount : ∀ m, Evolves s { s with ent.measured := m } := fun _ => .quiet
  unfold measurePulse
  split
  · exact .refl s
  · exact .ite (.refl s) (.ite ((hcount _).trans (raiseTailgate_evolves _ _)) (hcount _))

theorem setLength_evolves (tag len : Nat) (s : State) : Evolves s (setLength tag len s) := by
  have hlength : ∀ f, Evolves s (updateCar tag f s) := fun _ => .quiet
  exact (hlength _).trans (.ofSeq (judgeLength_seqOnly _ _))

theorem shortObject_evolves (car : Car) (s : State) : Evolves s (shortObject car s) := by
  unfold shortObject
  split
  · exact (leaveQueue_evolves _ s).trans (raiseIncident_evolves _ _)
  · exact (setLength_evolves _ _ s).trans (raiseIncident_evolves _ _)

theorem completeMeasure_evolves (s : State) : Evolves s (completeMeasure s) := by
  have hforget : Evolves s { s with ent.measured := none } := .quiet
  unfold completeMeasure
  split
  · exact .refl s
  · simp only
    split
    · exact hforget
    · exact .ite (hforget.trans (setLength_evolves _ _ _)) (hforget.trans (shortObject_evolves _ _))

theorem settleEntrance_evolves (s : State) : Evolves s (settleEntrance s) := by
  have heye : ∀ d, Evolves s { s with ent.eye := d } := fun _ => .quiet
  unfold settleEntrance
  split
  · exact .ite ((heye _).trans (completeMeasure_evolves _)) (heye _)
  all_goals exact .refl s

theorem entrancePulse_evolves (s : State) : Evolves s (entrancePulse s) :=
  ((measurePulse_evolves s).trans (settleEntrance_evolves _)).trans (arbitrate_evolves _)

/-- An encoder pulse, block by block (R6). -/
theorem pulse_evolves (s : State) : Evolves s (pulse s) := by
  have hcount : ∀ u, Evolves u (countPulse u) := fun _ => .quiet
  exact (((trackPulse_evolves s).trans (.ofSeq (judgePulse_seqOnly _))).trans (entrancePulse_evolves _)).trans (hcount _)

theorem tailgateTest_evolves (s : State) : Evolves s (tailgateTest s) := by
  unfold tailgateTest
  split
  · exact .ite (raiseTailgate_evolves _ s) (.refl s)
  · exact .refl s

theorem setLane_evolves (l : Lane) (q : List Ticket) (s : State) : Evolves s (setLane l q s) := .quiet

theorem appendCar_evolves (ticket : Option Ticket) (s : State) : Evolves s (appendCar ticket s) := by
  have hjoin : ∀ q n, Evolves s { s with trk.queue := q, trk.nextTag := n } := fun _ _ => .quiet
  exact (hjoin _ _).trans (.ofSeq (testArmAll_seqOnly _))

theorem newObject_evolves (s : State) : Evolves s (newObject s) := by
  have hforget : Evolves s { s with ent.measured := none } := .quiet
  have hmeasure : ∀ tag u, Evolves u (startMeasure tag u) := fun _ _ => .quiet
  unfold newObject bindHead enterUnpaid
  refine .ite (hforget.trans (raiseIncident_evolves _ _)) ?_
  split
  · exact ((((setLane_evolves _ _ s).trans (.move (.consume _))).trans (appendCar_evolves _ _)).trans
      (hmeasure _ _)).trans (.move (.notify _ _ _))
  · exact ((appendCar_evolves none s).trans (hmeasure _ _)).trans (raiseIncident_evolves _ _)

theorem entranceBlocked_evolves (s : State) : Evolves s (entranceBlocked s) := by
  have heye : ∀ d, Evolves s (setEntranceEye d s) := fun _ => .quiet
  unfold entranceBlocked
  split
  · exact (heye _).trans (newObject_evolves _)
  · exact (heye _).trans (tailgateTest_evolves _)
  · exact .refl s

theorem entranceCleared_evolves (s : State) : Evolves s (entranceCleared s) := by
  unfold entranceCleared
  split
  · exact .quiet
  all_goals exact .refl s

theorem grantExpired_evolves (s : State) : Evolves s (grantExpired s) := by
  unfold grantExpired
  split
  · exact .refl s
  · exact .move (.withdraw _ s)

/-! ### Stations, monitor, pacing -/

theorem giveUp_evolves (i : Fin 16) (s : State) : Evolves s (giveUp i s) :=
  ((Evolves.ofSeq (updateUnit_seqOnly i _ s)).trans (.ofSeq (moveStation_seqOnly i _ _))).trans
    (raiseIncident_evolves _ _)

/-- A failed attempt that is not the last: the station moves, and its unit is written before and after. -/
theorem retried_evolves (i : Fin 16) (f g : StationUnit → StationUnit) (new : StationState) (s : State) :
    Evolves s (updateUnit i g (moveStation i new (updateUnit i f s))) :=
  ((Evolves.ofSeq (updateUnit_seqOnly i f s)).trans (.ofSeq (moveStation_seqOnly i new _))).trans
    (.ofSeq (updateUnit_seqOnly i g _))

theorem failAttempt_evolves (i : Fin 16) (s : State) : Evolves s (failAttempt i s) :=
  .ite (retried_evolves i _ _ _ s) (giveUp_evolves i s)

theorem loseProof_evolves (i : Fin 16) (s : State) : Evolves s (loseProof i s) :=
  (Evolves.ofSeq (markEntries_seqOnly i .proof false s)).trans (.ite (retried_evolves i _ _ _ _) (giveUp_evolves i _))

theorem proofOn_evolves (i : Fin 16) (s : State) : Evolves s (proofOn i s) :=
  .ite (.ofSeq (becomeReady_seqOnly i s)) (.ite (.ofSeq (updateUnit_seqOnly i _ s)) (.refl s))

theorem proofOff_evolves (i : Fin 16) (s : State) : Evolves s (proofOff i s) := .ite (loseProof_evolves i s) (.refl s)

theorem proofExpired_evolves (i : Fin 16) (s : State) : Evolves s (proofExpired i s) := by
  unfold proofExpired
  simp only
  split
  · exact .refl s
  · exact (Evolves.ofSeq (updateUnit_seqOnly i _ s)).trans
      (.ite (failAttempt_evolves i _) (.ite (loseProof_evolves i _) (.refl _)))

theorem retryExpired_evolves (i : Fin 16) (s : State) : Evolves s (retryExpired i s) := by
  unfold retryExpired
  simp only
  split
  · exact .refl s
  · refine (Evolves.ofSeq (updateUnit_seqOnly i _ s)).trans
      (.ite (.ite ?_ (.ofSeq (moveStation_seqOnly i _ _))) (.refl _))
    exact (Evolves.ofSeq (moveStation_seqOnly i _ _)).trans (.ofSeq (beginAttempt_seqOnly i _))

theorem scan_evolves (samples : Tab 6 (BitVec 12)) (s : State) : Evolves s (scan samples s) := by
  have hmark : ∀ u k, Evolves u (slackMark u k) := fun u k => by
    unfold slackMark
    split
    · exact .refl u
    · exact .ofSeq (markEntries_seqOnly _ _ _ u)
  have hslots : ∀ m, Evolves s { s with mon := m } := fun _ => .quiet
  exact ((hslots _).trans (foldl_evolves _ (fun u k => .ite (hmark u k) (.refl u)) _ _)).trans (raiseEach_evolves _ _)

theorem windowEnd_evolves (s : State) : Evolves s (windowEnd s) := by
  have hstall : ∀ n, Evolves s { closeWindow s with pace.stall := n } := fun _ => .quiet
  exact .ite ((hstall _).trans (raiseIncident_evolves _ _)) (hstall _)

/-! ### Requests -/

theorem updateTally_evolves (f : Tally → Tally) (s : State) : Evolves s (updateTally f s) := .quiet

theorem ownVoid_evolves (p : Port) (sale : Nat) (s : State) : Evolves s (ownVoid p sale s).1 := by
  have htake : ∀ l t u, Evolves u (takeTicket l t u) := fun l t u =>
    .ite ((setLane_evolves _ _ u).trans (withdrawLane_evolves _ _ _)) (setLane_evolves _ _ u)
  unfold ownVoid
  split
  · exact .refl s
  · split
    · exact .refl s
    · exact (updateTally_evolves _ s).trans (htake _ _ _)

theorem ownSell_evolves (p : Port) (lane : Option Nat) (buy : Purchase) (ref : Nat) (s : State) :
    Evolves s (ownSell p lane buy ref s).1 := by
  have hsell : ∀ sales, Evolves s (arbitrate { s with sales := sales }) :=
    fun _ => (Evolves.quiet).trans (arbitrate_evolves _)
  unfold ownSell
  split
  · exact .refl s
  · split
    · exact .refl s
    · exact .pair_ite (.refl s) (hsell _)

theorem updateCar_evolves (tag : Nat) (f : Car → Car) (s : State) : Evolves s (updateCar tag f s) := .quiet

theorem bindTicket_evolves (car : Car) (t : Ticket) (s : State) : Evolves s (bindTicket car t s) :=
  (updateCar_evolves _ _ s).trans (.ofSeq (testArmAll_seqOnly _))

theorem placeTicket_evolves (place : TicketPlace) (code level : Nat) (t : Ticket) (s : State) :
    Evolves s (placeTicket place code level t s) := by
  cases place with
  | queued l x => exact setLane_evolves _ _ s
  | bound car x => exact (updateCar_evolves _ _ s).trans (.ofSeq (testArmAll_seqOnly _))

theorem ownAddService_evolves (p : Port) (sale code level : Nat) (s : State) :
    Evolves s (ownAddService p sale code level s).1 := by
  unfold ownAddService
  split
  · exact .refl s
  · split
    · exact .refl s
    · refine .pair_ite (.refl s) (.pair_ite (.refl s) ?_)
      split
      · exact .refl s
      · exact (updateTally_evolves _ s).trans (placeTicket_evolves _ _ _ _ _)

theorem ownAttachLane_evolves (tag lane : Nat) (s : State) : Evolves s (ownAttachLane tag lane s).1 := by
  unfold ownAttachLane
  split
  · exact .refl s
  · split
    · exact .refl s
    · split
      · exact .refl s
      · dsimp only
        exact ((setLane_evolves _ _ s).trans (bindTicket_evolves _ _ _)).trans (withdrawLane_evolves _ _ _)

theorem ownAttachNewSale_evolves (tag : Nat) (buy : Purchase) (ref : Nat) (s : State) :
    Evolves s (ownAttachNewSale tag buy ref s).1 := by
  have hsell : ∀ q, Evolves s (sellTicket .console buy q s) := fun _ => .quiet
  unfold ownAttachNewSale
  split
  · exact .refl s
  · split
    · exact .refl s
    · dsimp only
      exact (hsell _).trans (bindTicket_evolves _ _ _)

theorem ownAckIncident_evolves (number : Nat) (s : State) : Evolves s (ownAckIncident number s).1 := by
  unfold ownAckIncident
  split
  · exact .refl s
  · exact .pair_ite (.refl s) (removeIncidents_evolves _ s)

theorem ownLaneReset_evolves (lane : Nat) (s : State) : Evolves s (ownLaneReset lane s).1 := by
  unfold ownLaneReset
  split
  · exact .refl s
  · exact ((updateTally_evolves _ s).trans (setLane_evolves _ _ _)).trans (withdrawLane_evolves _ _ _)

theorem setEnabled_evolves (l : Lane) (x : Bool) (s : State) : Evolves s (setEnabled l x s) := .quiet

theorem ownLaneEnable_evolves (lane : Nat) (s : State) : Evolves s (ownLaneEnable lane s).1 := by
  unfold ownLaneEnable
  split
  · exact .refl s
  · exact (setEnabled_evolves _ _ s).trans (arbitrate_evolves _)

theorem ownLaneDisable_evolves (lane : Nat) (s : State) : Evolves s (ownLaneDisable lane s).1 := by
  unfold ownLaneDisable
  split
  · exact .refl s
  · exact (setEnabled_evolves _ _ s).trans (withdrawLane_evolves _ _ _)

theorem clearRecord_evolves (car : Car) (s : State) : Evolves s (clearRecord car s) := by
  have hcredit : Evolves s (clearCredit car s).1 := by
    rw [clearCredit_keeps]
    exact .quiet
  exact (hcredit.trans (notifyBoth_evolves _ _)).trans (leaveQueue_evolves _ _)

theorem ownTunnelClear_evolves (s : State) : Evolves s (ownTunnelClear s).1 := by
  unfold ownTunnelClear
  split
  · exact foldl_evolves _ (fun u car => clearRecord_evolves car u) _ s
  · exact foldl_evolves _ (fun u car => clearRecord_evolves car u) _ s
  all_goals exact .refl s

theorem ownStationOff_evolves (station : Nat) (s : State) : Evolves s (ownStationOff station s).1 := by
  unfold ownStationOff okStation
  split
  · exact .refl s
  · exact .pair_ite (.refl s) ((Evolves.ofSeq (moveStation_seqOnly _ _ s)).trans (.ofSeq (markEntries_seqOnly _ _ _ _)))

theorem returnStation_evolves (i : Fin 16) (s : State) : Evolves s (returnStation i s) :=
  ((Evolves.ofSeq (updateUnit_seqOnly i _ s)).trans (.ofSeq (moveStation_seqOnly i _ _))).trans
    (.ofSeq (testArm_seqOnly i _))

theorem ownStationOn_evolves (station : Nat) (s : State) : Evolves s (ownStationOn station s).1 := by
  unfold ownStationOn okStation
  split
  · exact .refl s
  · exact .pair_ite (returnStation_evolves _ s) (.refl s)

theorem ownStationReset_evolves (station : Nat) (s : State) : Evolves s (ownStationReset station s).1 := by
  unfold ownStationReset okStation
  split
  · exact .refl s
  · exact .pair_ite (returnStation_evolves _ s) (.refl s)

theorem ownSetStation_evolves (station : Nat) (raw : RawStation) (s : State) :
    Evolves s (ownSetStation station raw s).1 := by
  unfold ownSetStation storeStation
  refine .pair_ite (.refl s) ?_
  split
  · exact .pair_ite (.refl s) (.pair_ite (.refl s) (.pair_ite (.refl s) (.ite .quiet .quiet)))
  · exact .refl s

theorem ownSetConstants_evolves (c : Constants) (s : State) : Evolves s (ownSetConstants c s).1 := by
  have hset : ∀ k e d, Evolves s { s with sup.consts := k, trk.eyes := e, ent.eye := d } := fun _ _ _ => .quiet
  have hreclamp : ∀ before new u, Evolves u (reclampStations before new u) := fun _ _ u => .ite .quiet (.refl u)
  unfold ownSetConstants
  exact .pair_ite (.refl s) (.pair_ite (.refl s)
    (((hset _ _ _).trans (hreclamp _ _ _)).trans (.ite (tailgateTest_evolves _) (.refl _))))

end Sys2Proof.Machine
end

