-- ==== Sys2Proof/Proofs/GrantAndLines.lean ====
section
/-! Two invariants of every step: a grant stands in RUNNING alone, with its timer (R30, R32, R33), and the output lines are
those of the present state (R26, R92, R113, R121, R124, R141, R193). -/

namespace Sys2Proof.Machine

/-! ### The grant under the shared operations -/

/-- The part is held or runs as before, and the grant's invariant is kept. -/
structure GrantKept (s t : State) : Prop where
  held : t.held = s.held
  grant : GrantHeld s → GrantHeld t

theorem GrantKept.refl (s : State) : GrantKept s s := ⟨rfl, id⟩

theorem GrantKept.trans {a b c : State} (h : GrantKept a b) (k : GrantKept b c) : GrantKept a c :=
  ⟨k.held.trans h.held, fun hs => k.grant (h.grant hs)⟩

theorem GrantKept.ite {s a b : State} {p : Prop} [Decidable p] (ha : GrantKept s a) (hb : GrantKept s b) :
    GrantKept s (if p then a else b) := by
  split <;> assumption

theorem GrantKept.pair_ite {s : State} {α : Type} {a b : State × α} {p : Prop} [Decidable p] (ha : GrantKept s a.1)
    (hb : GrantKept s b.1) : GrantKept s (if p then a else b).1 := by
  split <;> assumption

/-- The invariant speaks of the grant, its timer and the tunnel state alone. -/
theorem GrantKept.of_eq {s t : State} (hheld : t.held = s.held := by rfl) (hgrant : t.ent.grant = s.ent.grant := by rfl)
    (htimer : t.ent.grantTimer = s.ent.grantTimer := by rfl) (htunnel : t.sup.tunnel = s.sup.tunnel := by rfl) :
    GrantKept s t :=
  ⟨hheld, fun hs => by rw [GrantHeld, hgrant, htimer, htunnel]; exact hs⟩

theorem GrantKept.ofQuiet {s t : State} (h : Quiet s t) : GrantKept s t := .of_eq h.held h.grant h.grantTimer h.tunnel

theorem GrantKept.ofPorts {s t : State} (h : PortsOnly s t) : GrantKept s t := by rw [h]; exact .of_eq

/-- The grant timer runs exactly while a grant is outstanding (R30, R33). -/
def TimerFollows (s : State) : Prop := s.ent.grantTimer.isSome = s.ent.grant.isSome

theorem clearGrant_timerFollows (s : State) : TimerFollows (clearGrant s) := rfl

theorem arbitrate_timerFollows {s : State} (h : TimerFollows s) : TimerFollows (arbitrate s) := by
  obtain hstays | ⟨l, t, -, -, hgrants⟩ := arbitrate_cases s
  · rwa [hstays]
  · rw [hgrants]
    rfl

theorem withdrawGrant_timerFollows (r : WithdrawReason) {s : State} (h : TimerFollows s) :
    TimerFollows (withdrawGrant r s) := by
  unfold withdrawGrant
  split
  · exact h
  · exact arbitrate_timerFollows (clearGrant_timerFollows s)

theorem arbitrate_grantKept (s : State) : GrantKept s (arbitrate s) := by
  refine ⟨(arbitrate_kept s).held, fun ⟨hrunning, htimer⟩ => ⟨fun hgrant => ?_, arbitrate_timerFollows htimer⟩⟩
  obtain hstays | ⟨l, t, hopen, -, hgrants⟩ := arbitrate_cases s
  · rw [hstays] at hgrant ⊢
    exact hrunning hgrant
  · rw [hgrants]
    by_contra hnot
    have hstill : s.sup.tunnel ≠ .running := hnot
    simp [admissionOpen_of_not_running hstill] at hopen

theorem clearGrant_grantKept (s : State) : GrantKept s (clearGrant s) := ⟨rfl, fun _ => ⟨nofun, rfl⟩⟩

theorem withdrawGrant_grantKept (r : WithdrawReason) (s : State) : GrantKept s (withdrawGrant r s) := by
  unfold withdrawGrant
  split
  · exact .refl s
  · exact ((clearGrant_grantKept s).trans (.ofPorts (notify_portsOnly _ _ _))).trans (arbitrate_grantKept _)

theorem changeTunnel_timerFollows (new : Tunnel) (cause : Cause) {s : State} (h : TimerFollows s) :
    TimerFollows (changeTunnel new cause s) := by
  have hannounced : TimerFollows (sequencerAt s.sup.tunnel new (announced new cause s)) := by
    rw [(sequencerAt_seqOnly s.sup.tunnel new (announced new cause s)).1]
    exact h
  rw [changeTunnel_eq, entranceAt]
  split
  · exact arbitrate_timerFollows hannounced
  · exact withdrawGrant_timerFollows _ hannounced

/-- A change of tunnel state leaves a grant in RUNNING alone (R35). -/
theorem changeTunnel_grantKept (new : Tunnel) (cause : Cause) (s : State) :
    GrantKept s (changeTunnel new cause s) := by
  refine ⟨(Kept.ofChange _ _ (changeTunnel_frame new cause s)).held, fun ⟨_, htimer⟩ => ⟨fun hgrant => ?_, ?_⟩⟩
  · rw [changeTunnel_tunnel]
    by_contra hnew
    rw [changeTunnel_grant new cause s hnew] at hgrant
    exact absurd hgrant nofun
  · exact changeTunnel_timerFollows new cause htimer

theorem pauseTunnel_grantKept (cause : Cause) (s : State) : GrantKept s (pauseTunnel cause s) := by
  unfold pauseTunnel
  split
  · exact changeTunnel_grantKept _ _ s
  · exact changeTunnel_grantKept _ _ s
  · exact changeTunnel_grantKept _ _ s
  all_goals exact .refl s

theorem haltTunnel_grantKept (cause : Cause) (s : State) : GrantKept s (haltTunnel cause s) := by
  cases h : s.sup.tunnel.isHalted with
  | true => rw [haltTunnel_of_halted cause h]; exact .refl s
  | false =>
    rw [haltTunnel_of_not_halted cause h]
    exact (GrantKept.of_eq (t := countHalt s)).trans (changeTunnel_grantKept _ _ _)

theorem classEffect_grantKept (c : IncidentClass) (number : Nat) (s : State) :
    GrantKept s (classEffect c number s) := by
  cases c with
  | notice => exact .refl s
  | pause => exact pauseTunnel_grantKept _ s
  | halt => exact haltTunnel_grantKept _ s

theorem listNew_grantKept (q : Raise) (c : IncidentClass) (s : State) : GrantKept s (listNew q c s) :=
  (GrantKept.of_eq).trans (classEffect_grantKept _ _ _)

theorem mergeNewest_grantKept (k c : IncidentClass) (q : Raise) (s : State) : GrantKept s (mergeNewest k c q s) := by
  unfold mergeNewest
  split
  · exact .refl s
  · exact (GrantKept.of_eq).trans (classEffect_grantKept _ _ _)

theorem displace_grantKept (k c : IncidentClass) (q : Raise) (s : State) : GrantKept s (displace k c q s) := by
  unfold displace
  split
  · exact .refl s
  · exact (GrantKept.of_eq).trans (listNew_grantKept _ _ _)

theorem raiseIncident_grantKept (q : Raise) (s : State) : GrantKept s (raiseIncident q s) := by
  have hoverflow : ∀ c, GrantKept s (raiseOverflow q c s) := fun c => by
    cases c with
    | notice => exact .of_eq
    | pause =>
      exact .ite (displace_grantKept _ _ _ s) (.ite (mergeNewest_grantKept _ _ _ s) (mergeNewest_grantKept _ _ _ s))
    | halt =>
      exact .ite (displace_grantKept _ _ _ s) (.ite (mergeNewest_grantKept _ _ _ s) (displace_grantKept _ _ _ s))
  unfold raiseIncident
  simp only
  split
  · exact (GrantKept.of_eq).trans (classEffect_grantKept _ _ _)
  · exact .ite (listNew_grantKept _ _ s) (hoverflow _)

theorem removeIncidents_grantKept (p : Incident → Bool) (s : State) : GrantKept s (removeIncidents p s) := by
  have hafter : ∀ gone u, GrantKept u (afterRemoval gone u) := fun gone u => by
    unfold afterRemoval
    split
    · exact .ite (.refl u) (changeTunnel_grantKept _ _ u)
    · exact .refl u
  have hset : ∀ l, GrantKept s (setIncidents l s) := fun _ => .of_eq
  exact ((hset _).trans (.ofPorts (tellRemoved_portsOnly _ _))).trans (hafter _ _)

theorem move_grantKept {s t : State} (h : Move s t) : GrantKept s t := by
  cases h with
  | quiet h => exact .ofQuiet h
  | notify p n => exact .ofPorts (notify_portsOnly p n s)
  | arbitrate => exact arbitrate_grantKept s
  | withdraw r => exact withdrawGrant_grantKept r s
  | consume => exact clearGrant_grantKept s
  | raise q => exact raiseIncident_grantKept q s
  | remove p => exact removeIncidents_grantKept p s
  | drain => exact .ite (changeTunnel_grantKept _ _ s) (.refl s)

theorem Evolves.grantKept {s t : State} (h : Evolves s t) : GrantKept s t :=
  h.keeps (P := GrantKept s) (fun _ _ hmove hs => hs.trans (move_grantKept hmove)) (.refl s)

/-! ### The requests that change the tunnel state, and the start timer -/

theorem setManual_grantKept (x : Bool) (s : State) : GrantKept s (setManual x s) := .of_eq

/-- Another target mode outside RUNNING, where no grant stands (R142, R144). -/
theorem setTunnel_grantKept (t : Tunnel) {s : State} (h : s.sup.tunnel ≠ .running) : GrantKept s (setTunnel t s) :=
  ⟨rfl, fun ⟨hrunning, htimer⟩ => ⟨fun hgrant => absurd (hrunning hgrant) h, htimer⟩⟩

theorem ownOpen_grantKept (s : State) : GrantKept s (ownOpen s).1 := by
  unfold ownOpen okTunnel
  split
  · exact .pair_ite (.refl s) (.pair_ite (changeTunnel_grantKept _ _ s) (.refl s))
  · next m h => exact setTunnel_grantKept _ (by simp [h])
  · next m h => exact setTunnel_grantKept _ (by simp [h])
  · exact changeTunnel_grantKept .running (.request .openTunnel) s
  all_goals exact .refl s

theorem ownDrain_grantKept (s : State) : GrantKept s (ownDrain s).1 := by
  unfold ownDrain okTunnel
  split
  · exact changeTunnel_grantKept _ _ s
  · next m h => exact setTunnel_grantKept _ (by simp [h])
  · next m h => exact setTunnel_grantKept _ (by simp [h])
  all_goals exact .refl s

theorem ownStop_grantKept (s : State) : GrantKept s (ownStop s).1 := by
  have hchange : GrantKept s (changeTunnel .stopped (.request .stop) (setManual false s)) :=
    (setManual_grantKept _ s).trans (changeTunnel_grantKept _ _ _)
  have hstop : GrantKept s (stopIfEmpty s).1 := by
    unfold stopIfEmpty
    split
    · dsimp only
      exact hchange
    · exact .refl s
  unfold ownStop
  split
  · exact .refl s
  · exact .pair_ite (.refl s) hstop
  all_goals exact hstop

theorem ownPause_grantKept (s : State) : GrantKept s (ownPause s).1 := by
  have hpause : GrantKept s (pauseTunnel (.request .pause) (setManual true s)) :=
    (setManual_grantKept _ s).trans (pauseTunnel_grantKept _ _)
  unfold ownPause okPause
  split
  · exact hpause
  · exact hpause
  · exact hpause
  · exact setManual_grantKept _ s
  all_goals exact .refl s

theorem ownResume_grantKept (s : State) : GrantKept s (ownResume s).1 := by
  unfold ownResume okPause
  split
  · exact .pair_ite (setManual_grantKept _ s)
      ((setManual_grantKept false s).trans (changeTunnel_grantKept (.starting _) (.request .resume) _))
  all_goals exact .refl s

theorem ownRestart_grantKept (s : State) : GrantKept s (ownRestart s).1 := by
  unfold ownRestart okTunnel
  split
  · exact .pair_ite (.refl s) (changeTunnel_grantKept _ _ s)
  all_goals exact .refl s

theorem startExpired_grantKept (s : State) : GrantKept s (startExpired s) := by
  unfold startExpired
  split
  · exact changeTunnel_grantKept _ _ s
  · exact .refl s

theorem holderOnly_grantKept {owner : State → State × Answer} (ho : ∀ s, GrantKept s (owner s).1) (p : Port)
    (s : State) : GrantKept s (holderOnly p owner s).1 :=
  .pair_ite (ho s) (.refl s)

theorem holderOrConsole_grantKept {owner : State → State × Answer} (ho : ∀ s, GrantKept s (owner s).1) (p : Port)
    (s : State) : GrantKept s (holderOrConsole p owner s).1 :=
  .pair_ite (ho s) (.refl s)

/-! ### The lines -/

/-- The states differ in records that no output line depends on. -/
def Unlined (s t : State) : Prop :=
  t = { s with
    ports := t.ports
    sales := t.sales
    sup.response := t.sup.response
    sup.holder := t.sup.holder
    store := t.store
    free := t.free
    pending := t.pending }

theorem Unlined.refl (s : State) : Unlined s s := rfl

theorem Unlined.trans {a b c : State} (h : Unlined a b) (k : Unlined b c) : Unlined a c := by
  unfold Unlined at *
  rw [k, h]

theorem Unlined.pair_ite {s : State} {α : Type} {a b : State × α} {p : Prop} [Decidable p] (ha : Unlined s a.1)
    (hb : Unlined s b.1) : Unlined s (if p then a else b).1 := by
  split <;> assumption

theorem Unlined.ofPorts {s t : State} (h : PortsOnly s t) : Unlined s t := by
  rw [h]
  rfl

theorem Unlined.grantKept {s t : State} (h : Unlined s t) : GrantKept s t := by
  rw [h]
  exact .of_eq

theorem linesFollow_running {s : State} (h : s.held = false) : LinesFollow s ↔ driveLines s = s := by
  simp [LinesFollow, h]

theorem linesFollow_held {s : State} (h : s.held = true) : LinesFollow s ↔ s.out = Outputs.off := by
  simp [LinesFollow, h]

/-- Lines that follow the state follow it after a change of records they do not depend on. -/
theorem Unlined.linesFollow {s t : State} (h : Unlined s t) (hs : LinesFollow s) : LinesFollow t := by
  have ht : t.held = s.held := by rw [h]
  cases hheld : s.held with
  | true =>
    rw [linesFollow_held hheld] at hs
    rw [linesFollow_held (ht.trans hheld), h]
    exact hs
  | false =>
    rw [linesFollow_running hheld] at hs
    rw [linesFollow_running (ht.trans hheld), h]
    exact congrArg (fun u : State => { u with
      ports := t.ports, sales := t.sales, sup.response := t.sup.response, sup.holder := t.sup.holder,
      store := t.store, free := t.free, pending := t.pending }) hs

/-- The end of an event of a running part brings the lines to the state. -/
theorem driveLines_linesFollow {s : State} (h : s.held = false) : LinesFollow (driveLines s) :=
  (linesFollow_running (s := driveLines s) h).mpr (driveLines_idem s)

theorem driveLines_grantKept (s : State) : GrantKept s (driveLines s) := .of_eq

/-! ### Every command -/

/-- The two invariants are kept. -/
structure Upholds (s t : State) : Prop where
  grant : GrantHeld s → GrantHeld t
  lines : LinesFollow s → LinesFollow t

theorem Upholds.refl (s : State) : Upholds s s := ⟨id, id⟩

theorem Upholds.trans {a b c : State} (h : Upholds a b) (k : Upholds b c) : Upholds a c :=
  ⟨fun hs => k.grant (h.grant hs), fun hs => k.lines (h.lines hs)⟩

theorem Upholds.ite {s a b : State} {p : Prop} [Decidable p] (ha : Upholds s a) (hb : Upholds s b) :
    Upholds s (if p then a else b) := by
  split <;> assumption

theorem Unlined.upholds {s t : State} (h : Unlined s t) : Upholds s t := ⟨h.grantKept.grant, h.linesFollow⟩

theorem Upholds.ofPorts {s t : State} (h : PortsOnly s t) : Upholds s t := (Unlined.ofPorts h).upholds

/-- What ends with the lines brought to the state of a running part. -/
theorem GrantKept.driven {s t : State} (h : GrantKept s t) (hrun : s.held = false) : Upholds s (driveLines t) :=
  ⟨(h.trans (driveLines_grantKept t)).grant, fun _ => driveLines_linesFollow (h.held.trans hrun)⟩

theorem event_upholds {f : State → State} (hf : ∀ s, GrantKept s (f s)) (s : State) : Upholds s (event f s) := by
  cases hheld : s.held with
  | true => rw [event_held f s hheld]; exact .refl s
  | false => rw [event_running f s hheld]; exact (hf s).driven hheld

/-- A change of an input line alone: a part held in reset takes no event from it. -/
def LineOnly (s t : State) : Prop := t = { s with inputs := t.inputs }

theorem lineEdge_upholds {setLine f : State → State} (hf : ∀ s, GrantKept s (f s)) (now level : Bool) (s : State)
    (hset : ∀ s, LineOnly s (setLine s) := by intro _; rfl) : Upholds s (lineEdge now level setLine f s) := by
  have hline : GrantKept s (setLine s) := by rw [hset s]; exact .of_eq
  refine .ite (.refl s) ?_
  cases hheld : s.held with
  | true =>
    rw [event_held f _ (hline.held.trans hheld)]
    refine ⟨hline.grant, fun hs => ?_⟩
    rw [linesFollow_held hheld] at hs
    rw [linesFollow_held (hline.held.trans hheld), hset s]
    exact hs
  | false =>
    rw [event_running f _ (hline.held.trans hheld)]
    exact (hline.trans (hf _)).driven hheld

theorem portEvent_upholds {f : State → State} (hf : ∀ s, Upholds s (f s)) (s : State) : Upholds s (portEvent f s) :=
  .ite (.refl s) (hf s)

/-- A request whose owner ends with the lines brought to the state. -/
theorem respond_driven_upholds {owner : State → State × Answer} (ho : ∀ s, GrantKept s (owner s).1) (p : Port)
    (k : ReqKind) (form : Bool) (s : State) : Upholds s (respond p k form (driven owner) s) := by
  obtain h | ⟨hrun, -, -, -, h⟩ := respond_cases p k form (driven owner) s
  · exact .ofPorts h
  · rw [h]
    exact (((GrantKept.ofPorts (frameDone_portsOnly p s)).trans (ho _)).driven hrun).trans
      (.ofPorts (sendAnswer_portsOnly _ _ _ _))

/-- A request whose owner writes no record that a line depends on. -/
theorem respond_upholds {owner : State → State × Answer} (ho : ∀ s, Unlined s (owner s).1) (p : Port) (k : ReqKind)
    (form : Bool) (s : State) : Upholds s (respond p k form owner s) := by
  obtain h | ⟨-, -, -, -, h⟩ := respond_cases p k form owner s
  · exact .ofPorts h
  · rw [h]
    exact (((Unlined.ofPorts (frameDone_portsOnly p s)).trans (ho _)).trans
      (.ofPorts (sendAnswer_portsOnly _ _ _ _))).upholds

theorem ownLaneStatus_unlined (p : Port) (lane : Option Nat) (s : State) : Unlined s (ownLaneStatus p lane s).1 := by
  unfold ownLaneStatus
  split
  · exact .refl s
  · rfl

theorem ownTallyRead_unlined (p : Port) (part : Nat) (take clear : Bool) (s : State) :
    Unlined s (ownTallyRead p part take clear s).1 := by
  have htake : Unlined s (takeCopy p s) := by
    unfold takeCopy setCopyUnit
    split <;> rfl
  unfold ownTallyRead
  refine .pair_ite (.refl s) (.pair_ite (.refl s) (.pair_ite ?_ ?_))
  · dsimp only
    split
    · exact htake.trans rfl
    · exact htake
  · split <;> exact .refl s

theorem ownClaim_unlined (p : Port) (s : State) : Unlined s (ownClaim p s).1 := by
  have htell : Unlined s (if s.sup.holder = some .p4 then notify .p4 (.controlLost .p0) s else s) := by
    split <;> rfl
  unfold ownClaim
  refine .pair_ite (htell.trans rfl) (.pair_ite (.refl s) rfl)

theorem ownYield_unlined (p : Port) (s : State) : Unlined s (holderOnly p ownYield s).1 := .pair_ite rfl (.refl s)

theorem ownDefinePlan_unlined (plan : Nat) (name : List Nat) (price cls : Nat) (list : List RawPair) (s : State) :
    Unlined s (ownDefinePlan plan name price cls list s).1 := by
  unfold ownDefinePlan
  refine .pair_ite (.refl s) ?_
  split
  · exact .refl s
  · exact .pair_ite (.refl s) (.pair_ite (.refl s) (.pair_ite (.refl s) (.pair_ite (.refl s) rfl)))

theorem ownErasePlan_unlined (plan : Nat) (s : State) : Unlined s (ownErasePlan plan s).1 := by
  unfold ownErasePlan
  refine .pair_ite (.refl s) ?_
  split
  · exact .refl s
  · split <;> rfl

theorem ownPublish_unlined (plan : Nat) (s : State) : Unlined s (ownPublish plan s).1 := by
  unfold ownPublish
  refine .pair_ite (.refl s) ?_
  split
  · exact .refl s
  · split <;> rfl

theorem ownWithdraw_unlined (plan : Nat) (s : State) : Unlined s (ownWithdraw plan s).1 := by
  unfold ownWithdraw
  refine .pair_ite (.refl s) ?_
  split
  · exact .refl s
  · split <;> rfl

theorem ownSetService_unlined (code presence price limit : Nat) (s : State) :
    Unlined s (ownSetService code presence price limit s).1 := by
  unfold ownSetService
  refine .pair_ite (.refl s) ?_
  split <;> rfl

theorem ownSetResponse_unlined (kind cls : Nat) (s : State) : Unlined s (ownSetResponse kind cls s).1 := by
  unfold ownSetResponse
  refine .pair_ite (.refl s) ?_
  split
  · exact .pair_ite rfl (.refl s)
  · exact .refl s

theorem ownIssueCredit_unlined (value plan : Nat) (s : State) : Unlined s (ownIssueCredit value plan s).1 := by
  unfold ownIssueCredit
  exact .pair_ite (.refl s) rfl

theorem ownSave_unlined (s : State) : Unlined s (ownSave s).1 := .pair_ite (.refl s) rfl

theorem runRequest_upholds (c : Instr) (s : State) : Upholds s (runRequest c s) := by
  cases c with
  | tunnelStatus p => exact respond_upholds (owner := ownTunnelStatus p) (fun _ => rfl) _ _ _ s
  | carList | incidentList | creditList | stationStatus | planListSummary | planListPlan | planListService | quote =>
    exact respond_upholds (fun u => .refl u) _ _ _ s
  | laneStatus p lane => exact respond_upholds (ownLaneStatus_unlined p lane) _ _ _ s
  | tallyRead p part take clear => exact respond_upholds (ownTallyRead_unlined p part take clear) _ _ _ s
  | sell p lane buy ref => exact respond_driven_upholds (fun u => (ownSell_evolves p lane buy ref u).grantKept) _ _ _ s
  | void p sale => exact respond_driven_upholds (fun u => (ownVoid_evolves p sale u).grantKept) _ _ _ s
  | addService p sale code level =>
    exact respond_driven_upholds (fun u => (ownAddService_evolves p sale code level u).grantKept) _ _ _ s
  | attachLane p tag lane => exact respond_driven_upholds (fun u => (ownAttachLane_evolves tag lane u).grantKept) _ _ _ s
  | attachNewSale p tag buy ref =>
    exact respond_driven_upholds (fun u => (ownAttachNewSale_evolves tag buy ref u).grantKept) _ _ _ s
  | ackIncident p n => exact respond_driven_upholds (fun u => (ownAckIncident_evolves n u).grantKept) _ _ _ s
  | ackIncidentAll p => exact respond_driven_upholds (fun u => removeIncidents_grantKept _ u) _ _ _ s
  | restart p => exact respond_driven_upholds ownRestart_grantKept _ _ _ s
  | laneReset p l => exact respond_driven_upholds (fun u => (ownLaneReset_evolves l u).grantKept) _ _ _ s
  | laneEnable p l => exact respond_driven_upholds (fun u => (ownLaneEnable_evolves l u).grantKept) _ _ _ s
  | laneDisable p l => exact respond_driven_upholds (fun u => (ownLaneDisable_evolves l u).grantKept) _ _ _ s
  | tunnelClear p => exact respond_driven_upholds (fun u => (ownTunnelClear_evolves u).grantKept) _ _ _ s
  | stationOff p i => exact respond_driven_upholds (fun u => (ownStationOff_evolves i u).grantKept) _ _ _ s
  | stationOn p i => exact respond_driven_upholds (fun u => (ownStationOn_evolves i u).grantKept) _ _ _ s
  | stationReset p i => exact respond_driven_upholds (fun u => (ownStationReset_evolves i u).grantKept) _ _ _ s
  | claim p => exact respond_upholds (ownClaim_unlined p) _ _ _ s
  | yield p => exact respond_upholds (ownYield_unlined p) _ _ _ s
  | openTunnel p => exact respond_driven_upholds (holderOnly_grantKept ownOpen_grantKept p) _ _ _ s
  | drain p => exact respond_driven_upholds (holderOnly_grantKept ownDrain_grantKept p) _ _ _ s
  | stop p => exact respond_driven_upholds (holderOnly_grantKept ownStop_grantKept p) _ _ _ s
  | pause p => exact respond_driven_upholds (holderOrConsole_grantKept ownPause_grantKept p) _ _ _ s
  | resume p => exact respond_driven_upholds (holderOrConsole_grantKept ownResume_grantKept p) _ _ _ s
  | forceSpeed p cls => exact respond_driven_upholds (holderOnly_grantKept (fun _ => .of_eq) p) _ _ _ s
  | releaseSpeed p => exact respond_driven_upholds (holderOnly_grantKept (fun _ => .of_eq) p) _ _ _ s
  | definePlan p plan name price cls list =>
    exact respond_upholds (ownDefinePlan_unlined plan name price cls list) _ _ _ s
  | erasePlan p n => exact respond_upholds (ownErasePlan_unlined n) _ _ _ s
  | publish p n => exact respond_upholds (ownPublish_unlined n) _ _ _ s
  | withdraw p n => exact respond_upholds (ownWithdraw_unlined n) _ _ _ s
  | setService p code presence price limit =>
    exact respond_upholds (ownSetService_unlined code presence price limit) _ _ _ s
  | setStation p i r => exact respond_driven_upholds (fun u => (ownSetStation_evolves i r u).grantKept) _ _ _ s
  | setConstants p k => exact respond_driven_upholds (fun u => (ownSetConstants_evolves k u).grantKept) _ _ _ s
  | setResponse p kind cls => exact respond_upholds (ownSetResponse_unlined kind cls) _ _ _ s
  | issueCredit p value plan => exact respond_upholds (ownIssueCredit_unlined value plan) _ _ _ s
  | save p => exact respond_upholds ownSave_unlined _ _ _ s
  | _ => exact .refl s

theorem handleUnknownKind_portsOnly (p : Port) (kind : Nat) (s : State) : PortsOnly s (handleUnknownKind p kind s) := by
  unfold handleUnknownKind
  split
  · rfl
  · split
    · split <;> rfl
    · rfl

theorem handleFrame_upholds (p : Port) (kind : Nat) (payload : List Byte) (s : State) :
    Upholds s (handleFrame p kind payload s) := by
  unfold handleFrame
  refine .ite (.ofPorts (frameDone_portsOnly p s)) ?_
  split
  · exact .ofPorts (handleUnknownKind_portsOnly p kind s)
  · split
    · exact respond_upholds (fun u => .refl u) _ _ _ s
    · exact runRequest_upholds _ s

theorem receive_upholds (p : Port) (byte : Byte) (s : State) : Upholds s (receive p byte s) := by
  have hrx : ∀ x, Upholds s (setRx p x s) := fun x => .ofPorts (updatePort_portsOnly p _ s)
  have hdone : Upholds s (frameDone p s) := .ofPorts (frameDone_portsOnly p s)
  unfold receive completeFrame
  simp only
  split
  · exact .ite (hrx _) (.refl s)
  · exact .ite (hrx _) hdone
  · exact hrx _
  · refine .ite ?_ hdone
    split
    · exact hdone
    · exact handleFrame_upholds _ _ _ s

/-- In a reset every line is off and the grant stays as it is (R193). -/
theorem holdReset_upholds (s : State) : Upholds s (holdReset s) := by
  have hcut : GrantKept s (cutWrite s) := .ite .of_eq (.refl s)
  exact ⟨hcut.grant, fun _ => rfl⟩

/-- The start-up event leaves no grant and ends with the lines brought to the state (R193, R194). -/
theorem startUp_upholds (cause : ResetCause) (s : State) : Upholds s (startUp cause s) := by
  have hloaded : GrantHeld (loadRecords cause s) := ⟨nofun, rfl⟩
  have hraised : GrantKept (loadRecords cause s)
      (if (loadRecords cause s).inputs.estopClosed then loadRecords cause s else raiseEstop (loadRecords cause s)) :=
    .ite (.refl _) (raiseIncident_grantKept _ _)
  unfold startUp
  refine .ite ?_ (.refl s)
  exact ⟨fun _ => (hraised.driven rfl).grant hloaded, fun _ => driveLines_linesFollow hraised.held⟩

theorem finishWrite_unlined (verified : Bool) (s : State) : Unlined s (finishWrite verified s) := by
  unfold finishWrite
  split
  · rfl
  · split <;> rfl

theorem discardFrame_portsOnly (p : Port) (cause : DiscardCause) (s : State) : PortsOnly s (discardFrame p cause s) := by
  unfold discardFrame
  split <;> rfl

theorem gapExpired_portsOnly (p : Port) (s : State) : PortsOnly s (gapExpired p s) := by
  unfold gapExpired
  split <;> rfl

theorem setSwitch_lineOnly (k : Fin 6) (line : Switch) (x : Bool) (s : State) : LineOnly s (setSwitch k line x s) := by
  cases line <;> rfl

/-- Every command keeps the two invariants. -/
theorem after_upholds (c : Instr) (s : State) : Upholds s (after c s) := by
  cases hp : requestPort c with
  | some p =>
    rw [after_request c p hp]
    exact runRequest_upholds c s
  | none =>
    cases c with
    | unknownKind p kind => exact .ofPorts (handleUnknownKind_portsOnly p kind s)
    | frameDiscarded p cause => exact portEvent_upholds (fun u => .ofPorts (discardFrame_portsOnly p cause u)) s
    | gapTimerExpiry p => exact portEvent_upholds (fun u => .ofPorts (gapExpired_portsOnly p u)) s
    | txStart p => exact portEvent_upholds (fun u => .ofPorts (updatePort_portsOnly p startFrame u)) s
    | txFrameSent p => exact portEvent_upholds (fun u => .ofPorts (updatePort_portsOnly p endFrame u)) s
    | byteReceived p byte => exact portEvent_upholds (receive_upholds p byte) s
    | encoderPulse => exact event_upholds (fun u => (pulse_evolves u).grantKept) s
    | checkEyeBlockingEdge k => exact lineEdge_upholds (fun u => (eyeBlocked_evolves _ u).grantKept) _ _ s
    | checkEyeClearEdge k => exact lineEdge_upholds (fun u => (eyeCleared_evolves _ u).grantKept) _ _ s
    | exitEyeBlockingEdge => exact lineEdge_upholds (fun u => (exitBlocked_evolves u).grantKept) _ _ s
    | exitEyeClearEdge => exact lineEdge_upholds (fun u => (exitCleared_evolves u).grantKept) _ _ s
    | entranceEyeBlockingEdge => exact lineEdge_upholds (fun u => (entranceBlocked_evolves u).grantKept) _ _ s
    | entranceEyeClearEdge => exact lineEdge_upholds (fun u => (entranceCleared_evolves u).grantKept) _ _ s
    | loopOccupied l => exact lineEdge_upholds arbitrate_grantKept _ _ s
    | loopVacant l => exact lineEdge_upholds .refl _ _ s
    | proofAssert i => exact lineEdge_upholds (fun u => (proofOn_evolves i u).grantKept) _ _ s
    | proofDeassert i => exact lineEdge_upholds (fun u => (proofOff_evolves i u).grantKept) _ _ s
    | bumperOvertravelEdge slot line active =>
      exact lineEdge_upholds (fun u => (raiseEach_evolves _ u).grantKept) _ _ s (setSwitch_lineOnly slot line active)
    | estopLoopOpen => exact lineEdge_upholds (raiseIncident_grantKept _) _ _ s
    | estopLoopClose => exact lineEdge_upholds .refl _ _ s
    | reset => exact holdReset_upholds s
    | startUp cause => exact startUp_upholds cause s
    | grantTimerExpiry => exact event_upholds (fun u => (grantExpired_evolves u).grantKept) s
    | startTimerExpiry => exact event_upholds startExpired_grantKept s
    | exitBlockTimerExpiry => exact event_upholds (fun u => (exitBlockExpired_evolves u).grantKept) s
    | proofTimerExpiry i => exact event_upholds (fun u => (proofExpired_evolves i u).grantKept) s
    | retryTimerExpiry i => exact event_upholds (fun u => (retryExpired_evolves i u).grantKept) s
    | gateWindowEnd => exact event_upholds (fun u => (windowEnd_evolves u).grantKept) s
    | scanComplete samples => exact event_upholds (fun u => (scan_evolves samples u).grantKept) s
    | secondsTick => exact event_upholds (f := tickSeconds) (fun _ => .of_eq) s
    | saveComplete verified => exact event_upholds (fun u => (finishWrite_unlined verified u).grantKept) s
    | _ => exact absurd hp nofun

/-- A step takes its command out of the waiting queue, which no line depends on, and runs it. -/
theorem step_upholds {s t : State} (h : step s = .next t) : Upholds s t := by
  unfold step at h
  split at h
  · obtain rfl := Host.Outcome.next.inj h
    exact .refl s
  · next c rest _ =>
    rw [exec_eq_after] at h
    obtain rfl := Host.Outcome.next.inj h
    exact (Unlined.upholds (t := { s with pending := rest }) rfl).trans (after_upholds c _)

/-- Settles O7: every shared operation keeps the grant's invariant, so every command does. -/
theorem grantOnlyWhileRunning : Obligations.GrantOnlyWhileRunning := fun _ _ hs hstep => (step_upholds hstep).grant hs

/-! ### Which value each line has -/

theorem holdsGrant_iff (s : State) (l : Lane) : holdsGrant s l = true ↔ ∃ g, s.ent.grant = some g ∧ g.lane = l := by
  unfold holdsGrant
  cases s.ent.grant <;> simp

theorem outputsOf_arms_get (s : State) (l : Lane) : (outputsOf s).arms.get l = holdsGrant s l := by cases l <;> rfl

theorem Tunnel.runs_iff (t : Tunnel) : t.runs = true ↔ t = .running ∨ t = .draining := by
  cases t <;> simp [Tunnel.runs]

theorem Tunnel.warns_iff (t : Tunnel) : t.warns = true ↔ ∃ m, t = .starting m := by
  cases t <;> simp [Tunnel.warns]

theorem armOn_iff (st : StationState) : armOn st = true ↔ st ∈ [.arming, .ready, .firing, .held] := by
  cases st <;> simp [armOn]

theorem mem_activeLevels (s : State) (i : Fin 16) (n : Nat) : n ∈ activeLevels s i ↔
    ∃ car ∈ s.trk.queue, ∃ e ∈ car.schedule, e.station = i ∧ e.state = .active ∧ e.level = n := by
  simp [activeLevels, and_assoc]

theorem le_highest {l : List Nat} : ∀ {n : Nat}, n ∈ l → n ≤ highest l := by
  induction l with
  | nil => simp
  | cons x xs ih =>
    intro n hn
    change n ≤ max x (highest xs)
    obtain rfl | hn := List.mem_cons.mp hn
    · exact le_max_left _ _
    · exact (ih hn).trans (le_max_right _ _)

theorem highest_le {l : List Nat} {n : Nat} (h : ∀ m ∈ l, m ≤ n) : highest l ≤ n := by
  induction l with
  | nil => exact Nat.zero_le n
  | cons x xs ih => exact max_le (h x List.mem_cons_self) (ih fun m hm => h m (List.mem_cons_of_mem x hm))

/-- The highest of a list is its member that no other exceeds. -/
theorem highest_eq {l : List Nat} {n : Nat} (hn : n ∈ l) (h : ∀ m ∈ l, m ≤ n) : highest l = n :=
  (highest_le h).antisymm (le_highest hn)

theorem linesOf_arm (s : State) (i : Fin 16) : (linesOf s i).arm = armOn (tabGet s.seq.units i).state := by
  unfold linesOf
  simp only
  split <;> rfl

/-- The lines of a SPRAY or AIR station (R92). -/
theorem linesOf_levels {s : State} {i : Fin 16} {t : ByFour Nat}
    (h : (tabGet s.seq.table i).gear = .spray t ∨ (tabGet s.seq.table i).gear = .air t) :
    linesOf s i =
      { arm := armOn (tabGet s.seq.units i).state
        fire := decide ((tabGet s.seq.units i).state = .firing)
        intensity := sprayIntensity (tabGet s.seq.units i).state t (activeLevels s i) } := by
  obtain h | h := h <;> simp only [linesOf, h]

/-- The command and the thresholds of a BRUSH station (R120, R123). -/
theorem paceOf_brush {s : State} {i : Fin 16} {b : BrushRec} (h : (tabGet s.seq.table i).gear = .brush b) :
    paceOf s i = some (paceOfCommand b (brushCommand s.sup.tunnel (tabGet s.seq.units i).state b
      (rawCommand s.pace.vAvg b.k (lmaxOf (activeLevels s i))))) := by
  simp [paceOf, h, Gear.brush?]

/-- The lines of a BRUSH station (R92, R122). -/
theorem linesOf_brush {s : State} {i : Fin 16} {b : BrushRec} (h : (tabGet s.seq.table i).gear = .brush b) :
    linesOf s i =
      { arm := armOn (tabGet s.seq.units i).state
        fire := false
        intensity := brushCommand s.sup.tunnel (tabGet s.seq.units i).state b
          (rawCommand s.pace.vAvg b.k (lmaxOf (activeLevels s i))) } := by
  simp only [linesOf, h, paceOf_brush h]
  rfl

/-- A station that is not ARMING, READY or FIRING has the command 0 (R120). -/
theorem brushCommand_at_rest {st : StationState} (h : st ∈ [.idle, .retryWait, .held, .fault, .offLine])
    (tunnel : Tunnel) (b : BrushRec) (raw : Nat) : brushCommand tunnel st b raw = 0 := by
  unfold brushCommand
  cases st <;> simp at h ⊢

/-- An ARMING or READY station of a running tunnel has the command BRMIN (R120). -/
theorem brushCommand_waiting {tunnel : Tunnel} {st : StationState} (hrun : tunnel.runs = true)
    (h : st ∈ [.arming, .ready]) (b : BrushRec) (raw : Nat) : brushCommand tunnel st b raw = b.brMin := by
  unfold brushCommand
  cases st <;> simp [hrun] at h ⊢

/-- Settles O9: the invariant of every step, the tunnel's lines, and the lines of one station. -/
theorem outputLinesFollowState : Obligations.OutputLinesFollowState := by
  refine ⟨fun s t hs hstep => (step_upholds hstep).lines hs, fun s l => ⟨?_, ?_, ?_, ?_⟩, fun s i => ?_⟩
  · rw [← holdsGrant_iff, ← outputsOf_arms_get]
    rfl
  · exact Option.isSome_iff_exists
  · exact s.sup.tunnel.runs_iff
  · exact s.sup.tunnel.warns_iff
  · have hlines : tabGet (driveLines s).out.stations i = linesOf s i := tabGet_tabOf _ i
    have hpace : tabGet (driveLines s).pace.brushes i = paceOf s i := tabGet_tabOf _ i
    refine ⟨linesOf s i, hlines.symm, ?_, fun t ht => ?_, fun b hb => ?_, mem_activeLevels s i⟩
    · rw [linesOf_arm, armOn_iff]
    · rw [linesOf_levels ht]
      refine ⟨decide_eq_true_iff, fun hst => if_neg hst, fun hst n hn hmax => ?_⟩
      rw [← highest_eq hn hmax]
      exact if_pos hst
    · rw [hpace, paceOf_brush hb, linesOf_brush hb]
      exact ⟨rfl, fun hst => brushCommand_at_rest hst _ _ _, fun hrun hst => brushCommand_waiting hrun hst _ _,
        _, rfl, rfl⟩

end Sys2Proof.Machine
end

