-- ==== Sys2Proof/Proofs/Merging.lean ====
section
/-! Admission, eligibility and the search (R27 to R30), the end of a grant (R33, R34, R36), and the requests that take
tickets out of the lanes or set their flags (R25, R72, R164, R168). -/

namespace Sys2Proof.Machine

/-! ### Admission and eligibility -/

/-- The room behind the newest record (R27). -/
theorem spacingMet_iff (s : State) : spacingMet s = true ↔ ∀ car, s.trk.queue.getLast? = some car →
    car.length ≠ none ∧ s.sup.consts.admitSpacing ≤ car.front := by
  unfold spacingMet
  cases s.trk.queue.getLast? with
  | none => simp
  | some car => simp [Option.isSome_iff_ne_none]

theorem admissionOpen_iff (s : State) : admissionOpen s = true ↔
    s.sup.tunnel = .running ∧ s.trk.queue.length < 12 ∧ s.ent.grant = none ∧ s.ent.eye = .armed ∧
      ∀ car, s.trk.queue.getLast? = some car → car.length ≠ none ∧ s.sup.consts.admitSpacing ≤ car.front := by
  rw [← spacingMet_iff, show 12 = Config.queueMax from rfl]
  simp [admissionOpen, and_assoc]

theorem eligible_iff (s : State) (l : Lane) : eligible s l = true ↔
    s.ent.enabled.get l = true ∧ s.sales.lanes.get l ≠ [] ∧ s.inputs.loops.get l = true := by
  simp [eligible, and_assoc]

/-! ### The search -/

theorem mem_allLanes (l : Lane) : l ∈ allLanes := by cases l <;> decide

/-- The search stops at the first eligible lane (R30). -/
theorem nextGrant_of_first {s : State} {l : Lane} {t : Ticket} {before behind : List Lane}
    (horder : searchOrder s.ent.pointer = before ++ l :: behind) (hbefore : ∀ x ∈ before, eligible s x = false)
    (hl : eligible s l = true) (ht : (s.sales.lanes.get l).head? = some t) : nextGrant s = some (l, t) := by
  have hnone : before.find? (eligible s) = none := List.find?_eq_none.mpr fun x hx => by simp [hbefore x hx]
  simp [nextGrant, horder, List.find?_append, hnone, hl, ht]

/-- The search finds nothing where no lane is eligible. -/
theorem nextGrant_of_none {s : State} (h : ∀ l ∈ allLanes, eligible s l = false) : nextGrant s = none := by
  have hall : ∀ l, eligible s l = false := fun l => h l (mem_allLanes l)
  have hnone : (searchOrder s.ent.pointer).find? (eligible s) = none :=
    List.find?_eq_none.mpr fun x _ => by simp [hall x]
  simp [nextGrant, hnone]

theorem arbitrate_of_closed {s : State} (h : admissionOpen s = false) : arbitrate s = s := by simp [arbitrate, h]

theorem arbitrate_of_none {s : State} (h : nextGrant s = none) : arbitrate s = s := by
  unfold arbitrate
  rw [h]
  split <;> rfl

theorem arbitrate_of_next {s : State} {l : Lane} {t : Ticket} (hopen : admissionOpen s = true)
    (h : nextGrant s = some (l, t)) : arbitrate s = issueGrant l t s := by
  simp [arbitrate, hopen, h]

/-! ### The end of a grant -/

theorem withdrawGrant_of_grant {s : State} {g : Grant} (h : s.ent.grant = some g) (r : WithdrawReason) :
    withdrawGrant r s = arbitrate (notify (portOfLane g.lane) (.withdrawn g.lane g.sale r) (clearGrant s)) := by
  simp only [withdrawGrant, h]

/-- The lane that holds the grant loses it (R25, R36). -/
theorem withdrawLane_of_holder {s : State} {l : Lane} {g : Grant} (h : s.ent.grant = some g) (hl : g.lane = l)
    (r : WithdrawReason) :
    withdrawLane l r s = arbitrate (notify (portOfLane l) (.withdrawn l g.sale r) (clearGrant s)) := by
  subst hl
  rw [withdrawLane, if_pos ((holdsGrant_iff s _).mpr ⟨g, h, rfl⟩), withdrawGrant_of_grant h]

/-- No other lane loses it. -/
theorem withdrawLane_of_other {s : State} {l : Lane} (h : ∀ g, s.ent.grant = some g → g.lane ≠ l)
    (r : WithdrawReason) : withdrawLane l r s = s := by
  rw [withdrawLane, if_neg]
  rw [holdsGrant_iff]
  rintro ⟨g, hg, hl⟩
  exact h g hg hl

/-- Settles O24: the conditions, the search, the arbiter, the loop commands and the grant timer. -/
theorem arbiterGrantsInTurn : Obligations.ArbiterGrantsInTurn := by
  refine ⟨admissionOpen_iff, eligible_iff, ⟨rfl, rfl, rfl⟩, fun l s => ⟨fun h => ?_, fun h => ?_⟩,
    fun s l t before behind hopen horder hbefore hl ht => ?_, fun s h => ?_, fun l s hrun hvacant => ?_,
    fun l s hrun hoccupied => ?_, fun s g n hrun hgrant htimer => ?_⟩
  · exact congrArg Host.Outcome.next (lineEdge_same h _ _ s)
  · exact congrArg Host.Outcome.next (lineEdge_same h _ _ s)
  · exact arbitrate_of_next hopen (nextGrant_of_first horder hbefore hl ht)
  · obtain hclosed | hnone := h
    · exact arbitrate_of_closed hclosed
    · exact arbitrate_of_none (nextGrant_of_none hnone)
  · exact congrArg Host.Outcome.next (lineEdge_running (by simp [hvacant]) _ _ s hrun)
  · exact congrArg Host.Outcome.next (lineEdge_running (by simp [hoccupied]) _ _ s hrun)
  · have hexpired : grantExpired s = withdrawGrant .timeout s := by simp only [grantExpired, htimer]
    have hevent : exec .grantTimerExpiry s = .next (driveLines (grantExpired s)) :=
      congrArg Host.Outcome.next (event_running grantExpired s hrun)
    rw [hevent, hexpired, withdrawGrant_of_grant hgrant]
    rfl

/-! ### Requests that an owner accepts -/

/-- An owner's OK answer joins the queue once the lines follow the state it leaves (R180, R181). -/
theorem respond_driven_ok {p : Port} {k : ReqKind} {s t : State} (h : Reaches p k s)
    (owner : State → State × Answer) (fields : List Byte) (ho : owner (frameDone p s) = (t, answerOk fields)) :
    respond p k true (driven owner) s = answeredOk p k fields (driveLines t) := by
  rw [respond_of_reaches h]
  simp only [driven, ho]
  rfl

theorem laneOfByte_laneCode (l : Lane) : laneOfByte (laneCode l) = some l := by cases l <;> rfl

theorem laneOfByte_of_bad {n : Nat} (h : 2 < n) : laneOfByte n = none := by
  unfold laneOfByte
  split
  · omega
  · omega
  · omega
  · rfl

theorem ownLaneEnable_of_lane {n : Nat} {l : Lane} (h : laneOfByte n = some l) (s : State) :
    ownLaneEnable n s = (arbitrate (setEnabled l true s), answerOk (b1 1)) := by
  simp only [ownLaneEnable, h]

theorem ownLaneDisable_of_lane {n : Nat} {l : Lane} (h : laneOfByte n = some l) (s : State) :
    ownLaneDisable n s = (withdrawLane l .laneDisabled (setEnabled l false s), answerOk (b1 0)) := by
  simp only [ownLaneDisable, h]

theorem ownLaneReset_of_lane {n : Nat} {l : Lane} (h : laneOfByte n = some l) (s : State) :
    ownLaneReset n s =
      (withdrawLane l .laneReset (setLane l [] (updateTally (voidTickets (s.sales.lanes.get l)) s)),
        answerOk (b1 (s.sales.lanes.get l).length ++
          b4 (min Config.amountMax ((s.sales.lanes.get l).map Ticket.paid).sum))) := by
  simp only [ownLaneReset, h]

/-- A lane code outside its values is refused by each of the three requests (R164). -/
theorem laneRequests_refuse {n : Nat} (h : laneOfByte n = none) (s : State) :
    ownLaneEnable n s = refuse .badValue s ∧ ownLaneDisable n s = refuse .badValue s ∧
      ownLaneReset n s = refuse .badValue s := by
  simp only [ownLaneEnable, ownLaneDisable, ownLaneReset, h, and_self]

/-- Settles O42: LANE_ENABLE, LANE_DISABLE of the lane that holds the grant and of another one, and the bad lane code. -/
theorem laneFlagsEnableAndDisable : Obligations.LaneFlagsEnableAndDisable := by
  refine ⟨fun l s hreach => ?_, fun l g s hreach hgrant hl => ?_, fun l s hreach hother => ?_, fun n s hn hlines => ?_⟩
  · exact congrArg Host.Outcome.next
      (respond_driven_ok hreach _ _ (ownLaneEnable_of_lane (laneOfByte_laneCode l) _))
  · refine congrArg Host.Outcome.next (respond_driven_ok hreach _ _ ?_)
    rw [ownLaneDisable_of_lane (laneOfByte_laneCode l),
      withdrawLane_of_holder (s := setEnabled l false (frameDone .p0 s)) hgrant hl]
    rfl
  · refine congrArg Host.Outcome.next (respond_driven_ok hreach _ _ ?_)
    rw [ownLaneDisable_of_lane (laneOfByte_laneCode l),
      withdrawLane_of_other (s := setEnabled l false (frameDone .p0 s)) hother]
    rfl
  · obtain ⟨henable, hdisable, hreset⟩ := laneRequests_refuse (laneOfByte_of_bad hn) (frameDone .p0 s)
    exact ⟨fun h => congrArg Host.Outcome.next (respond_driven_refuse h hlines _ .badValue henable),
      fun h => congrArg Host.Outcome.next (respond_driven_refuse h hlines _ .badValue hdisable),
      fun h => congrArg Host.Outcome.next (respond_driven_refuse h hlines _ .badValue hreset)⟩

/-! ### VOID -/

/-- The lane queue of the ticket that VOID names: the port's own, or the only one with the sale number (R72). -/
theorem voidLane_of_named {p : Port} {l : Lane} {sale : Nat} {s : State} {t : Ticket}
    (hport : laneOfPort p = some l ∨
      (laneOfPort p = none ∧ ∀ l' ∈ allLanes, l' ≠ l → queuedTicket s l' sale = none))
    (ht : queuedTicket s l sale = some t) : voidLane p s sale = some l := by
  obtain hown | ⟨hconsole, honly⟩ := hport
  · simp [voidLane, hown, ht]
  · have hall : ∀ l', l' ≠ l → queuedTicket s l' sale = none := fun l' => honly l' (mem_allLanes l')
    cases l <;> simp [voidLane, hconsole, allLanes, ht, hall]

/-- No lane queue that the port may name holds the sale number (R72). -/
theorem voidLane_of_missing {p : Port} {sale : Nat} {s : State}
    (h : ∀ l ∈ allLanes, laneOfPort p = none ∨ laneOfPort p = some l → queuedTicket s l sale = none) :
    voidLane p s sale = none := by
  cases hport : laneOfPort p with
  | none =>
    simp only [voidLane, hport]
    exact List.find?_eq_none.mpr fun l hl => by simp [h l hl (.inl hport)]
  | some l =>
    have hnone := h l (mem_allLanes l) (.inr hport)
    simp [voidLane, hport, hnone]

theorem ownVoid_accepts {p : Port} {l : Lane} {sale : Nat} {s : State} {t : Ticket} (hl : voidLane p s sale = some l)
    (ht : queuedTicket s l sale = some t) :
    ownVoid p sale s = (takeTicket l t (updateTally (tallyVoid t.paid) s), answerOk (b2 t.sale ++ b4 t.paid)) := by
  simp only [ownVoid, hl, ht]

theorem ownVoid_refuses {p : Port} {sale : Nat} {s : State} (h : voidLane p s sale = none) :
    ownVoid p sale s = refuse .notFound s := by
  simp only [ownVoid, h]

/-- Settles O38: VOID accepted and refused, LANE_RESET with its counts, and whose grant is withdrawn. -/
theorem voidAndLaneResetTakeTickets : Obligations.VoidAndLaneResetTakeTickets := by
  refine ⟨fun p l t s hreach hport ht => ⟨_, rfl, ?_⟩, fun p sale s hreach hlines hmissing => ?_,
    fun l s hreach => ?_, fun _ => rfl, fun _ _ _ => rfl, fun l reason s => ⟨fun g hg hl => ?_, fun h => ?_⟩⟩
  · refine congrArg Host.Outcome.next (respond_driven_ok hreach _ _ ?_)
    exact ownVoid_accepts (voidLane_of_named (s := frameDone p s) hport ht) ht
  · have hrefused := ownVoid_refuses (voidLane_of_missing (s := frameDone p s) hmissing)
    exact congrArg Host.Outcome.next (respond_driven_refuse hreach hlines _ .notFound hrefused)
  · exact congrArg Host.Outcome.next
      (respond_driven_ok hreach _ _ (ownLaneReset_of_lane (laneOfByte_laneCode l) _))
  · exact withdrawLane_of_holder hg hl reason
  · exact withdrawLane_of_other h reason

end Sys2Proof.Machine
end

