-- ==== Sys2Proof/Proofs/StationsAtChange.lean ====
section
/-! What the Station Sequencer does at a change of tunnel state (R106 to R109, R141): each pass over the stations writes the
unit of each station once, as a function of that unit. -/

namespace Sys2Proof.Machine

/-! ### Passes over the stations -/

@[simp] theorem tabSet_tabSet_same {n : Nat} {α : Type} (t : Tab n α) (i : Fin n) (x y : α) :
    tabSet (tabSet t i x) i y = tabSet t i y := by
  simp [tabSet]

@[simp] theorem tabSet_tabGet {n : Nat} {α : Type} (t : Tab n α) (i : Fin n) : tabSet t i (tabGet t i) = t := by
  simp [tabSet, tabGet]

/-- A pass in which each step writes its own station's unit by `g`. `R` is what the steps rely on and keep. -/
theorem foldl_units (R : State → Prop) (g : Fin 16 → StationUnit → StationUnit) (f : State → Fin 16 → State)
    (hf : ∀ s i, R s → R (f s i) ∧ (f s i).seq.units = tabSet s.seq.units i (g i (tabGet s.seq.units i)))
    (l : List (Fin 16)) : l.Nodup → ∀ s, R s → R (l.foldl f s) ∧ ∀ j, tabGet (l.foldl f s).seq.units j =
      if j ∈ l then g j (tabGet s.seq.units j) else tabGet s.seq.units j := by
  induction l with
  | nil => exact fun _ s hs => ⟨hs, fun j => by simp⟩
  | cons i rest ih =>
    intro hnodup s hs
    obtain ⟨hi, hrest⟩ := List.nodup_cons.mp hnodup
    obtain ⟨hstep, hunits⟩ := hf s i hs
    obtain ⟨hkept, hall⟩ := ih hrest (f s i) hstep
    refine ⟨hkept, fun j => ?_⟩
    rw [List.foldl_cons, hall j, hunits]
    by_cases hj : j = i
    · subst hj
      simp [hi]
    · simp [hj, tabGet_tabSet_ne _ _ _ _ (Ne.symm hj)]

theorem mem_allStations (i : Fin 16) : i ∈ allStations := by fin_cases i <;> decide

/-- A pass over every station. -/
theorem allStations_units {R : State → Prop} {f : State → Fin 16 → State} (g : Fin 16 → StationUnit → StationUnit)
    (hf : ∀ s i, R s → R (f s i) ∧ (f s i).seq.units = tabSet s.seq.units i (g i (tabGet s.seq.units i))) {s : State}
    (hs : R s) : R (allStations.foldl f s) ∧
      ∀ j, tabGet (allStations.foldl f s).seq.units j = g j (tabGet s.seq.units j) := by
  obtain ⟨hkept, hall⟩ := foldl_units R g f hf allStations (by decide) s hs
  refine ⟨hkept, fun j => ?_⟩
  rw [hall j, if_pos (mem_allStations j)]

/-- A move of a station writes its unit and the slots. -/
theorem moveStation_eq (i : Fin 16) (new : StationState) (s : State) :
    moveStation i new s = { s with
      seq.units := tabSet s.seq.units i (unitOnMove new (tabGet s.seq.units i))
      mon := (moveStation i new s).mon } := by
  unfold moveStation tellMonitor
  split <;> rfl

/-- A unit that comes to rest in IDLE (R91). -/
def unitIdle (u : StationUnit) : StationUnit :=
  { u with state := .idle, proofTimer := none, retryTimer := none, recheck := false }

theorem moveStation_idle_units (i : Fin 16) (s : State) :
    (moveStation i .idle s).seq.units = tabSet s.seq.units i (unitIdle (tabGet s.seq.units i)) := by
  rw [moveStation_eq]
  rfl

theorem moveStation_queue (i : Fin 16) (new : StationState) (s : State) :
    (moveStation i new s).trk.queue = s.trk.queue := by
  rw [moveStation_eq]

/-! ### The entry into PAUSED, HALTED and STOPPED -/

/-- A unit after the entry into PAUSED (R106). -/
def unitPaused (u : StationUnit) : StationUnit :=
  match u.state with
  | .ready | .firing => { u with state := .held, proofTimer := none, recheck := false }
  | .arming | .retryWait => unitIdle u
  | .idle | .held | .fault | .offLine => u

/-- A unit after the entry into HALTED (R108). -/
def unitHalted (u : StationUnit) : StationUnit :=
  match u.state with
  | .fault | .offLine => u
  | .idle | .arming | .retryWait | .ready | .firing | .held => unitIdle u

/-- A unit after the entry into STOPPED (R108). -/
def unitStopped (u : StationUnit) : StationUnit := if u.state = .held then unitIdle u else u

/-- The queue stays, and one station's unit is written by `g`. -/
def WritesUnit (g : StationUnit → StationUnit) (i : Fin 16) (s t : State) : Prop :=
  t.trk.queue = s.trk.queue ∧ t.seq.units = tabSet s.seq.units i (g (tabGet s.seq.units i))

theorem moveStation_idle_writes {g : StationUnit → StationUnit} {i : Fin 16} {s : State}
    (h : g (tabGet s.seq.units i) = unitIdle (tabGet s.seq.units i)) : WritesUnit g i s (moveStation i .idle s) :=
  ⟨moveStation_queue i _ s, by rw [moveStation_idle_units, h]⟩

theorem stays_writes {g : StationUnit → StationUnit} {i : Fin 16} {s : State}
    (h : g (tabGet s.seq.units i) = tabGet s.seq.units i) : WritesUnit g i s s :=
  ⟨rfl, by rw [h, tabSet_tabGet]⟩

theorem holdStation_writes (s : State) (i : Fin 16) : WritesUnit unitPaused i s (holdStation s i) := by
  have hheld : unitPaused (tabGet s.seq.units i) =
      { tabGet s.seq.units i with state := .held, proofTimer := none, recheck := false } →
      WritesUnit unitPaused i s
        (moveStation i .held (updateUnit i (fun u => { u with proofTimer := none, recheck := false }) s)) := by
    intro h
    refine ⟨moveStation_queue i _ _, ?_⟩
    rw [h, moveStation_eq]
    simp [unitOnMove, restState]
  unfold holdStation
  split
  · next h => exact hheld (by simp only [unitPaused, h])
  · next h => exact hheld (by simp only [unitPaused, h])
  · next h => exact moveStation_idle_writes (by simp only [unitPaused, h])
  · next h => exact moveStation_idle_writes (by simp only [unitPaused, h])
  all_goals next h => exact stays_writes (by simp only [unitPaused, h])

theorem dropStation_writes (s : State) (i : Fin 16) : WritesUnit unitHalted i s (dropStation s i) := by
  unfold dropStation
  split
  · next h => exact stays_writes (by simp only [unitHalted, h])
  · next h => exact stays_writes (by simp only [unitHalted, h])
  all_goals next h => exact moveStation_idle_writes (by simp only [unitHalted, h])

theorem stopStation_writes (s : State) (i : Fin 16) : WritesUnit unitStopped i s
    (if (tabGet s.seq.units i).state = .held then moveStation i .idle s else s) := by
  split
  · next h => exact moveStation_idle_writes (if_pos h)
  · next h => exact stays_writes (if_neg h)

/-- A pass that writes every unit by `g` and leaves the queue. -/
theorem allStations_writes {g : StationUnit → StationUnit} {f : State → Fin 16 → State}
    (hf : ∀ s i, WritesUnit g i s (f s i)) (s : State) : (allStations.foldl f s).trk.queue = s.trk.queue ∧
      ∀ j, tabGet (allStations.foldl f s).seq.units j = g (tabGet s.seq.units j) :=
  allStations_units (R := fun t => t.trk.queue = s.trk.queue) (fun _ => g)
    (fun t i ht => ⟨(hf t i).1.trans ht, (hf t i).2⟩) rfl

theorem holdAll_units (s : State) (i : Fin 16) :
    tabGet (holdAll s).seq.units i = unitPaused (tabGet s.seq.units i) := by
  simp only [holdAll, mapQueue_fields]
  exact (allStations_writes holdStation_writes s).2 i

theorem dropAll_units (s : State) (i : Fin 16) :
    tabGet (dropAll s).seq.units i = unitHalted (tabGet s.seq.units i) := by
  simp only [dropAll, mapQueue_fields]
  exact (allStations_writes dropStation_writes s).2 i

theorem stopAll_units (s : State) (i : Fin 16) :
    tabGet (stopAll s).seq.units i = unitStopped (tabGet s.seq.units i) := by
  unfold stopAll
  exact (allStations_writes stopStation_writes s).2 i

theorem stopAll_queue (s : State) : (stopAll s).trk.queue = s.trk.queue := by
  unfold stopAll
  exact (allStations_writes stopStation_writes s).1

theorem holdAll_queue (s : State) : (holdAll s).trk.queue = s.trk.queue.map (mapEntries fun e =>
    if e.state = .active then { e with state := .held } else e) := by
  rw [holdAll, (mapQueue_fields _ _).1, (allStations_writes holdStation_writes s).1]

theorem dropAll_queue (s : State) : (dropAll s).trk.queue = s.trk.queue.map (mapEntries fun e =>
    if e.state = .active ∨ e.state = .held then { e with state := .interrupted } else e) := by
  rw [dropAll, (mapQueue_fields _ _).1, (allStations_writes dropStation_writes s).1]

/-! ### The entry into RUNNING or DRAINING -/

/-- A unit after a resumption, from its station's ACTIVE entries, record and proof input (R107). -/
def unitResumed (active : Nat) (r : StationRec) (proof : Bool) (u : StationUnit) : StationUnit :=
  if u.state = .held then
    { u with
      state := if 0 < active then .firing else .ready
      recheck := if r.mode = .proofHold ∧ proof = false then true else u.recheck
      proofTimer := if r.mode = .proofHold ∧ proof = false then some r.proofWait else u.proofTimer }
  else u

/-- A slot stays as it is when its station leaves HELD for a state in which it is watched (R128, R129). -/
theorem moveStation_from_held {i : Fin 16} {new : StationState} {s : State} (h : (tabGet s.seq.units i).state = .held)
    (hnew : new = .firing ∨ new = .ready) :
    moveStation i new s = updateUnit i (fun u => { u with state := new }) s := by
  have hslot : ∀ n x, slotOnMove .held new n x = x := fun n x => by
    obtain rfl | rfl := hnew <;> rfl
  have hunit : unitOnMove new = fun u => { u with state := new } := by
    obtain rfl | rfl := hnew <;> rfl
  unfold moveStation tellMonitor
  rw [h, hunit]
  split
  · rfl
  · simp [updateSlot, updateUnit, hslot]

theorem resumeStation_eq (s : State) (i : Fin 16) : resumeStation s i =
    updateUnit i (unitResumed (activeCount s i) (tabGet s.seq.table i) (tabGet s.inputs.proofs i)) s := by
  unfold resumeStation
  by_cases h : (tabGet s.seq.units i).state = .held
  · rw [if_pos h, moveStation_from_held h (by split <;> simp)]
    by_cases hproof : (tabGet s.seq.table i).mode = .proofHold ∧ tabGet s.inputs.proofs i = false
    · simp [updateUnit, unitResumed, h, hproof]
    · simp [updateUnit, unitResumed, h, hproof]
  · simp [updateUnit, unitResumed, h]

/-- The HELD entries ACTIVE again: the first part of a resumption (R107). -/
def resumedEntries (s : State) : State :=
  mapQueue (mapEntries fun e => if e.state = .held then { e with state := .active } else e) s

/-- The HELD stations resumed (R107). -/
def resumedStations (s : State) : State := allStations.foldl resumeStation (resumedEntries s)

/-- One station's resumption while the units alone have been written. -/
theorem resumeStation_step (s t : State) (i : Fin 16) (ht : t = { resumedEntries s with seq.units := t.seq.units }) :
    resumeStation t i = { resumedEntries s with seq.units := (resumeStation t i).seq.units } ∧
      (resumeStation t i).seq.units = tabSet t.seq.units i (unitResumed (activeCount (resumedEntries s) i)
        (tabGet s.seq.table i) (tabGet s.inputs.proofs i) (tabGet t.seq.units i)) := by
  have hcount : activeCount t i = activeCount (resumedEntries s) i := by rw [ht]; rfl
  have htable : t.seq.table = s.seq.table := by rw [ht]; rfl
  have hinputs : t.inputs = s.inputs := by rw [ht]; rfl
  rw [resumeStation_eq, hcount, htable, hinputs]
  refine ⟨?_, rfl⟩
  rw [ht]
  rfl

/-- The stations resume one by one: the units alone are written, each by `unitResumed`. -/
theorem resumedStations_spec (s : State) :
    resumedStations s = { resumedEntries s with seq.units := (resumedStations s).seq.units } ∧
      ∀ i, tabGet (resumedStations s).seq.units i = unitResumed (activeCount (resumedEntries s) i)
        (tabGet s.seq.table i) (tabGet s.inputs.proofs i) (tabGet s.seq.units i) := by
  obtain ⟨hframe, hunits⟩ := allStations_units
    (R := fun t => t = { resumedEntries s with seq.units := t.seq.units }) _
    (resumeStation_step s) (s := resumedEntries s) rfl
  unfold resumedStations
  refine ⟨hframe, fun i => ?_⟩
  rw [hunits i]
  rfl

/-- The INTERRUPTED entries revived, from the queue and the station table (R109). -/
theorem revived_eq (s : State) : mapQueue (reviveCar (resumedStations s)) (resumedStations s) =
    { resumedStations s with
      trk.queue := (resumedEntries s).trk.queue.map fun car => { car with
        schedule := car.schedule.map fun e =>
          if e.state = .interrupted then
            if overlaps (tabGet s.seq.table e.station) car then { e with state := .pending }
            else { e with state := .missed .halt }
          else e } } := by
  have hqueue : (resumedStations s).trk.queue = (resumedEntries s).trk.queue := by rw [(resumedStations_spec s).1]
  have htable : (resumedStations s).seq.table = s.seq.table := by rw [(resumedStations_spec s).1]; rfl
  unfold mapQueue reviveCar mapEntries
  rw [hqueue, htable]

/-! ### The announcement -/

/-- A change to any state but RUNNING ends in the withdrawal of the grant (R35). -/
theorem changeTunnel_withdraws (new : Tunnel) (h : new ≠ .running) (cause : Cause) (s : State) :
    changeTunnel new cause s =
      withdrawGrant .tunnelState (sequencerAt s.sup.tunnel new (announced new cause s)) := by
  rw [changeTunnel_eq, entranceAt, if_neg h]

/-- A change to RUNNING ends in a search (R35). -/
theorem changeTunnel_searches (cause : Cause) (s : State) : changeTunnel .running cause s =
    arbitrate (sequencerAt s.sup.tunnel .running (announced .running cause s)) := by
  rw [changeTunnel_eq, entranceAt, if_pos rfl]

theorem sequencerAt_running {old new : Tunnel} (hnew : new.runs = true) (hold : old.runs = true) (s : State) :
    sequencerAt old new s = s := by
  obtain rfl | rfl := new.runs_iff.mp hnew
  all_goals exact if_pos hold

theorem sequencerAt_resumes {old new : Tunnel} (hnew : new.runs = true) (hold : old.runs = false) (s : State) :
    sequencerAt old new s = resumeAll s := by
  obtain rfl | rfl := new.runs_iff.mp hnew
  all_goals exact if_neg (by simp [hold])

/-- Settles O28: the announcement, the resumption, and the passes over the stations and entries at STOPPED, PAUSED and
HALTED. -/
theorem pauseHoldsAndHaltDrops : Obligations.PauseHoldsAndHaltDrops := by
  refine ⟨fun new cause s => ⟨announced new cause s, rfl, ?_, ?_, ?_, ?_, ?_, ?_⟩, fun s => ?_, fun s i => ?_,
    fun s i => ?_, fun s => ⟨holdAll_queue s, dropAll_queue s⟩⟩
  · rintro m rfl
    exact changeTunnel_withdraws (.paused m) nofun cause s
  · rintro m rfl
    exact changeTunnel_withdraws (.halted m) nofun cause s
  · rintro rfl
    exact changeTunnel_withdraws .stopped nofun cause s
  · rintro m rfl
    exact changeTunnel_withdraws (.starting m) nofun cause s
  · rintro rfl
    rw [changeTunnel_searches]
    exact ⟨fun hold => by rw [sequencerAt_resumes rfl hold], fun hold => by rw [sequencerAt_running rfl hold]⟩
  · rintro rfl
    rw [changeTunnel_withdraws .draining nofun]
    exact ⟨fun hold => by rw [sequencerAt_resumes rfl hold], fun hold => by rw [sequencerAt_running rfl hold]⟩
  · obtain ⟨hframe, hunits⟩ := resumedStations_spec s
    refine ⟨resumedEntries s, resumedStations s, _, _, rfl, hframe, fun i => ⟨fun h => ?_, fun h => ?_⟩,
      revived_eq s, rfl, rfl⟩
    · rw [hunits i, unitResumed, if_neg h]
    · rw [hunits i, unitResumed, if_pos h]
      refine ⟨fun hactive => if_pos hactive, fun hnone => if_neg (by omega), rfl, rfl, fun hmode hproof => ?_,
        fun hno => ?_⟩
      · exact ⟨if_pos ⟨hmode, hproof⟩, if_pos ⟨hmode, hproof⟩⟩
      · have hnot : ¬ ((tabGet s.seq.table i).mode = .proofHold ∧ tabGet s.inputs.proofs i = false) :=
          fun ⟨hmode, hproof⟩ => hno.elim (fun h => h hmode) (fun h => by simp [h] at hproof)
        exact ⟨if_neg hnot, if_neg hnot⟩
  · rw [stopAll_units]
    exact ⟨fun h => if_pos h, fun h => if_neg h, stopAll_queue s⟩
  · rw [holdAll_units, dropAll_units]
    unfold unitPaused unitHalted
    cases (tabGet s.seq.units i).state <;> simp [unitIdle]

end Sys2Proof.Machine
end

