-- ==== Sys2Proof/Proofs/EntranceEdges.lean ====
section
/-! The entrance eye (R37 to R46): a new object, a re-block, a clear edge, the record appended, and the measurement. -/

namespace Sys2Proof.Machine

/-! ### Edges -/

theorem entranceBlocked_armed {s : State} (h : s.ent.eye = .armed) :
    entranceBlocked s = newObject (setEntranceEye .blocked s) := by
  simp only [entranceBlocked, h]

theorem entranceBlocked_settling {s : State} {n : Nat} (h : s.ent.eye = .settling n) :
    entranceBlocked s = tailgateTest (setEntranceEye .blocked s) := by
  simp only [entranceBlocked, h]

theorem entranceCleared_blocked {s : State} (h : s.ent.eye = .blocked) :
    entranceCleared s = markClearEdge (setEntranceEye (.settling 0) s) := by
  simp only [entranceCleared, h]

theorem entranceCleared_of_not_blocked {s : State} (h : s.ent.eye ≠ .blocked) : entranceCleared s = s := by
  unfold entranceCleared
  split
  · next hblocked => exact absurd hblocked h
  all_goals rfl

/-- A new object that finds 12 records (R41). -/
theorem newObject_full {s : State} (h : 12 ≤ s.trk.queue.length) :
    newObject s = raiseIncident (plainRaise .queueOverflow) { s with ent.measured := none } := if_pos h

/-- A new object takes the head ticket of the granted lane (R39). -/
theorem newObject_granted {s : State} {g : Grant} {t : Ticket} {rest : List Ticket} (hroom : s.trk.queue.length < 12)
    (hgrant : s.ent.grant = some g) (hlane : s.sales.lanes.get g.lane = t :: rest) :
    newObject s = notify (portOfLane g.lane) (.admitted t.sale (nextTagOf s).1)
      (startMeasure (nextTagOf s).1 (appendCar (some t) (clearGrant (setLane g.lane rest s)))) := by
  have hhead : grantedHead s = some (g.lane, t) := by simp [grantedHead, hgrant, hlane]
  have hnot : ¬ Config.queueMax ≤ s.trk.queue.length := Nat.not_le.mpr hroom
  simp only [newObject, if_neg hnot, hhead, bindHead, hlane, List.tail_cons]

/-- A new object without a grant (R40). -/
theorem newObject_unpaid {s : State} (hroom : s.trk.queue.length < 12) (hgrant : s.ent.grant = none) :
    newObject s = raiseIncident { plainRaise .unpaidEntry with tag := some (nextTagOf s).1 }
      (startMeasure (nextTagOf s).1 (appendCar none s)) := by
  have hhead : grantedHead s = none := by simp [grantedHead, hgrant]
  have hnot : ¬ Config.queueMax ≤ s.trk.queue.length := Nat.not_le.mpr hroom
  simp only [newObject, if_neg hnot, hhead, enterUnpaid]

/-! ### TAILGATE -/

theorem tailgateTest_over {s : State} {m : Measure} (h : s.ent.measured = some m)
    (hover : s.sup.consts.lenMax < m.entry) : tailgateTest s = raiseTailgate m.tag s := by
  simp only [tailgateTest, h]
  exact if_pos hover

theorem tailgateTest_within {s : State} (h : ∀ m, s.ent.measured = some m → m.entry ≤ s.sup.consts.lenMax) :
    tailgateTest s = s := by
  unfold tailgateTest
  split
  · next m hm => exact if_neg (by have := h m hm; omega)
  · rfl

theorem raiseTailgate_again {s : State} {tag : Nat} {car : Car} (h : carOf s tag = some car)
    (hmark : car.tailgate = true) : raiseTailgate tag s = s := by
  simp only [raiseTailgate, h, hmark, if_true]

theorem raiseTailgate_first {s : State} {tag : Nat} {car : Car} (h : carOf s tag = some car)
    (hmark : car.tailgate = false) : raiseTailgate tag s =
      raiseIncident { plainRaise .tailgate with tag := some tag, lane := laneOfCar car }
        (updateCar tag (fun car => { car with tailgate := true }) s) := by
  simp only [raiseTailgate, h, hmark, Bool.false_eq_true, if_false]

/-! ### The record appended -/

/-- The schedule of a new record: the entries of the serving stations, in station-position order (R100). -/
theorem buildSchedule_all (s : State) (list : List SvcLevel) : buildSchedule s (fun _ => true) list =
    orderSchedule s (list.flatMap fun q => (servingStations s q.code).map fun i => ⟨i, q.level, .pending, none⟩) := by
  simp only [buildSchedule, List.filter_true]
  rfl

/-! ### The measurement -/

theorem measurePulse_of_idle {s : State} (h : s.ent.measured = none ∨ s.ent.eye = .armed) : measurePulse s = s := by
  unfold measurePulse
  split
  · rfl
  · next m hm => exact if_pos (h.resolve_left (by simp [hm]))

/-- The entry count of a measurement in progress (R43, R45). -/
theorem measurePulse_of_measured {s : State} {m : Measure} (h : s.ent.measured = some m) (heye : s.ent.eye ≠ .armed) :
    measurePulse s =
      if s.ent.eye = .blocked ∧ min 65535 (m.entry + 1) = s.sup.consts.lenMax + 1 ∧ m.entry < min 65535 (m.entry + 1) then
        raiseTailgate m.tag { s with ent.measured := some { m with entry := min 65535 (m.entry + 1) } }
      else { s with ent.measured := some { m with entry := min 65535 (m.entry + 1) } } := by
  simp only [measurePulse, h, if_neg heye]
  rfl

theorem settleEntrance_settles {s : State} {n : Nat} (h : s.ent.eye = .settling n)
    (hn : n + 1 < s.sup.consts.clearMin) : settleEntrance s = { s with ent.eye := .settling (n + 1) } := by
  simp only [settleEntrance, h]
  exact if_neg (Nat.not_le.mpr hn)

theorem settleEntrance_completes {s : State} {n : Nat} (h : s.ent.eye = .settling n)
    (hn : s.sup.consts.clearMin ≤ n + 1) : settleEntrance s = completeMeasure { s with ent.eye := .armed } := by
  simp only [settleEntrance, h]
  exact if_pos hn

theorem completeMeasure_of_none {s : State} (h : s.ent.measured = none) : completeMeasure s = s := by
  simp only [completeMeasure, h]

/-- The completion of a measurement: the length, or a short object (R44, R46). -/
theorem completeMeasure_of_car {s : State} {m : Measure} {car : Car} (h : s.ent.measured = some m)
    (hcar : carOf s m.tag = some car) : completeMeasure s =
      if s.sup.consts.lenMin ≤ min m.clearEdge 16383 then
        setLength m.tag (min m.clearEdge 16383) { s with ent.measured := none }
      else shortObject car { s with ent.measured := none } := by
  simp only [completeMeasure, h, hcar]
  rfl

theorem shortObject_unticketed {car : Car} (h : car.ticket = none) (s : State) : shortObject car s =
    raiseIncident ⟨.shortObject, none, none, some car.tag, none, none⟩ (leaveQueue car s) := by
  simp only [shortObject, laneOfCar, h]
  rfl

theorem shortObject_ticketed {car : Car} {x : Ticket} (h : car.ticket = some x) (s : State) : shortObject car s =
    raiseIncident ⟨.shortObject, none, none, some car.tag, laneOfTicket x.lane, none⟩
      (setLength car.tag s.sup.consts.lenMin s) := by
  simp only [shortObject, laneOfCar, h]
  rfl

/-- Settles O57: the blocking edge in ARMED and in SETTLING, the clear edge, the commands that are no edge, the record
appended, TAILGATE, and the measurement with its completion. -/
theorem entranceEdgesMakeRecords : Obligations.EntranceEdgesMakeRecords := by
  refine ⟨fun s hrun hclear heye => ⟨_, rfl, ?_⟩, fun n s hrun hclear heye => ⟨_, rfl, ?_⟩,
    fun s hrun hblocked => ?_, fun s => ⟨fun h => ?_, fun h => ?_⟩, fun ticket s => ⟨_, _, rfl, rfl, ?_⟩,
    fun tag s => ⟨fun car hcar hmark => raiseTailgate_again hcar hmark, fun car hcar hmark => ?_⟩,
    fun s => ⟨measurePulse_of_idle, fun m hm heye => ?_, fun n heye => ⟨fun hn => ?_, fun hn => ?_⟩⟩⟩
  · have hexec : exec .entranceEyeBlockingEdge s =
        .next (driveLines (newObject (setEntranceEye .blocked (setEntranceInput true s)))) := by
      rw [← entranceBlocked_armed (s := setEntranceInput true s) heye]
      exact congrArg Host.Outcome.next (lineEdge_running (by simp [hclear]) _ _ s hrun)
    refine ⟨fun hfull => ?_, fun hroom => ⟨_, rfl, fun g t rest hgrant hlane => ?_, fun hgrant => ?_⟩⟩
    · rw [hexec, newObject_full (s := setEntranceEye .blocked (setEntranceInput true s)) hfull]
      rfl
    · rw [hexec, newObject_granted (s := setEntranceEye .blocked (setEntranceInput true s)) hroom hgrant hlane]
      rfl
    · rw [hexec, newObject_unpaid (s := setEntranceEye .blocked (setEntranceInput true s)) hroom hgrant]
      rfl
  · have hexec : exec .entranceEyeBlockingEdge s =
        .next (driveLines (tailgateTest (setEntranceEye .blocked (setEntranceInput true s)))) := by
      rw [← entranceBlocked_settling (s := setEntranceInput true s) heye]
      exact congrArg Host.Outcome.next (lineEdge_running (by simp [hclear]) _ _ s hrun)
    refine ⟨fun m hm hover => ?_, fun hwithin => ?_⟩
    · rw [hexec, tailgateTest_over (s := setEntranceEye .blocked (setEntranceInput true s)) hm hover]
      rfl
    · rw [hexec, tailgateTest_within (s := setEntranceEye .blocked (setEntranceInput true s)) hwithin]
      rfl
  · have hexec : exec .entranceEyeClearEdge s =
        .next (driveLines (entranceCleared (setEntranceInput false s))) :=
      congrArg Host.Outcome.next (lineEdge_running (by simp [hblocked]) _ _ s hrun)
    refine ⟨fun heye => ?_, fun heye => ?_⟩
    · rw [hexec, entranceCleared_blocked (s := setEntranceInput false s) heye]
      rfl
    · rw [hexec, entranceCleared_of_not_blocked (s := setEntranceInput false s) heye]
      rfl
  · exact congrArg Host.Outcome.next (lineEdge_same h _ _ s)
  · exact congrArg Host.Outcome.next (lineEdge_same h _ _ s)
  · cases ticket with
    | none => rfl
    | some t =>
      simp only [appendCar, newCar, buildSchedule_all]
      rfl
  · rw [raiseTailgate_first hcar hmark]
    rfl
  · rw [measurePulse_of_measured hm heye]
    refine ⟨fun hblocked hentry htop => ?_, fun h => if_neg ?_⟩
    · have hcount : min 65535 (m.entry + 1) = m.entry + 1 := by omega
      rw [hcount, if_pos ⟨hblocked, by omega, by omega⟩]
    · rintro ⟨hblocked, hcount, hrises⟩
      obtain heye | hentry := h
      · exact heye hblocked
      · omega
  · exact settleEntrance_settles heye hn
  · rw [settleEntrance_completes heye hn]
    refine ⟨completeMeasure_of_none (s := { s with ent.eye := .armed }), fun m car hm hcar => ?_⟩
    rw [completeMeasure_of_car (s := { s with ent.eye := .armed }) hm hcar]
    refine ⟨fun hlen => if_pos hlen, fun hshort => ?_⟩
    rw [if_neg (Nat.not_le.mpr hshort)]
    exact ⟨fun hx => shortObject_unticketed hx _, fun x hx => shortObject_ticketed hx _⟩

end Sys2Proof.Machine
end

