-- ==== Sys2Proof/Proofs/SettingsFrame.lean ====
section
/-! Which commands can change a setting (R25, R49, R58, R66, R71, R87, R114, R153, R154, R161, R191, R196).
`ChangesOnly w` says that the settings listed in `w` alone may differ; each shared operation, each owner and each event
is given its list once, and a command's list holds nothing that the command's rules do not name (`Setting.NamedBy`). -/

namespace Sys2Proof.Machine

/-- The settings, counters and queues that a rule of their own names the writers of. -/
inductive Setting
  | plans | planStore | services | table | consts | response | holder | forced | enabled | saleCounter | lastSale
  | lanes | seconds | settings

/-- The setting has the same value in two states. -/
def Setting.Same (s t : State) : Setting → Prop
  | .plans => t.sales.plans = s.sales.plans
  | .planStore => t.sales.store = s.sales.store
  | .services => t.sales.services = s.sales.services
  | .table => t.seq.table = s.seq.table
  | .consts => t.sup.consts = s.sup.consts
  | .response => t.sup.response = s.sup.response
  | .holder => t.sup.holder = s.sup.holder
  | .forced => t.pace.forced = s.pace.forced
  | .enabled => t.ent.enabled = s.ent.enabled
  | .saleCounter => t.sales.saleCounter = s.sales.saleCounter
  | .lastSale => t.sales.lastSale = s.sales.lastSale
  | .lanes => t.sales.lanes = s.sales.lanes
  | .seconds => t.sup.seconds = s.sup.seconds
  | .settings => t.store = s.store

theorem Setting.Same.refl (s : State) (x : Setting) : x.Same s s := by cases x <;> rfl

theorem Setting.Same.trans {a b c : State} {x : Setting} (h : x.Same a b) (k : x.Same b c) : x.Same a c := by
  cases x <;> exact Eq.trans k h

/-- The listed settings alone may differ. -/
def ChangesOnly (w : List Setting) (s t : State) : Prop := ∀ x : Setting, x ∉ w → x.Same s t

section
variable {w : List Setting} {s t : State}

theorem ChangesOnly.refl (s : State) : ChangesOnly w s s := fun x _ => .refl s x

theorem ChangesOnly.trans {u : State} (h : ChangesOnly w s t) (k : ChangesOnly w t u) : ChangesOnly w s u :=
  fun x hx => (h x hx).trans (k x hx)

theorem ChangesOnly.ite {a b : State} {p : Prop} [Decidable p] (ha : ChangesOnly w s a) (hb : ChangesOnly w s b) :
    ChangesOnly w s (if p then a else b) := by
  split <;> assumption

theorem ChangesOnly.pair_ite {α : Type} {a b : State × α} {p : Prop} [Decidable p] (ha : ChangesOnly w s a.1)
    (hb : ChangesOnly w s b.1) : ChangesOnly w s (if p then a else b).1 := by
  split <;> assumption

/-- A plain update: each setting outside the list is read off the update. -/
theorem ChangesOnly.of_eqs
    (h : ∀ x : Setting, x ∈ w ∨ x.Same s t := by intro x; cases x <;> first | (left; simp; done) | exact .inr rfl) :
    ChangesOnly w s t :=
  fun x hx => (h x).resolve_left hx

/-- The operations on records already in the tunnel queue write no setting. -/
theorem ChangesOnly.ofTrack (h : TrackFrame s t) : ChangesOnly w s t := by
  rw [h.1]
  exact .of_eqs fun x => .inr (by cases x <;> rfl)

theorem ChangesOnly.ofSeq (h : SeqOnly s t) : ChangesOnly w s t := .ofTrack (.ofSeq h)

theorem ChangesOnly.ofGrant (h : GrantOnly s t) : ChangesOnly w s t := .ofTrack (.ofGrant h)

theorem ChangesOnly.ofChange (h : ChangeFrame s t) : ChangesOnly w s t := .ofTrack (.ofChange h)

theorem ChangesOnly.ofRaise (h : RaiseFrame s t) : ChangesOnly w s t := .ofTrack (.ofRaise h)

theorem ChangesOnly.ofPorts (h : PortsOnly s t) : ChangesOnly w s t := .ofTrack (.ofPorts h)

/-- What no event of the tunnel writes holds every setting but the lane queues. -/
theorem ChangesOnly.ofKept (h : Kept s t) : ChangesOnly [.lanes] s t := by
  intro x hx
  cases x with
  | plans => exact h.plans
  | planStore => exact h.planStore
  | services => exact h.services
  | table => exact h.table
  | consts => exact h.consts
  | response => exact h.response
  | holder => exact h.holder
  | forced => exact h.forced
  | enabled => exact h.enabled
  | saleCounter => exact h.saleCounter
  | lastSale => exact h.lastSale
  | lanes => exact absurd List.mem_cons_self hx
  | seconds => exact h.seconds
  | settings => exact h.settings

theorem foldl_changesOnly {α : Type} (f : State → α → State) (hf : ∀ s x, ChangesOnly w s (f s x)) (l : List α)
    (s : State) : ChangesOnly w s (l.foldl f s) :=
  foldl_keeps (ChangesOnly w) .refl (fun _ _ _ => .trans) f hf l s

theorem changeTunnel_changesOnly (new : Tunnel) (cause : Cause) (s : State) :
    ChangesOnly w s (changeTunnel new cause s) :=
  .ofChange (changeTunnel_frame new cause s)

theorem raiseIncident_changesOnly (q : Raise) (s : State) : ChangesOnly w s (raiseIncident q s) :=
  .ofRaise (raiseIncident_frame q s)

theorem updateTally_changesOnly (f : Tally → Tally) (s : State) : ChangesOnly w s (updateTally f s) :=
  .ofTrack (updateTally_track f s)

theorem withdrawLane_changesOnly (l : Lane) (r : WithdrawReason) (s : State) :
    ChangesOnly w s (withdrawLane l r s) :=
  .ofGrant (withdrawLane_grantOnly l r s)

theorem driveLines_changesOnly (s : State) : ChangesOnly w s (driveLines s) :=
  .of_eqs fun x => .inr (by cases x <;> rfl)

/-! ### How a command is put together -/

theorem event_changesOnly {f : State → State} (hf : ∀ s, ChangesOnly w s (f s)) (s : State) :
    ChangesOnly w s (event f s) :=
  .ite (.refl s) ((hf s).trans (driveLines_changesOnly _))

theorem lineEdge_changesOnly {setLine f : State → State} (hf : ∀ s, ChangesOnly w s (f s)) (now level : Bool)
    (s : State) (hset : ∀ s, LineOnly s (setLine s) := by intro _; rfl) :
    ChangesOnly w s (lineEdge now level setLine f s) := by
  have hline : ChangesOnly w s (setLine s) := by
    rw [hset s]
    exact .of_eqs fun x => .inr (by cases x <;> rfl)
  exact .ite (.refl s) (hline.trans (event_changesOnly hf _))

theorem portEvent_changesOnly {f : State → State} (hf : ∀ s, PortsOnly s (f s)) (s : State) :
    ChangesOnly w s (portEvent f s) :=
  .ite (.refl s) (.ofPorts (hf s))

theorem respond_changesOnly {owner : State → State × Answer} (ho : ∀ s, ChangesOnly w s (owner s).1) (p : Port)
    (k : ReqKind) (form : Bool) (s : State) : ChangesOnly w s (respond p k form owner s) := by
  obtain h | ⟨-, -, -, -, h⟩ := respond_cases p k form owner s
  · exact .ofPorts h
  · rw [h]
    exact ((ChangesOnly.ofPorts (frameDone_portsOnly p s)).trans (ho _)).trans (.ofPorts (sendAnswer_portsOnly _ _ _ _))

theorem respond_driven_changesOnly {owner : State → State × Answer} (ho : ∀ s, ChangesOnly w s (owner s).1) (p : Port)
    (k : ReqKind) (form : Bool) (s : State) : ChangesOnly w s (respond p k form (driven owner) s) :=
  respond_changesOnly (owner := driven owner) (fun u => (ho u).trans (driveLines_changesOnly _)) p k form s

theorem holderOnly_changesOnly {owner : State → State × Answer} (ho : ∀ s, ChangesOnly w s (owner s).1) (p : Port)
    (s : State) : ChangesOnly w s (holderOnly p owner s).1 :=
  .pair_ite (ho s) (.refl s)

theorem holderOrConsole_changesOnly {owner : State → State × Answer} (ho : ∀ s, ChangesOnly w s (owner s).1)
    (p : Port) (s : State) : ChangesOnly w s (holderOrConsole p owner s).1 :=
  .pair_ite (ho s) (.refl s)

end

/-! ### Events: stations, monitor, pacing -/

theorem pulse_changesOnly (s : State) : ChangesOnly [] s (pulse s) := by
  have hcount : ∀ u, ChangesOnly [] u (countPulse u) := fun _ => .of_eqs
  have hblocks := ((trackPulse_track s).trans (.ofSeq (judgePulse_seqOnly _))).trans (entrancePulse_track _)
  exact (ChangesOnly.ofTrack hblocks).trans (hcount _)

theorem giveUp_track (i : Fin 16) (s : State) : TrackFrame s (giveUp i s) :=
  (TrackFrame.ofSeq ((updateUnit_seqOnly i _ s).trans _ _ _ (moveStation_seqOnly i _ _))).trans
    (raiseIncident_track _ _)

/-- A failed attempt that is not the last writes the station alone. -/
theorem retried_track (i : Fin 16) (f g : StationUnit → StationUnit) (new : StationState) (s : State) :
    TrackFrame s (updateUnit i g (moveStation i new (updateUnit i f s))) :=
  .ofSeq (((updateUnit_seqOnly i f s).trans _ _ _ (moveStation_seqOnly i new _)).trans _ _ _ (updateUnit_seqOnly i g _))

theorem failAttempt_track (i : Fin 16) (s : State) : TrackFrame s (failAttempt i s) :=
  .ite (retried_track i _ _ _ s) (giveUp_track i s)

theorem loseProof_track (i : Fin 16) (s : State) : TrackFrame s (loseProof i s) :=
  (TrackFrame.ofSeq (markEntries_seqOnly i .proof false s)).trans (.ite (retried_track i _ _ _ _) (giveUp_track i _))

theorem proofOn_track (i : Fin 16) (s : State) : TrackFrame s (proofOn i s) :=
  .ite (.ofSeq (becomeReady_seqOnly i s)) (.ite (.ofSeq (updateUnit_seqOnly i _ s)) (.refl s))

theorem proofOff_track (i : Fin 16) (s : State) : TrackFrame s (proofOff i s) := .ite (loseProof_track i s) (.refl s)

theorem proofExpired_track (i : Fin 16) (s : State) : TrackFrame s (proofExpired i s) := by
  unfold proofExpired
  simp only
  split
  · exact .refl s
  · exact (TrackFrame.ofSeq (updateUnit_seqOnly i _ s)).trans
      (.ite (failAttempt_track i _) (.ite (loseProof_track i _) (.refl _)))

theorem retryExpired_track (i : Fin 16) (s : State) : TrackFrame s (retryExpired i s) := by
  unfold retryExpired
  simp only
  split
  · exact .refl s
  · refine (TrackFrame.ofSeq (updateUnit_seqOnly i _ s)).trans
      (.ite (.ite ?_ (.ofSeq (moveStation_seqOnly i _ _))) (.refl _))
    exact .ofSeq ((moveStation_seqOnly i _ _).trans _ _ _ (beginAttempt_seqOnly i _))

theorem scan_track (samples : Tab 6 (BitVec 12)) (s : State) : TrackFrame s (scan samples s) := by
  have hmark : ∀ u k, TrackFrame u (slackMark u k) := fun u k => by
    unfold slackMark
    split
    · exact .refl u
    · exact .ofSeq (markEntries_seqOnly _ _ _ u)
  have hslots : ∀ m, TrackFrame s { s with mon := m } := fun _ => ⟨rfl, .refl _⟩
  exact ((hslots _).trans (foldl_track _ (fun u k => .ite (hmark u k) (.refl u)) _ _)).trans
    (.ofRaise (raiseEach_frame _ _))

theorem windowEnd_changesOnly (s : State) : ChangesOnly [] s (windowEnd s) := by
  have hstall : ∀ n, ChangesOnly [] s { closeWindow s with pace.stall := n } := fun _ => .of_eqs
  exact .ite ((hstall _).trans (raiseIncident_changesOnly _ _)) (hstall _)

theorem finishWrite_changesOnly (verified : Bool) (s : State) : ChangesOnly [.settings] s (finishWrite verified s) := by
  unfold finishWrite
  split
  · exact .refl s
  · exact .ite .of_eqs .of_eqs

theorem holdReset_changesOnly (s : State) : ChangesOnly [.settings] s (holdReset s) := by
  have hcut : ChangesOnly [.settings] s (cutWrite s) := .ite .of_eqs (.refl s)
  exact hcut.trans .of_eqs

/-! ### Owners of requests that write no setting -/

theorem ownLaneStatus_changesOnly (p : Port) (lane : Option Nat) (s : State) :
    ChangesOnly [] s (ownLaneStatus p lane s).1 := by
  unfold ownLaneStatus
  split
  · exact .refl s
  · exact .of_eqs

theorem ownTallyRead_changesOnly (p : Port) (part : Nat) (take clear : Bool) (s : State) :
    ChangesOnly [] s (ownTallyRead p part take clear s).1 := by
  have htake : ChangesOnly [] s (takeCopy p s) := .ite .of_eqs .of_eqs
  unfold ownTallyRead
  refine .pair_ite (.refl s) (.pair_ite (.refl s) (.pair_ite ?_ ?_))
  · exact .ite (htake.trans (updateTally_changesOnly _ _)) htake
  · split <;> exact .refl s

theorem ownAckIncident_changesOnly (number : Nat) (s : State) : ChangesOnly [] s (ownAckIncident number s).1 := by
  unfold ownAckIncident
  split
  · exact .refl s
  · exact .pair_ite (.refl s) (.ofTrack (removeIncidents_track _ s))

theorem ownRestart_changesOnly (s : State) : ChangesOnly [] s (ownRestart s).1 := by
  unfold ownRestart okTunnel
  split
  · exact .pair_ite (.refl s) (changeTunnel_changesOnly _ _ s)
  all_goals exact .refl s

theorem clearRecord_track (car : Car) (s : State) : TrackFrame s (clearRecord car s) := by
  have hcredit : TrackFrame s (clearCredit car s).1 := by
    unfold clearCredit
    split
    · exact .refl s
    · dsimp only
      split
      · exact issueCredit_track _ _ _ s
      · exact .refl s
  exact (hcredit.trans (.ofPorts (notifyBoth_portsOnly _ _))).trans (leaveQueue_track _ _)

theorem ownTunnelClear_changesOnly (s : State) : ChangesOnly [] s (ownTunnelClear s).1 := by
  have hclear : ∀ l : List Car, ChangesOnly [] s (l.foldl (fun s car => clearRecord car s) s) :=
    fun l => .ofTrack (foldl_track _ (fun u car => clearRecord_track car u) l s)
  unfold ownTunnelClear
  split
  · exact hclear _
  · exact hclear _
  all_goals exact .refl s

theorem ownStationOff_changesOnly (station : Nat) (s : State) : ChangesOnly [] s (ownStationOff station s).1 := by
  unfold ownStationOff okStation
  split
  · exact .refl s
  · exact .pair_ite (.refl s) (.ofSeq ((moveStation_seqOnly _ _ s).trans _ _ _ (markEntries_seqOnly _ _ _ _)))

theorem returnStation_seqOnly (i : Fin 16) (s : State) : SeqOnly s (returnStation i s) :=
  ((updateUnit_seqOnly i _ s).trans _ _ _ (moveStation_seqOnly i _ _)).trans _ _ _ (testArm_seqOnly i _)

theorem ownStationOn_changesOnly (station : Nat) (s : State) : ChangesOnly [] s (ownStationOn station s).1 := by
  unfold ownStationOn okStation
  split
  · exact .refl s
  · exact .pair_ite (.ofSeq (returnStation_seqOnly _ s)) (.refl s)

theorem ownStationReset_changesOnly (station : Nat) (s : State) : ChangesOnly [] s (ownStationReset station s).1 := by
  unfold ownStationReset okStation
  split
  · exact .refl s
  · exact .pair_ite (.ofSeq (returnStation_seqOnly _ s)) (.refl s)

theorem setTunnel_changesOnly (t : Tunnel) (s : State) : ChangesOnly [] s (setTunnel t s) := .of_eqs

theorem setManual_changesOnly (x : Bool) (s : State) : ChangesOnly [] s (setManual x s) := .of_eqs

theorem ownOpen_changesOnly (s : State) : ChangesOnly [] s (ownOpen s).1 := by
  unfold ownOpen okTunnel
  split
  · exact .pair_ite (.refl s) (.pair_ite (changeTunnel_changesOnly _ _ s) (.refl s))
  · exact setTunnel_changesOnly _ s
  · exact setTunnel_changesOnly _ s
  · exact changeTunnel_changesOnly .running (.request .openTunnel) s
  all_goals exact .refl s

theorem ownDrain_changesOnly (s : State) : ChangesOnly [] s (ownDrain s).1 := by
  unfold ownDrain okTunnel
  split
  · exact changeTunnel_changesOnly _ _ s
  · exact setTunnel_changesOnly _ s
  · exact setTunnel_changesOnly _ s
  all_goals exact .refl s

theorem ownStop_changesOnly (s : State) : ChangesOnly [] s (ownStop s).1 := by
  have hchange : ChangesOnly [] s (changeTunnel .stopped (.request .stop) (setManual false s)) :=
    (setManual_changesOnly _ s).trans (changeTunnel_changesOnly _ _ _)
  have hstop : ChangesOnly [] s (stopIfEmpty s).1 := by
    unfold stopIfEmpty
    split
    · dsimp only
      exact hchange
    · exact .refl s
  unfold ownStop
  split
  · exact .refl s
  · exact .pair_ite (.refl s) hstop
  all_goals exact hstop

theorem ownPause_changesOnly (s : State) : ChangesOnly [] s (ownPause s).1 := by
  have hpause : ChangesOnly [] s (pauseTunnel (.request .pause) (setManual true s)) :=
    (setManual_changesOnly _ s).trans (.ofChange (pauseTunnel_frame _ _))
  unfold ownPause okPause
  split
  · exact hpause
  · exact hpause
  · exact hpause
  · exact setManual_changesOnly _ s
  all_goals exact .refl s

theorem ownResume_changesOnly (s : State) : ChangesOnly [] s (ownResume s).1 := by
  unfold ownResume okPause
  split
  · exact .pair_ite (setManual_changesOnly _ s)
      ((setManual_changesOnly false s).trans (changeTunnel_changesOnly (.starting _) (.request .resume) _))
  all_goals exact .refl s

theorem ownIssueCredit_changesOnly (value plan : Nat) (s : State) :
    ChangesOnly [] s (ownIssueCredit value plan s).1 := by
  unfold ownIssueCredit
  exact .pair_ite (.refl s) (.ofTrack (issueCredit_track _ _ _ s))

/-! ### Owners of sales requests -/

theorem ownSell_changesOnly (p : Port) (lane : Option Nat) (buy : Purchase) (ref : Nat) (s : State) :
    ChangesOnly [.saleCounter, .lastSale, .lanes] s (ownSell p lane buy ref s).1 := by
  have hsell : ∀ l q, ChangesOnly [.saleCounter, .lastSale, .lanes] s (acceptSale l buy q ref s) := fun _ _ =>
    ChangesOnly.trans (.of_eqs) (.ofGrant (arbitrate_grantOnly _))
  unfold ownSell
  split
  · exact .refl s
  · split
    · exact .refl s
    · exact .pair_ite (.refl s) (hsell _ _)

theorem ownVoid_changesOnly (p : Port) (sale : Nat) (s : State) : ChangesOnly [.lanes] s (ownVoid p sale s).1 := by
  unfold ownVoid
  split
  · exact .refl s
  · split
    · exact .refl s
    · exact (updateTally_changesOnly _ s).trans (.ofKept (takeTicket_kept _ _ _))

theorem ownAddService_changesOnly (p : Port) (sale code level : Nat) (s : State) :
    ChangesOnly [.lanes] s (ownAddService p sale code level s).1 := by
  unfold ownAddService acceptAddOn
  split
  · exact .refl s
  · split
    · exact .refl s
    · refine .pair_ite (.refl s) (.pair_ite (.refl s) ?_)
      split
      · exact .refl s
      · exact (updateTally_changesOnly _ s).trans (.ofKept (placeTicket_kept _ _ _ _ _))

theorem ownAttachLane_changesOnly (tag lane : Nat) (s : State) :
    ChangesOnly [.lanes] s (ownAttachLane tag lane s).1 := by
  unfold ownAttachLane
  split
  · exact .refl s
  · split
    · exact .refl s
    · split
      · exact .refl s
      · dsimp only
        exact (ChangesOnly.ofKept ((setLane_kept _ _ s).trans _ _ _ (bindTicket_kept _ _ _))).trans
          (withdrawLane_changesOnly _ _ _)

theorem ownAttachNewSale_changesOnly (tag : Nat) (buy : Purchase) (ref : Nat) (s : State) :
    ChangesOnly [.saleCounter] s (ownAttachNewSale tag buy ref s).1 := by
  have hsell : ∀ q, ChangesOnly [.saleCounter] s (sellTicket .console buy q s) := fun _ => .of_eqs
  have hbind : ∀ car t u, TrackFrame u (bindTicket car t u) := fun car t u =>
    (updateCar_track _ _ u).trans (.ofSeq (testArmAll_seqOnly _))
  unfold ownAttachNewSale
  split
  · exact .refl s
  · split
    · exact .refl s
    · dsimp only
      exact (hsell _).trans (.ofTrack (hbind _ _ _))

theorem setLane_changesOnly (l : Lane) (q : List Ticket) (s : State) : ChangesOnly [.lanes] s (setLane l q s) :=
  .of_eqs

theorem ownLaneReset_changesOnly (lane : Nat) (s : State) : ChangesOnly [.lanes] s (ownLaneReset lane s).1 := by
  unfold ownLaneReset
  split
  · exact .refl s
  · exact ((updateTally_changesOnly _ s).trans (setLane_changesOnly _ _ _)).trans (withdrawLane_changesOnly _ _ _)

/-! ### Owners of requests that write a setting -/

theorem setEnabled_changesOnly (l : Lane) (x : Bool) (s : State) : ChangesOnly [.enabled] s (setEnabled l x s) :=
  .of_eqs

theorem ownLaneEnable_changesOnly (lane : Nat) (s : State) : ChangesOnly [.enabled] s (ownLaneEnable lane s).1 := by
  unfold ownLaneEnable
  split
  · exact .refl s
  · exact (setEnabled_changesOnly _ _ s).trans (.ofGrant (arbitrate_grantOnly _))

theorem ownLaneDisable_changesOnly (lane : Nat) (s : State) : ChangesOnly [.enabled] s (ownLaneDisable lane s).1 := by
  unfold ownLaneDisable
  split
  · exact .refl s
  · exact (setEnabled_changesOnly _ _ s).trans (withdrawLane_changesOnly _ _ _)

theorem setHolder_changesOnly (h : Option Port) (s : State) : ChangesOnly [.holder] s (setHolder h s) := .of_eqs

theorem ownClaim_changesOnly (p : Port) (s : State) : ChangesOnly [.holder] s (ownClaim p s).1 := by
  have htell : ChangesOnly [.holder] s (if s.sup.holder = some .p4 then notify .p4 (.controlLost .p0) s else s) :=
    .ite (.ofPorts (notify_portsOnly _ _ s)) (.refl s)
  exact .pair_ite (htell.trans (setHolder_changesOnly _ _)) (.pair_ite (.refl s) (setHolder_changesOnly _ s))

theorem setForced_changesOnly (c : Option Nat) (s : State) : ChangesOnly [.forced] s (setForced c s) := .of_eqs

theorem storePlan_changesOnly (i : Fin 12) (q : Plan) (list : List SvcLevel) (s : State) :
    ChangesOnly [.plans, .planStore] s (storePlan i q list s) := .of_eqs

theorem setPlanState_changesOnly (i : Fin 12) (st : PlanState) (s : State) :
    ChangesOnly [.plans, .planStore] s (setPlanState i st s) := .of_eqs

theorem ownDefinePlan_changesOnly (plan : Nat) (name : List Nat) (price cls : Nat) (list : List RawPair) (s : State) :
    ChangesOnly [.plans, .planStore] s (ownDefinePlan plan name price cls list s).1 := by
  unfold ownDefinePlan
  refine .pair_ite (.refl s) ?_
  split
  · exact .refl s
  · refine .pair_ite (.refl s) (.pair_ite (.refl s) (.pair_ite (.refl s) (.pair_ite (.refl s) ?_)))
    exact storePlan_changesOnly _ _ _ s

theorem ownErasePlan_changesOnly (plan : Nat) (s : State) :
    ChangesOnly [.plans, .planStore] s (ownErasePlan plan s).1 := by
  unfold ownErasePlan
  refine .pair_ite (.refl s) ?_
  split
  · exact .refl s
  · split
    · exact .refl s
    · exact .refl s
    all_goals exact storePlan_changesOnly _ _ _ s

theorem ownPublish_changesOnly (plan : Nat) (s : State) : ChangesOnly [.plans, .planStore] s (ownPublish plan s).1 := by
  unfold ownPublish
  refine .pair_ite (.refl s) ?_
  split
  · exact .refl s
  · split
    · exact .refl s
    · exact .refl s
    all_goals exact setPlanState_changesOnly _ _ s

theorem ownWithdraw_changesOnly (plan : Nat) (s : State) :
    ChangesOnly [.plans, .planStore] s (ownWithdraw plan s).1 := by
  unfold ownWithdraw
  refine .pair_ite (.refl s) ?_
  split
  · exact .refl s
  · split
    case h_4 => exact setPlanState_changesOnly _ _ s
    all_goals exact .refl s

theorem ownSetService_changesOnly (code presence price limit : Nat) (s : State) :
    ChangesOnly [.services] s (ownSetService code presence price limit s).1 := by
  unfold ownSetService
  refine .pair_ite (.refl s) ?_
  split
  · exact .of_eqs
  · exact .refl s

theorem reorderAll_track (s : State) : TrackFrame s (reorderAll s) := mapQueue_track _ s

theorem ownSetStation_changesOnly (station : Nat) (raw : RawStation) (s : State) :
    ChangesOnly [.table] s (ownSetStation station raw s).1 := by
  have hput : ∀ i r, ChangesOnly [.table] s (putStation i r s) := fun _ _ => .of_eqs
  unfold ownSetStation storeStation
  refine .pair_ite (.refl s) ?_
  split
  · refine .pair_ite (.refl s) (.pair_ite (.refl s) (.pair_ite (.refl s) ?_))
    exact .ite (hput _ _) ((hput _ _).trans (.ofTrack (reorderAll_track _)))
  · exact .refl s

theorem reclampStations_changesOnly (before after : Nat) (s : State) :
    ChangesOnly [.table, .consts] s (reclampStations before after s) := by
  have htable : ∀ t, ChangesOnly [.table, .consts] s { s with seq.table := t } := fun _ => .of_eqs
  exact .ite ((htable _).trans (.ofTrack (reorderAll_track _))) (.refl s)

theorem ownSetConstants_changesOnly (c : Constants) (s : State) :
    ChangesOnly [.table, .consts] s (ownSetConstants c s).1 := by
  have hset : ∀ k e d, ChangesOnly [.table, .consts] s { s with sup.consts := k, trk.eyes := e, ent.eye := d } :=
    fun _ _ _ => .of_eqs
  exact .pair_ite (.refl s) (.pair_ite (.refl s) (((hset _ _ _).trans (reclampStations_changesOnly _ _ _)).trans
    (.ite (.ofTrack (tailgateTest_track _)) (.refl _))))

theorem ownSetResponse_changesOnly (kind cls : Nat) (s : State) :
    ChangesOnly [.response] s (ownSetResponse kind cls s).1 := by
  unfold ownSetResponse
  refine .pair_ite (.refl s) ?_
  split
  · exact .pair_ite .of_eqs (.refl s)
  · exact .refl s

theorem ownSave_changesOnly (s : State) : ChangesOnly [.settings] s (ownSave s).1 := .pair_ite (.refl s) .of_eqs

/-! ### Every command -/

/-- The rules of a setting name the command. -/
def Setting.NamedBy (c : Instr) : Setting → Prop
  | .plans | .planStore => kindOf c ∈ [some .definePlan, some .erasePlan, some .publish, some .withdraw]
  | .services => kindOf c = some .setService
  | .table => kindOf c ∈ [some .setStation, some .setConstants]
  | .consts => kindOf c = some .setConstants
  | .response => kindOf c = some .setResponse
  | .holder => kindOf c ∈ [some .claim, some .yield]
  | .forced => kindOf c ∈ [some .forceSpeed, some .releaseSpeed]
  | .enabled => kindOf c ∈ [some .laneEnable, some .laneDisable]
  | .saleCounter => kindOf c ∈ [some .sell, some .attach]
  | .lastSale => kindOf c = some .sell
  | .lanes =>
    kindOf c ∈ [some .sell, some .void, some .addService, some .attach, some .laneReset] ∨ c = .entranceEyeBlockingEdge
  | .seconds => c = .secondsTick
  | .settings => kindOf c = some .save ∨ (∃ v, c = .saveComplete v) ∨ c = .reset

/-- No setting changes that the command is not named for. -/
def Abides (c : Instr) (s t : State) : Prop := ∀ x : Setting, ¬ x.NamedBy c → x.Same s t

theorem Abides.refl (c : Instr) (s : State) : Abides c s s := fun x _ => .refl s x

/-- A command that writes no setting. -/
theorem ChangesOnly.abides {c : Instr} {s t : State} (h : ChangesOnly [] s t) : Abides c s t :=
  fun x _ => h x List.not_mem_nil

/-- A command that writes the settings of a list, each of which names it. -/
theorem ChangesOnly.abides_of {w : List Setting} {c : Instr} {s t : State} (h : ChangesOnly w s t)
    (hw : ∀ x ∈ w, x.NamedBy c := by simp [Setting.NamedBy, kindOf, encodeRequest]) : Abides c s t :=
  fun x hx => h x fun hmem => hx (hw x hmem)

/-- Every request abides by the rules of the settings. -/
theorem runRequest_abides (c : Instr) (s : State) : Abides c s (runRequest c s) := by
  cases c with
  | tunnelStatus p =>
    exact (respond_changesOnly (owner := ownTunnelStatus p) (fun _ => .of_eqs) _ _ _ s).abides
  | carList | incidentList | creditList | stationStatus | planListSummary | planListPlan | planListService | quote =>
    exact (respond_changesOnly (fun u => .refl u) _ _ _ s).abides
  | laneStatus p lane => exact (respond_changesOnly (ownLaneStatus_changesOnly p lane) _ _ _ s).abides
  | tallyRead p part take clear =>
    exact (respond_changesOnly (ownTallyRead_changesOnly p part take clear) _ _ _ s).abides
  | sell p lane buy ref =>
    exact (respond_driven_changesOnly (ownSell_changesOnly p lane buy ref) _ _ _ s).abides_of
  | void p sale => exact (respond_driven_changesOnly (ownVoid_changesOnly p sale) _ _ _ s).abides_of
  | addService p sale code level =>
    exact (respond_driven_changesOnly (ownAddService_changesOnly p sale code level) _ _ _ s).abides_of
  | attachLane p tag lane => exact (respond_driven_changesOnly (ownAttachLane_changesOnly tag lane) _ _ _ s).abides_of
  | attachNewSale p tag buy ref =>
    exact (respond_driven_changesOnly (ownAttachNewSale_changesOnly tag buy ref) _ _ _ s).abides_of
  | ackIncident p n => exact (respond_driven_changesOnly (ownAckIncident_changesOnly n) _ _ _ s).abides
  | ackIncidentAll p =>
    exact (respond_driven_changesOnly (owner := ownAckAll)
      (fun u => .ofTrack (removeIncidents_track _ u)) _ _ _ s).abides
  | restart p => exact (respond_driven_changesOnly ownRestart_changesOnly _ _ _ s).abides
  | laneReset p l => exact (respond_driven_changesOnly (ownLaneReset_changesOnly l) _ _ _ s).abides_of
  | laneEnable p l => exact (respond_driven_changesOnly (ownLaneEnable_changesOnly l) _ _ _ s).abides_of
  | laneDisable p l => exact (respond_driven_changesOnly (ownLaneDisable_changesOnly l) _ _ _ s).abides_of
  | tunnelClear p => exact (respond_driven_changesOnly ownTunnelClear_changesOnly _ _ _ s).abides
  | stationOff p i => exact (respond_driven_changesOnly (ownStationOff_changesOnly i) _ _ _ s).abides
  | stationOn p i => exact (respond_driven_changesOnly (ownStationOn_changesOnly i) _ _ _ s).abides
  | stationReset p i => exact (respond_driven_changesOnly (ownStationReset_changesOnly i) _ _ _ s).abides
  | claim p => exact (respond_changesOnly (ownClaim_changesOnly p) _ _ _ s).abides_of
  | yield p =>
    exact (respond_changesOnly (holderOnly_changesOnly (setHolder_changesOnly none) p) _ _ _ s).abides_of
  | openTunnel p => exact (respond_driven_changesOnly (holderOnly_changesOnly ownOpen_changesOnly p) _ _ _ s).abides
  | drain p => exact (respond_driven_changesOnly (holderOnly_changesOnly ownDrain_changesOnly p) _ _ _ s).abides
  | stop p => exact (respond_driven_changesOnly (holderOnly_changesOnly ownStop_changesOnly p) _ _ _ s).abides
  | pause p => exact (respond_driven_changesOnly (holderOrConsole_changesOnly ownPause_changesOnly p) _ _ _ s).abides
  | resume p => exact (respond_driven_changesOnly (holderOrConsole_changesOnly ownResume_changesOnly p) _ _ _ s).abides
  | forceSpeed p cls =>
    exact (respond_driven_changesOnly (holderOnly_changesOnly (owner := ownForceSpeed cls)
      (setForced_changesOnly _) p) _ _ _ s).abides_of
  | releaseSpeed p =>
    exact (respond_driven_changesOnly (holderOnly_changesOnly (owner := ownReleaseSpeed)
      (setForced_changesOnly none) p) _ _ _ s).abides_of
  | definePlan p plan name price cls list =>
    exact (respond_changesOnly (ownDefinePlan_changesOnly plan name price cls list) _ _ _ s).abides_of
  | erasePlan p n => exact (respond_changesOnly (ownErasePlan_changesOnly n) _ _ _ s).abides_of
  | publish p n => exact (respond_changesOnly (ownPublish_changesOnly n) _ _ _ s).abides_of
  | withdraw p n => exact (respond_changesOnly (ownWithdraw_changesOnly n) _ _ _ s).abides_of
  | setService p code presence price limit =>
    exact (respond_changesOnly (ownSetService_changesOnly code presence price limit) _ _ _ s).abides_of
  | setStation p i r => exact (respond_driven_changesOnly (ownSetStation_changesOnly i r) _ _ _ s).abides_of
  | setConstants p k => exact (respond_driven_changesOnly (ownSetConstants_changesOnly k) _ _ _ s).abides_of
  | setResponse p kind cls => exact (respond_changesOnly (ownSetResponse_changesOnly kind cls) _ _ _ s).abides_of
  | issueCredit p value plan => exact (respond_changesOnly (ownIssueCredit_changesOnly value plan) _ _ _ s).abides
  | save p => exact (respond_changesOnly ownSave_changesOnly _ _ _ s).abides_of
  | _ => exact .refl _ s

/-- Every command but a received byte and the start-up event abides by the rules of the settings. -/
theorem after_abides (c : Instr) (hcarries : carriesAny c = false) (s : State) : Abides c s (after c s) := by
  cases hp : requestPort c with
  | some p =>
    rw [after_request c p hp]
    exact runRequest_abides c s
  | none =>
    cases c with
    | startUp | byteReceived => exact absurd hcarries nofun
    | unknownKind p kind => exact (ChangesOnly.ofPorts (handleUnknownKind_portsOnly p kind s)).abides
    | frameDiscarded p cause => exact (portEvent_changesOnly (discardFrame_portsOnly p cause) s).abides
    | gapTimerExpiry p => exact (portEvent_changesOnly (gapExpired_portsOnly p) s).abides
    | txStart p => exact (portEvent_changesOnly (updatePort_portsOnly p startFrame) s).abides
    | txFrameSent p => exact (portEvent_changesOnly (updatePort_portsOnly p endFrame) s).abides
    | encoderPulse => exact (event_changesOnly pulse_changesOnly s).abides
    | checkEyeBlockingEdge k => exact (lineEdge_changesOnly (fun u => .ofTrack (eyeBlocked_track _ u)) _ _ s).abides
    | checkEyeClearEdge k => exact (lineEdge_changesOnly (fun u => .ofTrack (eyeCleared_track _ u)) _ _ s).abides
    | exitEyeBlockingEdge => exact (lineEdge_changesOnly (fun u => .ofTrack (exitBlocked_track u)) _ _ s).abides
    | exitEyeClearEdge => exact (lineEdge_changesOnly (fun u => .ofTrack (exitCleared_track u)) _ _ s).abides
    | entranceEyeBlockingEdge =>
      exact (lineEdge_changesOnly (fun u => .ofKept (entranceBlocked_kept u)) _ _ s).abides_of
    | entranceEyeClearEdge => exact (lineEdge_changesOnly (fun u => .ofTrack (entranceCleared_track u)) _ _ s).abides
    | loopOccupied l => exact (lineEdge_changesOnly (fun u => .ofGrant (arbitrate_grantOnly u)) _ _ s).abides
    | loopVacant l => exact (lineEdge_changesOnly .refl _ _ s).abides
    | proofAssert i => exact (lineEdge_changesOnly (fun u => .ofTrack (proofOn_track i u)) _ _ s).abides
    | proofDeassert i => exact (lineEdge_changesOnly (fun u => .ofTrack (proofOff_track i u)) _ _ s).abides
    | bumperOvertravelEdge slot line active =>
      exact (lineEdge_changesOnly (fun u => .ofRaise (raiseEach_frame _ u)) _ _ s
        (setSwitch_lineOnly slot line active)).abides
    | estopLoopOpen => exact (lineEdge_changesOnly (raiseIncident_changesOnly _) _ _ s).abides
    | estopLoopClose => exact (lineEdge_changesOnly .refl _ _ s).abides
    | reset => exact (holdReset_changesOnly s).abides_of
    | grantTimerExpiry => exact (event_changesOnly (fun u => .ofTrack (grantExpired_track u)) s).abides
    | startTimerExpiry => exact (event_changesOnly (fun u => .ofTrack (startExpired_track u)) s).abides
    | exitBlockTimerExpiry => exact (event_changesOnly (fun u => .ofTrack (exitBlockExpired_track u)) s).abides
    | proofTimerExpiry i => exact (event_changesOnly (fun u => .ofTrack (proofExpired_track i u)) s).abides
    | retryTimerExpiry i => exact (event_changesOnly (fun u => .ofTrack (retryExpired_track i u)) s).abides
    | gateWindowEnd => exact (event_changesOnly windowEnd_changesOnly s).abides
    | scanComplete samples => exact (event_changesOnly (fun u => .ofTrack (scan_track samples u)) s).abides
    | secondsTick => exact (event_changesOnly (w := [.seconds]) (f := tickSeconds) (fun _ => .of_eqs) s).abides_of
    | saveComplete verified => exact (event_changesOnly (finishWrite_changesOnly verified) s).abides_of
    | _ => exact absurd hp nofun

/-- Settles O16: each clause is one setting that the command is not named for. -/
theorem settingsChangeByTheirOwnRequests : Obligations.SettingsChangeByTheirOwnRequests := by
  intro c s t hexec hcarries
  rw [exec_eq_after] at hexec
  obtain rfl := Host.Outcome.next.inj hexec
  have h := after_abides c hcarries s
  refine ⟨fun hk => ⟨h .plans hk, h .planStore hk⟩, h .services, h .table, h .consts, h .response, h .holder, h .forced,
    h .enabled, h .saleCounter, h .lastSale, fun hk hc => h .lanes ?_, h .seconds, fun hk hv hc => h .settings ?_⟩
  · rintro (hnamed | hnamed)
    · exact hk hnamed
    · exact hc hnamed
  · rintro (hnamed | ⟨v, hnamed⟩ | hnamed)
    · exact hk hnamed
    · exact hv v hnamed
    · exact hc hnamed

end Sys2Proof.Machine
end

