-- ==== Sys2Proof/Proofs/PlanStore.lean ====
section
/-! The plan store (R50, R52, R53, R189): the runs of the plans fill it, a replaced run keeps it filled, and no other
command writes it, the stored image or the snapshot but a write, its end and the start-up event. -/

namespace Sys2Proof.Machine

/-! ### Lengths of the runs -/

/-- The plans below a plan, the plan itself and the plans above it, in the order of the store (R50). -/
theorem allPlans_split (i : Fin 12) :
    allPlans = (allPlans.filter fun j => j < i) ++ i :: (allPlans.filter fun j => i < j) := by
  revert i
  decide

/-- The sum of the list lengths of the plans numbered above. -/
def lensAbove (plans : Tab 12 Plan) (i : Fin 12) : Nat :=
  ((allPlans.filter fun j => i < j).map fun j => (tabGet plans j).len).sum

/-- The lengths of all runs: those below a plan's offset, the plan's own, those above (R50). -/
theorem sum_lens (plans : Tab 12 Plan) (i : Fin 12) : (allPlans.map fun j => (tabGet plans j).len).sum =
    planOffset plans i + (tabGet plans i).len + lensAbove plans i := by
  conv_lhs => rw [allPlans_split i]
  simp [planOffset, lensAbove, Nat.add_assoc]

/-- A plan's offset does not depend on the plan's own record (R50). -/
@[simp] theorem planOffset_tabSet (plans : Tab 12 Plan) (i : Fin 12) (q : Plan) :
    planOffset (tabSet plans i q) i = planOffset plans i := by
  unfold planOffset
  congr 1
  refine List.map_congr_left fun j hj => ?_
  have hlt : j < i := by simpa using (List.mem_filter.mp hj).2
  rw [tabGet_tabSet_ne plans i j q hlt.ne']

theorem lensAbove_tabSet (plans : Tab 12 Plan) (i : Fin 12) (q : Plan) :
    lensAbove (tabSet plans i q) i = lensAbove plans i := by
  unfold lensAbove
  congr 1
  refine List.map_congr_left fun j hj => ?_
  have hlt : i < j := by simpa using (List.mem_filter.mp hj).2
  rw [tabGet_tabSet_ne plans i j q hlt.ne]

/-- An EMPTY plan has no run, once the record of one plan is replaced (R50). -/
theorem empty_len_tabSet {plans : Tab 12 Plan} {i : Fin 12} {q : Plan}
    (hplans : ∀ j ∈ allPlans, (tabGet plans j).state = .empty → (tabGet plans j).len = 0)
    (hq : q.state = .empty → q.len = 0) :
    ∀ j ∈ allPlans, (tabGet (tabSet plans i q) j).state = .empty → (tabGet (tabSet plans i q) j).len = 0 := by
  intro j hj
  by_cases hij : i = j
  · subst hij
    simpa using hq
  · rw [tabGet_tabSet_ne plans i j q hij]
    exact hplans j hj

/-- A plan's run replaced: the runs below stay, the runs above move, and the store stays filled (R52, R53). -/
theorem Packed.replace {plans : Tab 12 Plan} {store : List SvcLevel} (h : Packed plans store) (i : Fin 12) (q : Plan)
    (list : List SvcLevel) (hlen : q.len = list.length)
    (hroom : store.length - (tabGet plans i).len + list.length ≤ 96) (hq : q.state = .empty → q.len = 0) :
    Packed (tabSet plans i q) (store.take (planOffset plans i) ++ list ++
      store.drop (planOffset plans i + (tabGet plans i).len)) := by
  obtain ⟨hfill, -, hempty⟩ := h
  have hold := sum_lens plans i
  have hnew := sum_lens (tabSet plans i q) i
  rw [planOffset_tabSet, lensAbove_tabSet, tabGet_tabSet_same] at hnew
  refine ⟨?_, ?_, empty_len_tabSet hempty hq⟩
  · rw [hnew]
    simp only [List.length_append, List.length_take, List.length_drop]
    omega
  · simp only [List.length_append, List.length_take, List.length_drop]
    omega

/-- A plan in another state of its life keeps its run (R54, R55). -/
theorem Packed.setState {plans : Tab 12 Plan} {store : List SvcLevel} (h : Packed plans store) (i : Fin 12)
    {st : PlanState} (hst : st ≠ .empty) : Packed (tabSet plans i { tabGet plans i with state := st }) store := by
  obtain ⟨hfill, hmax, hempty⟩ := h
  refine ⟨?_, hmax, empty_len_tabSet hempty fun hst' => absurd hst' hst⟩
  have hnew := sum_lens (tabSet plans i { tabGet plans i with state := st }) i
  rw [planOffset_tabSet, lensAbove_tabSet, tabGet_tabSet_same] at hnew
  rw [hnew, hfill, sum_lens plans i]

/-- The default plan table and plan store (R48, R193). -/
theorem defaults_packed : Packed Image.defaults.plans Image.defaults.store := by
  have hblank : ∀ j, tabGet Image.defaults.plans j = Plan.blank := fun j => by simp [tabGet, Image.defaults]
  refine ⟨?_, Nat.zero_le _, fun j _ _ => ?_⟩
  · simp only [hblank]
    rfl
  · rw [hblank]
    rfl

/-! ### The live store and the images -/

theorem mem_imagesOf (s : State) (m : Image) :
    m ∈ imagesOf s ↔ (s.store.marker = true ∧ m = s.store.image) ∨ s.store.writing = some m := by
  unfold imagesOf
  cases s.store.marker <;> simp [Option.mem_toList]

/-- The invariant speaks of the plans, the plan store and the Settings Store alone. -/
theorem StorePacked.of_same {s t : State} (hs : StorePacked s) (hplans : t.sales.plans = s.sales.plans)
    (hlist : t.sales.store = s.sales.store) (hsettings : t.store = s.store) : StorePacked t := by
  unfold StorePacked imagesOf
  rw [hplans, hlist, hsettings]
  exact hs

theorem StorePacked.ofPorts {s t : State} (hs : StorePacked s) (h : PortsOnly s t) : StorePacked t :=
  hs.of_same (by rw [h]) (by rw [h]) (by rw [h])

/-- A command that the rules of the plans and of the Settings Store do not name. -/
theorem StorePacked.of_abides {c : Instr} {s t : State} (hs : StorePacked s) (h : Abides c s t)
    (hplans : ¬ Setting.plans.NamedBy c) (hsettings : ¬ Setting.settings.NamedBy c) : StorePacked t :=
  hs.of_same (h .plans hplans) (h .planStore hplans) (h .settings hsettings)

/-- A request keeps the invariant where its owner does. -/
theorem respond_packed {owner : State → State × Answer} (ho : ∀ s, StorePacked s → StorePacked (owner s).1) (p : Port)
    (k : ReqKind) (form : Bool) (s : State) (hs : StorePacked s) : StorePacked (respond p k form owner s) := by
  obtain h | ⟨-, -, -, -, h⟩ := respond_cases p k form owner s
  · exact hs.ofPorts h
  · rw [h]
    exact (ho _ (hs.ofPorts (frameDone_portsOnly p s))).ofPorts (sendAnswer_portsOnly _ _ _ _)

/-! ### The requests that write plans -/

theorem storePlan_packed {i : Fin 12} {q : Plan} {list : List SvcLevel} {s : State} (hs : StorePacked s)
    (hlen : q.len = list.length)
    (hroom : s.sales.store.length - (tabGet s.sales.plans i).len + list.length ≤ 96)
    (hq : q.state = .empty → q.len = 0) : StorePacked (storePlan i q list s) :=
  ⟨hs.1.replace i q list hlen hroom hq, hs.2⟩

theorem setPlanState_packed {i : Fin 12} {st : PlanState} {s : State} (hs : StorePacked s) (hst : st ≠ .empty) :
    StorePacked (setPlanState i st s) :=
  ⟨hs.1.setState i hst, hs.2⟩

theorem StorePacked.pair_ite {α : Type} {a b : State × α} {p : Prop} [Decidable p] (ha : p → StorePacked a.1)
    (hb : ¬p → StorePacked b.1) : StorePacked (if p then a else b).1 := by
  split
  · next h => exact ha h
  · next h => exact hb h

/-- DEFINE_PLAN stores a list only where the store holds it (R51, R52). -/
theorem ownDefinePlan_packed (plan : Nat) (name : List Nat) (price cls : Nat) (list : List RawPair) (s : State)
    (hs : StorePacked s) : StorePacked (ownDefinePlan plan name price cls list s).1 := by
  unfold ownDefinePlan
  refine .pair_ite (fun _ => hs) fun _ => ?_
  split
  · exact hs
  · refine .pair_ite (fun _ => hs) fun _ => .pair_ite (fun _ => hs) fun _ => .pair_ite (fun _ => hs) fun _ =>
      .pair_ite (fun _ => hs) fun hroom => ?_
    have hlevels : (clampLevels list).length = list.length := List.length_map _
    refine storePlan_packed hs hlevels.symm ?_ nofun
    rw [hlevels]
    exact Nat.le_of_not_lt hroom

/-- ERASE_PLAN takes a run out of the store (R53). -/
theorem ownErasePlan_packed (plan : Nat) (s : State) (hs : StorePacked s) : StorePacked (ownErasePlan plan s).1 := by
  have herase : ∀ i, StorePacked (storePlan i Plan.blank [] s) := fun i => by
    obtain ⟨-, hmax, -⟩ := hs.1
    exact storePlan_packed hs rfl ((Nat.sub_le _ _).trans hmax) fun _ => rfl
  unfold ownErasePlan
  refine .pair_ite (fun _ => hs) fun _ => ?_
  split
  · exact hs
  · split
    · exact hs
    · exact hs
    all_goals exact herase _

theorem ownPublish_packed (plan : Nat) (s : State) (hs : StorePacked s) : StorePacked (ownPublish plan s).1 := by
  unfold ownPublish
  refine .pair_ite (fun _ => hs) fun _ => ?_
  split
  · exact hs
  · split
    · exact hs
    · exact hs
    all_goals exact setPlanState_packed hs nofun

theorem ownWithdraw_packed (plan : Nat) (s : State) (hs : StorePacked s) : StorePacked (ownWithdraw plan s).1 := by
  unfold ownWithdraw
  refine .pair_ite (fun _ => hs) fun _ => ?_
  split
  · exact hs
  · split
    case h_4 => exact setPlanState_packed hs nofun
    all_goals exact hs

/-! ### The Settings Store -/

/-- SAVE takes the live plans and plan store into the snapshot (R190). -/
theorem ownSave_packed (s : State) (hs : StorePacked s) : StorePacked (ownSave s).1 := by
  refine .pair_ite (fun _ => hs) fun _ => ⟨hs.1, fun m hm => ?_⟩
  obtain ⟨hmarker, -⟩ | hsnapshot := (mem_imagesOf _ m).mp hm
  · exact absurd hmarker nofun
  · obtain rfl : imageOf s = m := Option.some.inj hsnapshot
    exact hs.1

/-- No image is left where the marker is cleared and no write is in progress (R192, R195). -/
theorem StorePacked.of_no_image {s t : State} (hs : StorePacked s) (hplans : t.sales.plans = s.sales.plans)
    (hlist : t.sales.store = s.sales.store) (hmarker : t.store.marker = false) (hwriting : t.store.writing = none) :
    StorePacked t := by
  refine ⟨by rw [hplans, hlist]; exact hs.1, fun m hm => ?_⟩
  rw [mem_imagesOf, hmarker, hwriting] at hm
  simp at hm

/-- A verified completion makes the snapshot the image, a failed one leaves none (R192). -/
theorem finishWrite_packed (verified : Bool) (s : State) (hs : StorePacked s) :
    StorePacked (finishWrite verified s) := by
  unfold finishWrite
  split
  · exact hs
  · next image hwriting =>
    split
    · refine ⟨hs.1, fun m hm => ?_⟩
      obtain ⟨-, hm⟩ | hm := (mem_imagesOf _ m).mp hm
      · obtain rfl : m = image := hm
        exact hs.2 m ((mem_imagesOf s m).mpr (.inr hwriting))
      · exact absurd hm nofun
    · exact hs.of_no_image rfl rfl rfl rfl

/-- A reset cuts a write short (R195). -/
theorem holdReset_packed (s : State) (hs : StorePacked s) : StorePacked (holdReset s) := by
  have hcut : StorePacked (cutWrite s) := by
    unfold cutWrite
    split
    · exact hs.of_no_image rfl rfl rfl rfl
    · exact hs
  exact hcut.of_same rfl rfl rfl

/-- The start-up event loads an image that was packed, or the defaults (R193). -/
theorem loadRecords_packed (cause : ResetCause) (s : State) (hs : StorePacked s) :
    StorePacked (loadRecords cause s) := by
  refine ⟨?_, fun m hm => ?_⟩
  · change Packed (loadedImage s).plans (loadedImage s).store
    unfold loadedImage
    split
    · next hmarker => exact hs.2 _ ((mem_imagesOf s _).mpr (.inl ⟨hmarker, rfl⟩))
    · exact defaults_packed
  · obtain himage | hwriting := (mem_imagesOf _ m).mp hm
    · exact hs.2 m ((mem_imagesOf s m).mpr (.inl himage))
    · exact absurd hwriting nofun

theorem startUp_packed (cause : ResetCause) (s : State) (hs : StorePacked s) : StorePacked (startUp cause s) := by
  have hload := loadRecords_packed cause s hs
  have hraise : Kept (loadRecords cause s) (raiseEstop (loadRecords cause s)) := raiseIncident_kept _ _
  unfold startUp
  split
  · dsimp only
    refine StorePacked.of_same (s := loadRecords cause s) hload ?_ ?_ ?_ <;> simp only [driveLines_fields] <;> split
    · rfl
    · exact hraise.plans
    · rfl
    · exact hraise.planStore
    · rfl
    · exact hraise.settings
  · exact hs

/-! ### Every command -/

@[simp] theorem kindOf_carList (p : Port) (form : CarListForm) : kindOf (.carList p form) = some .carList := by
  cases form <;> rfl

@[simp] theorem kindOf_stationStatus (p : Port) (station : Option Nat) :
    kindOf (.stationStatus p station) = some .stationStatus := by
  cases station <;> rfl

/-- A command that arrives on no port as a request has no request kind. -/
theorem kindOf_of_no_port {c : Instr} (h : requestPort c = none) : kindOf c = none := by
  cases c <;> first | rfl | exact absurd h nofun

theorem runRequest_packed (c : Instr) (s : State) (hs : StorePacked s) : StorePacked (runRequest c s) := by
  by_cases hplans : Setting.plans.NamedBy c
  · cases c with
    | definePlan p plan name price cls list =>
      exact respond_packed (ownDefinePlan_packed plan name price cls list) _ _ _ s hs
    | erasePlan p n => exact respond_packed (ownErasePlan_packed n) _ _ _ s hs
    | publish p n => exact respond_packed (ownPublish_packed n) _ _ _ s hs
    | withdraw p n => exact respond_packed (ownWithdraw_packed n) _ _ _ s hs
    | carList p form => simp [Setting.NamedBy] at hplans
    | stationStatus p station => simp [Setting.NamedBy] at hplans
    | _ => simp [Setting.NamedBy, kindOf, encodeRequest] at hplans
  · by_cases hsettings : Setting.settings.NamedBy c
    · obtain hsave | ⟨v, rfl⟩ | rfl := hsettings
      · cases c with
        | save p => exact respond_packed ownSave_packed _ _ _ s hs
        | carList p form => simp at hsave
        | stationStatus p station => simp at hsave
        | _ => simp [kindOf, encodeRequest] at hsave
      · exact hs
      · exact hs
    · exact hs.of_abides (runRequest_abides c s) hplans hsettings

theorem handleFrame_packed (p : Port) (kind : Nat) (payload : List Byte) (s : State) (hs : StorePacked s) :
    StorePacked (handleFrame p kind payload s) := by
  unfold handleFrame
  split
  · exact hs.ofPorts (frameDone_portsOnly p s)
  · split
    · exact hs.ofPorts (handleUnknownKind_portsOnly p kind s)
    · split
      · exact respond_packed (fun _ hu => hu) _ _ _ s hs
      · exact runRequest_packed _ s hs

theorem receive_packed (p : Port) (byte : Byte) (s : State) (hs : StorePacked s) : StorePacked (receive p byte s) := by
  have hdone : StorePacked (frameDone p s) := hs.ofPorts (frameDone_portsOnly p s)
  have hrx : ∀ x, StorePacked (setRx p x s) := fun x => hs.ofPorts (updatePort_portsOnly p _ s)
  unfold receive completeFrame
  simp only
  split
  · split
    · exact hrx _
    · exact hs
  · split
    · exact hrx _
    · exact hdone
  · exact hrx _
  · split
    · split
      · exact hdone
      · exact handleFrame_packed _ _ _ s hs
    · exact hdone

/-- Every command keeps the plan stores packed. -/
theorem after_packed (c : Instr) (s : State) (hs : StorePacked s) : StorePacked (after c s) := by
  cases hp : requestPort c with
  | some p =>
    rw [after_request c p hp]
    exact runRequest_packed c s hs
  | none =>
    cases c with
    | startUp cause => exact startUp_packed cause s hs
    | reset => exact holdReset_packed s hs
    | saveComplete verified =>
      change StorePacked (event (finishWrite verified) s)
      unfold event
      split
      · exact hs
      · exact (finishWrite_packed verified s hs).of_same rfl rfl rfl
    | byteReceived p byte =>
      change StorePacked (portEvent (receive p byte) s)
      unfold portEvent
      split
      · exact hs
      · exact receive_packed p byte s hs
    | _ =>
      have hkind := kindOf_of_no_port hp
      exact hs.of_abides (after_abides _ rfl s) (by simp [Setting.NamedBy, hkind]) (by simp [Setting.NamedBy, hkind])

/-- Settles O12: a step takes its command out of the waiting queue, which the plan stores do not depend on, and runs
it. -/
theorem planStoreStaysPacked : Obligations.PlanStoreStaysPacked := by
  intro s t hs hstep
  unfold step at hstep
  split at hstep
  · obtain rfl := Host.Outcome.next.inj hstep
    exact hs
  · next c rest _ =>
    rw [exec_eq_after] at hstep
    obtain rfl := Host.Outcome.next.inj hstep
    exact after_packed c _ (hs.of_same (t := { s with pending := rest }) rfl rfl rfl)

end Sys2Proof.Machine
end

