-- ==== Sys2Proof/Proofs/Operands.lean ====
section
/-! Which operands name a record (R48, R58, R199), and how a request that its owner accepts, refuses or only reads for
is answered (R180, R181). -/

namespace Sys2Proof.Machine

/-! ### Numbers that name a record -/

@[simp] theorem planIndex_succ (i : Fin 12) : planIndex (i.val + 1) = some i := by
  simp [planIndex, Nat.succ_le_of_lt i.isLt]

theorem planIndex_eq_none_iff (n : Nat) : planIndex n = none ↔ n = 0 ∨ 12 < n := by
  simp only [planIndex, dite_eq_right_iff, reduceCtorEq, imp_false]
  omega

@[simp] theorem codeIndex_succ (c : Fin 24) : codeIndex (c.val + 1) = some c := by
  simp [codeIndex, Nat.succ_le_of_lt c.isLt]

theorem codeIndex_eq_none_iff (n : Nat) : codeIndex n = none ↔ n = 0 ∨ 24 < n := by
  simp only [codeIndex, dite_eq_right_iff, reduceCtorEq, imp_false]
  omega

@[simp] theorem stationIndex_val (i : Fin 16) : stationIndex i.val = some i := by simp [stationIndex]

theorem stationIndex_of_bad {n : Nat} (h : 15 < n) : stationIndex n = none := dif_neg (by omega)

@[simp] theorem kindOperand_code (k : IncidentKind) : kindOperand (incidentKindCode k) = some k := by cases k <;> rfl

theorem kindOperand_of_bad {n : Nat} (h : n = 0 ∨ 11 < n) : kindOperand n = none := by
  unfold kindOperand
  split
  case h_12 => rfl
  all_goals omega

@[simp] theorem classOperand_code (c : IncidentClass) : classOperand (classCode c) = some c := by cases c <;> rfl

theorem classOperand_of_bad {n : Nat} (h : 2 < n) : classOperand n = none := by
  unfold classOperand
  split
  case h_4 => rfl
  all_goals omega

/-- The lane that a lane request concerns: the port's own, or the one that the console or the office names (R182). -/
theorem laneOperand_of_named {p : Port} {lane : Option Nat} {l : Lane}
    (h : (laneOfPort p = some l ∧ lane = none) ∨ (laneOfPort p = none ∧ lane = some (laneCode l))) :
    laneForm p lane = true ∧ laneOperand p lane = some l := by
  obtain ⟨hp, rfl⟩ | ⟨hp, rfl⟩ := h
  · refine ⟨?_, by simp [laneOperand, hp]⟩
    cases p <;> first | rfl | exact absurd hp nofun
  · refine ⟨?_, by simp [laneOperand, hp, laneOfByte_laneCode]⟩
    cases p <;> first | rfl | exact absurd hp nofun

/-- A lane code outside its values names no lane (R199). -/
theorem laneOperand_of_bad {p : Port} {n : Nat} (hp : laneOfPort p = none) (h : 2 < n) :
    laneForm p (some n) = true ∧ laneOperand p (some n) = none := by
  refine ⟨?_, by simp [laneOperand, hp, laneOfByte_of_bad h]⟩
  cases p <;> first | rfl | exact absurd hp nofun

theorem hasRepeat_iff (l : List Nat) : hasRepeat l = true ↔ ¬ l.Nodup := by
  induction l with
  | nil => simp [hasRepeat]
  | cons x xs ih =>
    rw [hasRepeat, Bool.or_eq_true, ih, List.contains_iff_mem, List.nodup_cons]
    tauto

theorem saving_eq_false {s : State} (h : s.store.writing = none) : saving s = false := by simp [saving, h]

/-! ### Answers of an owner that drives no line -/

section
variable {p : Port} {k : ReqKind} {s : State} (h : Reaches p k s)
include h

/-- The owner's answer joins the queue of the state that the owner leaves (R180, R181). -/
theorem respond_answers {owner : State → State × Answer} {t : State} {a : Answer}
    (ho : owner (frameDone p s) = (t, a)) : respond p k true owner s = sendAnswer p (kindByte k) a t := by
  rw [respond_of_reaches h, ho]

theorem respond_ok {owner : State → State × Answer} {t : State} {fields : List Byte}
    (ho : owner (frameDone p s) = (t, answerOk fields)) : respond p k true owner s = answeredOk p k fields t :=
  respond_answers h ho

/-- A refusal leaves every record unchanged (R181). -/
theorem respond_refuse {owner : State → State × Answer} {r : Result}
    (ho : owner (frameDone p s) = refuse r (frameDone p s)) : respond p k true owner s = refusedWith p k r s :=
  respond_answers h ho

/-- A read changes nothing but its port (R181). -/
theorem respond_reading {f : State → Answer} {fields : List Byte} (hf : f (frameDone p s) = answerOk fields) :
    respond p k true (reading f) s = replied p k fields s :=
  respond_ok h (by rw [reading, hf])

/-- A refused read changes nothing but its port (R181). -/
theorem respond_reading_refusal {f : State → Answer} {r : Result} (hf : f (frameDone p s) = refusal r) :
    respond p k true (reading f) s = refusedWith p k r s :=
  respond_refuse h (by rw [reading, hf, refuse])

end

end Sys2Proof.Machine
end

