-- ==== Sys2Proof/Proofs/PlanRequests.lean ====
section
/-! The office's requests on plans, services, responses and credits (R49 to R55, R59, R86, R153): what each owner
answers in each case, one lemma per case. -/

namespace Sys2Proof.Machine

/-! ### The tests and the effect of DEFINE_PLAN -/

/-- Test 3 of R51: the list and the name are allowed. -/
theorem defineAllowed_iff (list : List RawPair) (name : List Nat) : (listAllowed list && nameAllowed name) = true ↔
    (1 ≤ list.length ∧ list.length ≤ 10 ∧ ∀ q ∈ list, 1 ≤ q.code ∧ q.code ≤ 24) ∧
      name.length ≤ 16 ∧ ∀ c ∈ name, 32 ≤ c ∧ c ≤ 126 := by
  have hcode : ∀ n, (codeIndex n).isSome = true ↔ 1 ≤ n ∧ n ≤ 24 := fun n => by
    rw [← Option.not_isNone, Bool.not_eq_true', Option.isNone_eq_false_iff, Option.isSome_iff_ne_none, Ne,
      codeIndex_eq_none_iff]
    omega
  simp only [listAllowed, nameAllowed, Bool.and_eq_true, decide_eq_true_eq, List.all_eq_true, hcode, and_assoc]

/-- A list or a name that R51 does not allow. -/
theorem defineAllowed_eq_false {list : List RawPair} {name : List Nat}
    (h : list = [] ∨ 10 < list.length ∨ (∃ q ∈ list, q.code = 0 ∨ 24 < q.code) ∨ 16 < name.length ∨
      ∃ c ∈ name, c < 32 ∨ 126 < c) : (listAllowed list && nameAllowed name) = false := by
  rw [← Bool.not_eq_true, defineAllowed_iff]
  rintro ⟨⟨hlow, hhigh, hcodes⟩, hname, hchars⟩
  obtain rfl | hlong | ⟨q, hq, hbad⟩ | hlong | ⟨c, hc, hbad⟩ := h
  · exact absurd hlow (by decide)
  · omega
  · have := hcodes q hq
    omega
  · omega
  · have := hchars c hc
    omega

/-- The run of a plan replaced in a store cut at the plan's run (R52, R53). -/
theorem repack_of_split {i : Fin 12} {s : State} {below own above : List SvcLevel} (list : List SvcLevel)
    (hsplit : s.sales.store = below ++ own ++ above) (hbelow : below.length = planOffset s.sales.plans i)
    (hown : own.length = (tabGet s.sales.plans i).len) : repack i list s = below ++ list ++ above := by
  have hrun : (below ++ own).length = planOffset s.sales.plans i + (tabGet s.sales.plans i).len := by
    rw [List.length_append, hbelow, hown]
  rw [repack, hsplit, ← hrun, List.drop_left, ← hbelow, List.append_assoc below own, List.take_left]

/-- A plan stored with its list: the plan record and the plan's run of the store (R52, R53). -/
theorem storePlan_of_split {i : Fin 12} {s : State} {below own above : List SvcLevel} (q : Plan) (list : List SvcLevel)
    (hsplit : s.sales.store = below ++ own ++ above) (hbelow : below.length = planOffset s.sales.plans i)
    (hown : own.length = (tabGet s.sales.plans i).len) : storePlan i q list s =
      { s with sales.plans := tabSet s.sales.plans i q, sales.store := below ++ list ++ above } := by
  rw [storePlan, repack_of_split list hsplit hbelow hown]
  rfl

section
variable {i : Fin 12} {s : State} (hw : s.store.writing = none)
include hw

theorem ownDefinePlan_on_sale (name : List Nat) (price cls : Nat) (list : List RawPair)
    (hst : (tabGet s.sales.plans i).state = .onSale) :
    ownDefinePlan (i.val + 1) name price cls list s = refuse .state s := by
  simp [ownDefinePlan, saving_eq_false hw, hst]

theorem ownDefinePlan_not_allowed {name : List Nat} (price cls : Nat) {list : List RawPair}
    (hst : (tabGet s.sales.plans i).state ≠ .onSale) (hbad : (listAllowed list && nameAllowed name) = false) :
    ownDefinePlan (i.val + 1) name price cls list s = refuse .badValue s := by
  simp only [ownDefinePlan, saving_eq_false hw, planIndex_succ, hst, hbad]
  rfl

theorem ownDefinePlan_repeats {name : List Nat} (price cls : Nat) {list : List RawPair}
    (hst : (tabGet s.sales.plans i).state ≠ .onSale) (hok : (listAllowed list && nameAllowed name) = true)
    (hrep : ¬(list.map RawPair.code).Nodup) :
    ownDefinePlan (i.val + 1) name price cls list s = refuse .duplicate s := by
  simp only [ownDefinePlan, saving_eq_false hw, planIndex_succ, hst, hok, (hasRepeat_iff _).mpr hrep]
  rfl

/-- A DEFINE_PLAN that passes tests 1 to 5 of R51: the room for the list decides (R51, R52). -/
theorem ownDefinePlan_tested {name : List Nat} (price cls : Nat) {list : List RawPair}
    (hst : (tabGet s.sales.plans i).state ≠ .onSale) (hok : (listAllowed list && nameAllowed name) = true)
    (hnodup : (list.map RawPair.code).Nodup) : ownDefinePlan (i.val + 1) name price cls list s =
      if 96 < s.sales.store.length - (tabGet s.sales.plans i).len + list.length then
        (s, { code := .full, fields := b1 s.sales.store.length })
      else (definedPlan i name price cls list s, answerOk (defineFields i (definedPlan i name price cls list s))) := by
  have hrep : hasRepeat (list.map RawPair.code) = false := by
    rw [← Bool.not_eq_true, hasRepeat_iff, not_not]
    exact hnodup
  simp only [ownDefinePlan, saving_eq_false hw, planIndex_succ, hst, hok, hrep]
  rfl

section
variable {name : List Nat} (price cls : Nat) {list : List RawPair} {below own above : List SvcLevel}
  (hst : (tabGet s.sales.plans i).state ≠ .onSale) (hok : (listAllowed list && nameAllowed name) = true)
  (hnodup : (list.map RawPair.code).Nodup) (hsplit : s.sales.store = below ++ own ++ above)
  (hown : own.length = (tabGet s.sales.plans i).len)
include hst hok hnodup hsplit hown

/-- Test 6 of R51: the list does not fit. -/
theorem ownDefinePlan_full (hroom : 96 < below.length + list.length + above.length) :
    ownDefinePlan (i.val + 1) name price cls list s =
      (s, { code := .full, fields := b1 (below.length + own.length + above.length) }) := by
  have hlen : s.sales.store.length = below.length + own.length + above.length := by simp [hsplit, Nat.add_assoc]
  rw [ownDefinePlan_tested hw price cls hst hok hnodup, if_pos (by omega), hlen]

/-- A DEFINE_PLAN that passes the tests of R51 (R52). -/
theorem ownDefinePlan_accepts (hbelow : below.length = planOffset s.sales.plans i)
    (hroom : below.length + list.length + above.length ≤ 96) :
    ownDefinePlan (i.val + 1) name price cls list s =
      ({ s with
          sales.plans := tabSet s.sales.plans i
            { state := .draft, name := name, price := price, cls := clampTo cls 1 4, len := list.length }
          sales.store := below ++ clampLevels list ++ above },
        answerOk (b1 (i.val + 1) ++ b1 (clampTo cls 1 4) ++ b1 list.length ++
          (list.flatMap fun q => b1 (clampTo q.level 1 4)) ++ b1 below.length ++ b1 list.length ++
          b1 (below.length + list.length + above.length))) := by
  have hlen : s.sales.store.length = below.length + own.length + above.length := by simp [hsplit, Nat.add_assoc]
  have hlevels : (clampLevels list).length = list.length := List.length_map _
  have hrun : ((below ++ clampLevels list ++ above).drop below.length).take list.length = clampLevels list := by
    rw [List.append_assoc, List.drop_left, ← hlevels, List.take_left]
  rw [ownDefinePlan_tested hw price cls hst hok hnodup, if_neg (by omega)]
  simp only [definedPlan, storePlan_of_split _ _ hsplit hbelow hown, defineFields, planList, planOffset_tabSet,
    tabGet_tabSet_same, ← hbelow, hrun, hlevels, List.length_append]
  simp [clampLevels, List.flatMap_map]

end

/-! ### ERASE_PLAN, PUBLISH, WITHDRAW -/

theorem ownErasePlan_on_sale (hst : (tabGet s.sales.plans i).state = .onSale) :
    ownErasePlan (i.val + 1) s = refuse .state s := by
  simp [ownErasePlan, saving_eq_false hw, hst]

theorem ownErasePlan_empty (hst : (tabGet s.sales.plans i).state = .empty) :
    ownErasePlan (i.val + 1) s = (s, answerOk (b1 (i.val + 1) ++ b1 0)) := by
  simp [ownErasePlan, saving_eq_false hw, hst, planStateFields, planStateCode]

/-- ERASE_PLAN of a DRAFT or WITHDRAWN plan (R53). -/
theorem ownErasePlan_erases
    (hst : (tabGet s.sales.plans i).state = .draft ∨ (tabGet s.sales.plans i).state = .withdrawn)
    {below own above : List SvcLevel} (hsplit : s.sales.store = below ++ own ++ above)
    (hbelow : below.length = planOffset s.sales.plans i) (hown : own.length = (tabGet s.sales.plans i).len) :
    ownErasePlan (i.val + 1) s =
      ({ s with sales.plans := tabSet s.sales.plans i Plan.blank, sales.store := below ++ above },
        answerOk (b1 (i.val + 1) ++ b1 (below.length + above.length))) := by
  have hstore := storePlan_of_split Plan.blank [] hsplit hbelow hown
  rw [List.append_nil] at hstore
  obtain hst | hst := hst <;>
    simp [ownErasePlan, saving_eq_false hw, hst, hstore, eraseFields]

theorem ownPublish_empty (hst : (tabGet s.sales.plans i).state = .empty) :
    ownPublish (i.val + 1) s = refuse .state s := by
  simp [ownPublish, saving_eq_false hw, hst]

theorem ownPublish_on_sale (hst : (tabGet s.sales.plans i).state = .onSale) :
    ownPublish (i.val + 1) s = (s, answerOk (b1 (i.val + 1) ++ b1 2)) := by
  simp [ownPublish, saving_eq_false hw, hst, planStateFields, planStateCode]

theorem ownPublish_publishes
    (hst : (tabGet s.sales.plans i).state = .draft ∨ (tabGet s.sales.plans i).state = .withdrawn) :
    ownPublish (i.val + 1) s = (setPlanState i .onSale s, answerOk (b1 (i.val + 1) ++ b1 2)) := by
  obtain hst | hst := hst <;> simp [ownPublish, saving_eq_false hw, hst, planStateFields, planStateCode]

theorem ownWithdraw_never_on_sale
    (hst : (tabGet s.sales.plans i).state = .empty ∨ (tabGet s.sales.plans i).state = .draft) :
    ownWithdraw (i.val + 1) s = refuse .state s := by
  obtain hst | hst := hst <;> simp [ownWithdraw, saving_eq_false hw, hst]

theorem ownWithdraw_withdrawn (hst : (tabGet s.sales.plans i).state = .withdrawn) :
    ownWithdraw (i.val + 1) s = (s, answerOk (b1 (i.val + 1) ++ b1 3)) := by
  simp [ownWithdraw, saving_eq_false hw, hst, planStateFields, planStateCode]

theorem ownWithdraw_withdraws (hst : (tabGet s.sales.plans i).state = .onSale) :
    ownWithdraw (i.val + 1) s = (setPlanState i .withdrawn s, answerOk (b1 (i.val + 1) ++ b1 3)) := by
  simp [ownWithdraw, saving_eq_false hw, hst, planStateFields, planStateCode]

/-- A plan number that names no plan is refused by each of the four requests (R51, R53 to R55). -/
theorem planRequests_refuse {plan : Nat} (h : planIndex plan = none) (name : List Nat) (price cls : Nat)
    (list : List RawPair) : ownDefinePlan plan name price cls list s = refuse .badValue s ∧
      ownErasePlan plan s = refuse .badValue s ∧ ownPublish plan s = refuse .badValue s ∧
      ownWithdraw plan s = refuse .badValue s := by
  simp [ownDefinePlan, ownErasePlan, ownPublish, ownWithdraw, saving_eq_false hw, h]

end

/-- Settles O49: the owners' cases, each answered as its answer says. -/
theorem planRequestsFollowTheirTests : Obligations.PlanRequestsFollowTheirTests := by
  refine ⟨fun plan name price cls list s hw hbad => ?_, fun i name price cls list s h hw => ⟨fun hst => ?_,
    fun hst hbad => ?_, fun hst hlow hhigh hcodes hname hchars => ⟨fun hrep => ?_, fun hnodup below own above hsplit
      hbelow hown => ⟨fun hroom => ?_, fun hroom => ?_⟩⟩⟩, fun i s h hw => ⟨fun hst => ?_, fun hst => ?_,
    fun hst below own above hsplit hbelow hown => ?_⟩, fun i s h hw => ⟨fun hst => ?_, fun hst => ?_, fun hst => ?_⟩,
    fun i s h hw => ⟨fun hst => ?_, fun hst => ?_, fun hst => ?_⟩⟩
  · obtain ⟨hdefine, herase, hpublish, hwithdraw⟩ :=
      planRequests_refuse (s := frameDone .p4 s) hw ((planIndex_eq_none_iff plan).mpr hbad) name price cls list
    exact ⟨fun h => congrArg Host.Outcome.next (respond_refuse h hdefine),
      fun h => congrArg Host.Outcome.next (respond_refuse h herase),
      fun h => congrArg Host.Outcome.next (respond_refuse h hpublish),
      fun h => congrArg Host.Outcome.next (respond_refuse h hwithdraw)⟩
  · exact congrArg Host.Outcome.next
      (respond_refuse h (ownDefinePlan_on_sale (s := frameDone .p4 s) hw name price cls list hst))
  · exact congrArg Host.Outcome.next
      (respond_refuse h
        (ownDefinePlan_not_allowed (s := frameDone .p4 s) hw price cls hst (defineAllowed_eq_false hbad)))
  · have hok := (defineAllowed_iff list name).mpr ⟨⟨hlow, hhigh, hcodes⟩, hname, hchars⟩
    exact congrArg Host.Outcome.next
      (respond_refuse h (ownDefinePlan_repeats (s := frameDone .p4 s) hw price cls hst hok hrep))
  · have hok := (defineAllowed_iff list name).mpr ⟨⟨hlow, hhigh, hcodes⟩, hname, hchars⟩
    exact congrArg Host.Outcome.next (respond_answers h
      (ownDefinePlan_full (s := frameDone .p4 s) hw price cls hst hok hnodup hsplit hown hroom))
  · have hok := (defineAllowed_iff list name).mpr ⟨⟨hlow, hhigh, hcodes⟩, hname, hchars⟩
    exact congrArg Host.Outcome.next
      (respond_ok h (ownDefinePlan_accepts (s := frameDone .p4 s) hw price cls hst hok hnodup hsplit hown hbelow hroom))
  · exact congrArg Host.Outcome.next (respond_refuse h (ownErasePlan_on_sale (s := frameDone .p4 s) hw hst))
  · exact congrArg Host.Outcome.next (respond_ok h (ownErasePlan_empty (s := frameDone .p4 s) hw hst))
  · exact congrArg Host.Outcome.next
      (respond_ok h (ownErasePlan_erases (s := frameDone .p4 s) hw hst hsplit hbelow hown))
  · exact congrArg Host.Outcome.next (respond_refuse h (ownPublish_empty (s := frameDone .p4 s) hw hst))
  · exact congrArg Host.Outcome.next (respond_ok h (ownPublish_on_sale (s := frameDone .p4 s) hw hst))
  · exact congrArg Host.Outcome.next (respond_ok h (ownPublish_publishes (s := frameDone .p4 s) hw hst))
  · exact congrArg Host.Outcome.next (respond_refuse h (ownWithdraw_never_on_sale (s := frameDone .p4 s) hw hst))
  · exact congrArg Host.Outcome.next (respond_ok h (ownWithdraw_withdrawn (s := frameDone .p4 s) hw hst))
  · exact congrArg Host.Outcome.next (respond_ok h (ownWithdraw_withdraws (s := frameDone .p4 s) hw hst))

/-! ### SET_SERVICE, SET_RESPONSE, ISSUE_CREDIT -/

/-- The presence byte and the price field of SET_SERVICE (R59, log entry 14). -/
theorem priceOperand_of_presence {presence price : Nat} {stored : Option Nat}
    (h : (presence = 0 ∧ stored = none) ∨ (presence = 1 ∧ stored = some price)) :
    priceOperand presence price = some stored := by
  obtain ⟨rfl, rfl⟩ | ⟨rfl, rfl⟩ := h <;> rfl

theorem priceOperand_of_bad {presence : Nat} (h : 1 < presence) (price : Nat) : priceOperand presence price = none := by
  unfold priceOperand
  split
  case h_3 => rfl
  all_goals omega

/-- The classes that each kind allows (R153). -/
theorem allowedClass_iff (k : IncidentKind) (c : IncidentClass) : allowedClass k c = true ↔
    (k ∈ [.estop, .brushCollision, .carMissing, .conveyorStall, .queueOverflow] → c = .halt) ∧
      (k = .exitBlocked → c ≠ .notice) ∧ (k ∈ [.unpaidEntry, .shortObject] → c ≠ .halt) := by
  cases k <;> cases c <;> decide

section
variable {s : State}

theorem ownSetService_stores (hw : s.store.writing = none) {c : Fin 24} {presence price : Nat} {stored : Option Nat}
    (h : priceOperand presence price = some stored) (limit : Nat) :
    ownSetService (c.val + 1) presence price limit s = (setServiceEntry c stored limit s,
      answerOk (b1 (c.val + 1) ++ priceBytes stored ++ b1 (clampTo limit 1 4))) := by
  simp [ownSetService, saving_eq_false hw, h, serviceFields]

theorem ownSetService_refuses (hw : s.store.writing = none) {code presence price : Nat} (limit : Nat)
    (h : codeIndex code = none ∨ priceOperand presence price = none) :
    ownSetService code presence price limit s = refuse .badValue s := by
  obtain h | h := h <;> simp [ownSetService, saving_eq_false hw, h]

theorem ownSetResponse_sets (hw : s.store.writing = none) {k : IncidentKind} {c : IncidentClass}
    (h : allowedClass k c = true) : ownSetResponse (incidentKindCode k) (classCode c) s =
      ({ s with sup.response := s.sup.response.set k c },
        answerOk (b1 (incidentKindCode k) ++ b1 (classCode c))) := by
  simp [ownSetResponse, saving_eq_false hw, h]

theorem ownSetResponse_not_allowed (hw : s.store.writing = none) {k : IncidentKind} {c : IncidentClass}
    (h : allowedClass k c = false) : ownSetResponse (incidentKindCode k) (classCode c) s = refuse .badValue s := by
  simp [ownSetResponse, saving_eq_false hw, h]

theorem ownSetResponse_refuses (hw : s.store.writing = none) {kind cls : Nat}
    (h : kindOperand kind = none ∨ classOperand cls = none) : ownSetResponse kind cls s = refuse .badValue s := by
  obtain h | h := h <;> simp [ownSetResponse, saving_eq_false hw, h]

theorem ownIssueCredit_issues {value plan : Nat} (hlow : 1 ≤ value) (hhigh : value ≤ 65535) (hplan : plan ≤ 12) :
    ownIssueCredit value plan s = ((issueCredit value none (optionalPlan plan) s).1,
      answerOk (b2 (issueCredit value none (optionalPlan plan) s).2.1 ++
        b2 ((issueCredit value none (optionalPlan plan) s).2.2.getD 0))) :=
  if_neg (by omega)

end

/-- Settles O50: the owners' cases; the issue itself is the shared operation of R83. -/
theorem serviceResponseAndCreditSettings : Obligations.ServiceResponseAndCreditSettings := by
  refine ⟨fun c presence price limit s h hw stored hstored => ?_, fun code presence price limit s h hw hbad => ?_,
    fun k c s h hw => ⟨fun hhalt hexit hnotice => ⟨?_, Response.get_set_same _ k c, fun j hj =>
      Response.get_set_ne _ k j c hj.symm⟩, fun hbad => ?_⟩, fun kind cls s h hw hbad => ?_,
    fun value plan s h hlow hhigh hplan => ?_, fun value plan s h hbad => ?_⟩
  · exact congrArg Host.Outcome.next
      (respond_ok h (ownSetService_stores (s := frameDone .p4 s) hw (priceOperand_of_presence hstored) limit))
  · have hnone : codeIndex code = none ∨ priceOperand presence price = none := by
      rw [codeIndex_eq_none_iff, or_assoc]
      exact hbad.imp_right (Or.imp_right fun hp => priceOperand_of_bad hp price)
    exact congrArg Host.Outcome.next (respond_refuse h (ownSetService_refuses (s := frameDone .p4 s) hw limit hnone))
  · have hallowed := (allowedClass_iff k c).mpr ⟨hhalt, hexit, hnotice⟩
    exact congrArg Host.Outcome.next (respond_ok h (ownSetResponse_sets (s := frameDone .p4 s) hw hallowed))
  · have hnot : allowedClass k c = false := by
      rw [← Bool.not_eq_true, allowedClass_iff]
      tauto
    exact congrArg Host.Outcome.next (respond_refuse h (ownSetResponse_not_allowed (s := frameDone .p4 s) hw hnot))
  · have hnone : kindOperand kind = none ∨ classOperand cls = none := by
      rw [← or_assoc] at hbad
      exact hbad.imp kindOperand_of_bad classOperand_of_bad
    exact congrArg Host.Outcome.next (respond_refuse h (ownSetResponse_refuses (s := frameDone .p4 s) hw hnone))
  · exact ⟨_, _, _, rfl, congrArg Host.Outcome.next (respond_ok h (ownIssueCredit_issues hlow hhigh hplan))⟩
  · exact congrArg Host.Outcome.next (respond_refuse h (if_pos hbad))

end Sys2Proof.Machine
end

