-- ==== Sys2Proof/Proofs/Purchases.lean ====
section
/-! The tests and the price of a purchase (R58, R68, R69): one lemma for each test that can fail, in their order, and
one for the price; every request with a purchase makes them through `pricePurchase`. -/

namespace Sys2Proof.Machine

/-! ### Services and credits -/

theorem addOnPrice_succ (s : State) (c : Fin 24) :
    addOnPrice s (c.val + 1) = (tabGet s.sales.services c).price := by
  simp [addOnPrice]

theorem classLimit_succ (s : State) (c : Fin 24) : classLimit s (c.val + 1) = (tabGet s.sales.services c).limit := by
  simp [classLimit]

/-- The class of a purchase takes the lowest over the plan's codes and the add-ons' codes (R62, R69). -/
theorem lowestClass_saleClass (s : State) (i : Fin 12) (codes : List Nat) : lowestClass s (saleClass s i) codes =
    (((planList s i).map SvcLevel.code ++ codes).map (classLimit s)).foldr min (tabGet s.sales.plans i).cls := by
  unfold saleClass lowestClass
  rw [← List.foldr_append, ← List.map_append]
  exact (List.perm_append_comm.map (classLimit s)).foldr_eq _

/-- The credit of a purchase: none named, or a listed credit with its value (R68, R69). -/
theorem credit_of_named {s : State} {n value : Nat}
    (h : (n = 0 ∧ value = 0) ∨
      (n ≠ 0 ∧ (s.sales.credits.find? fun c => c.number == n).map Credit.value = some value)) :
    creditMissing s n = false ∧ ∀ subtotal, creditApplied s n subtotal = min value subtotal := by
  obtain ⟨rfl, rfl⟩ | ⟨hn, hvalue⟩ := h
  · exact ⟨rfl, fun subtotal => (Nat.zero_min subtotal).symm⟩
  · obtain ⟨c, hc, rfl⟩ := Option.map_eq_some_iff.mp hvalue
    have hlisted : creditOf s n = some c := hc
    exact ⟨by simp [creditMissing, hlisted], fun subtotal => by simp [creditApplied, hn, hlisted]⟩

theorem creditMissing_of_unlisted {s : State} {n : Nat} (hn : n ≠ 0) (h : ∀ c ∈ s.sales.credits, c.number ≠ n) :
    creditMissing s n = true := by
  have hnone : creditOf s n = none := List.find?_eq_none.mpr fun c hc => by simpa using h c hc
  simp [creditMissing, hn, hnone]

/-! ### The tests of R68, in order -/

/-- Test 2 of R68: a plan number, a count of add-ons or a code outside its range. -/
theorem pricePurchase_malformed {buy : Purchase}
    (h : planIndex buy.plan = none ∨ 2 < buy.addOns.length ∨ ∃ q ∈ buy.addOns, codeIndex q.code = none) (s : State) :
    pricePurchase buy s = .error .badValue := by
  unfold pricePurchase
  simp only
  split
  · rfl
  · next i hplan =>
    refine if_pos ?_
    rw [List.length_map, List.any_map, List.any_eq_true]
    simpa [hplan] using h

section
variable {buy : Purchase} {i : Fin 12} (s : State) (hplan : buy.plan = i.val + 1) (hlen : buy.addOns.length ≤ 2)
  (hcodes : ∀ q ∈ buy.addOns, 1 ≤ q.code ∧ q.code ≤ 24)
include hplan hlen hcodes

/-- A purchase that passes test 2 of R68. -/
theorem pricePurchase_wellFormed : pricePurchase buy s =
    if (tabGet s.sales.plans i).state ≠ .onSale then .error .state
    else if (buy.addOns.map RawPair.code).any fun c => (addOnPrice s c).isNone then .error .badValue
    else if (buy.addOns.map RawPair.code).any (fun c => ((planList s i).map SvcLevel.code).contains c) ||
        hasRepeat (buy.addOns.map RawPair.code) then
      .error .duplicate
    else if creditMissing s buy.credit then .error .notFound
    else .ok (priceOfPurchase i buy s) := by
  have hform : ¬(2 < (buy.addOns.map RawPair.code).length ∨
      (buy.addOns.map RawPair.code).any (fun c => (codeIndex c).isNone) = true) := by
    rw [List.length_map, List.any_map, List.any_eq_true]
    rintro (hmany | ⟨q, hq, hnone⟩)
    · omega
    · have hbad := (codeIndex_eq_none_iff q.code).mp (by simpa using hnone)
      have hgood := hcodes q hq
      omega
  simp only [pricePurchase, hplan, planIndex_succ, if_neg hform]

/-- Test 3 of R68: the plan is not ON_SALE. -/
theorem pricePurchase_not_on_sale (hst : (tabGet s.sales.plans i).state ≠ .onSale) :
    pricePurchase buy s = .error .state := by
  rw [pricePurchase_wellFormed s hplan hlen hcodes, if_pos hst]

variable (hst : (tabGet s.sales.plans i).state = .onSale)
include hst

/-- Test 4 of R68: an add-on without a price. -/
theorem pricePurchase_unpriced (h : ∃ q ∈ buy.addOns, addOnPrice s q.code = none) :
    pricePurchase buy s = .error .badValue := by
  have hany : ((buy.addOns.map RawPair.code).any fun c => (addOnPrice s c).isNone) = true := by simpa using h
  rw [pricePurchase_wellFormed s hplan hlen hcodes, if_neg (not_not.mpr hst), if_pos hany]

variable (hprices : ∀ q ∈ buy.addOns, addOnPrice s q.code ≠ none)
include hprices

/-- Test 5 of R68: an add-on that the plan holds, or one named twice. -/
theorem pricePurchase_repeats (h : (∃ q ∈ buy.addOns, ∃ e ∈ planList s i, e.code = q.code) ∨
    ¬(buy.addOns.map RawPair.code).Nodup) : pricePurchase buy s = .error .duplicate := by
  have hpriced : ¬((buy.addOns.map RawPair.code).any fun c => (addOnPrice s c).isNone) = true := by simpa using hprices
  have hrep : ((buy.addOns.map RawPair.code).any (fun c => ((planList s i).map SvcLevel.code).contains c) ||
      hasRepeat (buy.addOns.map RawPair.code)) = true := by
    rw [Bool.or_eq_true, hasRepeat_iff]
    simpa using h
  rw [pricePurchase_wellFormed s hplan hlen hcodes, if_neg (not_not.mpr hst), if_neg hpriced, if_pos hrep]

variable (hnew : ∀ q ∈ buy.addOns, ∀ e ∈ planList s i, e.code ≠ q.code)
  (hnodup : (buy.addOns.map RawPair.code).Nodup)
include hnew hnodup

/-- A purchase that passes tests 2 to 5 of R68: the credit decides. -/
theorem pricePurchase_credit : pricePurchase buy s =
    if creditMissing s buy.credit then .error .notFound else .ok (priceOfPurchase i buy s) := by
  have hpriced : ¬((buy.addOns.map RawPair.code).any fun c => (addOnPrice s c).isNone) = true := by simpa using hprices
  have hrep : ¬((buy.addOns.map RawPair.code).any (fun c => ((planList s i).map SvcLevel.code).contains c) ||
      hasRepeat (buy.addOns.map RawPair.code)) = true := by
    rw [Bool.or_eq_true, hasRepeat_iff]
    rintro (hheld | htwice)
    · obtain ⟨q, hq, e, he, heq⟩ : ∃ q ∈ buy.addOns, ∃ e ∈ planList s i, e.code = q.code := by simpa using hheld
      exact hnew q hq e he heq
    · exact htwice hnodup
  rw [pricePurchase_wellFormed s hplan hlen hcodes, if_neg (not_not.mpr hst), if_neg hpriced, if_neg hrep]

/-- Test 6 of R68: the credit named is not listed. -/
theorem pricePurchase_no_credit (hcredit : buy.credit ≠ 0) (h : ∀ c ∈ s.sales.credits, c.number ≠ buy.credit) :
    pricePurchase buy s = .error .notFound := by
  rw [pricePurchase_credit s hplan hlen hcodes hst hprices hnew hnodup,
    if_pos (creditMissing_of_unlisted hcredit h)]

/-- The price of a purchase that passes the tests of R68 (R69). -/
theorem pricePurchase_priced {value subtotal : Nat}
    (hvalue : (buy.credit = 0 ∧ value = 0) ∨ (buy.credit ≠ 0 ∧
      (s.sales.credits.find? fun c => c.number == buy.credit).map Credit.value = some value))
    (hsub : subtotal = (tabGet s.sales.plans i).price +
      (buy.addOns.map fun q => (addOnPrice s q.code).getD 0).sum) :
    pricePurchase buy s = .ok
      { plan := i, addOns := buy.addOns.map fun q => ⟨q.code, clampTo q.level 1 4⟩, subtotal := subtotal,
        credit := min value subtotal, total := subtotal - min value subtotal,
        cls := (((planList s i).map SvcLevel.code ++ buy.addOns.map RawPair.code).map (classLimit s)).foldr min
          (tabGet s.sales.plans i).cls } := by
  obtain ⟨hlisted, happlied⟩ := credit_of_named hvalue
  rw [pricePurchase_credit s hplan hlen hcodes hst hprices hnew hnodup, hlisted]
  simp [priceOfPurchase, happlied, lowestClass_saleClass, addOnTotal, clampLevels, hsub, Function.comp_def]

end

/-- A completed frame changes nothing that a purchase depends on. -/
theorem pricePurchase_frameDone (p : Port) (buy : Purchase) (s : State) :
    pricePurchase buy (frameDone p s) = pricePurchase buy s := rfl

/-- QUOTE answers the refusal of the first test that fails, or the price (R68, R69). -/
theorem quote_error {p : Port} {buy : Purchase} {s : State} (h : Reaches p .quote s) {r : Result}
    (hr : pricePurchase buy s = .error r) : exec (.quote p buy) s = .next (refusedWith p .quote r s) :=
  congrArg Host.Outcome.next
    (respond_reading_refusal h (f := quoteAnswer buy) (by simp only [quoteAnswer, pricePurchase_frameDone, hr]))

theorem quote_ok {p : Port} {buy : Purchase} {s : State} (h : Reaches p .quote s) {i : Fin 12}
    {addOns : List SvcLevel} {subtotal credit total cls : Nat}
    (hq : pricePurchase buy s = .ok ⟨i, addOns, subtotal, credit, total, cls⟩) : exec (.quote p buy) s =
      .next (replied p .quote (b4 subtotal ++ b4 credit ++ b4 total ++ b1 cls) s) :=
  congrArg Host.Outcome.next
    (respond_reading h (f := quoteAnswer buy) (by simp only [quoteAnswer, pricePurchase_frameDone, hq]))

/-- Settles O36: QUOTE is the purchase's tests and price, read off the state. -/
theorem quoteTestsAndPrices : Obligations.QuoteTestsAndPrices := by
  refine ⟨addOnPrice_succ, fun p buy s h => ⟨fun hbad => ?_, fun i hplan hlen hcodes => ⟨fun hst => ?_,
    fun hst => ⟨fun hfree => ?_, fun hprices => ⟨fun hrep => ?_, fun hnew hnodup => ⟨fun hcredit hnone => ?_,
    fun value hvalue => ?_⟩⟩⟩⟩⟩⟩
  · exact quote_error h (pricePurchase_malformed hbad s)
  · exact quote_error h (pricePurchase_not_on_sale s hplan hlen hcodes hst)
  · exact quote_error h (pricePurchase_unpriced s hplan hlen hcodes hst hfree)
  · exact quote_error h (pricePurchase_repeats s hplan hlen hcodes hst hprices hrep)
  · exact quote_error h (pricePurchase_no_credit s hplan hlen hcodes hst hprices hnew hnodup hcredit hnone)
  · have hok := pricePurchase_priced s hplan hlen hcodes hst hprices hnew hnodup hvalue rfl
    exact ⟨_, _, rfl, rfl, quote_ok h hok, hok⟩

end Sys2Proof.Machine
end

