-- ==== Sys2Proof/Proofs/ListReads.lean ====
section
/-! The list reads (R50, R61, R62, R91, R124, R185 to R188): the answer of each read in each case, and that a read
changes nothing but its port. -/

namespace Sys2Proof.Machine

/-! ### CAR_LIST, INCIDENT_LIST, CREDIT_LIST -/

/-- The first record with a tag (R185). -/
theorem find?_tag {queue older newer : List Car} {car : Car} (hqueue : queue = older ++ car :: newer)
    (hfirst : ∀ x ∈ older, x.tag ≠ car.tag) : queue.find? (fun x => x.tag == car.tag) = some car := by
  have hnone : older.find? (fun x => x.tag == car.tag) = none :=
    List.find?_eq_none.mpr fun x hx => by simpa using hfirst x hx
  simp [hqueue, List.find?_append, hnone]

/-- CAR_LIST of a record: each part has its answer, another part is refused (R185). -/
theorem carListAnswer_of_found {s : State} {tag : Nat} {car : Car}
    (h : s.trk.queue.find? (fun x => x.tag == tag) = some car) :
    carListAnswer (.record tag 1) s = answerOk (carFields car) ∧
      carListAnswer (.record tag 2) s = answerOk (scheduleFields car) ∧
      ∀ part, part ≠ 1 → part ≠ 2 → carListAnswer (.record tag part) s = refusal .badValue := by
  refine ⟨by simp only [carListAnswer, h], by simp only [carListAnswer, h], fun part hone htwo => ?_⟩
  simp only [carListAnswer, h]

theorem carListAnswer_of_unlisted {s : State} {tag : Nat} (h : ∀ car ∈ s.trk.queue, car.tag ≠ tag) (part : Nat) :
    carListAnswer (.record tag part) s = refusal .notFound := by
  have hnone : s.trk.queue.find? (fun x => x.tag == tag) = none :=
    List.find?_eq_none.mpr fun car hcar => by simpa using h car hcar
  simp only [carListAnswer, hnone]

/-- A page: the number listed, the count of the items that follow, the index, the items (R186, log entry 7). -/
theorem pageFields_eq {α : Type} (l : List α) (index most : Nat) (bytes : α → List Byte) :
    pageFields l index most bytes = b1 l.length ++ b1 (min most (l.length - index)) ++ b1 index ++
      ((l.drop index).take most).flatMap bytes := by
  simp [pageFields]

/-! ### LANE_STATUS -/

/-- The sale number of a lane's grant, 0 where the lane holds none (R187). -/
theorem grantSale_eq (l : Lane) (s : State) :
    grantSale l s = ((s.ent.grant.filter fun g => g.lane == l).map Grant.sale).getD 0 := by
  unfold grantSale
  cases s.ent.grant with
  | none => rfl
  | some g => by_cases hg : g.lane = l <;> simp [hg, Option.filter]

theorem holdsGrant_eq_any (s : State) (l : Lane) : holdsGrant s l = s.ent.grant.any fun g => g.lane == l := by
  rw [Bool.eq_iff_iff, holdsGrant_iff]
  cases s.ent.grant <;> simp

/-- A lane with a last-sale record takes no free value (log entry 26). -/
theorem takeReference_of_some {l : Lane} {s : State} {r : LastSale} (h : s.sales.lastSale.get l = some r) :
    takeReference l s = s := by
  simp [takeReference, h]

theorem takeReference_of_none {l : Lane} {s : State} (h : s.sales.lastSale.get l = none) :
    takeReference l s = { s with free := s.free + 1 } := by
  simp [takeReference, h]

/-- LANE_STATUS answers the lane's items and its last-sale record (R187). -/
theorem respond_laneStatus {p : Port} {lane : Option Nat} {l : Lane} {s : State} (h : Reaches p .laneStatus s)
    (hform : laneForm p lane = true) (hlane : laneOperand p lane = some l) :
    exec (.laneStatus p lane) s =
      .next (answeredOk p .laneStatus (laneFields l (frameDone p s)) (takeReference l (frameDone p s))) := by
  have howner : ownLaneStatus p lane (frameDone p s) =
      (takeReference l (frameDone p s), answerOk (laneFields l (frameDone p s))) := by
    simp only [ownLaneStatus, hlane]
  change Host.Outcome.next (respond p .laneStatus (laneForm p lane) (ownLaneStatus p lane) s) = _
  rw [hform, respond_ok h howner]

/-! ### STATION_STATUS -/

/-- The flags of a station that every kind has: the proof input and the two lines (R202). -/
def plainFlags (i : Fin 16) (s : State) : Nat :=
  flagBit 0 (tabGet s.inputs.proofs i) + flagBit 1 (tabGet s.out.stations i).arm +
    flagBit 2 (tabGet s.out.stations i).fire

/-- A station record from SP to the retries, before the fields of its kind (R201). -/
def geometryHead (r : StationRec) : List Byte :=
  b2 r.sp ++ b2 r.pre ++ b2 r.post ++ b1 (activationCode r.mode) ++ b2 r.proofWait ++ b1 r.retries

theorem geometryBytes_rawOfStation (r : StationRec) :
    geometryBytes (rawOfStation r) = geometryHead r ++ gearBytes (rawOfStation r).gear := rfl

theorem gearBytes_levels {r : StationRec} {t : ByFour Nat} (h : r.gear = .spray t ∨ r.gear = .air t) :
    gearBytes (rawOfStation r).gear = fourBytes t := by
  obtain h | h := h <;> simp only [rawOfStation, h] <;> rfl

theorem gearBytes_brush {r : StationRec} {b : BrushRec} (h : r.gear = .brush b) : gearBytes (rawOfStation r).gear =
    b1 b.slot.val ++ b2 b.k ++ b2 b.brMin ++ b2 b.brMax ++ b2 b.icA ++ b2 b.icB ++ b2 b.jamMargin ++ b2 b.slackMargin ++
      b1 b.jamN ++ b1 b.slackN ++ b1 b.jamBlank ++ b1 (qualifierCode b.qualifier) ++ b1 (signalsByte b.signals) := by
  simp only [rawOfStation, h]
  rfl

/-- The station form of a SPRAY or AIR station (R188). -/
theorem stationFields_levels {i : Fin 16} {s : State} {t : ByFour Nat}
    (h : (tabGet s.seq.table i).gear = .spray t ∨ (tabGet s.seq.table i).gear = .air t) : stationFields i s =
      b1 i.val ++ b1 (tabGet s.seq.table i).code ++ b1 (kindCode (tabGet s.seq.table i).gear.kind) ++
        b1 (stationStateCode (tabGet s.seq.units i).state) ++ b1 (tabGet s.seq.units i).fails ++ b1 (plainFlags i s) ++
        b2 (tabGet s.out.stations i).intensity ++ b1 (activeCount s i) ++ geometryHead (tabGet s.seq.table i) ++
        gearBytes (rawOfStation (tabGet s.seq.table i)).gear := by
  have hbrush : (tabGet s.seq.table i).gear.brush? = none := by obtain h | h := h <;> rw [h] <;> rfl
  simp [stationFields, stationFlags, hbrush, plainFlags, geometryBytes_rawOfStation]

/-- The station form of a BRUSH station, with the items of its slot (R124, R132, R188). -/
theorem stationFields_brush {i : Fin 16} {s : State} {b : BrushRec} (h : (tabGet s.seq.table i).gear = .brush b) :
    stationFields i s =
      b1 i.val ++ b1 (tabGet s.seq.table i).code ++ b1 1 ++ b1 (stationStateCode (tabGet s.seq.units i).state) ++
        b1 (tabGet s.seq.units i).fails ++
        b1 (plainFlags i s + flagBit 3 (tabGet s.mon b.slot).latch + flagBit 4 (tabGet s.inputs.bumpers b.slot) +
          flagBit 5 (tabGet s.inputs.overtravels b.slot)) ++
        b2 (tabGet s.out.stations i).intensity ++ b1 (activeCount s i) ++ brushStatus i b s ++
        geometryHead (tabGet s.seq.table i) ++ gearBytes (rawOfStation (tabGet s.seq.table i)).gear := by
  have hkind : kindCode (tabGet s.seq.table i).gear.kind = 1 := by rw [h]; rfl
  have hbrush : (tabGet s.seq.table i).gear.brush? = some b := by rw [h]; rfl
  simp [stationFields, stationFlags, hkind, hbrush, plainFlags, geometryBytes_rawOfStation, Nat.add_assoc]

theorem stationStatus_of_station {p : Port} {s : State} (h : Reaches p .stationStatus s) (i : Fin 16) :
    exec (.stationStatus p (some i.val)) s = .next (replied p .stationStatus (stationFields i s) s) := by
  have hanswer : stationStatusAnswer (some i.val) (frameDone p s) = answerOk (stationFields i s) := by
    simp only [stationStatusAnswer, stationIndex_val]
    rfl
  exact congrArg Host.Outcome.next (respond_reading h hanswer)

theorem brushStatus_of_pace {i : Fin 16} {s : State} {q : Pace} (h : tabGet s.pace.brushes i = some q) (b : BrushRec) :
    brushStatus i b s = b2 q.expected ++ b2 q.overAt ++ b2 q.underAt ++ b1 (tabGet s.mon b.slot).jam ++
      b1 (tabGet s.mon b.slot).slack ++ b1 (tabGet s.mon b.slot).blank ++ b2 (tabGet s.mon b.slot).sample := by
  simp [brushStatus, h]

/-! ### PLAN_LIST -/

theorem planList_of_plan {p : Port} {s : State} (h : Reaches p .planList s) (i : Fin 12) :
    exec (.planListPlan p (i.val + 1)) s = .next (replied p .planList (planFields s i) s) := by
  have hanswer : planListPlanAnswer (i.val + 1) (frameDone p s) = answerOk (planFields s i) := by
    simp only [planListPlanAnswer, planIndex_succ]
    rfl
  exact congrArg Host.Outcome.next (respond_reading h hanswer)

theorem planList_of_service {p : Port} {s : State} (h : Reaches p .planList s) (c : Fin 24) :
    exec (.planListService p (c.val + 1)) s = .next (replied p .planList (serviceFields s c) s) := by
  have hanswer : planListServiceAnswer (c.val + 1) (frameDone p s) = answerOk (serviceFields s c) := by
    simp only [planListServiceAnswer, codeIndex_succ]
    rfl
  exact congrArg Host.Outcome.next (respond_reading h hanswer)

/-! ### Refused reads -/

section
variable {p : Port} {s : State}

theorem carList_unlisted (h : Reaches p .carList s) {tag : Nat} (hnone : ∀ car ∈ s.trk.queue, car.tag ≠ tag)
    (part : Nat) : exec (.carList p (.record tag part)) s = .next (refusedWith p .carList .notFound s) :=
  congrArg Host.Outcome.next (respond_reading_refusal h (carListAnswer_of_unlisted (s := frameDone p s) hnone part))

/-- The part is tested after the tag (R185, log entry 24). -/
theorem carList_bad_part (h : Reaches p .carList s) {tag part : Nat} (hsome : ∃ car ∈ s.trk.queue, car.tag = tag)
    (hone : part ≠ 1) (htwo : part ≠ 2) :
    exec (.carList p (.record tag part)) s = .next (refusedWith p .carList .badValue s) := by
  have hfound : (s.trk.queue.find? fun x => x.tag == tag).isSome = true := by simpa using hsome
  obtain ⟨car, hcar⟩ := Option.isSome_iff_exists.mp hfound
  obtain ⟨-, -, hbad⟩ := carListAnswer_of_found (s := frameDone p s) hcar
  exact congrArg Host.Outcome.next (respond_reading_refusal h (hbad part hone htwo))

theorem laneStatus_bad_lane (h : Reaches p .laneStatus s) (hp : laneOfPort p = none) {n : Nat} (hn : 2 < n) :
    exec (.laneStatus p (some n)) s = .next (refusedWith p .laneStatus .badValue s) := by
  obtain ⟨hform, hlane⟩ := laneOperand_of_bad hp hn
  have howner : ownLaneStatus p (some n) (frameDone p s) = refuse .badValue (frameDone p s) := by
    simp only [ownLaneStatus, hlane]
  change Host.Outcome.next (respond p .laneStatus (laneForm p (some n)) (ownLaneStatus p (some n)) s) = _
  rw [hform, respond_refuse h howner]

theorem stationStatus_bad_station (h : Reaches p .stationStatus s) {n : Nat} (hn : 15 < n) :
    exec (.stationStatus p (some n)) s = .next (refusedWith p .stationStatus .badValue s) := by
  have hanswer : stationStatusAnswer (some n) (frameDone p s) = refusal .badValue := by
    simp only [stationStatusAnswer, stationIndex_of_bad hn]
  exact congrArg Host.Outcome.next (respond_reading_refusal h hanswer)

theorem planList_bad_plan (h : Reaches p .planList s) {n : Nat} (hn : n = 0 ∨ 12 < n) :
    exec (.planListPlan p n) s = .next (refusedWith p .planList .badValue s) := by
  have hanswer : planListPlanAnswer n (frameDone p s) = refusal .badValue := by
    simp only [planListPlanAnswer, (planIndex_eq_none_iff n).mpr hn]
  exact congrArg Host.Outcome.next (respond_reading_refusal h hanswer)

theorem planList_bad_code (h : Reaches p .planList s) {n : Nat} (hn : n = 0 ∨ 24 < n) :
    exec (.planListService p n) s = .next (refusedWith p .planList .badValue s) := by
  have hanswer : planListServiceAnswer n (frameDone p s) = refusal .badValue := by
    simp only [planListServiceAnswer, (codeIndex_eq_none_iff n).mpr hn]
  exact congrArg Host.Outcome.next (respond_reading_refusal h hanswer)

end

/-- Settles O34: each read's answer, then the refusals. -/
theorem listReadsAnswerAndChangeNothing : Obligations.ListReadsAnswerAndChangeNothing := by
  refine ⟨fun p s h => ?_, fun p s older newer car h hqueue hfirst => ?_, fun p index s h hindex => ?_,
    fun p index s h hindex => ?_, fun p lane l s h hlane => ?_, fun p s h => ?_, fun p i s h => ?_, fun p s h => ?_,
    fun p i s h => ?_, classLimit_succ, fun p c s h => planList_of_service h c,
    fun p n part s => ⟨fun h => ⟨fun hnone => carList_unlisted h hnone part, carList_bad_part h⟩, fun h hn => ?_,
      fun h hn => ?_, fun h hp hn => laneStatus_bad_lane h hp hn, fun h hn => stationStatus_bad_station h hn,
      fun h => ⟨planList_bad_plan h, planList_bad_code h⟩⟩⟩
  · exact congrArg Host.Outcome.next (respond_reading h (f := carListAnswer .summary) rfl)
  · obtain ⟨hone, htwo, -⟩ := carListAnswer_of_found (s := frameDone p s) (find?_tag hqueue hfirst)
    exact ⟨congrArg Host.Outcome.next (respond_reading h hone), congrArg Host.Outcome.next (respond_reading h htwo)⟩
  · rw [← pageFields_eq]
    exact congrArg Host.Outcome.next (respond_reading h (f := incidentListAnswer index) (if_pos (by omega)))
  · rw [← pageFields_eq]
    exact congrArg Host.Outcome.next (respond_reading h (f := creditListAnswer index) (if_pos (by omega)))
  · obtain ⟨hform, hoperand⟩ := laneOperand_of_named hlane
    refine ⟨_, lastSaleBytes s.free (s.sales.lastSale.get l), takeReference l (frameDone p s), rfl, fun r hr => ?_,
      fun hnone => ?_, ?_⟩
    · rw [hr]
      exact ⟨rfl, takeReference_of_some (s := frameDone p s) hr⟩
    · rw [hnone]
      exact ⟨⟨_, rfl⟩, takeReference_of_none (s := frameDone p s) hnone⟩
    · rw [respond_laneStatus h hform hoperand, ← grantSale_eq, ← holdsGrant_eq_any]
      rfl
  · exact congrArg Host.Outcome.next (respond_reading h (f := stationStatusAnswer none) rfl)
  · refine ⟨_, _, _, plainFlags i s, kindCode (tabGet s.seq.table i).gear.kind,
      (tabGet s.seq.table i).gear.brush?.elim [] fun b => brushStatus i b s, geometryHead (tabGet s.seq.table i),
      gearBytes (rawOfStation (tabGet s.seq.table i)).gear, rfl, rfl, rfl, rfl, rfl, fun t ht => by rw [ht]; rfl,
      fun t ht => by rw [ht]; rfl, fun t ht => ⟨gearBytes_levels ht, ?_⟩, fun b q slot hb hq hslot => ?_⟩
    · rw [stationStatus_of_station h, stationFields_levels ht]
    · subst hslot
      have hwatch : ((tabGet s.seq.table i).gear.brush?.elim [] fun b => brushStatus i b s) = brushStatus i b s := by
        rw [hb]
        rfl
      refine ⟨hwatch.trans (brushStatus_of_pace hq b), gearBytes_brush hb, ?_⟩
      rw [stationStatus_of_station h, stationFields_brush hb, hwatch]
  · exact congrArg Host.Outcome.next (respond_reading h (f := fun s => answerOk (planSummary s)) rfl)
  · exact ⟨_, _, _, _, rfl, rfl, rfl, rfl, planList_of_plan h i⟩
  · exact congrArg Host.Outcome.next (respond_reading_refusal h (f := incidentListAnswer n) (if_neg (by omega)))
  · exact congrArg Host.Outcome.next (respond_reading_refusal h (f := creditListAnswer n) (if_neg (by omega)))

end Sys2Proof.Machine
end

