-- ==== Sys2Proof/Proofs/NumberedLists.lean ====
section
/-! Numbered lists (R82, R83, R154): what a list keeps when a record leaves it and when one joins it with a number
allocated from its counter; and the issue of a credit (R83). -/

namespace Sys2Proof.Machine

/-! ### Lists of records with distinct numbers -/

/-- At most `most` records with distinct numbers of 1 to `top`, and a counter of 1 to `top`. -/
def NumbersSound (most top : Nat) (numbers : List Nat) (counter : Nat) : Prop :=
  numbers.length ≤ most ∧ numbers.Nodup ∧ (∀ n ∈ numbers, 1 ≤ n ∧ n ≤ top) ∧ 1 ≤ counter ∧ counter ≤ top

theorem incidentsSound_iff (s : State) : IncidentsSound s ↔
    NumbersSound 8 255 (s.sup.incidents.map Incident.number) s.sup.incidentCounter := by
  simp [IncidentsSound, NumbersSound]

theorem creditsSound_iff (credits : List Credit) (counter : Nat) : CreditsSound credits counter ↔
    NumbersSound 16 9999 (credits.map Credit.number) counter := by
  simp [CreditsSound, NumbersSound]

section
variable {most top counter : Nat} {numbers : List Nat} (h : NumbersSound most top numbers counter)
include h

/-- Records that leave take nothing from the rest. -/
theorem NumbersSound.sublist {rest : List Nat} (hrest : rest.Sublist numbers) :
    NumbersSound most top rest counter := by
  obtain ⟨hlen, hnodup, hrange, hcounter⟩ := h
  exact ⟨hrest.length_le.trans hlen, hnodup.sublist hrest, fun n hn => hrange n (hrest.subset hn), hcounter⟩

/-- A list with room takes a record with the number allocated (R83, R154). -/
theorem NumbersSound.append (hroom : numbers.length < most) (htop : most ≤ top) :
    NumbersSound most top (numbers ++ [(allocate top numbers counter).1]) (allocate top numbers counter).2 := by
  obtain ⟨-, hnodup, hrange, hlow, hhigh⟩ := h
  have hfree := allocate_not_mem top numbers counter hlow hhigh (hroom.trans_le htop)
  have hnew := allocate_range top numbers counter hlow hhigh
  refine ⟨by simpa using hroom, ?_, ?_, nextCount_range top _ (hlow.trans hhigh)⟩
  · exact hnodup.append (List.nodup_singleton _) (by simpa using hfree)
  · simpa [or_imp, forall_and] using ⟨⟨fun n hn => (hrange n hn).1, hnew.1⟩, fun n hn => (hrange n hn).2, hnew.2⟩

end

/-! ### The issue of a credit -/

/-- The credits that an issue keeps: all but the oldest of 16 (R83). -/
def keptCredits (s : State) : List Credit :=
  if 16 ≤ s.sales.credits.length then s.sales.credits.tail else s.sales.credits

/-- The number that an issue takes (R83). -/
def issuedNumber (s : State) : Nat := (allocate 9999 ((keptCredits s).map Credit.number) s.sales.creditCounter).1

theorem keptCredits_of_room {s : State} (h : s.sales.credits.length < 16) : keptCredits s = s.sales.credits :=
  if_neg (Nat.not_le.mpr h)

theorem keptCredits_of_full {s : State} (h : s.sales.credits.length = 16) : keptCredits s = s.sales.credits.tail :=
  if_pos h.ge

theorem keptCredits_sublist (s : State) : (keptCredits s).Sublist s.sales.credits := by
  unfold keptCredits
  split
  · exact List.tail_sublist _
  · exact .refl _

theorem keptCredits_length {s : State} (h : s.sales.credits.length ≤ 16) : (keptCredits s).length ≤ 15 := by
  unfold keptCredits
  split
  · rw [List.length_tail]
    omega
  · omega

/-- What an issue writes to the credit list and its counter (R83). -/
theorem issueCredit_credits (value : Nat) (origin plan : Option Nat) (s : State) :
    (issueCredit value origin plan s).1.sales.credits = keptCredits s ++ [⟨issuedNumber s, value, origin, plan⟩] ∧
      (issueCredit value origin plan s).1.sales.creditCounter = nextCount 9999 (issuedNumber s) := by
  unfold issuedNumber keptCredits issueCredit
  by_cases hfull : 16 ≤ s.sales.credits.length <;> simp [Config.creditMax, hfull, allocate]

/-- An issue with room (R83). -/
theorem issueCredit_of_room (value : Nat) (origin plan : Option Nat) {s : State} (h : s.sales.credits.length < 16) :
    issueCredit value origin plan s =
      ({ s with
          sales.credits := keptCredits s ++ [⟨issuedNumber s, value, origin, plan⟩]
          sales.creditCounter := nextCount 9999 (issuedNumber s)
          sales.tally := { s.sales.tally with
            dropped := min 4294967295 s.sales.tally.dropped
            issued := min 4294967295 (s.sales.tally.issued + 1) } }, issuedNumber s, none) := by
  have hroom : ¬ 16 ≤ s.sales.credits.length := Nat.not_le.mpr h
  simp [issueCredit, issuedNumber, keptCredits, Config.creditMax, Config.amountMax, allocate, raiseCount, satAdd, hroom]

/-- An issue that drops the oldest of 16 credits (R83). -/
theorem issueCredit_of_full (value : Nat) (origin plan : Option Nat) {s : State} (h : s.sales.credits.length = 16) :
    issueCredit value origin plan s =
      ({ s with
          sales.credits := keptCredits s ++ [⟨issuedNumber s, value, origin, plan⟩]
          sales.creditCounter := nextCount 9999 (issuedNumber s)
          sales.tally := { s.sales.tally with
            dropped := min 4294967295 (s.sales.tally.dropped + 1)
            issued := min 4294967295 (s.sales.tally.issued + 1) } },
        issuedNumber s, s.sales.credits.head?.map Credit.number) := by
  simp [issueCredit, issuedNumber, keptCredits, Config.creditMax, Config.amountMax, allocate, raiseCount, satAdd, h]

/-- An issue leaves a sound list: the numbers kept, and one that none of them is (R82, R83). -/
theorem issueCredit_creditsSound (value : Nat) (origin plan : Option Nat) {s : State}
    (h : CreditsSound s.sales.credits s.sales.creditCounter) :
    CreditsSound (issueCredit value origin plan s).1.sales.credits
      (issueCredit value origin plan s).1.sales.creditCounter := by
  obtain ⟨hcredits, hcounter⟩ := issueCredit_credits value origin plan s
  have hlen : (keptCredits s).length ≤ 15 := keptCredits_length h.1
  rw [hcredits, hcounter, creditsSound_iff, List.map_append]
  exact (((creditsSound_iff _ _).mp h).sublist ((keptCredits_sublist s).map _)).append (by simp; omega) (by omega)

end Sys2Proof.Machine
end

