-- ==== Sys2Proof/Proofs/ListsKept.lean ====
section
/-! The incident list and the credit lists stay sound (R82, R83, R154, R189). Only a raise and a removal write the
incidents, only an issue and a sale write the credits, and the Settings Store takes its credits from the live list. Every
other operation leaves the lists, their counters and the images (`NumbersKept.of_eq`). -/

namespace Sys2Proof.Machine

/-! ### What keeps the lists -/

/-- The incident list and the credit lists are kept sound. -/
structure NumbersKept (s t : State) : Prop where
  incidents : IncidentsSound s → IncidentsSound t
  credits : CreditsHold s → CreditsHold t

theorem NumbersKept.refl (s : State) : NumbersKept s s := ⟨id, id⟩

theorem NumbersKept.trans {a b c : State} (h : NumbersKept a b) (k : NumbersKept b c) : NumbersKept a c :=
  ⟨fun hs => k.incidents (h.incidents hs), fun hs => k.credits (h.credits hs)⟩

theorem NumbersKept.ite {s a b : State} {p : Prop} [Decidable p] (ha : NumbersKept s a) (hb : NumbersKept s b) :
    NumbersKept s (if p then a else b) := by
  split <;> assumption

theorem NumbersKept.pair_ite {s : State} {α : Type} {a b : State × α} {p : Prop} [Decidable p]
    (ha : NumbersKept s a.1) (hb : NumbersKept s b.1) : NumbersKept s (if p then a else b).1 := by
  split <;> assumption

theorem foldl_numbersKept {α : Type} (f : State → α → State) (hf : ∀ s x, NumbersKept s (f s x)) (l : List α)
    (s : State) : NumbersKept s (l.foldl f s) :=
  foldl_keeps NumbersKept .refl (fun _ _ _ => .trans) f hf l s

/-- The same incidents under the same counter. -/
theorem IncidentsSound.of_same {s t : State} (hs : IncidentsSound s) (hincidents : t.sup.incidents = s.sup.incidents)
    (hcounter : t.sup.incidentCounter = s.sup.incidentCounter) : IncidentsSound t := by
  unfold IncidentsSound
  rw [hincidents, hcounter]
  exact hs

/-- The same credits under the same counter, with the same images. -/
theorem CreditsHold.of_same {s t : State} (hs : CreditsHold s) (hcredits : t.sales.credits = s.sales.credits)
    (hcounter : t.sales.creditCounter = s.sales.creditCounter) (hsettings : t.store = s.store) : CreditsHold t := by
  unfold CreditsHold imagesOf
  rw [hcredits, hcounter, hsettings]
  exact hs

/-- The incidents, the credits, their counters and the Settings Store: all that the two invariants speak of. -/
def numberedLists (s : State) : List Incident × Nat × List Credit × Nat × Settings :=
  (s.sup.incidents, s.sup.incidentCounter, s.sales.credits, s.sales.creditCounter, s.store)

/-- A change of other records. -/
theorem NumbersKept.of_eq {s t : State} (h : numberedLists t = numberedLists s) : NumbersKept s t := by
  simp only [numberedLists, Prod.mk.injEq] at h
  obtain ⟨hincidents, hincident, hcredits, hcredit, hsettings⟩ := h
  exact ⟨fun hs => hs.of_same hincidents hincident, fun hs => hs.of_same hcredits hcredit hsettings⟩

theorem NumbersKept.ofChange {s t : State} (h : ChangeFrame s t) : NumbersKept s t := by
  rw [h.1]
  exact .of_eq rfl

theorem NumbersKept.ofSeq {s t : State} (h : SeqOnly s t) : NumbersKept s t := .ofChange (.ofSeq s t h)

theorem NumbersKept.ofGrant {s t : State} (h : GrantOnly s t) : NumbersKept s t := .ofChange (.ofGrant s t h)

theorem NumbersKept.ofPorts {s t : State} (h : PortsOnly s t) : NumbersKept s t := .ofChange (.ofPorts s t h)

/-! ### Raises and removals -/

theorem updateFirst_map {α β : Type} (g : α → β) (p : α → Bool) (f : α → α) (hf : ∀ x, g (f x) = g x) (l : List α) :
    (updateFirst p f l).map g = l.map g := by
  induction l with
  | nil => rfl
  | cons x xs ih =>
    unfold updateFirst
    split
    · rw [List.map_cons, List.map_cons, hf]
    · rw [List.map_cons, List.map_cons, ih]

theorem updateLast_map {α β : Type} (g : α → β) (p : α → Bool) (f : α → α) (hf : ∀ x, g (f x) = g x) (l : List α) :
    (updateLast p f l).map g = l.map g := by
  rw [updateLast, List.map_reverse, updateFirst_map g p f hf, List.map_reverse, List.reverse_reverse]

/-- The class effect writes no incident (R148, R150). -/
theorem classEffect_numbersKept (c : IncidentClass) (number : Nat) (s : State) :
    NumbersKept s (classEffect c number s) := by
  cases c with
  | notice => exact .refl s
  | pause => exact .ofChange (pauseTunnel_frame _ s)
  | halt =>
    change NumbersKept s (haltTunnel (.incident number) s)
    have hcount : NumbersKept s (countHalt s) := .of_eq rfl
    cases h : s.sup.tunnel.isHalted with
    | true => rw [haltTunnel_of_halted _ h]; exact .refl s
    | false =>
      rw [haltTunnel_of_not_halted _ h]
      exact hcount.trans (.ofChange (changeTunnel_frame _ _ _))

/-- A merge changes no number (R155, R156). -/
theorem IncidentsSound.merged {s t : State} (hs : IncidentsSound s) (c : IncidentClass) (number : Nat)
    (hincidents : t.sup.incidents.map Incident.number = s.sup.incidents.map Incident.number)
    (hcounter : t.sup.incidentCounter = s.sup.incidentCounter) : IncidentsSound (classEffect c number t) := by
  refine (classEffect_numbersKept c number t).incidents ?_
  rw [incidentsSound_iff] at hs ⊢
  rwa [hincidents, hcounter]

/-- Records that leave the list (R157). -/
theorem IncidentsSound.sublist {s : State} (hs : IncidentsSound s) {l : List Incident}
    (hl : l.Sublist s.sup.incidents) : IncidentsSound (setIncidents l s) := by
  rw [incidentsSound_iff] at hs ⊢
  exact hs.sublist (hl.map _)

/-- A new record where the list has room (R154, R155). -/
theorem IncidentsSound.listed {s : State} (hs : IncidentsSound s) (hroom : s.sup.incidents.length < 8) (q : Raise)
    (c : IncidentClass) : IncidentsSound (listNew q c s) := by
  refine (classEffect_numbersKept c _ _).incidents ?_
  rw [incidentsSound_iff] at hs ⊢
  have hnew := hs.append (by simpa using hroom) (by decide)
  simpa only [notifyBoth_fields, List.map_append, List.map_cons, List.map_nil] using hnew

theorem IncidentsSound.newestMerged {s : State} (hs : IncidentsSound s) (k c : IncidentClass) (q : Raise) :
    IncidentsSound (mergeNewest k c q s) := by
  unfold mergeNewest
  split
  · exact hs
  · exact hs.merged c _ (updateLast_map Incident.number _ (mergeOverflow s.sup.seconds) (fun _ => rfl) _) rfl

/-- The record that a displacement takes out makes room for the new one (R156). -/
theorem IncidentsSound.displaced {s : State} (hs : IncidentsSound s) (k c : IncidentClass) (q : Raise) :
    IncidentsSound (displace k c q s) := by
  unfold displace
  split
  · exact hs
  · next r hr =>
    have hlisted : r ∈ s.sup.incidents := List.mem_of_find?_eq_some hr
    have hlen : (s.sup.incidents.eraseP fun r => r.cls == k).length = s.sup.incidents.length - 1 :=
      List.length_eraseP_of_mem hlisted (List.find?_some (p := fun x : Incident => x.cls == k) hr)
    have hsome := List.length_pos_of_mem hlisted
    have hmax : s.sup.incidents.length ≤ 8 := hs.1
    have hrest : IncidentsSound (notifyBoth (.incident .removed r.kind r)
        (setIncidents (s.sup.incidents.eraseP fun r => r.cls == k) s)) :=
      (NumbersKept.ofPorts (notifyBoth_portsOnly _ _)).incidents (hs.sublist List.eraseP_sublist)
    refine hrest.listed ?_ q c
    change (s.sup.incidents.eraseP fun r => r.cls == k).length < 8
    omega

/-- A raise merges, takes a new record with a free number, or is lost (R155, R156). -/
theorem raiseIncident_incidentsSound (q : Raise) {s : State} (hs : IncidentsSound s) :
    IncidentsSound (raiseIncident q s) := by
  unfold raiseIncident
  simp only
  split
  · exact hs.merged _ _ (updateFirst_map Incident.number _ (mergeSubject q _ s.sup.seconds) (fun _ => rfl) _) rfl
  · split
    · next hroom => exact hs.listed hroom q _
    · unfold raiseOverflow
      split
      · exact hs.of_same rfl rfl
      · split
        · exact hs.displaced _ _ q
        · split <;> exact hs.newestMerged _ _ q
      · split
        · exact hs.displaced _ _ q
        · split
          · exact hs.newestMerged _ _ q
          · exact hs.displaced _ _ q

theorem raiseIncident_numbersKept (q : Raise) (s : State) : NumbersKept s (raiseIncident q s) := by
  have hframe := (raiseIncident_frame q s).1
  refine ⟨raiseIncident_incidentsSound q, fun hs => hs.of_same ?_ ?_ ?_⟩ <;> rw [hframe]

theorem raiseEach_numbersKept (l : List Raise) (s : State) : NumbersKept s (raiseEach l s) :=
  foldl_numbersKept _ (fun u q => raiseIncident_numbersKept q u) l s

theorem removeIncidents_numbersKept (p : Incident → Bool) (s : State) : NumbersKept s (removeIncidents p s) := by
  have hset : NumbersKept s (setIncidents (s.sup.incidents.filter fun r => !p r) s) :=
    ⟨fun hs => hs.sublist List.filter_sublist, fun hs => hs.of_same rfl rfl rfl⟩
  exact (hset.trans (.ofPorts (tellRemoved_portsOnly _ _))).trans (.ofChange (afterRemoval_frame _ _))

/-! ### Credits -/

theorem issueCredit_numbersKept (value : Nat) (origin plan : Option Nat) (s : State) :
    NumbersKept s (issueCredit value origin plan s).1 :=
  ⟨fun hs => hs.of_same rfl rfl, fun ⟨hlive, himages⟩ => ⟨issueCredit_creditsSound value origin plan hlive, himages⟩⟩

/-- A sale redeems a credit at most (R70). -/
theorem sellTicket_numbersKept (lane : TicketLane) (buy : Purchase) (q : Priced) (s : State) :
    NumbersKept s (sellTicket lane buy q s) := by
  refine ⟨fun hs => hs.of_same rfl rfl, fun ⟨hlive, himages⟩ => ⟨?_, himages⟩⟩
  rw [creditsSound_iff] at hlive ⊢
  exact hlive.sublist (List.filter_sublist.map _)

theorem exitCredit_numbersKept (car : Car) (s : State) : NumbersKept s (exitCredit car s).1 := by
  unfold exitCredit
  split
  · exact .refl s
  · exact .pair_ite (issueCredit_numbersKept _ _ _ s) (.refl s)

theorem clearCredit_numbersKept (car : Car) (s : State) : NumbersKept s (clearCredit car s).1 := by
  unfold clearCredit
  split
  · exact .refl s
  · exact .pair_ite (issueCredit_numbersKept _ _ _ s) (.refl s)

/-! ### The tunnel queue -/

theorem updateCar_numbersKept (tag : Nat) (f : Car → Car) (s : State) : NumbersKept s (updateCar tag f s) := .of_eq rfl

theorem leaveQueue_numbersKept (car : Car) (s : State) : NumbersKept s (leaveQueue car s) := by
  have hdrop : NumbersKept s (dropRecord car.tag s) := .of_eq rfl
  exact (hdrop.trans (.ofSeq (afterEnded_seqOnly _ _))).trans (.ite (.ofChange (changeTunnel_frame _ _ _)) (.refl _))

theorem missingTest_numbersKept (k : Eye) (tag old : Nat) (s : State) : NumbersKept s (missingTest k tag old s) := by
  unfold missingTest
  split
  · exact .ite ((updateCar_numbersKept tag _ s).trans (raiseIncident_numbersKept _ _)) (.refl s)
  · exact .refl s

theorem exitRemoval_numbersKept (s : State) : NumbersKept s (exitRemoval s) := by
  have hfinalise : ∀ car, NumbersKept s (finalise car s) := fun car =>
    (updateCar_numbersKept _ _ s).trans (.ofSeq (afterEnded_seqOnly _ _))
  have hcount : ∀ o u, NumbersKept u (updateTally (tallyExit o) u) := fun _ _ => .of_eq rfl
  unfold exitRemoval
  split
  · exact (((hfinalise _).trans (hcount _ _)).trans (exitCredit_numbersKept _ _)).trans
      ((NumbersKept.ofPorts (notifyBoth_portsOnly _ _)).trans (leaveQueue_numbersKept _ _))
  · exact .refl s

theorem settleEye_numbersKept (s : State) (k : Eye) : NumbersKept s (settleEye s k) := by
  have hset : ∀ d, NumbersKept s (setEye k d s) := fun _ => .of_eq rfl
  unfold settleEye
  split
  · exact .ite (.ite ((hset _).trans (exitRemoval_numbersKept _)) (hset _)) (hset _)
  all_goals exact .refl s

theorem trackPulse_numbersKept (s : State) : NumbersKept s (trackPulse s) := by
  have hadvance : NumbersKept s { s with trk.queue := advanceFronts none s.trk.queue } := .of_eq rfl
  have htests : ∀ olds u, NumbersKept u (missingTests olds u) := fun olds u => by
    unfold missingTests
    exact foldl_numbersKept _
      (fun u k => foldl_numbersKept _ (fun u q => missingTest_numbersKept k q.1 q.2 u) olds u) _ u
  exact (hadvance.trans (htests _ _)).trans (foldl_numbersKept _ settleEye_numbersKept _ _)

theorem arbitrate_numbersKept (s : State) : NumbersKept s (arbitrate s) := .ofGrant (arbitrate_grantOnly s)

theorem correctCar_numbersKept (k : Eye) (pos : Nat) (car : Car) (s : State) :
    NumbersKept s (correctCar k pos car s) := by
  have hcorrected : NumbersKept s (correctedState k pos car s) := by rw [correctedState_eq]; exact .of_eq rfl
  have htests : ∀ u, NumbersKept u (otherTests k car u) :=
    fun u => foldl_numbersKept _ (fun u j => .ite (.refl u) (missingTest_numbersKept _ _ _ u)) _ u
  have hjudged : NumbersKept s (judgedState k pos car s) :=
    (hcorrected.trans (htests _)).trans (.ofSeq (judgeCorrection_seqOnly _ _ _))
  rw [correctCar_eq]
  exact .ite (hjudged.trans (arbitrate_numbersKept _)) hjudged

theorem eyeBlocked_numbersKept (k : Eye) (s : State) : NumbersKept s (eyeBlocked k s) := by
  have hset : ∀ d, NumbersKept s (setEye k d s) := fun _ => .of_eq rfl
  have hmatch : ∀ u, NumbersKept u (matchEye k u) := fun u => by
    unfold matchEye
    split
    · exact .refl u
    · split
      · exact correctCar_numbersKept _ _ _ u
      · exact raiseIncident_numbersKept _ u
  unfold eyeBlocked
  split
  · exact (hset _).trans (hmatch _)
  · exact hset _
  all_goals exact .refl s

theorem eyeCleared_numbersKept (k : Eye) (s : State) : NumbersKept s (eyeCleared k s) := by
  rw [eyeCleared_eq]
  exact .of_eq rfl

theorem exitBlocked_numbersKept (s : State) : NumbersKept s (exitBlocked s) := by
  have htimer : NumbersKept s (startExitTimer s) := .ite (.of_eq rfl) (.refl s)
  exact htimer.trans (eyeBlocked_numbersKept _ _)

theorem exitCleared_numbersKept (s : State) : NumbersKept s (exitCleared s) := by
  have htimer : ∀ u : State, NumbersKept u { u with trk.exitTimer := none } := fun _ => .of_eq rfl
  exact ((eyeCleared_numbersKept .exit s).trans (htimer _)).trans (removeIncidents_numbersKept _ _)

theorem exitBlockExpired_numbersKept (s : State) : NumbersKept s (exitBlockExpired s) := by
  have htimer : NumbersKept s { s with trk.exitTimer := none } := .of_eq rfl
  unfold exitBlockExpired
  split
  · exact .refl s
  · exact htimer.trans (raiseIncident_numbersKept _ _)

/-! ### The entrance -/

theorem raiseTailgate_numbersKept (tag : Nat) (s : State) : NumbersKept s (raiseTailgate tag s) := by
  unfold raiseTailgate
  split
  · exact .ite (.refl s) ((updateCar_numbersKept _ _ s).trans (raiseIncident_numbersKept _ _))
  · exact .refl s

theorem measurePulse_numbersKept (s : State) : NumbersKept s (measurePulse s) := by
  have hcount : ∀ m, NumbersKept s { s with ent.measured := m } := fun _ => .of_eq rfl
  unfold measurePulse
  split
  · exact .refl s
  · exact .ite (.refl s) (.ite ((hcount _).trans (raiseTailgate_numbersKept _ _)) (hcount _))

theorem setLength_numbersKept (tag len : Nat) (s : State) : NumbersKept s (setLength tag len s) :=
  (updateCar_numbersKept _ _ s).trans (.ofSeq (judgeLength_seqOnly _ _))

theorem shortObject_numbersKept (car : Car) (s : State) : NumbersKept s (shortObject car s) := by
  unfold shortObject
  split
  · exact (leaveQueue_numbersKept _ s).trans (raiseIncident_numbersKept _ _)
  · exact (setLength_numbersKept _ _ s).trans (raiseIncident_numbersKept _ _)

theorem completeMeasure_numbersKept (s : State) : NumbersKept s (completeMeasure s) := by
  have hforget : NumbersKept s { s with ent.measured := none } := .of_eq rfl
  unfold completeMeasure
  split
  · exact .refl s
  · simp only
    split
    · exact hforget
    · exact .ite (hforget.trans (setLength_numbersKept _ _ _)) (hforget.trans (shortObject_numbersKept _ _))

theorem settleEntrance_numbersKept (s : State) : NumbersKept s (settleEntrance s) := by
  have heye : ∀ d, NumbersKept s { s with ent.eye := d } := fun _ => .of_eq rfl
  unfold settleEntrance
  split
  · exact .ite ((heye _).trans (completeMeasure_numbersKept _)) (heye _)
  all_goals exact .refl s

/-- An encoder pulse, block by block (R6). -/
theorem pulse_numbersKept (s : State) : NumbersKept s (pulse s) := by
  have hentrance : ∀ u, NumbersKept u (entrancePulse u) := fun u =>
    ((measurePulse_numbersKept u).trans (settleEntrance_numbersKept _)).trans (arbitrate_numbersKept _)
  have hcount : ∀ u, NumbersKept u (countPulse u) := fun _ => .of_eq rfl
  exact (((trackPulse_numbersKept s).trans (.ofSeq (judgePulse_seqOnly _))).trans (hentrance _)).trans (hcount _)

theorem tailgateTest_numbersKept (s : State) : NumbersKept s (tailgateTest s) := by
  unfold tailgateTest
  split
  · exact .ite (raiseTailgate_numbersKept _ s) (.refl s)
  · exact .refl s

theorem newObject_numbersKept (s : State) : NumbersKept s (newObject s) := by
  have hforget : NumbersKept s { s with ent.measured := none } := .of_eq rfl
  have htake : ∀ l, NumbersKept s (clearGrant (setLane l (s.sales.lanes.get l).tail s)) := fun _ => .of_eq rfl
  have hqueue : ∀ q n u, NumbersKept u { u with trk.queue := q, trk.nextTag := n } := fun _ _ _ => .of_eq rfl
  have hjoin : ∀ ticket u, NumbersKept u (appendCar ticket u) := fun _ u =>
    (hqueue _ _ u).trans (.ofSeq (testArmAll_seqOnly _))
  have hmeasure : ∀ tag u, NumbersKept u (startMeasure tag u) := fun _ _ => .of_eq rfl
  unfold newObject bindHead enterUnpaid
  refine .ite (hforget.trans (raiseIncident_numbersKept _ _)) ?_
  split
  · exact (((htake _).trans (hjoin _ _)).trans (hmeasure _ _)).trans (.ofPorts (notify_portsOnly _ _ _))
  · exact ((hjoin none s).trans (hmeasure _ _)).trans (raiseIncident_numbersKept _ _)

theorem entranceBlocked_numbersKept (s : State) : NumbersKept s (entranceBlocked s) := by
  have heye : ∀ d, NumbersKept s (setEntranceEye d s) := fun _ => .of_eq rfl
  unfold entranceBlocked
  split
  · exact (heye _).trans (newObject_numbersKept _)
  · exact (heye _).trans (tailgateTest_numbersKept _)
  · exact .refl s

theorem entranceCleared_numbersKept (s : State) : NumbersKept s (entranceCleared s) := by
  unfold entranceCleared
  split
  · exact .of_eq rfl
  all_goals exact .refl s

theorem grantExpired_numbersKept (s : State) : NumbersKept s (grantExpired s) := by
  unfold grantExpired
  split
  · exact .refl s
  · exact .ofGrant (withdrawGrant_grantOnly _ s)

theorem startExpired_numbersKept (s : State) : NumbersKept s (startExpired s) := by
  unfold startExpired
  split
  · exact .ofChange (changeTunnel_frame _ _ s)
  · exact .refl s

/-! ### Stations, monitor, pacing -/

theorem giveUp_numbersKept (i : Fin 16) (s : State) : NumbersKept s (giveUp i s) :=
  (NumbersKept.ofSeq ((updateUnit_seqOnly i _ s).trans _ _ _ (moveStation_seqOnly i _ _))).trans
    (raiseIncident_numbersKept _ _)

/-- A failed attempt that is not the last writes the station alone. -/
theorem retried_numbersKept (i : Fin 16) (f g : StationUnit → StationUnit) (new : StationState) (s : State) :
    NumbersKept s (updateUnit i g (moveStation i new (updateUnit i f s))) :=
  .ofSeq (((updateUnit_seqOnly i f s).trans _ _ _ (moveStation_seqOnly i new _)).trans _ _ _ (updateUnit_seqOnly i g _))

theorem failAttempt_numbersKept (i : Fin 16) (s : State) : NumbersKept s (failAttempt i s) :=
  .ite (retried_numbersKept i _ _ _ s) (giveUp_numbersKept i s)

theorem loseProof_numbersKept (i : Fin 16) (s : State) : NumbersKept s (loseProof i s) :=
  (NumbersKept.ofSeq (markEntries_seqOnly i .proof false s)).trans
    (.ite (retried_numbersKept i _ _ _ _) (giveUp_numbersKept i _))

theorem proofOn_numbersKept (i : Fin 16) (s : State) : NumbersKept s (proofOn i s) :=
  .ite (.ofSeq (becomeReady_seqOnly i s)) (.ite (.ofSeq (updateUnit_seqOnly i _ s)) (.refl s))

theorem proofOff_numbersKept (i : Fin 16) (s : State) : NumbersKept s (proofOff i s) :=
  .ite (loseProof_numbersKept i s) (.refl s)

theorem proofExpired_numbersKept (i : Fin 16) (s : State) : NumbersKept s (proofExpired i s) := by
  unfold proofExpired
  simp only
  split
  · exact .refl s
  · exact (NumbersKept.ofSeq (updateUnit_seqOnly i _ s)).trans
      (.ite (failAttempt_numbersKept i _) (.ite (loseProof_numbersKept i _) (.refl _)))

theorem retryExpired_numbersKept (i : Fin 16) (s : State) : NumbersKept s (retryExpired i s) := by
  unfold retryExpired
  simp only
  split
  · exact .refl s
  · refine (NumbersKept.ofSeq (updateUnit_seqOnly i _ s)).trans
      (.ite (.ite ?_ (.ofSeq (moveStation_seqOnly i _ _))) (.refl _))
    exact .ofSeq ((moveStation_seqOnly i _ _).trans _ _ _ (beginAttempt_seqOnly i _))

theorem scan_numbersKept (samples : Tab 6 (BitVec 12)) (s : State) : NumbersKept s (scan samples s) := by
  have hslots : ∀ m, NumbersKept s { s with mon := m } := fun _ => .of_eq rfl
  have hmark : ∀ u k, NumbersKept u (slackMark u k) := fun u k => by
    unfold slackMark
    split
    · exact .refl u
    · exact .ofSeq (markEntries_seqOnly _ _ _ u)
  exact ((hslots _).trans (foldl_numbersKept _ (fun u k => .ite (hmark u k) (.refl u)) _ _)).trans
    (raiseEach_numbersKept _ _)

theorem windowEnd_numbersKept (s : State) : NumbersKept s (windowEnd s) := by
  have hstall : ∀ n, NumbersKept s { closeWindow s with pace.stall := n } := fun _ => .of_eq rfl
  exact .ite ((hstall _).trans (raiseIncident_numbersKept _ _)) (hstall _)

end Sys2Proof.Machine
end

