-- ==== Sys2Proof/Proofs/ListsEveryCommand.lean ====
section
/-! The requests, the Settings Store and every command: the numbered lists stay sound (R82, R83, R154, R189). -/

namespace Sys2Proof.Machine

/-! ### Requests that read or write no list -/

theorem ownLaneStatus_numbersKept (p : Port) (lane : Option Nat) (s : State) :
    NumbersKept s (ownLaneStatus p lane s).1 := by
  unfold ownLaneStatus
  split
  · exact .refl s
  · exact .of_eq rfl

theorem ownTallyRead_numbersKept (p : Port) (part : Nat) (take clear : Bool) (s : State) :
    NumbersKept s (ownTallyRead p part take clear s).1 := by
  have htake : NumbersKept s (takeCopy p s) := .ite (.of_eq rfl) (.of_eq rfl)
  have hclear : ∀ u, NumbersKept u (updateTally (fun _ => Tally.zero) u) := fun _ => .of_eq rfl
  unfold ownTallyRead
  refine .pair_ite (.refl s) (.pair_ite (.refl s) (.pair_ite ?_ ?_))
  · exact .ite (htake.trans (hclear _)) htake
  · split <;> exact .refl s

theorem ownClaim_numbersKept (p : Port) (s : State) : NumbersKept s (ownClaim p s).1 := by
  have htell : NumbersKept s (if s.sup.holder = some .p4 then notify .p4 (.controlLost .p0) s else s) :=
    .ite (.of_eq rfl) (.refl s)
  have hhold : ∀ h u, NumbersKept u (setHolder h u) := fun _ _ => .of_eq rfl
  exact .pair_ite (htell.trans (hhold _ _)) (.pair_ite (.refl s) (hhold _ s))

theorem ownDefinePlan_numbersKept (plan : Nat) (name : List Nat) (price cls : Nat) (list : List RawPair) (s : State) :
    NumbersKept s (ownDefinePlan plan name price cls list s).1 := by
  unfold ownDefinePlan
  refine .pair_ite (.refl s) ?_
  split
  · exact .refl s
  · exact .pair_ite (.refl s) (.pair_ite (.refl s) (.pair_ite (.refl s) (.pair_ite (.refl s) (.of_eq rfl))))

theorem ownErasePlan_numbersKept (plan : Nat) (s : State) : NumbersKept s (ownErasePlan plan s).1 := by
  unfold ownErasePlan
  refine .pair_ite (.refl s) ?_
  split
  · exact .refl s
  · split <;> exact .of_eq rfl

theorem ownPublish_numbersKept (plan : Nat) (s : State) : NumbersKept s (ownPublish plan s).1 := by
  unfold ownPublish
  refine .pair_ite (.refl s) ?_
  split
  · exact .refl s
  · split <;> exact .of_eq rfl

theorem ownWithdraw_numbersKept (plan : Nat) (s : State) : NumbersKept s (ownWithdraw plan s).1 := by
  unfold ownWithdraw
  refine .pair_ite (.refl s) ?_
  split
  · exact .refl s
  · split <;> exact .of_eq rfl

theorem ownSetService_numbersKept (code presence price limit : Nat) (s : State) :
    NumbersKept s (ownSetService code presence price limit s).1 := by
  unfold ownSetService
  refine .pair_ite (.refl s) ?_
  split <;> exact .of_eq rfl

theorem ownSetResponse_numbersKept (kind cls : Nat) (s : State) : NumbersKept s (ownSetResponse kind cls s).1 := by
  unfold ownSetResponse
  refine .pair_ite (.refl s) ?_
  split
  · exact .pair_ite (.of_eq rfl) (.refl s)
  · exact .refl s

theorem ownSetStation_numbersKept (station : Nat) (raw : RawStation) (s : State) :
    NumbersKept s (ownSetStation station raw s).1 := by
  unfold ownSetStation storeStation
  refine .pair_ite (.refl s) ?_
  split
  · exact .pair_ite (.refl s) (.pair_ite (.refl s) (.pair_ite (.refl s) (.ite (.of_eq rfl) (.of_eq rfl))))
  · exact .refl s

theorem ownSetConstants_numbersKept (c : Constants) (s : State) : NumbersKept s (ownSetConstants c s).1 := by
  have hset : ∀ k e d, NumbersKept s { s with sup.consts := k, trk.eyes := e, ent.eye := d } :=
    fun _ _ _ => .of_eq rfl
  have hreclamp : ∀ before new u, NumbersKept u (reclampStations before new u) :=
    fun _ _ u => .ite (.of_eq rfl) (.refl u)
  exact .pair_ite (.refl s) (.pair_ite (.refl s)
    (((hset _ _ _).trans (hreclamp _ _ _)).trans (.ite (tailgateTest_numbersKept _) (.refl _))))

/-! ### Requests on tickets, incidents, lanes, cars and stations -/

theorem setLane_numbersKept (l : Lane) (q : List Ticket) (s : State) : NumbersKept s (setLane l q s) := .of_eq rfl

theorem withdrawLane_numbersKept (l : Lane) (r : WithdrawReason) (s : State) : NumbersKept s (withdrawLane l r s) :=
  .ofGrant (withdrawLane_grantOnly l r s)

theorem updateTally_numbersKept (f : Tally → Tally) (s : State) : NumbersKept s (updateTally f s) := .of_eq rfl

theorem bindTicket_numbersKept (car : Car) (t : Ticket) (s : State) : NumbersKept s (bindTicket car t s) :=
  (updateCar_numbersKept _ _ s).trans (.ofSeq (testArmAll_seqOnly _))

theorem ownSell_numbersKept (p : Port) (lane : Option Nat) (buy : Purchase) (ref : Nat) (s : State) :
    NumbersKept s (ownSell p lane buy ref s).1 := by
  have hplace : ∀ lanes last u, NumbersKept u { u with sales.lanes := lanes, sales.lastSale := last } :=
    fun _ _ _ => .of_eq rfl
  have hsell : ∀ l q, NumbersKept s (acceptSale l buy q ref s) := fun l q =>
    ((sellTicket_numbersKept (.lane l) buy q s).trans (hplace _ _ _)).trans (arbitrate_numbersKept _)
  unfold ownSell
  split
  · exact .refl s
  · split
    · exact .refl s
    · exact .pair_ite (.refl s) (hsell _ _)

theorem ownVoid_numbersKept (p : Port) (sale : Nat) (s : State) : NumbersKept s (ownVoid p sale s).1 := by
  have htake : ∀ l t u, NumbersKept u (takeTicket l t u) := fun l t u =>
    .ite ((setLane_numbersKept _ _ u).trans (withdrawLane_numbersKept _ _ _)) (setLane_numbersKept _ _ u)
  unfold ownVoid
  split
  · exact .refl s
  · split
    · exact .refl s
    · exact (updateTally_numbersKept _ s).trans (htake _ _ _)

theorem ownAddService_numbersKept (p : Port) (sale code level : Nat) (s : State) :
    NumbersKept s (ownAddService p sale code level s).1 := by
  have hplace : ∀ place x t u, NumbersKept u (placeTicket place code x t u) := fun place x t u => by
    cases place with
    | queued l y => exact setLane_numbersKept _ _ u
    | bound car y => exact (updateCar_numbersKept _ _ u).trans (.ofSeq (testArmAll_seqOnly _))
  unfold ownAddService
  split
  · exact .refl s
  · split
    · exact .refl s
    · refine .pair_ite (.refl s) (.pair_ite (.refl s) ?_)
      split
      · exact .refl s
      · exact (updateTally_numbersKept _ s).trans (hplace _ _ _ _)

theorem ownAttachLane_numbersKept (tag lane : Nat) (s : State) : NumbersKept s (ownAttachLane tag lane s).1 := by
  unfold ownAttachLane
  split
  · exact .refl s
  · split
    · exact .refl s
    · split
      · exact .refl s
      · dsimp only
        exact ((setLane_numbersKept _ _ s).trans (bindTicket_numbersKept _ _ _)).trans
          (withdrawLane_numbersKept _ _ _)

theorem ownAttachNewSale_numbersKept (tag : Nat) (buy : Purchase) (ref : Nat) (s : State) :
    NumbersKept s (ownAttachNewSale tag buy ref s).1 := by
  unfold ownAttachNewSale
  split
  · exact .refl s
  · split
    · exact .refl s
    · dsimp only
      exact (sellTicket_numbersKept _ _ _ s).trans (bindTicket_numbersKept _ _ _)

theorem ownAckIncident_numbersKept (number : Nat) (s : State) : NumbersKept s (ownAckIncident number s).1 := by
  unfold ownAckIncident
  split
  · exact .refl s
  · exact .pair_ite (.refl s) (removeIncidents_numbersKept _ s)

theorem ownLaneReset_numbersKept (lane : Nat) (s : State) : NumbersKept s (ownLaneReset lane s).1 := by
  unfold ownLaneReset
  split
  · exact .refl s
  · exact ((updateTally_numbersKept _ s).trans (setLane_numbersKept _ _ _)).trans (withdrawLane_numbersKept _ _ _)

theorem ownLaneEnable_numbersKept (lane : Nat) (s : State) : NumbersKept s (ownLaneEnable lane s).1 := by
  have hset : ∀ l, NumbersKept s (setEnabled l true s) := fun _ => .of_eq rfl
  unfold ownLaneEnable
  split
  · exact .refl s
  · exact (hset _).trans (arbitrate_numbersKept _)

theorem ownLaneDisable_numbersKept (lane : Nat) (s : State) : NumbersKept s (ownLaneDisable lane s).1 := by
  have hset : ∀ l, NumbersKept s (setEnabled l false s) := fun _ => .of_eq rfl
  unfold ownLaneDisable
  split
  · exact .refl s
  · exact (hset _).trans (withdrawLane_numbersKept _ _ _)

theorem ownTunnelClear_numbersKept (s : State) : NumbersKept s (ownTunnelClear s).1 := by
  have hclear : ∀ u car, NumbersKept u (clearRecord car u) := fun u car =>
    ((clearCredit_numbersKept car u).trans (.ofPorts (notifyBoth_portsOnly _ _))).trans (leaveQueue_numbersKept _ _)
  unfold ownTunnelClear
  split
  · exact foldl_numbersKept _ hclear _ s
  · exact foldl_numbersKept _ hclear _ s
  all_goals exact .refl s

theorem ownStationOff_numbersKept (station : Nat) (s : State) : NumbersKept s (ownStationOff station s).1 := by
  unfold ownStationOff okStation
  split
  · exact .refl s
  · exact .pair_ite (.refl s) (.ofSeq ((moveStation_seqOnly _ _ s).trans _ _ _ (markEntries_seqOnly _ _ _ _)))

theorem ownStationOn_numbersKept (station : Nat) (s : State) : NumbersKept s (ownStationOn station s).1 := by
  unfold ownStationOn okStation
  split
  · exact .refl s
  · exact .pair_ite (.ofSeq (returnStation_seqOnly _ s)) (.refl s)

theorem ownStationReset_numbersKept (station : Nat) (s : State) : NumbersKept s (ownStationReset station s).1 := by
  unfold ownStationReset okStation
  split
  · exact .refl s
  · exact .pair_ite (.ofSeq (returnStation_seqOnly _ s)) (.refl s)

theorem ownIssueCredit_numbersKept (value plan : Nat) (s : State) : NumbersKept s (ownIssueCredit value plan s).1 :=
  .pair_ite (.refl s) (issueCredit_numbersKept _ _ _ s)

/-! ### Tunnel control -/

theorem changeTunnel_numbersKept (new : Tunnel) (cause : Cause) (s : State) :
    NumbersKept s (changeTunnel new cause s) :=
  .ofChange (changeTunnel_frame new cause s)

theorem setManual_numbersKept (x : Bool) (s : State) : NumbersKept s (setManual x s) := .of_eq rfl

theorem ownOpen_numbersKept (s : State) : NumbersKept s (ownOpen s).1 := by
  unfold ownOpen okTunnel
  split
  · exact .pair_ite (.refl s) (.pair_ite (changeTunnel_numbersKept _ _ s) (.refl s))
  · exact .of_eq rfl
  · exact .of_eq rfl
  · exact changeTunnel_numbersKept .running (.request .openTunnel) s
  all_goals exact .refl s

theorem ownDrain_numbersKept (s : State) : NumbersKept s (ownDrain s).1 := by
  unfold ownDrain okTunnel
  split
  · exact changeTunnel_numbersKept _ _ s
  all_goals exact .of_eq rfl

theorem ownStop_numbersKept (s : State) : NumbersKept s (ownStop s).1 := by
  have hchange : NumbersKept s (changeTunnel .stopped (.request .stop) (setManual false s)) :=
    (setManual_numbersKept _ s).trans (changeTunnel_numbersKept _ _ _)
  have hstop : NumbersKept s (stopIfEmpty s).1 := by
    unfold stopIfEmpty
    split
    · dsimp only
      exact hchange
    · exact .refl s
  unfold ownStop
  split
  · exact .refl s
  · exact .pair_ite (.refl s) hstop
  all_goals exact hstop

theorem ownPause_numbersKept (s : State) : NumbersKept s (ownPause s).1 := by
  have hpause : NumbersKept s (pauseTunnel (.request .pause) (setManual true s)) :=
    (setManual_numbersKept _ s).trans (.ofChange (pauseTunnel_frame _ _))
  unfold ownPause okPause
  split
  · exact hpause
  · exact hpause
  · exact hpause
  · exact setManual_numbersKept _ s
  all_goals exact .refl s

theorem ownResume_numbersKept (s : State) : NumbersKept s (ownResume s).1 := by
  unfold ownResume okPause
  split
  · exact .pair_ite (setManual_numbersKept _ s)
      ((setManual_numbersKept false s).trans (changeTunnel_numbersKept (.starting _) (.request .resume) _))
  all_goals exact .refl s

theorem ownRestart_numbersKept (s : State) : NumbersKept s (ownRestart s).1 := by
  unfold ownRestart okTunnel
  split
  · exact .pair_ite (.refl s) (changeTunnel_numbersKept _ _ s)
  all_goals exact .refl s

theorem holderOnly_numbersKept {owner : State → State × Answer} (ho : ∀ s, NumbersKept s (owner s).1) (p : Port)
    (s : State) : NumbersKept s (holderOnly p owner s).1 :=
  .pair_ite (ho s) (.refl s)

theorem holderOrConsole_numbersKept {owner : State → State × Answer} (ho : ∀ s, NumbersKept s (owner s).1)
    (p : Port) (s : State) : NumbersKept s (holderOrConsole p owner s).1 :=
  .pair_ite (ho s) (.refl s)

/-! ### The Settings Store -/

/-- SAVE takes the live credits into the snapshot (R189, R190). -/
theorem ownSave_numbersKept (s : State) : NumbersKept s (ownSave s).1 := by
  refine .pair_ite (.refl s) ⟨fun hs => hs.of_same rfl rfl, fun ⟨hlive, _⟩ => ⟨hlive, fun m hm => ?_⟩⟩
  obtain ⟨hmarker, -⟩ | hsnapshot := (mem_imagesOf _ m).mp hm
  · exact absurd hmarker nofun
  · obtain rfl : imageOf s = m := Option.some.inj hsnapshot
    exact hlive

/-- No image is left where the marker is cleared and no write is in progress (R192, R195). -/
theorem CreditsHold.of_no_image {s t : State} (hs : CreditsHold s) (hcredits : t.sales.credits = s.sales.credits)
    (hcounter : t.sales.creditCounter = s.sales.creditCounter) (hmarker : t.store.marker = false)
    (hwriting : t.store.writing = none) : CreditsHold t := by
  refine ⟨by rw [hcredits, hcounter]; exact hs.1, fun m hm => ?_⟩
  rw [mem_imagesOf, hmarker, hwriting] at hm
  simp at hm

/-- A verified completion makes the snapshot the image, a failed one leaves none (R192). -/
theorem finishWrite_numbersKept (verified : Bool) (s : State) : NumbersKept s (finishWrite verified s) := by
  unfold finishWrite
  split
  · exact .refl s
  · next image hwriting =>
    refine .ite ⟨fun hs => hs.of_same rfl rfl, fun ⟨hlive, himages⟩ => ⟨hlive, fun m hm => ?_⟩⟩
      ⟨fun hs => hs.of_same rfl rfl, fun hs => hs.of_no_image rfl rfl rfl rfl⟩
    obtain ⟨-, hm⟩ | hm := (mem_imagesOf _ m).mp hm
    · obtain rfl : m = image := hm
      exact himages m ((mem_imagesOf s m).mpr (.inr hwriting))
    · exact absurd hm nofun

/-- A reset cuts a write short (R195). -/
theorem holdReset_numbersKept (s : State) : NumbersKept s (holdReset s) := by
  have hcut : NumbersKept s (cutWrite s) :=
    .ite ⟨fun hs => hs.of_same rfl rfl, fun hs => hs.of_no_image rfl rfl rfl rfl⟩ (.refl s)
  exact hcut.trans (.of_eq rfl)

/-- The default credit list and counter (R83, R193). -/
theorem defaults_creditsSound : CreditsSound Image.defaults.credits Image.defaults.creditCounter :=
  ⟨Nat.zero_le _, List.nodup_nil, fun _ hc => absurd hc List.not_mem_nil, Nat.le_refl 1, by decide⟩

/-- The start-up event empties the incident list and loads the credits of a valid image, or the defaults (R193). -/
theorem loadRecords_numbersKept (cause : ResetCause) (s : State) : NumbersKept s (loadRecords cause s) := by
  refine ⟨fun _ => ?_, fun hs => ⟨?_, fun m hm => ?_⟩⟩
  · exact ⟨Nat.zero_le _, List.nodup_nil, fun _ hr => absurd hr List.not_mem_nil, Nat.le_refl 1,
      (by decide : 1 ≤ 255)⟩
  · change CreditsSound (loadedImage s).credits (loadedImage s).creditCounter
    unfold loadedImage
    split
    · next hmarker => exact hs.2 _ ((mem_imagesOf s _).mpr (.inl ⟨hmarker, rfl⟩))
    · exact defaults_creditsSound
  · obtain himage | hwriting := (mem_imagesOf _ m).mp hm
    · exact hs.2 m ((mem_imagesOf s m).mpr (.inl himage))
    · exact absurd hwriting nofun

theorem driveLines_numbersKept (s : State) : NumbersKept s (driveLines s) := .of_eq rfl

theorem startUp_numbersKept (cause : ResetCause) (s : State) : NumbersKept s (startUp cause s) :=
  .ite (((loadRecords_numbersKept cause s).trans (.ite (.refl _) (raiseIncident_numbersKept _ _))).trans
    (driveLines_numbersKept _)) (.refl s)

/-! ### Every command -/

theorem event_numbersKept {f : State → State} (hf : ∀ s, NumbersKept s (f s)) (s : State) :
    NumbersKept s (event f s) :=
  .ite (.refl s) ((hf s).trans (driveLines_numbersKept _))

theorem lineEdge_numbersKept {setLine f : State → State} (hf : ∀ s, NumbersKept s (f s)) (now level : Bool)
    (s : State) (hset : ∀ s, LineOnly s (setLine s)) : NumbersKept s (lineEdge now level setLine f s) := by
  have hline : NumbersKept s (setLine s) := by rw [hset s]; exact .of_eq rfl
  exact .ite (.refl s) (hline.trans (event_numbersKept hf _))

theorem portEvent_numbersKept {f : State → State} (hf : ∀ s, NumbersKept s (f s)) (s : State) :
    NumbersKept s (portEvent f s) :=
  .ite (.refl s) (hf s)

/-- A request keeps the lists where its owner does. -/
theorem respond_numbersKept {owner : State → State × Answer} (ho : ∀ s, NumbersKept s (owner s).1) (p : Port)
    (k : ReqKind) (form : Bool) (s : State) : NumbersKept s (respond p k form owner s) := by
  obtain h | ⟨-, -, -, -, h⟩ := respond_cases p k form owner s
  · exact .ofPorts h
  · rw [h]
    exact ((NumbersKept.ofPorts (frameDone_portsOnly p s)).trans (ho _)).trans
      (.ofPorts (sendAnswer_portsOnly _ _ _ _))

theorem respond_driven_numbersKept {owner : State → State × Answer} (ho : ∀ s, NumbersKept s (owner s).1) (p : Port)
    (k : ReqKind) (form : Bool) (s : State) : NumbersKept s (respond p k form (driven owner) s) :=
  respond_numbersKept (owner := driven owner) (fun u => (ho u).trans (driveLines_numbersKept _)) p k form s

theorem runRequest_numbersKept (c : Instr) (s : State) : NumbersKept s (runRequest c s) := by
  cases c with
  | tunnelStatus p => exact respond_numbersKept (owner := ownTunnelStatus p) (fun _ => .of_eq rfl) _ _ _ s
  | carList | incidentList | creditList | stationStatus | planListSummary | planListPlan | planListService | quote =>
    exact respond_numbersKept (fun u => .refl u) _ _ _ s
  | laneStatus p lane => exact respond_numbersKept (ownLaneStatus_numbersKept p lane) _ _ _ s
  | tallyRead p part take clear => exact respond_numbersKept (ownTallyRead_numbersKept p part take clear) _ _ _ s
  | sell p lane buy ref => exact respond_driven_numbersKept (ownSell_numbersKept p lane buy ref) _ _ _ s
  | void p sale => exact respond_driven_numbersKept (ownVoid_numbersKept p sale) _ _ _ s
  | addService p sale code level =>
    exact respond_driven_numbersKept (ownAddService_numbersKept p sale code level) _ _ _ s
  | attachLane p tag lane => exact respond_driven_numbersKept (ownAttachLane_numbersKept tag lane) _ _ _ s
  | attachNewSale p tag buy ref =>
    exact respond_driven_numbersKept (ownAttachNewSale_numbersKept tag buy ref) _ _ _ s
  | ackIncident p n => exact respond_driven_numbersKept (ownAckIncident_numbersKept n) _ _ _ s
  | ackIncidentAll p =>
    exact respond_driven_numbersKept (owner := ownAckAll) (fun u => removeIncidents_numbersKept _ u) _ _ _ s
  | restart p => exact respond_driven_numbersKept ownRestart_numbersKept _ _ _ s
  | laneReset p l => exact respond_driven_numbersKept (ownLaneReset_numbersKept l) _ _ _ s
  | laneEnable p l => exact respond_driven_numbersKept (ownLaneEnable_numbersKept l) _ _ _ s
  | laneDisable p l => exact respond_driven_numbersKept (ownLaneDisable_numbersKept l) _ _ _ s
  | tunnelClear p => exact respond_driven_numbersKept ownTunnelClear_numbersKept _ _ _ s
  | stationOff p i => exact respond_driven_numbersKept (ownStationOff_numbersKept i) _ _ _ s
  | stationOn p i => exact respond_driven_numbersKept (ownStationOn_numbersKept i) _ _ _ s
  | stationReset p i => exact respond_driven_numbersKept (ownStationReset_numbersKept i) _ _ _ s
  | claim p => exact respond_numbersKept (ownClaim_numbersKept p) _ _ _ s
  | yield p =>
    exact respond_numbersKept (holderOnly_numbersKept (owner := ownYield) (fun _ => .of_eq rfl) p) _ _ _ s
  | openTunnel p => exact respond_driven_numbersKept (holderOnly_numbersKept ownOpen_numbersKept p) _ _ _ s
  | drain p => exact respond_driven_numbersKept (holderOnly_numbersKept ownDrain_numbersKept p) _ _ _ s
  | stop p => exact respond_driven_numbersKept (holderOnly_numbersKept ownStop_numbersKept p) _ _ _ s
  | pause p => exact respond_driven_numbersKept (holderOrConsole_numbersKept ownPause_numbersKept p) _ _ _ s
  | resume p => exact respond_driven_numbersKept (holderOrConsole_numbersKept ownResume_numbersKept p) _ _ _ s
  | forceSpeed p cls =>
    exact respond_driven_numbersKept
      (holderOnly_numbersKept (owner := ownForceSpeed cls) (fun _ => .of_eq rfl) p) _ _ _ s
  | releaseSpeed p =>
    exact respond_driven_numbersKept
      (holderOnly_numbersKept (owner := ownReleaseSpeed) (fun _ => .of_eq rfl) p) _ _ _ s
  | definePlan p plan name price cls list =>
    exact respond_numbersKept (ownDefinePlan_numbersKept plan name price cls list) _ _ _ s
  | erasePlan p n => exact respond_numbersKept (ownErasePlan_numbersKept n) _ _ _ s
  | publish p n => exact respond_numbersKept (ownPublish_numbersKept n) _ _ _ s
  | withdraw p n => exact respond_numbersKept (ownWithdraw_numbersKept n) _ _ _ s
  | setService p code presence price limit =>
    exact respond_numbersKept (ownSetService_numbersKept code presence price limit) _ _ _ s
  | setStation p i r => exact respond_driven_numbersKept (ownSetStation_numbersKept i r) _ _ _ s
  | setConstants p k => exact respond_driven_numbersKept (ownSetConstants_numbersKept k) _ _ _ s
  | setResponse p kind cls => exact respond_numbersKept (ownSetResponse_numbersKept kind cls) _ _ _ s
  | issueCredit p value plan => exact respond_numbersKept (ownIssueCredit_numbersKept value plan) _ _ _ s
  | save p => exact respond_numbersKept ownSave_numbersKept _ _ _ s
  | _ => exact .refl s

theorem handleFrame_numbersKept (p : Port) (kind : Nat) (payload : List Byte) (s : State) :
    NumbersKept s (handleFrame p kind payload s) := by
  unfold handleFrame
  refine .ite (.ofPorts (frameDone_portsOnly p s)) ?_
  split
  · exact .ofPorts (handleUnknownKind_portsOnly p kind s)
  · split
    · exact respond_numbersKept (fun u => .refl u) _ _ _ s
    · exact runRequest_numbersKept _ s

theorem receive_numbersKept (p : Port) (byte : Byte) (s : State) : NumbersKept s (receive p byte s) := by
  have hrx : ∀ x, NumbersKept s (setRx p x s) := fun x => .ofPorts (updatePort_portsOnly p _ s)
  have hdone : NumbersKept s (frameDone p s) := .ofPorts (frameDone_portsOnly p s)
  unfold receive completeFrame
  simp only
  split
  · exact .ite (hrx _) (.refl s)
  · exact .ite (hrx _) hdone
  · exact hrx _
  · refine .ite ?_ hdone
    split
    · exact hdone
    · exact handleFrame_numbersKept _ _ _ s

/-- Every command keeps the lists sound. -/
theorem after_numbersKept (c : Instr) (s : State) : NumbersKept s (after c s) := by
  cases hp : requestPort c with
  | some p =>
    rw [after_request c p hp]
    exact runRequest_numbersKept c s
  | none =>
    cases c with
    | unknownKind p kind => exact .ofPorts (handleUnknownKind_portsOnly p kind s)
    | frameDiscarded p cause => exact portEvent_numbersKept (fun u => .ofPorts (discardFrame_portsOnly p cause u)) s
    | gapTimerExpiry p => exact portEvent_numbersKept (fun u => .ofPorts (gapExpired_portsOnly p u)) s
    | txStart p => exact portEvent_numbersKept (fun u => .ofPorts (updatePort_portsOnly p startFrame u)) s
    | txFrameSent p => exact portEvent_numbersKept (fun u => .ofPorts (updatePort_portsOnly p endFrame u)) s
    | byteReceived p byte => exact portEvent_numbersKept (receive_numbersKept p byte) s
    | encoderPulse => exact event_numbersKept pulse_numbersKept s
    | checkEyeBlockingEdge k => exact lineEdge_numbersKept (eyeBlocked_numbersKept _) _ _ s fun _ => rfl
    | checkEyeClearEdge k => exact lineEdge_numbersKept (eyeCleared_numbersKept _) _ _ s fun _ => rfl
    | exitEyeBlockingEdge => exact lineEdge_numbersKept exitBlocked_numbersKept _ _ s fun _ => rfl
    | exitEyeClearEdge => exact lineEdge_numbersKept exitCleared_numbersKept _ _ s fun _ => rfl
    | entranceEyeBlockingEdge => exact lineEdge_numbersKept entranceBlocked_numbersKept _ _ s fun _ => rfl
    | entranceEyeClearEdge => exact lineEdge_numbersKept entranceCleared_numbersKept _ _ s fun _ => rfl
    | loopOccupied l => exact lineEdge_numbersKept arbitrate_numbersKept _ _ s fun _ => rfl
    | loopVacant l => exact lineEdge_numbersKept .refl _ _ s fun _ => rfl
    | proofAssert i => exact lineEdge_numbersKept (proofOn_numbersKept i) _ _ s fun _ => rfl
    | proofDeassert i => exact lineEdge_numbersKept (proofOff_numbersKept i) _ _ s fun _ => rfl
    | bumperOvertravelEdge slot line active =>
      exact lineEdge_numbersKept (raiseEach_numbersKept _) _ _ s (setSwitch_lineOnly slot line active)
    | estopLoopOpen => exact lineEdge_numbersKept (raiseIncident_numbersKept _) _ _ s fun _ => rfl
    | estopLoopClose => exact lineEdge_numbersKept .refl _ _ s fun _ => rfl
    | reset => exact holdReset_numbersKept s
    | startUp cause => exact startUp_numbersKept cause s
    | grantTimerExpiry => exact event_numbersKept grantExpired_numbersKept s
    | startTimerExpiry => exact event_numbersKept startExpired_numbersKept s
    | exitBlockTimerExpiry => exact event_numbersKept exitBlockExpired_numbersKept s
    | proofTimerExpiry i => exact event_numbersKept (proofExpired_numbersKept i) s
    | retryTimerExpiry i => exact event_numbersKept (retryExpired_numbersKept i) s
    | gateWindowEnd => exact event_numbersKept windowEnd_numbersKept s
    | scanComplete samples => exact event_numbersKept (scan_numbersKept samples) s
    | secondsTick => exact event_numbersKept (f := tickSeconds) (fun _ => .of_eq rfl) s
    | saveComplete verified => exact event_numbersKept (finishWrite_numbersKept verified) s
    | _ => exact absurd hp nofun

/-- A step takes its command out of the waiting queue, which the lists do not depend on, and runs it. -/
theorem step_numbersKept {s t : State} (h : step s = .next t) : NumbersKept s t := by
  unfold step at h
  split at h
  · obtain rfl := Host.Outcome.next.inj h
    exact .refl s
  · next c rest _ =>
    rw [exec_eq_after] at h
    obtain rfl := Host.Outcome.next.inj h
    have htake : NumbersKept s { s with pending := rest } := .of_eq rfl
    exact htake.trans (after_numbersKept c _)

/-- Settles O11: a new number is allocated among the values that no listed record carries, and every other operation
leaves the lists or takes records out, so every command keeps them sound. -/
theorem numberedListsStaySound : Obligations.NumberedListsStaySound :=
  ⟨fun _ _ hs hstep => (step_numbersKept hstep).incidents hs, fun _ _ hs hstep => (step_numbersKept hstep).credits hs⟩

end Sys2Proof.Machine
end

