-- ==== Sys2Proof/Proofs/Sell.lean ====
section
/-! SELL (R65 to R70, R165, R166), and the sale that names a credit that has gone (R83). -/

namespace Sys2Proof.Machine

/-! ### What a sale counts -/

theorem tallySale_lane (l : Lane) (buy : Purchase) (q : Priced) (value : Nat) (t : Tally) :
    tallySale (.lane l) buy q value t = { t with
      plans := tabSet t.plans q.plan
        ⟨min 65535 ((tabGet t.plans q.plan).sold + 1), min 4294967295 ((tabGet t.plans q.plan).revenue + q.total)⟩
      lanes := t.lanes.set l (min 4294967295 (t.lanes.get l + 1))
      addOns := min 4294967295 (t.addOns + q.addOns.length)
      addOnRevenue := min 4294967295 (t.addOnRevenue + value)
      redeemed := min 4294967295 (t.redeemed + if buy.credit = 0 then 0 else 1) } := by
  simp only [tallySale, tallyAddOns, tallyRevenue, tallyLane, tallySold, tabGet_tabSet_same, tabSet_tabSet_same]
  rfl

theorem tallySale_console (buy : Purchase) (q : Priced) (value : Nat) (t : Tally) :
    tallySale .console buy q value t = { t with
      plans := tabSet t.plans q.plan
        ⟨min 65535 ((tabGet t.plans q.plan).sold + 1), min 4294967295 ((tabGet t.plans q.plan).revenue + q.total)⟩
      console := min 4294967295 (t.console + 1)
      addOns := min 4294967295 (t.addOns + q.addOns.length)
      addOnRevenue := min 4294967295 (t.addOnRevenue + value)
      redeemed := min 4294967295 (t.redeemed + if buy.credit = 0 then 0 else 1) } := by
  simp only [tallySale, tallyAddOns, tallyRevenue, tallyLane, tallySold, tabGet_tabSet_same, tabSet_tabSet_same]
  rfl

/-! ### The tests of SELL -/

theorem ownSell_bad_lane {p : Port} {lane : Option Nat} (h : laneOperand p lane = none) (buy : Purchase) (ref : Nat)
    (s : State) : ownSell p lane buy ref s = refuse .badValue s := by
  simp only [ownSell, h]

section
variable {p : Port} {lane : Option Nat} {l : Lane} (hlane : laneOperand p lane = some l) {buy : Purchase} (ref : Nat)
  {s : State}
include hlane

theorem ownSell_refuses {r : Result} (hr : pricePurchase buy s = .error r) :
    ownSell p lane buy ref s = refuse r s := by
  simp only [ownSell, hlane, hr]

theorem ownSell_full {q : Priced} (hq : pricePurchase buy s = .ok q) (hfull : 4 ≤ (s.sales.lanes.get l).length) :
    ownSell p lane buy ref s = refuse .full s := by
  simp only [ownSell, hlane, hq]
  exact if_pos hfull

theorem ownSell_accepts {q : Priced} (hq : pricePurchase buy s = .ok q) (hroom : (s.sales.lanes.get l).length < 4) :
    ownSell p lane buy ref s =
      (acceptSale l buy q ref s, answerOk (b2 (saleNumber s).1 ++ b4 q.total ++ b1 q.cls)) := by
  simp only [ownSell, hlane, hq]
  exact if_neg (Nat.not_le.mpr hroom)

end

/-- A SELL of the right form runs its owner (R180). -/
theorem sell_of_form {p : Port} {lane : Option Nat} (h : laneForm p lane = true) (buy : Purchase) (ref : Nat)
    (s : State) :
    exec (.sell p lane buy ref) s = .next (respond p .sell true (driven (ownSell p lane buy ref)) s) := by
  change Host.Outcome.next (handleSell p lane buy ref s) = _
  rw [handleSell, h]

section
variable {p : Port} {lane : Option Nat} {l : Lane} {s : State} (h : Reaches p .sell s)
  (hlane : (laneOfPort p = some l ∧ lane = none) ∨ (laneOfPort p = none ∧ lane = some (laneCode l)))
  {buy : Purchase} (ref : Nat)
include h hlane

/-- SELL is refused by the test of R68 that its purchase fails. -/
theorem sell_error (hlines : LinesFollow s) {r : Result} (hr : pricePurchase buy s = .error r) :
    exec (.sell p lane buy ref) s = .next (refusedWith p .sell r s) := by
  obtain ⟨hform, hoperand⟩ := laneOperand_of_named hlane
  rw [sell_of_form hform]
  exact congrArg Host.Outcome.next
    (respond_driven_refuse h hlines _ _ (ownSell_refuses hoperand ref (s := frameDone p s) hr))

/-- A lane of 4 tickets takes no other (R66, R70). -/
theorem sell_full (hlines : LinesFollow s) {q : Priced} (hq : pricePurchase buy s = .ok q)
    (hfull : 4 ≤ (s.sales.lanes.get l).length) :
    exec (.sell p lane buy ref) s = .next (refusedWith p .sell .full s) := by
  obtain ⟨hform, hoperand⟩ := laneOperand_of_named hlane
  rw [sell_of_form hform]
  exact congrArg Host.Outcome.next
    (respond_driven_refuse h hlines _ _ (ownSell_full hoperand ref (s := frameDone p s) hq hfull))

/-- An accepted SELL (R70). -/
theorem sell_ok {q : Priced} (hq : pricePurchase buy s = .ok q) (hroom : (s.sales.lanes.get l).length < 4) :
    exec (.sell p lane buy ref) s = .next (answeredOk p .sell (b2 (saleNumber s).1 ++ b4 q.total ++ b1 q.cls)
      (driveLines (acceptSale l buy q ref (frameDone p s)))) := by
  obtain ⟨hform, hoperand⟩ := laneOperand_of_named hlane
  rw [sell_of_form hform]
  exact congrArg Host.Outcome.next
    (respond_driven_ok h _ _ (ownSell_accepts hoperand ref (s := frameDone p s) hq hroom))

end

/-- Settles O37: the lane, the tests of the purchase, what a sale counts, and the lane with and without room. -/
theorem sellPutsATicketInTheLane : Obligations.SellPutsATicketInTheLane := by
  refine ⟨fun p n ref buy s h hlines hp hn => ?_,
    fun p lane l buy ref s h hlines hlane => ⟨fun hbad => ?_, fun i hplan hlen hcodes => ⟨fun hst => ?_,
      fun hst => ⟨fun hfree => ?_, fun hprices hrep => ?_⟩⟩⟩,
    fun lane buy q value t => ⟨_, rfl, ?_, ?_⟩, fun _ _ => rfl,
    fun p lane l buy ref q s h hlane hq => ⟨fun hroom => ⟨_, _, rfl, rfl, ?_⟩, fun hfull hlines => ?_⟩⟩
  · obtain ⟨hform, hnone⟩ := laneOperand_of_bad hp hn
    rw [sell_of_form hform]
    exact congrArg Host.Outcome.next (respond_driven_refuse h hlines _ _ (ownSell_bad_lane hnone buy ref _))
  · exact sell_error h hlane ref hlines (pricePurchase_malformed hbad s)
  · exact sell_error h hlane ref hlines (pricePurchase_not_on_sale s hplan hlen hcodes hst)
  · exact sell_error h hlane ref hlines (pricePurchase_unpriced s hplan hlen hcodes hst hfree)
  · exact sell_error h hlane ref hlines (pricePurchase_repeats s hplan hlen hcodes hst hprices hrep)
  · rintro l rfl
    exact tallySale_lane l buy q value t
  · rintro rfl
    exact tallySale_console buy q value t
  · exact sell_ok h hlane ref hq hroom
  · exact sell_full h hlane ref hlines hq hfull

/-! ### A credit that has gone -/

theorem nextCount_of_le {top n : Nat} (h : n ≤ top) : nextCount top n = if n = top then 1 else n + 1 := by
  unfold nextCount
  split <;> split <;> omega

/-- A purchase that is good without its credit, and names a credit that is not listed (R68, R83). -/
theorem pricePurchase_credit_gone {buy : Purchase} {s : State} {q : Priced}
    (hgood : pricePurchase { buy with credit := 0 } s = .ok q) (hcredit : buy.credit ≠ 0)
    (hgone : ∀ c ∈ s.sales.credits, c.number ≠ buy.credit) : pricePurchase buy s = .error .notFound := by
  have hmissing := creditMissing_of_unlisted hcredit hgone
  unfold pricePurchase at hgood ⊢
  simp only at hgood ⊢
  split at hgood
  · exact absurd hgood nofun
  · split_ifs at hgood with hform hst hprice hrepeat hnamed
    rw [if_neg hform, if_neg hst, if_neg hprice, if_neg hrepeat, if_pos hmissing]

/-- Settles O18: the list and the counter of an issue, its counts, and the sale that names a credit that has gone. -/
theorem creditIssueDropsThenAllocates : Obligations.CreditIssueDropsThenAllocates := by
  refine ⟨rfl, fun value origin plan s hs => ?_, fun p lane l buy ref q s h hlines hlane hgood hcredit hgone => ?_⟩
  · obtain ⟨hmax, -, -, hlow, hhigh⟩ := hs
    have hkept := keptCredits_length hmax
    obtain ⟨tries, htries, hnumber, hbefore, hfree⟩ :=
      allocate_spec 9999 ((keptCredits s).map Credit.number) s.sales.creditCounter hlow hhigh
        (by rw [List.length_map]; omega)
    have hrange := allocate_range 9999 ((keptCredits s).map Credit.number) s.sales.creditCounter hlow hhigh
    have hnext : nextCount 9999 (issuedNumber s) = if issuedNumber s = 9999 then 1 else issuedNumber s + 1 :=
      nextCount_of_le hrange.2
    refine ⟨keptCredits s, issuedNumber s, tries, keptCredits_of_room, keptCredits_of_full, ?_, ?_, hnumber, hbefore,
      fun hroom => ?_, fun hfull => ?_⟩
    · rwa [issuedNumber, hnumber]
    · exact htries.trans (by rwa [List.length_map])
    · rw [issueCredit_of_room value origin plan hroom, hnext]
    · rw [issueCredit_of_full value origin plan hfull, hnext]
  · exact sell_error h hlane ref hlines (pricePurchase_credit_gone hgood hcredit hgone)

end Sys2Proof.Machine
end

