-- ==== Sys2Proof/Proofs/AddService.lean ====
section
/-! ADD_SERVICE (R74 to R76, R167): the stations and the schedule it works on, where its ticket is, and its tests in
order. -/

namespace Sys2Proof.Machine

/-! ### Serving stations and schedules -/

/-- The stations assigned to a code (R75, R100). -/
theorem servingStations_eq (s : State) (code : Nat) : servingStations s code =
    allStations.filter fun i => decide (code ≠ 0 ∧ (tabGet s.seq.table i).code = code) := by
  refine List.filter_congr fun i _ => ?_
  rw [Bool.eq_iff_iff]
  simp [serves]

/-- Station-position order: by SP, then by station number (R99). -/
theorem positionLe_iff (s : State) (x y : Entry) : positionLe s x y = true ↔
    (tabGet s.seq.table x.station).sp < (tabGet s.seq.table y.station).sp ∨
      ((tabGet s.seq.table x.station).sp = (tabGet s.seq.table y.station).sp ∧ x.station ≤ y.station) := by
  simp [positionLe]

/-- What does not come after an entry comes before it, in another station (R99). -/
theorem before_of_not_positionLe {s : State} {x e : Entry} (h : ¬ positionLe s e x = true) :
    (tabGet s.seq.table x.station).sp < (tabGet s.seq.table e.station).sp ∨
      ((tabGet s.seq.table x.station).sp = (tabGet s.seq.table e.station).sp ∧ x.station < e.station) := by
  rw [positionLe_iff, Fin.le_def] at h
  rw [Fin.lt_def]
  omega

/-- An entry joins a schedule behind the entries that come before it (R99). -/
theorem insertEntry_split (s : State) (e : Entry) (l : List Entry) : ∃ before behind : List Entry,
    l = before ++ behind ∧ insertEntry s e l = before ++ e :: behind ∧
      (∀ x ∈ before, ¬ positionLe s e x = true) ∧ ∀ x ∈ behind.head?, positionLe s e x = true := by
  induction l with
  | nil => exact ⟨[], [], rfl, rfl, nofun, nofun⟩
  | cons y ys ih =>
    by_cases hy : positionLe s e y = true
    · exact ⟨[], y :: ys, rfl, if_pos hy, nofun, fun x hx => Option.some.inj hx ▸ hy⟩
    · obtain ⟨before, behind, hsplit, hinsert, hbefore, hbehind⟩ := ih
      refine ⟨y :: before, behind, by rw [hsplit]; rfl, ?_, List.forall_mem_cons.mpr ⟨hy, hbefore⟩, hbehind⟩
      rw [insertEntry, if_neg hy, hinsert]
      rfl

/-- The order of a schedule depends on the station table alone. -/
theorem insertEntry_of_table {s t : State} (h : t.seq.table = s.seq.table) : insertEntry t = insertEntry s := by
  funext e l
  induction l with
  | nil => rfl
  | cons x xs ih =>
    have hle : positionLe t e x = positionLe s e x := by simp only [positionLe, h]
    simp only [insertEntry, hle, ih]

theorem servingStations_of_table {s t : State} (h : t.seq.table = s.seq.table) (code : Nat) :
    servingStations t code = servingStations s code :=
  List.filter_congr fun i _ => by simp only [serves, h]

/-- The car record of a bound ticket with an add-on, over any state with the same stations (R76). -/
theorem extendCar_of_table {s t : State} (h : t.seq.table = s.seq.table) (code level : Nat) (x : Ticket) (car : Car) :
    extendCar t code level x car = { car with
      ticket := some x
      schedule := ((servingStations s code).map (newEntry level)).foldl (fun l e => insertEntry s e l) car.schedule
      cls := if x.cls < car.cls then x.cls else car.cls } := by
  simp only [extendCar, servingStations_of_table h, insertEntry_of_table h]

/-! ### Where the ticket is -/

/-- No held ticket carries the sale number (R74). -/
theorem ticketPlace_of_missing {s : State} {sale : Nat}
    (hlanes : ∀ l ∈ allLanes, ∀ t ∈ s.sales.lanes.get l, t.sale ≠ sale)
    (hcars : ∀ car ∈ s.trk.queue, ∀ t, car.ticket = some t → t.sale ≠ sale) : ticketPlace s sale = none := by
  have hqueues : (allLanes.findSome? fun l => (queuedTicket s l sale).map (TicketPlace.queued l)) = none := by
    refine List.findSome?_eq_none_iff.mpr fun l hl => ?_
    rw [Option.map_eq_none_iff]
    exact List.find?_eq_none.mpr fun t ht => by simpa using hlanes l hl t ht
  have hqueue : carOfSale s sale = none := by
    refine List.find?_eq_none.mpr fun car hcar hsale => ?_
    obtain ⟨t, ht, htsale⟩ : ∃ t, car.ticket = some t ∧ t.sale = sale := by simpa using hsale
    exact hcars car hcar t ht htsale
  simp only [ticketPlace, hqueues, hqueue, Option.bind_none]

theorem namedTicket_of_missing {p : Port} {s : State} {sale : Nat} (h : ticketPlace s sale = none) :
    namedTicket p s sale = none := by
  simp only [namedTicket, h]

/-- A lane port names no ticket of another lane (R74). -/
theorem namedTicket_of_other_lane {p : Port} {s : State} {sale : Nat} {l : Lane} {place : TicketPlace}
    (hp : laneOfPort p = some l) (h : ticketPlace s sale = some place) (hl : place.ticket.lane ≠ .lane l) :
    namedTicket p s sale = none := by
  simp only [namedTicket, h, hp, if_neg hl]

theorem namedTicket_of_place {p : Port} {s : State} {sale : Nat} {place : TicketPlace}
    (h : ticketPlace s sale = some place)
    (hp : laneOfPort p = none ∨ ∃ l, laneOfPort p = some l ∧ place.ticket.lane = .lane l) :
    namedTicket p s sale = some place := by
  obtain hp | ⟨l, hp, hl⟩ := hp
  · simp only [namedTicket, h, hp]
  · simp only [namedTicket, h, hp, if_pos hl]

/-! ### The tests, in order -/

theorem ownAddService_missing {p : Port} {s : State} {sale : Nat} (h : namedTicket p s sale = none)
    (code level : Nat) : ownAddService p sale code level s = refuse .notFound s := by
  simp only [ownAddService, h]

/-- A code outside its range has no add-on price (R58). -/
theorem addOnPrice_of_bad {s : State} {code : Nat} (h : code = 0 ∨ 24 < code ∨ addOnPrice s code = none) :
    addOnPrice s code = none := by
  obtain hcode | hcode | hnone := h
  · simp [addOnPrice, (codeIndex_eq_none_iff code).mpr (.inl hcode)]
  · simp [addOnPrice, (codeIndex_eq_none_iff code).mpr (.inr hcode)]
  · exact hnone

section
variable {p : Port} {s : State} {sale code : Nat} {place : TicketPlace} (h : namedTicket p s sale = some place)
  (level : Nat)
include h

theorem ownAddService_unpriced (hprice : addOnPrice s code = none) :
    ownAddService p sale code level s = refuse .badValue s := by
  simp only [ownAddService, h, hprice]

variable {price : Nat} (hprice : addOnPrice s code = some price)
include hprice

theorem ownAddService_repeats (hheld : ∃ e ∈ place.ticket.list, e.code = code) :
    ownAddService p sale code level s = refuse .duplicate s := by
  simp only [ownAddService, h, hprice]
  exact if_pos (by simpa using hheld)

variable (hnew : ∀ e ∈ place.ticket.list, e.code ≠ code)
include hnew

theorem ownAddService_full (hfull : 12 ≤ place.ticket.list.length) :
    ownAddService p sale code level s = refuse .full s := by
  simp only [ownAddService, h, hprice]
  rw [if_neg (by simpa using hnew)]
  exact if_pos hfull

variable (hroom : place.ticket.list.length < 12)
include hroom

theorem ownAddService_late {i : Fin 16} (hlate : lateStation s code place = some i) :
    ownAddService p sale code level s = (s, ⟨.tooLate, b1 i.val⟩) := by
  simp only [ownAddService, h, hprice]
  rw [if_neg (by simpa using hnew), if_neg (show ¬ Config.ticketMax ≤ _ from Nat.not_le.mpr hroom), hlate]

theorem ownAddService_accepts (hlate : lateStation s code place = none) :
    ownAddService p sale code level s = acceptAddOn place code level price s := by
  simp only [ownAddService, h, hprice]
  rw [if_neg (by simpa using hnew), if_neg (show ¬ Config.ticketMax ≤ _ from Nat.not_le.mpr hroom), hlate]

end

/-- No commit point has been reached (R75). -/
theorem lateStation_of_ahead {s : State} {code : Nat} {car : Car} (t : Ticket)
    (h : ∀ i ∈ servingStations s code, car.front < commitPoint s.sup.consts (tabGet s.seq.table i)) :
    lateStation s code (.bound car t) = none := by
  refine List.find?_eq_none.mpr fun i hi => ?_
  simpa [belowCommit] using h i hi

/-- The lowest-numbered station whose commit point has been reached (R75). -/
theorem lateStation_of_reached {s : State} {code : Nat} {car : Car} (t : Ticket) {i : Fin 16}
    {below above : List (Fin 16)} (hsplit : servingStations s code = below ++ i :: above)
    (hbelow : ∀ j ∈ below, car.front < commitPoint s.sup.consts (tabGet s.seq.table j))
    (hi : commitPoint s.sup.consts (tabGet s.seq.table i) ≤ car.front) :
    lateStation s code (.bound car t) = some i := by
  have hnone : below.find? (fun j => !belowCommit s car.front j) = none :=
    List.find?_eq_none.mpr fun j hj => by simpa [belowCommit] using hbelow j hj
  rw [lateStation, reachedStation, hsplit, List.find?_append, hnone]
  simp [belowCommit, hi]

/-- An add-on of a bound ticket, with the stations of any state that has the same ones (R76, R167). -/
theorem acceptAddOn_bound (car : Car) (x t : Ticket) (code level price : Nat) {s u : State}
    (htable : u.seq.table = s.seq.table)
    (ht : t = extendTicket code (clampTo level 1 4) price (classLimit u code) x) :
    acceptAddOn (.bound car x) code level price u =
      (testArmAll (updateCar car.tag (fun y =>
          { y with
            ticket := some t
            schedule := ((servingStations s code).map (newEntry (clampTo level 1 4))).foldl
              (fun l e => insertEntry s e l) y.schedule
            cls := if t.cls < y.cls then t.cls else y.cls })
          { u with sales.tally := tallyPlanOf t.plan price (tallyAddOns 1 price u.sales.tally) }),
        answerOk (b2 t.sale ++ b2 price ++ b4 t.paid ++ b1 t.cls ++ b1 t.list.length)) := by
  subst ht
  have hcar := funext (extendCar_of_table (s := s)
    (t := updateTally (fun y => tallyPlanOf x.plan price (tallyAddOns 1 price y)) u) htable code (clampTo level 1 4)
    (extendTicket code (clampTo level 1 4) price (classLimit u code) x))
  exact congrArg (fun f => (testArmAll (updateCar car.tag f _), _)) hcar

/-! ### The request -/

section
variable {p : Port} {s : State} (h : Reaches p .addService s) {sale code level : Nat}
include h

theorem addService_refused (hlines : LinesFollow s) {r : Result}
    (ho : ownAddService p sale code level (frameDone p s) = refuse r (frameDone p s)) :
    exec (.addService p sale code level) s = .next (refusedWith p .addService r s) :=
  congrArg Host.Outcome.next (respond_driven_refuse h hlines _ r ho)

/-- A refusal that carries a field leaves every record and every line unchanged (R75, R181). -/
theorem addService_late (hlines : LinesFollow s) {a : Answer}
    (ho : ownAddService p sale code level (frameDone p s) = (frameDone p s, a)) :
    exec (.addService p sale code level) s = .next (sendAnswer p 0x13 a (frameDone p s)) := by
  refine congrArg Host.Outcome.next ((respond_of_reaches h _).trans ?_)
  rw [driven, ho, driveLines_frameDone h.1 hlines]
  rfl

theorem addService_accepted {t : State} {fields : List Byte}
    (ho : ownAddService p sale code level (frameDone p s) = (t, answerOk fields)) :
    exec (.addService p sale code level) s = .next (answeredOk p .addService fields (driveLines t)) :=
  congrArg Host.Outcome.next (respond_driven_ok h _ fields ho)

end

/-- Settles O39: the stations and the schedule, the refusals in the order of R74, the ticket in its two places, and the
station that refuses it. -/
theorem addServiceExtendsTheTicket : Obligations.AddServiceExtendsTheTicket := by
  refine ⟨fun _ _ => rfl, servingStations_eq, fun s e l => ?_,
    fun p sale code level s h hlines =>
      ⟨fun hlanes hcars => ?_, fun l place hp hplace hl => ?_, fun place hplace hp => ?_⟩,
    fun p code level price s place h hplace hprice hnew hroom => ?_⟩
  · obtain ⟨before, behind, hsplit, hinsert, hbefore, hbehind⟩ := insertEntry_split s e l
    exact ⟨before, behind, hsplit, hinsert, fun x hx => before_of_not_positionLe (hbefore x hx),
      fun x hx => (positionLe_iff s e x).mp (hbehind x hx)⟩
  · exact addService_refused h hlines
      (ownAddService_missing (namedTicket_of_missing (ticketPlace_of_missing (s := frameDone p s) hlanes hcars)) _ _)
  · exact addService_refused h hlines
      (ownAddService_missing (namedTicket_of_other_lane (s := frameDone p s) hp hplace hl) _ _)
  · have hnamed : namedTicket p (frameDone p s) sale = some place := namedTicket_of_place hplace hp
    refine ⟨fun hbad => ?_, fun hpriced hheld => ?_, fun hpriced hnew hfull => ?_⟩
    · exact addService_refused h hlines (ownAddService_unpriced hnamed level (addOnPrice_of_bad (s := s) hbad))
    · obtain ⟨price, hprice⟩ := Option.ne_none_iff_exists'.mp hpriced
      exact addService_refused h hlines (ownAddService_repeats hnamed level (price := price) hprice hheld)
    · obtain ⟨price, hprice⟩ := Option.ne_none_iff_exists'.mp hpriced
      exact addService_refused h hlines (ownAddService_full hnamed level (price := price) hprice hnew hfull)
  · have hnamed : namedTicket p (frameDone p s) place.ticket.sale = some place := hplace
    refine ⟨_, _, rfl, rfl, ?_, ?_, ?_⟩
    · rintro l x rfl
      exact addService_accepted h (ownAddService_accepts hnamed level hprice hnew hroom rfl)
    · rintro car x rfl hahead
      have haccepts := ownAddService_accepts hnamed level (price := price) hprice hnew hroom
        (lateStation_of_ahead (s := frameDone p s) x hahead)
      refine addService_accepted h (haccepts.trans ?_)
      exact acceptAddOn_bound (u := frameDone p s) car x _ code level price rfl rfl
    · rintro car x i below above rfl hlines hsplit hbelow hi
      exact addService_late h hlines (ownAddService_late hnamed level (price := price) hprice hnew hroom
        (lateStation_of_reached (s := frameDone p s) x hsplit hbelow hi))

end Sys2Proof.Machine
end

