-- ==== Sys2Proof/Proofs/Attach.lean ====
section
/-! ATTACH (R78 to R81): the record that it names, the ticket of a lane or of a new sale bound to it, and its tests in
order. -/

namespace Sys2Proof.Machine

/-! ### The partial schedule -/

/-- The omitted stations: those whose commit point the front has reached (R79). -/
theorem omittedCount_eq (s : State) (front : Nat) (t : Ticket) : omittedCount s front t =
    (t.list.flatMap fun q => (servingStations s q.code).filter fun i =>
      decide (commitPoint s.sup.consts (tabGet s.seq.table i) ≤ front)).length := by
  rw [omittedCount, ticketStations, List.filter_flatMap]
  simp only [belowCommit, ← decide_not, Nat.not_lt]

theorem buildSchedule_of_table {s t : State} (h : t.seq.table = s.seq.table) (reachable : Fin 16 → Bool)
    (list : List SvcLevel) : buildSchedule t reachable list = buildSchedule s reachable list := by
  simp only [buildSchedule, orderSchedule, insertEntry_of_table h, servingStations_of_table h]

/-- A ticket bound to a record, with the stations of any state that has the same ones and the same constants (R79). -/
theorem bindTicket_of_table {s u : State} (htable : u.seq.table = s.seq.table) (hconsts : u.sup.consts = s.sup.consts)
    (car : Car) (t : Ticket) : bindTicket car t u = testArmAll (updateCar car.tag (fun y =>
      { y with
        ticket := some t
        cls := t.cls
        schedule := buildSchedule s (fun i =>
          car.front < commitPoint s.sup.consts (tabGet s.seq.table i)) t.list }) u) := by
  have hahead : belowCommit u car.front =
      fun i => decide (car.front < commitPoint s.sup.consts (tabGet s.seq.table i)) := by
    funext i
    rw [belowCommit, hconsts, htable]
  rw [bindTicket, buildSchedule_of_table htable, hahead]

/-! ### The record named -/

theorem attachCar_of_unlisted {tag : Nat} {s : State} (h : carOf s tag = none) :
    attachCar tag s = .error .notFound := by
  simp only [attachCar, h]

theorem attachCar_of_ticketed {tag : Nat} {s : State} {car : Car} (h : carOf s tag = some car)
    (ht : car.ticket ≠ none) : attachCar tag s = .error .state := by
  simp only [attachCar, h]
  exact if_pos (Option.isSome_iff_ne_none.mpr ht)

theorem attachCar_of_unticketed {tag : Nat} {s : State} {car : Car} (h : carOf s tag = some car)
    (ht : car.ticket = none) : attachCar tag s = .ok car := by
  simp [attachCar, h, ht]

/-! ### The tests and the effect of the two forms -/

/-- A record that ATTACH does not take is refused in both forms (R78). -/
theorem ownAttach_refuses {tag : Nat} {s : State} {r : Result} (h : attachCar tag s = .error r) (lane ref : Nat)
    (buy : Purchase) : ownAttachLane tag lane s = refuse r s ∧ ownAttachNewSale tag buy ref s = refuse r s := by
  simp only [ownAttachLane, ownAttachNewSale, h, and_self]

section
variable {tag : Nat} {s : State} {car : Car} (h : attachCar tag s = .ok car)
include h

theorem ownAttachLane_bad_lane {lane : Nat} (hlane : laneOfByte lane = none) :
    ownAttachLane tag lane s = refuse .badValue s := by
  simp only [ownAttachLane, h, hlane]

theorem ownAttachLane_empty {l : Lane} (hqueue : s.sales.lanes.get l = []) :
    ownAttachLane tag (laneCode l) s = refuse .notFound s := by
  simp only [ownAttachLane, h, laneOfByte_laneCode, hqueue]

theorem ownAttachLane_binds {l : Lane} {t : Ticket} {rest : List Ticket} (hqueue : s.sales.lanes.get l = t :: rest) :
    ownAttachLane tag (laneCode l) s =
      (withdrawLane l .headRemoved (bindTicket car t (setLane l rest s)), answerOk (attachFields car t s)) := by
  simp only [ownAttachLane, h, laneOfByte_laneCode, hqueue]

theorem ownAttachNewSale_error {buy : Purchase} {r : Result} (hr : pricePurchase buy s = .error r) (ref : Nat) :
    ownAttachNewSale tag buy ref s = refuse r s := by
  simp only [ownAttachNewSale, h, hr]

theorem ownAttachNewSale_binds {buy : Purchase} {q : Priced} (hq : pricePurchase buy s = .ok q) (ref : Nat) :
    ownAttachNewSale tag buy ref s =
      (bindTicket car (ticketOf (saleNumber s).1 .console buy q ref s) (sellTicket .console buy q s),
        answerOk (attachFields car (ticketOf (saleNumber s).1 .console buy q ref s) s ++ b4 q.total)) := by
  simp only [ownAttachNewSale, h, hq]

end

/-! ### The request -/

section
variable {s : State} (h : Reaches .p0 .attach s) {tag : Nat}
include h

theorem attachLane_refused (hlines : LinesFollow s) {lane : Nat} {r : Result}
    (ho : ownAttachLane tag lane (frameDone .p0 s) = refuse r (frameDone .p0 s)) :
    exec (.attachLane .p0 tag lane) s = .next (refusedWith .p0 .attach r s) :=
  congrArg Host.Outcome.next (respond_driven_refuse h hlines _ r ho)

theorem attachNewSale_refused (hlines : LinesFollow s) {buy : Purchase} {ref : Nat} {r : Result}
    (ho : ownAttachNewSale tag buy ref (frameDone .p0 s) = refuse r (frameDone .p0 s)) :
    exec (.attachNewSale .p0 tag buy ref) s = .next (refusedWith .p0 .attach r s) :=
  congrArg Host.Outcome.next (respond_driven_refuse h hlines _ r ho)

/-- The new-sale form is refused by the test of R68 that its purchase fails (R81). -/
theorem attachNewSale_error (hlines : LinesFollow s) {car : Car} (hcar : attachCar tag s = .ok car) {buy : Purchase}
    (ref : Nat) {r : Result} (hr : pricePurchase buy s = .error r) :
    exec (.attachNewSale .p0 tag buy ref) s = .next (refusedWith .p0 .attach r s) :=
  attachNewSale_refused h hlines (ownAttachNewSale_error (s := frameDone .p0 s) hcar hr ref)

/-- The record is not listed, or has a ticket: both forms are refused (R78). -/
theorem attach_bad_car (hlines : LinesFollow s) {r : Result} (hcar : attachCar tag s = .error r) (lane ref : Nat)
    (buy : Purchase) : exec (.attachLane .p0 tag lane) s = .next (refusedWith .p0 .attach r s) ∧
      exec (.attachNewSale .p0 tag buy ref) s = .next (refusedWith .p0 .attach r s) := by
  obtain ⟨hlane, hsale⟩ := ownAttach_refuses (s := frameDone .p0 s) hcar lane ref buy
  exact ⟨attachLane_refused h hlines hlane, attachNewSale_refused h hlines hsale⟩

/-- The head ticket of a lane bound to the record (R79, R80). -/
theorem attachLane_ok {car : Car} (hcar : attachCar tag s = .ok car) {l : Lane} {t : Ticket} {rest : List Ticket}
    (hqueue : s.sales.lanes.get l = t :: rest) : exec (.attachLane .p0 tag (laneCode l)) s =
      .next (answeredOk .p0 .attach (attachFields car t s)
        (driveLines (withdrawLane l .headRemoved (bindTicket car t (setLane l rest (frameDone .p0 s)))))) :=
  congrArg Host.Outcome.next
    (respond_driven_ok h _ _ (ownAttachLane_binds (s := frameDone .p0 s) hcar hqueue))

/-- A ticket sold and bound to the record (R79, R81). -/
theorem attachNewSale_ok {car : Car} (hcar : attachCar tag s = .ok car) {buy : Purchase} (ref : Nat) {q : Priced}
    (hq : pricePurchase buy s = .ok q) : exec (.attachNewSale .p0 tag buy ref) s =
      .next (answeredOk .p0 .attach (attachFields car (ticketOf (saleNumber s).1 .console buy q ref s) s ++ b4 q.total)
        (driveLines (bindTicket car (ticketOf (saleNumber s).1 .console buy q ref s)
          (sellTicket .console buy q (frameDone .p0 s))))) :=
  congrArg Host.Outcome.next
    (respond_driven_ok h _ _ (ownAttachNewSale_binds (s := frameDone .p0 s) hcar hq ref))

end

/-- Settles O40: the partial schedule, the refusals of the two forms, the ticket each binds, and the record refused. -/
theorem attachBindsATicket : Obligations.AttachBindsATicket := by
  refine ⟨omittedCount_eq, fun _ _ _ => rfl, fun car s h hlines hcar hfree => ⟨fun n hn => ?_, fun l hqueue => ?_,
      fun buy ref => ⟨fun hbad => ?_, fun i hplan hlen hcodes => ⟨fun hst => ?_, fun hst => ⟨fun hunpriced => ?_,
        fun hprices => ⟨fun hrep => ?_, fun hnew hnodup hcredit hgone => ?_⟩⟩⟩⟩⟩,
    fun car l t rest s h hcar hfree hqueue => ?_,
    fun car buy ref q s h hcar hfree hq =>
      ⟨(saleNumber s).1, ticketOf (saleNumber s).1 .console buy q ref s, rfl, rfl, ?_⟩,
    fun tag lane ref buy s h hlines => ⟨fun hnone => ?_, fun car hcar hticket => ?_⟩⟩
  · exact attachLane_refused h hlines
      (ownAttachLane_bad_lane (s := frameDone .p0 s) (attachCar_of_unticketed hcar hfree) (laneOfByte_of_bad hn))
  · exact attachLane_refused h hlines
      (ownAttachLane_empty (s := frameDone .p0 s) (attachCar_of_unticketed hcar hfree) hqueue)
  · exact attachNewSale_error h hlines (attachCar_of_unticketed hcar hfree) ref (pricePurchase_malformed hbad s)
  · exact attachNewSale_error h hlines (attachCar_of_unticketed hcar hfree) ref
      (pricePurchase_not_on_sale s hplan hlen hcodes hst)
  · exact attachNewSale_error h hlines (attachCar_of_unticketed hcar hfree) ref
      (pricePurchase_unpriced s hplan hlen hcodes hst hunpriced)
  · exact attachNewSale_error h hlines (attachCar_of_unticketed hcar hfree) ref
      (pricePurchase_repeats s hplan hlen hcodes hst hprices hrep)
  · exact attachNewSale_error h hlines (attachCar_of_unticketed hcar hfree) ref
      (pricePurchase_no_credit s hplan hlen hcodes hst hprices hnew hnodup hcredit hgone)
  · rw [attachLane_ok h (attachCar_of_unticketed hcar hfree) hqueue,
      bindTicket_of_table (s := s) (u := setLane l rest (frameDone .p0 s)) rfl rfl]
    rfl
  · rw [attachNewSale_ok h (attachCar_of_unticketed hcar hfree) ref hq,
      bindTicket_of_table (s := s) (u := sellTicket .console buy q (frameDone .p0 s)) rfl rfl]
    rfl
  · exact attach_bad_car h hlines (attachCar_of_unlisted hnone) lane ref buy
  · exact attach_bad_car h hlines (attachCar_of_ticketed hcar hticket) lane ref buy

end Sys2Proof.Machine
end

