-- ==== Sys2Proof/Proofs/StationMoves.lean ====
section
/-! A move of a station (R91, R128, R129), the service of the overlapping cars (R101), and the arming test of every
station (R93). -/

namespace Sys2Proof.Machine

/-! ### A move -/

/-- What a move of a station writes and leaves, beside the slots. -/
@[simp] theorem moveStation_fields (i : Fin 16) (new : StationState) (s : State) :
    (moveStation i new s).seq.units = tabSet s.seq.units i (unitOnMove new (tabGet s.seq.units i)) ∧
    (moveStation i new s).seq.table = s.seq.table ∧ (moveStation i new s).trk = s.trk ∧
    (moveStation i new s).held = s.held ∧ (moveStation i new s).inputs = s.inputs ∧
    (moveStation i new s).sup = s.sup := by
  rw [moveStation_eq]
  exact ⟨rfl, rfl, rfl, rfl, rfl, rfl⟩

@[simp] theorem unitOnMove_state (new : StationState) (u : StationUnit) : (unitOnMove new u).state = new := by
  unfold unitOnMove
  split <;> rfl

theorem restState_iff (st : StationState) : restState st = true ↔ st ∈ [.idle, .fault, .offLine] := by
  cases st <;> simp [restState]

theorem watchedState_iff (st : StationState) : watchedState st = true ↔ st ∈ [.arming, .ready, .firing] := by
  cases st <;> simp [watchedState]

/-- A move to a rest state stops the timers and clears the recheck flag; every other move writes the state alone
(R91). -/
theorem unitOnMove_eq (new : StationState) : unitOnMove new = fun u =>
    if new ∈ [.idle, .fault, .offLine] then
      { u with state := new, proofTimer := none, retryTimer := none, recheck := false }
    else { u with state := new } := by
  funext u
  simp only [unitOnMove, restState_iff]

/-- A move of a station that is not BRUSH is told to no slot (R91). -/
theorem moveStation_unslotted {i : Fin 16} {s : State} (h : ∀ b, (tabGet s.seq.table i).gear ≠ .brush b)
    (new : StationState) : moveStation i new s = updateUnit i (unitOnMove new) s := by
  have hgear : (tabGet s.seq.table i).gear.brush? = none := by
    cases hg : (tabGet s.seq.table i).gear with
    | brush b => exact absurd hg (h b)
    | spray t => rfl
    | air t => rfl
  simp [moveStation, tellMonitor, hgear]

/-- A move of a BRUSH station is told to its slot (R91). -/
theorem moveStation_brush {i : Fin 16} {s : State} {b : BrushRec} (h : (tabGet s.seq.table i).gear = .brush b)
    (new : StationState) : moveStation i new s = { updateUnit i (unitOnMove new) s with
      mon := tabSet s.mon b.slot
        (slotOnMove (tabGet s.seq.units i).state new b.jamBlank (tabGet s.mon b.slot)) } := by
  simp [moveStation, tellMonitor, h, Gear.brush?, updateSlot]

/-! ### What a move makes of a slot (R128, R129) -/

theorem slotOnMove_sample (old new : StationState) (n : Nat) (x : Slot) :
    (slotOnMove old new n x).sample = x.sample := by
  unfold slotOnMove
  split <;> split <;> rfl

/-- Leaving the watched states clears the counts and the latch (R128). -/
theorem slotOnMove_leaves {old new : StationState} (hold : old ∈ [.arming, .ready, .firing])
    (hnew : new ∉ [.arming, .ready, .firing]) (n : Nat) (x : Slot) :
    slotOnMove old new n x = { x with jam := 0, slack := 0, latch := false } := by
  have harming : new ≠ .arming := by rintro rfl; simp at hnew
  rw [← watchedState_iff] at hold hnew
  simp [slotOnMove, hold, hnew, harming]

/-- Entry into ARMING from IDLE or RETRY_WAIT sets the blank count (R129). -/
theorem slotOnMove_arms {old : StationState} (hold : old ∈ [.idle, .retryWait]) (n : Nat) (x : Slot) :
    slotOnMove old .arming n x = { x with blank := n } := by
  simp [slotOnMove, watchedState, List.mem_pair.mp hold]

/-- Every other move to a watched state leaves the slot (R128, R129). -/
theorem slotOnMove_stays {old new : StationState} (hnew : new ∈ [.arming, .ready, .firing])
    (h : old ∉ [.idle, .retryWait] ∨ new ≠ .arming) (n : Nat) (x : Slot) : slotOnMove old new n x = x := by
  have hblank : ¬ (new = .arming ∧ (old = .idle ∨ old = .retryWait)) := by
    rintro ⟨harming, hold⟩
    exact h.elim (fun hno => hno (List.mem_pair.mpr hold)) (fun hno => hno harming)
  rw [← watchedState_iff] at hnew
  simp [slotOnMove, hnew, hblank]

/-! ### The cars at a station -/

theorem pastClose_iff (r : StationRec) (car : Car) :
    pastClose r car = true ↔ ∃ len, car.length = some len ∧ r.sp + r.post + len ≤ car.front := by
  unfold pastClose windowClose
  cases car.length <;> simp

theorem overlaps_iff (r : StationRec) (car : Car) :
    overlaps r car = true ↔ r.sp - r.pre ≤ car.front ∧ pastClose r car = false := by
  simp [overlaps, windowOpen]

/-- A car with a PENDING entry that has reached the arm point and is not past close (R93). -/
theorem wanted_iff (s : State) (i : Fin 16) : wanted s i = true ↔ ∃ car ∈ s.trk.queue,
    (∃ e ∈ car.schedule, e.station = i ∧ e.state = .pending) ∧
      (tabGet s.seq.table i).sp - (tabGet s.seq.table i).pre - s.sup.consts.armLead ≤ car.front ∧
      pastClose (tabGet s.seq.table i) car = false := by
  simp [wanted, wants, armPoint, windowOpen, and_assoc]

/-- A car whose PENDING entries at a station are ACTIVE where it overlaps the station (R101). -/
def serveCar (r : StationRec) (i : Fin 16) (car : Car) : Car :=
  if overlaps r car then
    mapEntries (fun e => if e.station = i ∧ e.state = .pending then { e with state := .active } else e) car
  else car

/-- The overlapping cars served (R101). -/
def served (i : Fin 16) (s : State) : State := mapQueue (serveCar (tabGet s.seq.table i) i) s

theorem activate_firing {i : Fin 16} {s : State} (h : (tabGet s.seq.units i).state = .firing) :
    activate i s = served i s := by
  simp only [activate, h, reduceCtorEq, false_or, if_true, false_and, if_false]
  rfl

/-- A READY station that serves no car stays READY (R101). -/
theorem activate_ready_none {i : Fin 16} {s : State} (h : (tabGet s.seq.units i).state = .ready)
    (hnone : activeCount (served i s) i = 0) : activate i s = served i s := by
  simp only [activate, h, true_or, if_true, true_and]
  exact if_neg (Nat.not_lt.mpr hnone.le)

/-- A READY station that serves a car is FIRING (R101). -/
theorem activate_ready_some {i : Fin 16} {s : State} (h : (tabGet s.seq.units i).state = .ready)
    (hsome : 0 < activeCount (served i s) i) : activate i s = moveStation i .firing (served i s) := by
  simp only [activate, h, true_or, if_true, true_and]
  exact if_pos hsome

theorem activate_other {i : Fin 16} {s : State} (h : (tabGet s.seq.units i).state ∉ [.ready, .firing]) :
    activate i s = s :=
  if_neg (by rwa [List.mem_pair] at h)

/-- What a test of R101 can do. -/
theorem activate_cases (i : Fin 16) (s : State) :
    activate i s = s ∨ activate i s = served i s ∨ activate i s = moveStation i .firing (served i s) := by
  by_cases hfiring : (tabGet s.seq.units i).state = .firing
  · exact .inr (.inl (activate_firing hfiring))
  · by_cases hready : (tabGet s.seq.units i).state = .ready
    · obtain hnone | hsome := Nat.eq_zero_or_pos (activeCount (served i s) i)
      · exact .inr (.inl (activate_ready_none hready hnone))
      · exact .inr (.inr (activate_ready_some hready hsome))
    · exact .inl (activate_other (by simp [hfiring, hready]))

/-! ### No wanted station of a running tunnel is left IDLE -/

/-- The station's unit stays, and nothing makes the station wanted. -/
def LeavesStation (i : Fin 16) (s t : State) : Prop :=
  tabGet t.seq.units i = tabGet s.seq.units i ∧ (wanted t i = true → wanted s i = true)

theorem LeavesStation.trans {i : Fin 16} {s t u : State} (h : LeavesStation i s t) (k : LeavesStation i t u) :
    LeavesStation i s u :=
  ⟨k.1.trans h.1, fun hw => h.2 (k.2 hw)⟩

/-- A station that is not IDLE where it is wanted (R93). -/
def ArmedIfWanted (i : Fin 16) (s : State) : Prop := wanted s i = true → (tabGet s.seq.units i).state ≠ .idle

theorem LeavesStation.armedIfWanted {i : Fin 16} {s t : State} (h : LeavesStation i s t) (hs : ArmedIfWanted i s) :
    ArmedIfWanted i t := fun hw => by
  rw [h.1]
  exact hs (h.2 hw)

/-- A car served at a station wants no station that it did not want. -/
theorem wants_of_serveCar {c : Constants} {r q : StationRec} {i j : Fin 16} {car : Car}
    (h : wants c r i (serveCar q j car) = true) : wants c r i car = true := by
  unfold serveCar at h
  split at h
  · simp only [wants, mapEntries, Bool.and_eq_true, List.any_map, List.any_eq_true, Function.comp_apply] at h ⊢
    obtain ⟨⟨⟨e, hmem, hpending⟩, hfront⟩, hpast⟩ := h
    refine ⟨⟨⟨e, hmem, ?_⟩, hfront⟩, hpast⟩
    split at hpending
    · simp at hpending
    · exact hpending
  · exact h

theorem served_leaves (i j : Fin 16) (s : State) : LeavesStation i s (served j s) := by
  refine ⟨rfl, fun h => ?_⟩
  simp only [wanted, served, mapQueue_fields, List.any_map, List.any_eq_true, Function.comp_apply] at h ⊢
  obtain ⟨car, hmem, hwants⟩ := h
  exact ⟨car, hmem, wants_of_serveCar hwants⟩

section
variable {i j : Fin 16} (hij : j ≠ i)
include hij

theorem updateUnit_leaves (f : StationUnit → StationUnit) (s : State) : LeavesStation i s (updateUnit j f s) :=
  ⟨tabGet_tabSet_ne _ _ _ _ hij, id⟩

theorem moveStation_leaves (new : StationState) (s : State) : LeavesStation i s (moveStation j new s) := by
  refine ⟨?_, fun h => ?_⟩
  · rw [(moveStation_fields j new s).1, tabGet_tabSet_ne _ _ _ _ hij]
  · simpa [wanted] using h

theorem activate_leaves (s : State) : LeavesStation i s (activate j s) := by
  obtain h | h | h := activate_cases j s <;> rw [h]
  · exact ⟨rfl, id⟩
  · exact served_leaves i j s
  · exact (served_leaves i j s).trans (moveStation_leaves hij _ _)

theorem becomeReady_leaves (s : State) : LeavesStation i s (becomeReady j s) :=
  ((updateUnit_leaves hij _ s).trans (moveStation_leaves hij _ _)).trans (activate_leaves hij _)

theorem beginAttempt_leaves (s : State) : LeavesStation i s (beginAttempt j s) := by
  simp only [beginAttempt]
  split
  · exact becomeReady_leaves hij s
  · exact updateUnit_leaves hij _ s

theorem testArm_leaves (s : State) : LeavesStation i s (testArm j s) := by
  unfold testArm
  split
  · exact ((updateUnit_leaves hij _ s).trans (moveStation_leaves hij _ _)).trans (beginAttempt_leaves hij _)
  · exact ⟨rfl, id⟩

end

theorem activate_not_idle {i : Fin 16} {s : State} (h : (tabGet s.seq.units i).state ≠ .idle) :
    (tabGet (activate i s).seq.units i).state ≠ .idle := by
  obtain ha | ha | ha := activate_cases i s <;> rw [ha]
  · exact h
  · exact h
  · simp

/-- An attempt begun in ARMING leaves the station in ARMING, READY or FIRING (R94). -/
theorem beginAttempt_not_idle {i : Fin 16} {s : State} (h : (tabGet s.seq.units i).state ≠ .idle) :
    (tabGet (beginAttempt i s).seq.units i).state ≠ .idle := by
  simp only [beginAttempt]
  split
  · exact activate_not_idle (by simp)
  · simpa using h

theorem testArm_arms {i : Fin 16} {s : State} (hidle : (tabGet s.seq.units i).state = .idle)
    (hruns : s.sup.tunnel.runs = true) (hwanted : wanted s i = true) : testArm i s =
      beginAttempt i (moveStation i .arming (updateUnit i (fun x => { x with fails := 0 }) s)) :=
  if_pos ⟨hidle, hruns, hwanted⟩

theorem testArm_stays {i : Fin 16} {s : State}
    (h : (tabGet s.seq.units i).state ≠ .idle ∨ s.sup.tunnel.runs = false ∨ wanted s i = false) : testArm i s = s := by
  refine if_neg ?_
  rintro ⟨hidle, hruns, hwanted⟩
  simp [hidle, hruns, hwanted] at h

theorem testArm_tunnel (i : Fin 16) (s : State) : (testArm i s).sup.tunnel = s.sup.tunnel :=
  congrArg (fun t => t.sup.tunnel) (testArm_seqOnly i s).1

/-- The arming test of a station of a running tunnel (R93). -/
theorem testArm_armedIfWanted {i : Fin 16} {s : State} (hruns : s.sup.tunnel.runs = true) :
    ArmedIfWanted i (testArm i s) := by
  by_cases hneeds : (tabGet s.seq.units i).state = .idle ∧ wanted s i = true
  · obtain ⟨hidle, hwanted⟩ := hneeds
    rw [testArm_arms hidle hruns hwanted]
    exact fun _ => beginAttempt_not_idle (by simp)
  · have hstays : testArm i s = s := if_neg fun ⟨hidle, _, hwanted⟩ => hneeds ⟨hidle, hwanted⟩
    rw [hstays]
    exact fun hwanted hidle => hneeds ⟨hidle, hwanted⟩

/-- Each station tested is armed if wanted, and the tests that follow keep that. -/
theorem foldl_testArm_armedIfWanted (i : Fin 16) (l : List (Fin 16)) : ∀ s : State, s.sup.tunnel.runs = true →
    i ∈ l ∨ ArmedIfWanted i s → ArmedIfWanted i (l.foldl (fun t j => testArm j t) s) := by
  induction l with
  | nil => exact fun s _ h => h.resolve_left (by simp)
  | cons j rest ih =>
    intro s hruns h
    refine ih _ (by rwa [testArm_tunnel]) ?_
    by_cases hij : j = i
    · exact .inr (hij ▸ testArm_armedIfWanted hruns)
    · exact h.imp (fun hmem => (List.mem_cons.mp hmem).resolve_left (Ne.symm hij))
        (testArm_leaves hij s).armedIfWanted

theorem testArmAll_armedIfWanted (i : Fin 16) {s : State} (hruns : s.sup.tunnel.runs = true) :
    ArmedIfWanted i (testArmAll s) := by
  unfold testArmAll
  exact foldl_testArm_armedIfWanted i allStations s hruns (.inl (mem_allStations i))

end Sys2Proof.Machine
end

