-- ==== Sys2Proof/Proofs/StationService.lean ====
section
/-! How a station arms, serves the overlapping cars, ends its firing and rests (R90, R93, R97, R101, R102). -/

namespace Sys2Proof.Machine

theorem endFiring_ends {i : Fin 16} {s : State} (hfiring : (tabGet s.seq.units i).state = .firing)
    (hnone : activeCount s i = 0) :
    endFiring i s = moveStation i (if wanted s i then .ready else .idle) s := if_pos ⟨hfiring, hnone⟩

theorem endFiring_stays {i : Fin 16} {s : State}
    (h : (tabGet s.seq.units i).state ≠ .firing ∨ 0 < activeCount s i) : endFiring i s = s :=
  if_neg fun ⟨hfiring, hnone⟩ => h.elim (fun hno => hno hfiring) (fun hsome => by omega)

theorem testUnwanted_rests {i : Fin 16} {s : State}
    (hstate : (tabGet s.seq.units i).state ∈ [.arming, .retryWait, .ready]) (hnone : activeCount s i = 0)
    (hwanted : wanted s i = false) : testUnwanted i s = moveStation i .idle s :=
  if_pos ⟨by simpa using hstate, hnone, hwanted⟩

theorem testUnwanted_stays {i : Fin 16} {s : State}
    (h : (tabGet s.seq.units i).state ∉ [.arming, .retryWait, .ready] ∨ 0 < activeCount s i ∨ wanted s i = true) :
    testUnwanted i s = s := by
  refine if_neg ?_
  rintro ⟨hstate, hnone, hwanted⟩
  obtain h | h | h := h
  · exact h (by simpa using hstate)
  · omega
  · simp [hwanted] at h

theorem afterEnded_eq (ended : List (Fin 16)) (s : State) : afterEnded ended s =
    allStations.foldl (fun t i => if i ∈ ended then testUnwanted i (endFiring i t) else t) s := by
  simp only [afterEnded, List.contains_iff_mem]

/-- Settles O30: the conditions on a car, then each test of a station by the state in which it is made. -/
theorem stationsArmServeAndRest : Obligations.StationsArmServeAndRest := by
  refine ⟨fun r car => ⟨pastClose_iff r car, overlaps_iff r car⟩, wanted_iff,
    fun i s => ⟨testArm_arms, testArm_stays⟩, fun i s => testArmAll_armedIfWanted i,
    fun i s => ⟨served i s, rfl, activate_firing, activate_ready_none, activate_ready_some, activate_other⟩,
    fun s => ⟨rfl, rfl⟩, afterEnded_eq,
    fun i s => ⟨fun hfiring hnone => ?_, endFiring_stays, testUnwanted_rests, testUnwanted_stays⟩⟩
  rw [endFiring_ends hfiring hnone]
  exact ⟨fun hwanted => by rw [if_pos hwanted], fun hwanted => by simp [hwanted]⟩

end Sys2Proof.Machine
end

