-- ==== Sys2Proof/Proofs/StationRequests.lean ====
section
/-! STATION_OFF, STATION_ON and STATION_RESET (R110, R111): what each owner does in each state of its station. -/

namespace Sys2Proof.Machine

/-! ### The owners -/

theorem ownStationOff_moves {i : Fin 16} {s : State} (h : (tabGet s.seq.units i).state ≠ .offLine) :
    ownStationOff i.val s =
      (markEntries i .offline true (moveStation i .offLine s), answerOk (b1 i.val ++ b1 7)) := by
  simp [ownStationOff, h, okStation, markEntries, stationStateCode]

theorem ownStationOff_stays {i : Fin 16} {s : State} (h : (tabGet s.seq.units i).state = .offLine) :
    ownStationOff i.val s = (s, answerOk (b1 i.val ++ b1 7)) := by
  simp [ownStationOff, h, okStation, stationStateCode]

theorem ownStationOn_returns {i : Fin 16} {s : State} (h : (tabGet s.seq.units i).state = .offLine) :
    ownStationOn i.val s = okStation i (returnStation i s) := by
  simp [ownStationOn, h]

theorem ownStationOn_refuses {i : Fin 16} {s : State} (h : (tabGet s.seq.units i).state ≠ .offLine) :
    ownStationOn i.val s = refuse .state s := by
  simp [ownStationOn, h]

theorem ownStationReset_returns {i : Fin 16} {s : State} (h : (tabGet s.seq.units i).state = .fault) :
    ownStationReset i.val s = okStation i (returnStation i s) := by
  simp [ownStationReset, h]

theorem ownStationReset_refuses {i : Fin 16} {s : State} (h : (tabGet s.seq.units i).state ≠ .fault) :
    ownStationReset i.val s = refuse .state s := by
  simp [ownStationReset, h]

/-- A station number above 15 is refused by each of the three requests (section 5.7). -/
theorem stationRequests_refuse {n : Nat} (h : 15 < n) (s : State) : ownStationOff n s = refuse .badValue s ∧
    ownStationOn n s = refuse .badValue s ∧ ownStationReset n s = refuse .badValue s := by
  simp only [ownStationOff, ownStationOn, ownStationReset, stationIndex_of_bad h, and_self]

/-! ### The requests -/

/-- A move to a rest state stops the timers and clears the recheck flag (R91). -/
theorem moveStation_rests {i : Fin 16} {new : StationState} (h : new ∈ [.idle, .fault, .offLine]) (s : State) :
    tabGet (moveStation i new s).seq.units i =
      { tabGet s.seq.units i with state := new, proofTimer := none, retryTimer := none, recheck := false } := by
  simp only [moveStation_fields, tabGet_tabSet_same, unitOnMove_eq, if_pos h]

/-- Settles O44: STATION_OFF in and out of OFF_LINE, the return to IDLE, the refusals, and what a move writes. -/
theorem stationOffOnAndReset : Obligations.StationOffOnAndReset := by
  refine ⟨fun i s hreach hstate => ?_, fun i s hreach hstate => ?_, fun i s k c hreach hcase => ⟨_, rfl, ?_⟩,
    fun i s hlines => ⟨fun hreach hstate => ?_, fun hreach hstate => ?_⟩, fun n s hlines hn => ?_,
    fun i new s => ⟨by simp, fun hrest => ?_, fun j hj => (moveStation_leaves hj.symm new s).1⟩⟩
  · exact congrArg Host.Outcome.next
      (respond_driven_ok hreach _ _ (ownStationOff_moves (s := frameDone .p0 s) hstate))
  · exact congrArg Host.Outcome.next
      (respond_driven_ok hreach _ _ (ownStationOff_stays (s := frameDone .p0 s) hstate))
  · obtain ⟨rfl, rfl, hstate⟩ | ⟨rfl, rfl, hstate⟩ := hcase
    · exact congrArg Host.Outcome.next
        (respond_driven_ok hreach _ _ (ownStationOn_returns (s := frameDone .p0 s) hstate))
    · exact congrArg Host.Outcome.next
        (respond_driven_ok hreach _ _ (ownStationReset_returns (s := frameDone .p0 s) hstate))
  · exact congrArg Host.Outcome.next
      (respond_driven_refuse hreach hlines _ .state (ownStationOn_refuses (s := frameDone .p0 s) hstate))
  · exact congrArg Host.Outcome.next
      (respond_driven_refuse hreach hlines _ .state (ownStationReset_refuses (s := frameDone .p0 s) hstate))
  · obtain ⟨hoff, hon, hreset⟩ := stationRequests_refuse hn (frameDone .p0 s)
    exact ⟨fun hreach => congrArg Host.Outcome.next (respond_driven_refuse hreach hlines _ .badValue hoff),
      fun hreach => congrArg Host.Outcome.next (respond_driven_refuse hreach hlines _ .badValue hon),
      fun hreach => congrArg Host.Outcome.next (respond_driven_refuse hreach hlines _ .badValue hreset)⟩
  · rw [moveStation_rests hrest]
    exact ⟨rfl, rfl, rfl⟩

end Sys2Proof.Machine
end

