-- ==== Sys2Proof/Proofs/StationRecords.lean ====
section
/-! SET_STATION (R87, R88, R99): the operand tests and the tests of R88 in their order, the clamps, and the schedules in
station-position order. -/

namespace Sys2Proof.Machine

/-! ### Station-position order -/

theorem positionLe_total (s : State) (x y : Entry) : positionLe s x y = true ∨ positionLe s y x = true := by
  rw [positionLe_iff, positionLe_iff, Fin.le_def, Fin.le_def]
  omega

theorem positionLe_trans {s : State} {x y z : Entry} (h : positionLe s x y = true) (k : positionLe s y z = true) :
    positionLe s x z = true := by
  rw [positionLe_iff, Fin.le_def] at h k ⊢
  omega

/-- Putting a schedule in order is the library's insertion sort (R88, R99). -/
theorem orderSchedule_eq_insertionSort (s : State) (l : List Entry) :
    orderSchedule s l = l.insertionSort fun x y => positionLe s x y = true := by
  have hinsert : ∀ (e : Entry) (l : List Entry),
      insertEntry s e l = l.orderedInsert (fun x y => positionLe s x y = true) e := by
    intro e l
    induction l with
    | nil => rfl
    | cons x xs ih => simp only [insertEntry, List.orderedInsert_cons, ih]
  simp only [orderSchedule, List.insertionSort, funext₂ hinsert]

theorem orderSchedule_perm (s : State) (l : List Entry) : (orderSchedule s l).Perm l := by
  rw [orderSchedule_eq_insertionSort]
  exact List.perm_insertionSort _ l

theorem orderSchedule_pairwise (s : State) (l : List Entry) :
    (orderSchedule s l).Pairwise fun x y => positionLe s x y = true := by
  rw [orderSchedule_eq_insertionSort]
  have : Std.Total fun x y => positionLe s x y = true := ⟨positionLe_total s⟩
  have : IsTrans Entry fun x y => positionLe s x y = true := ⟨fun _ _ _ => positionLe_trans⟩
  exact List.pairwise_insertionSort _ l

/-! ### Operands -/

theorem slotIndex_of_bad {n : Nat} (h : 5 < n) : slotIndex n = none := dif_neg (by omega)

theorem qualifierOperand_of_bad {n : Nat} (h : 1 < n) : qualifierOperand n = none := by
  unfold qualifierOperand
  split
  case h_3 => rfl
  all_goals omega

theorem signalsOperand_of_bad {n : Nat} (h : 7 < n) : signalsOperand n = none := if_neg (by omega)

theorem stationKindOperand_of_bad {n : Nat} (h : 2 < n) : stationKindOperand n = none := by
  unfold stationKindOperand
  split
  case h_4 => rfl
  all_goals omega

theorem activationOperand_of_bad {n : Nat} (h : 2 < n) : activationOperand n = none := by
  unfold activationOperand
  split
  case h_4 => rfl
  all_goals omega

/-- A slot, a qualifier mode or a signal that is not one of R87 (R88, log entry 4). -/
theorem brushOperand_of_bad {b : RawBrush} (h : 5 < b.slot ∨ 1 < b.qualifier ∨ 7 < b.signals) :
    brushOperand b = none := by
  unfold brushOperand
  split
  · next slot q g hslot hqualifier hsignals =>
    obtain h | h | h := h
    · simp [slotIndex_of_bad h] at hslot
    · simp [qualifierOperand_of_bad h] at hqualifier
    · simp [signalsOperand_of_bad h] at hsignals
  · rfl

theorem gearOperand_of_bad_kind {kind : Nat} (h : 2 < kind) (g : RawGear) : gearOperand kind g = none := by
  simp only [gearOperand, stationKindOperand_of_bad h]

theorem gearOperand_of_bad_brush {b : RawBrush} (h : brushOperand b = none) (kind : Nat) :
    gearOperand kind (.brush b) = none := by
  unfold gearOperand
  split
  · next heq => cases heq
  · next heq => cases heq
  · next b' _ heq =>
    cases heq
    rw [h]
    rfl
  · rfl

/-- The tests of R88 on the codes of a record: the service code, the kind, the activation mode and the brush codes. -/
theorem stationOperand_of_bad {raw : RawStation} (h : 24 < raw.code ∨ 2 < raw.kind ∨ 2 < raw.mode ∨
    ∃ b, raw.gear = .brush b ∧ (5 < b.slot ∨ 1 < b.qualifier ∨ 7 < b.signals)) : stationOperand raw = none := by
  unfold stationOperand
  split
  · next mode gear hcode hmode hgear =>
    obtain h | h | h | ⟨b, hbrush, h⟩ := h
    · exact absurd (of_decide_eq_true hcode) (Nat.not_le.mpr h)
    · simp [gearOperand_of_bad_kind h] at hgear
    · simp [activationOperand_of_bad h] at hmode
    · simp [hbrush, gearOperand_of_bad_brush (brushOperand_of_bad h)] at hgear
  · rfl

/-! ### The tests of R88, in order -/

theorem slotOf_brush {r : StationRec} {b : BrushRec} (h : r.gear = .brush b) : slotOf r = some b.slot := by
  simp [slotOf, h, Gear.brush?]

theorem slotOf_eq_some_iff (r : StationRec) (k : Fin 6) :
    slotOf r = some k ↔ ∃ b, r.gear = .brush b ∧ b.slot = k := by
  cases hgear : r.gear <;> simp [slotOf, hgear, Gear.brush?]

/-- Another BRUSH station with the slot of a BRUSH record (R88). -/
theorem slotTaken_iff (s : State) (i : Fin 16) (r : StationRec) : slotTaken s i r = true ↔
    ∃ (b b' : BrushRec) (j : Fin 16), r.gear = .brush b ∧ j ≠ i ∧ (tabGet s.seq.table j).gear = .brush b' ∧
      b'.slot = b.slot := by
  simp only [slotTaken, Bool.and_eq_true, Option.isSome_iff_exists, List.any_eq_true, bne_iff_ne, beq_iff_eq]
  constructor
  · rintro ⟨⟨k, hk⟩, j, -, hj, hsame⟩
    rw [hk] at hsame
    obtain ⟨b, hb, rfl⟩ := (slotOf_eq_some_iff r k).mp hk
    obtain ⟨b', hb', hslot⟩ := (slotOf_eq_some_iff _ _).mp hsame
    exact ⟨b, b', j, hb, hj, hb', hslot⟩
  · rintro ⟨b, b', j, hb, hj, hb', hslot⟩
    exact ⟨⟨b.slot, slotOf_brush hb⟩, j, mem_allStations j, hj, by rw [slotOf_brush hb, slotOf_brush hb', hslot]⟩

theorem slot_free {s : State} {i : Fin 16} {r : StationRec} (h : ∀ (b b' : BrushRec) (j : Fin 16), r.gear = .brush b →
    j ≠ i → (tabGet s.seq.table j).gear = .brush b' → b'.slot ≠ b.slot) : ¬ slotTaken s i r = true := by
  rw [slotTaken_iff]
  rintro ⟨b, b', j, hb, hj, hb', hslot⟩
  exact h b b' j hb hj hb' hslot

theorem entryHeld_iff (s : State) (i : Fin 16) :
    entryHeld s i = true ↔ ∃ car ∈ s.trk.queue, ∃ e ∈ car.schedule, e.station = i := by
  simp [entryHeld]

section
variable {raw : RawStation} {s : State} (hw : s.store.writing = none)
include hw

theorem ownSetStation_bad_code {station : Nat} (h : stationIndex station = none ∨ stationOperand raw = none) :
    ownSetStation station raw s = refuse .badValue s := by
  rw [ownSetStation, if_neg (by simp [saving_eq_false hw])]
  split
  · next hi hr => simp [hi, hr] at h
  · rfl

variable {i : Fin 16} {r : StationRec} (hr : stationOperand raw = some r)
include hr

/-- A request whose codes name a station and a record goes on to the other tests. -/
theorem ownSetStation_of_operands : ownSetStation i.val raw s =
    if s.sup.tunnel ≠ .stopped then refuse .state s
    else if slotTaken s i r = true then refuse .duplicate s
    else if r.code ≠ (tabGet s.seq.table i).code ∧ entryHeld s i = true then refuse .occupied s
    else (storeStation i (clampStation s.sup.consts.tunnelLen r) s,
      answerOk (b1 i.val ++ stationBytes (rawOfStation (clampStation s.sup.consts.tunnelLen r)))) := by
  simp only [ownSetStation, saving_eq_false hw, Bool.false_eq_true, if_false, stationIndex_val, hr]

theorem ownSetStation_not_stopped (h : s.sup.tunnel ≠ .stopped) : ownSetStation i.val raw s = refuse .state s := by
  rw [ownSetStation_of_operands hw hr, if_pos h]

variable (hstopped : s.sup.tunnel = .stopped)
include hstopped

theorem ownSetStation_slot_taken (h : slotTaken s i r = true) :
    ownSetStation i.val raw s = refuse .duplicate s := by
  rw [ownSetStation_of_operands hw hr, if_neg (not_not_intro hstopped), if_pos h]

variable (hfree : ¬ slotTaken s i r = true)
include hfree

theorem ownSetStation_entry_held (hcode : r.code ≠ (tabGet s.seq.table i).code) (h : entryHeld s i = true) :
    ownSetStation i.val raw s = refuse .occupied s := by
  rw [ownSetStation_of_operands hw hr, if_neg (not_not_intro hstopped), if_neg hfree, if_pos ⟨hcode, h⟩]

theorem ownSetStation_stores (h : ¬ (r.code ≠ (tabGet s.seq.table i).code ∧ entryHeld s i = true)) :
    ownSetStation i.val raw s = (storeStation i (clampStation s.sup.consts.tunnelLen r) s,
      answerOk (b1 i.val ++ stationBytes (rawOfStation (clampStation s.sup.consts.tunnelLen r)))) := by
  rw [ownSetStation_of_operands hw hr, if_neg (not_not_intro hstopped), if_neg hfree, if_neg h]

end

/-! ### The request -/

section
variable {station : Nat} {raw : RawStation} {s : State} (h : Reaches .p4 .setStation s) (hform : stationForm raw = true)
include h hform

theorem setStation_refused (hlines : LinesFollow s) {r : Result}
    (ho : ownSetStation station raw (frameDone .p4 s) = refuse r (frameDone .p4 s)) :
    exec (.setStation .p4 station raw) s = .next (refusedWith .p4 .setStation r s) := by
  have hrefused := respond_driven_refuse h hlines (ownSetStation station raw) r ho
  rw [← hform] at hrefused
  exact congrArg Host.Outcome.next hrefused

theorem setStation_ok {t : State} {fields : List Byte}
    (ho : ownSetStation station raw (frameDone .p4 s) = (t, answerOk fields)) :
    exec (.setStation .p4 station raw) s = .next (answeredOk .p4 .setStation fields (driveLines t)) := by
  have hok := respond_driven_ok h (ownSetStation station raw) fields ho
  rw [← hform] at hok
  exact congrArg Host.Outcome.next hok

end

/-- Settles O51: the code tests, the three tests that follow them, the clamped record stored, and the order of a
schedule. -/
theorem stationRecordsAreClamped : Obligations.StationRecordsAreClamped := by
  refine ⟨fun station raw s hreach hw hlines hform hbad => ?_,
    fun i raw r s hreach hw hform hr => ⟨fun hlines ht => ?_, fun hlines ht htaken => ?_,
      fun ht hothers => ⟨fun hlines hcode hheld => ?_, fun hkeeps => ?_⟩⟩,
    fun s l => ⟨orderSchedule_perm s l, (orderSchedule_pairwise s l).imp (positionLe_iff s _ _).mp⟩⟩
  · refine setStation_refused hreach hform hlines (ownSetStation_bad_code (s := frameDone .p4 s) hw ?_)
    exact hbad.imp stationIndex_of_bad stationOperand_of_bad
  · exact setStation_refused hreach hform hlines (ownSetStation_not_stopped (s := frameDone .p4 s) hw hr ht)
  · exact setStation_refused hreach hform hlines
      (ownSetStation_slot_taken (s := frameDone .p4 s) hw hr ht ((slotTaken_iff _ i r).mpr htaken))
  · exact setStation_refused hreach hform hlines (ownSetStation_entry_held (s := frameDone .p4 s) hw hr ht
      (slot_free (s := frameDone .p4 s) hothers) hcode ((entryHeld_iff _ i).mpr hheld))
  · refine ⟨clampStation s.sup.consts.tunnelLen r, _, rfl, rfl, rfl, rfl, rfl, rfl, rfl,
      fun t hgear => congrArg clampGear hgear, fun t hgear => congrArg clampGear hgear,
      fun b hgear => congrArg clampGear hgear, rfl, ?_⟩
    refine setStation_ok hreach hform (ownSetStation_stores (s := frameDone .p4 s) hw hr ht
      (slot_free (s := frameDone .p4 s) hothers) ?_)
    rintro ⟨hcode, hheld⟩
    obtain ⟨car, hcar, e, he, hstation⟩ := (entryHeld_iff _ i).mp hheld
    exact hkeeps.elim hcode fun hnone => hnone car hcar e he hstation

end Sys2Proof.Machine
end

