-- ==== Sys2Proof/Proofs/ProofAttempts.lean ====
section
/-! Proof inputs, the proof timer and the retry timer (R91, R94 to R97, R101, R103, R107, R128, R129). -/

namespace Sys2Proof.Machine

/-! ### Proof edges -/

theorem proofOn_arming {i : Fin 16} {s : State} (h : (tabGet s.seq.units i).state = .arming) :
    proofOn i s = becomeReady i s := if_pos h

/-- A proof assertion outside ARMING ends a recheck (R107). -/
theorem proofOn_rechecked {i : Fin 16} {s : State} (h : (tabGet s.seq.units i).state ≠ .arming)
    (hcheck : (tabGet s.seq.units i).recheck = true) :
    proofOn i s = updateUnit i (fun x => { x with recheck := false, proofTimer := none }) s :=
  (if_neg h).trans (if_pos hcheck)

theorem proofOn_stays {i : Fin 16} {s : State} (h : (tabGet s.seq.units i).state ≠ .arming)
    (hcheck : (tabGet s.seq.units i).recheck = false) : proofOn i s = s :=
  (if_neg h).trans (if_neg (by simp [hcheck]))

theorem proofOff_loses {i : Fin 16} {s : State} (hmode : (tabGet s.seq.table i).mode = .proofHold)
    (hstate : (tabGet s.seq.units i).state ∈ [.ready, .firing]) (hcheck : (tabGet s.seq.units i).recheck = false) :
    proofOff i s = loseProof i s := if_pos ⟨hmode, List.mem_pair.mp hstate, hcheck⟩

theorem proofOff_stays {i : Fin 16} {s : State} (h : (tabGet s.seq.table i).mode ≠ .proofHold ∨
    (tabGet s.seq.units i).state ∉ [.ready, .firing] ∨ (tabGet s.seq.units i).recheck = true) : proofOff i s = s := by
  refine if_neg ?_
  rintro ⟨hmode, hstate, hcheck⟩
  obtain h | h | h := h
  · exact h hmode
  · exact h (List.mem_pair.mpr hstate)
  · simp [hcheck] at h

theorem exec_proofAssert {i : Fin 16} {s : State} (hrun : s.held = false) (hproof : tabGet s.inputs.proofs i = false) :
    exec (.proofAssert i) s = .next (driveLines (proofOn i (setProof i true s))) :=
  congrArg Host.Outcome.next (lineEdge_running (by simp [hproof]) (setProof i true) (proofOn i) s hrun)

theorem exec_proofDeassert {i : Fin 16} {s : State} (hrun : s.held = false)
    (hproof : tabGet s.inputs.proofs i = true) :
    exec (.proofDeassert i) s = .next (driveLines (proofOff i (setProof i false s))) :=
  congrArg Host.Outcome.next (lineEdge_running (by simp [hproof]) (setProof i false) (proofOff i) s hrun)

/-! ### Timers -/

/-- An event that leaves the state leaves the lines that follow it, also in a reset. -/
theorem event_stays {f : State → State} {s : State} (hlines : LinesFollow s) (h : f s = s) : event f s = s := by
  cases hheld : s.held
  · rw [event_running f s hheld, h, (linesFollow_running hheld).mp hlines]
  · exact event_held f s hheld

theorem exec_proofTimerExpiry {s : State} (hrun : s.held = false) (i : Fin 16) :
    exec (.proofTimerExpiry i) s = .next (driveLines (proofExpired i s)) :=
  congrArg Host.Outcome.next (event_running (proofExpired i) s hrun)

theorem exec_retryTimerExpiry {s : State} (hrun : s.held = false) (i : Fin 16) :
    exec (.retryTimerExpiry i) s = .next (driveLines (retryExpired i s)) :=
  congrArg Host.Outcome.next (event_running (retryExpired i) s hrun)

section
variable {i : Fin 16} {s : State}

/-- What an expiry of the proof timer of a station leads to (R95, R107). -/
theorem proofExpired_running {n : Nat} (h : (tabGet s.seq.units i).proofTimer = some n) : proofExpired i s =
    if (tabGet s.seq.units i).state = .arming then
      failAttempt i (updateUnit i (fun x => { x with recheck := false, proofTimer := none }) s)
    else if (tabGet s.seq.units i).recheck = true ∧
        ((tabGet s.seq.units i).state = .ready ∨ (tabGet s.seq.units i).state = .firing) then
      loseProof i (updateUnit i (fun x => { x with recheck := false, proofTimer := none }) s)
    else updateUnit i (fun x => { x with recheck := false, proofTimer := none }) s := by
  simp only [proofExpired, h]

theorem proofExpired_stopped (h : (tabGet s.seq.units i).proofTimer = none) : proofExpired i s = s := by
  simp only [proofExpired, h]

/-- What an expiry of the retry timer of a RETRY_WAIT station leads to (R95, log entry 13). -/
theorem retryExpired_waiting {n : Nat} (h : (tabGet s.seq.units i).retryTimer = some n)
    (hstate : (tabGet s.seq.units i).state = .retryWait) : retryExpired i s =
      if (s.sup.tunnel.runs && wanted s i) = true then
        beginAttempt i (moveStation i .arming (updateUnit i (fun x => { x with retryTimer := none }) s))
      else moveStation i .idle (updateUnit i (fun x => { x with retryTimer := none }) s) := by
  simp only [retryExpired, h, hstate, if_true]
  rfl

theorem retryExpired_stopped (h : (tabGet s.seq.units i).retryTimer = none) : retryExpired i s = s := by
  simp only [retryExpired, h]

end

/-! ### Failures -/

/-- The mark on the ACTIVE entries of a station alone (R103). -/
theorem markEntries_active (i : Fin 16) (m : MissMark) (s : State) : markEntries i m false s =
    mapQueue (mapEntries fun e =>
      if e.station = i ∧ e.state = .active ∧ e.mark = none then { e with mark := some m } else e) s := by
  unfold markEntries
  congr 2
  funext e
  cases hmark : e.mark <;> simp [putMark, hmark]

theorem attemptsLeft_iff (s : State) (i : Fin 16) : attemptsLeft s i = true ↔
    (tabGet s.seq.units i).fails + 1 < 1 + (tabGet s.seq.table i).retries := decide_eq_true_iff

section
variable {i : Fin 16} {s : State}

theorem failAttempt_retries (h : (tabGet s.seq.units i).fails + 1 < 1 + (tabGet s.seq.table i).retries) :
    failAttempt i s = updateUnit i (fun x => { x with retryTimer := some 500 })
      (moveStation i .retryWait (countFailure i s)) := if_pos ((attemptsLeft_iff s i).mpr h)

theorem failAttempt_gives_up (h : 1 + (tabGet s.seq.table i).retries ≤ (tabGet s.seq.units i).fails + 1) :
    failAttempt i s = giveUp i s := if_neg (mt (attemptsLeft_iff s i).mp (Nat.not_lt.mpr h))

theorem loseProof_retries (h : (tabGet s.seq.units i).fails + 1 < 1 + (tabGet s.seq.table i).retries) :
    loseProof i s = updateUnit i (fun x => { x with proofTimer := some (tabGet s.seq.table i).proofWait })
      (moveStation i .arming (countFailure i (markEntries i .proof false s))) :=
  if_pos ((attemptsLeft_iff (markEntries i .proof false s) i).mpr h)

theorem loseProof_gives_up (h : 1 + (tabGet s.seq.table i).retries ≤ (tabGet s.seq.units i).fails + 1) :
    loseProof i s = giveUp i (markEntries i .proof false s) :=
  if_neg (mt (attemptsLeft_iff (markEntries i .proof false s) i).mp (Nat.not_lt.mpr h))

/-! ### Attempts -/

/-- DIRECT, or the proof input asserted already: the station is READY at once (R94). -/
theorem beginAttempt_ready (h : (tabGet s.seq.table i).mode = .direct ∨ tabGet s.inputs.proofs i = true) :
    beginAttempt i s = becomeReady i s := if_pos h

/-- An attempt that waits for its proof (R94). -/
theorem beginAttempt_waits (hmode : (tabGet s.seq.table i).mode ≠ .direct)
    (hproof : tabGet s.inputs.proofs i = false) : beginAttempt i s =
      updateUnit i (fun x => { x with proofTimer := some (tabGet s.seq.table i).proofWait }) s :=
  if_neg (by simp [hmode, hproof])

end

/-- The state in which a station is READY with its overlapping cars served: before it fires, if it does (R94, R101). -/
def readied (i : Fin 16) (s : State) : State :=
  served i (moveStation i .ready (updateUnit i (fun u => { u with proofTimer := none }) s))

theorem readied_eq (i : Fin 16) (s : State) : readied i s =
    { moveStation i .ready (updateUnit i (fun x => { x with proofTimer := none }) s) with
      trk.queue := s.trk.queue.map (serveCar (tabGet s.seq.table i) i) } := by
  simp [readied, served, mapQueue]

theorem becomeReady_ready {i : Fin 16} {s : State} (h : activeCount (readied i s) i = 0) :
    becomeReady i s = readied i s := activate_ready_none (by simp) h

theorem becomeReady_fires {i : Fin 16} {s : State} (h : 0 < activeCount (readied i s) i) :
    becomeReady i s = moveStation i .firing (readied i s) := activate_ready_some (by simp) h

/-- Settles O58: the edges, the two timers, what changes nothing, failures, attempts, and what a slot is told. -/
theorem proofAttemptsAndRetries : Obligations.ProofAttemptsAndRetries := by
  refine ⟨fun i s hrun hproof => ⟨setProof i true s, rfl, fun hstate => ?_, fun hstate hcheck => ?_,
      fun hstate hcheck => ?_⟩,
    fun i s hrun hproof => ⟨setProof i false s, rfl, fun hmode hstate hcheck => ?_, fun hno => ?_⟩,
    fun i n s hrun htimer => ⟨_, rfl, fun hstate => ?_, fun hstate hcheck => ?_⟩,
    fun i n s hrun htimer hstate => ⟨_, rfl, fun hruns hwanted => ?_, fun hno => ?_⟩,
    fun i s => ⟨fun h => ?_, fun h => ?_⟩, fun i s hlines => ⟨fun h => ?_, fun h => ?_⟩,
    fun i s => ⟨countFailure i s, countFailure i (markEntries i .proof false s), rfl, ?_,
      fun h => ⟨failAttempt_retries h, loseProof_retries h⟩, fun h => ⟨failAttempt_gives_up h, loseProof_gives_up h⟩⟩,
    fun i s => ⟨beginAttempt_ready, beginAttempt_waits, readied i s, readied_eq i s, becomeReady_ready,
      becomeReady_fires⟩,
    fun i new s => ⟨updateUnit i (unitOnMove new) s, by rw [unitOnMove_eq],
      fun hgear => moveStation_unslotted hgear new,
      fun b hgear => ⟨_, slotOnMove (tabGet s.seq.units i).state new b.jamBlank (tabGet s.mon b.slot), rfl,
        moveStation_brush hgear new, slotOnMove_sample _ _ _ _, fun hold hnew => slotOnMove_leaves hold hnew _ _, ?_,
        fun hnew h => slotOnMove_stays hnew h _ _⟩⟩⟩
  · rw [exec_proofAssert hrun hproof, proofOn_arming (s := setProof i true s) hstate]
  · rw [exec_proofAssert hrun hproof, proofOn_rechecked (s := setProof i true s) hstate hcheck]
  · rw [exec_proofAssert hrun hproof, proofOn_stays (s := setProof i true s) hstate hcheck]
  · rw [exec_proofDeassert hrun hproof, proofOff_loses (s := setProof i false s) hmode hstate hcheck]
  · rw [exec_proofDeassert hrun hproof, proofOff_stays (s := setProof i false s) hno]
  · rw [exec_proofTimerExpiry hrun, proofExpired_running htimer, if_pos hstate]
  · have hnot : (tabGet s.seq.units i).state ≠ .arming := by
      rintro h
      simp [h] at hstate
    rw [exec_proofTimerExpiry hrun, proofExpired_running htimer, if_neg hnot,
      if_pos ⟨hcheck, List.mem_pair.mp hstate⟩]
  · rw [exec_retryTimerExpiry hrun, retryExpired_waiting htimer hstate, if_pos (by simp [hruns, hwanted])]
  · rw [exec_retryTimerExpiry hrun, retryExpired_waiting htimer hstate, if_neg (by simpa [imp_iff_not_or] using hno)]
  · exact congrArg Host.Outcome.next (lineEdge_same h _ _ s)
  · exact congrArg Host.Outcome.next (lineEdge_same h _ _ s)
  · exact congrArg Host.Outcome.next (event_stays hlines (proofExpired_stopped h))
  · exact congrArg Host.Outcome.next (event_stays hlines (retryExpired_stopped h))
  · rw [markEntries_active]
    rfl
  · rintro rfl hold
    exact slotOnMove_arms hold _ _

end Sys2Proof.Machine
end

