-- ==== Sys2Proof/Proofs/BrushPacing.lean ====
section
/-! The command, the expected current and the thresholds of a BRUSH station (R119, R120, R122, R123). -/

namespace Sys2Proof.Machine

/-- Lmax is the level that no other ACTIVE level exceeds (R119). -/
theorem lmaxOf_eq {levels : List Nat} {l : Nat} (hl : l ∈ levels) (hmax : ∀ x ∈ levels, x ≤ l) : lmaxOf levels = l := by
  have hne : levels ≠ [] := List.ne_nil_of_mem hl
  simp [lmaxOf, hne, highest_eq hl hmax]

/-- A tunnel that does not run has every brush at the command 0 (R120). -/
theorem brushCommand_stopped {tunnel : Tunnel} (h : tunnel.runs = false) (st : StationState) (b : BrushRec)
    (raw : Nat) : brushCommand tunnel st b raw = 0 := by simp [brushCommand, h]

/-- A FIRING brush of a running tunnel has the raw command between its limits (R120). -/
theorem brushCommand_firing {tunnel : Tunnel} {st : StationState} (hrun : tunnel.runs = true) (h : st = .firing)
    (b : BrushRec) (raw : Nat) : brushCommand tunnel st b raw = clampTo raw b.brMin b.brMax := by
  simp [brushCommand, hrun, h]

/-- Settles O31: the pace of the station, then its command case by case along R120. -/
theorem brushCommandFollowsBelt : Obligations.BrushCommandFollowsBelt := by
  intro s i b hb
  have hpace : tabGet (driveLines s).pace.brushes i = paceOf s i := tabGet_tabOf _ i
  have hlines : tabGet (driveLines s).out.stations i = linesOf s i := tabGet_tabOf _ i
  refine ⟨_, hpace.trans (paceOf_brush hb), ?_, fun hstop => brushCommand_stopped hstop _ _ _,
    fun _ hst => brushCommand_at_rest hst _ _ _, fun hrun hst => brushCommand_waiting hrun hst _ _,
    fun hrun hst hnone => ?_, fun hrun hst l hl hmax => ?_, fun hrun hst hlimits => ?_, rfl, rfl, rfl⟩
  · rw [hlines, linesOf_brush hb]
    rfl
  · refine (brushCommand_firing hrun hst _ _).trans ?_
    rw [hnone]
    rfl
  · refine (brushCommand_firing hrun hst _ _).trans ?_
    rw [lmaxOf_eq hl hmax]
    rfl
  · have hcmd := brushCommand_firing hrun hst b (rawCommand s.pace.vAvg b.k (lmaxOf (activeLevels s i)))
    exact hcmd ▸ clampTo_range _ _ _ hlimits

end Sys2Proof.Machine
end

