-- ==== Sys2Proof/Proofs/ForcedSpeed.lean ====
section
/-! The resolved class (R112) and the requests that force and release the conveyor speed (R113 to R115). -/

namespace Sys2Proof.Machine

/-! ### The resolved class -/

/-- The least of a list and a bound: at most the bound and every member, and one of them. -/
theorem foldr_min_spec (top : Nat) (l : List Nat) : l.foldr min top ≤ top ∧ (∀ x ∈ l, l.foldr min top ≤ x) ∧
    (l.foldr min top = top ∨ l.foldr min top ∈ l) := by
  induction l with
  | nil => simp
  | cons x xs ih =>
    obtain ⟨htop, hall, hone⟩ := ih
    rw [List.foldr_cons]
    refine ⟨(min_le_right _ _).trans htop, fun y hy => ?_, ?_⟩
    · obtain rfl | hy := List.mem_cons.mp hy
      · exact min_le_left _ _
      · exact (min_le_right _ _).trans (hall y hy)
    · obtain hx | hx := min_choice x (xs.foldr min top) <;> rw [hx]
      · exact .inr List.mem_cons_self
      · exact hone.imp_right (List.mem_cons_of_mem x)

theorem resolvedClass_empty {s : State} (h : s.trk.queue = []) : resolvedClass s = 4 := by simp [resolvedClass, h]

theorem resolvedClass_le_four (s : State) : resolvedClass s ≤ 4 := (foldr_min_spec 4 _).1

theorem resolvedClass_le_cls {s : State} {car : Car} (h : car ∈ s.trk.queue) : resolvedClass s ≤ car.cls :=
  (foldr_min_spec 4 _).2.1 _ (List.mem_map_of_mem h)

theorem resolvedClass_attained (s : State) : resolvedClass s = 4 ∨ ∃ car ∈ s.trk.queue, car.cls = resolvedClass s :=
  (foldr_min_spec 4 _).2.2.imp_right List.mem_map.mp

/-! ### The requests of the control holder -/

/-- The test for control lets the holder's request pass (R162). -/
theorem holderOnly_of_holder {p : Port} {s : State} (h : s.sup.holder = some p) (owner : State → State × Answer) :
    holderOnly p owner s = owner s := if_pos (decide_eq_true h)

/-- FORCE_SPEED by the holder (R114). -/
theorem exec_forceSpeed {p : Port} {s : State} (h : Reaches p .forceSpeed s) (hholder : s.sup.holder = some p)
    (n : Nat) : exec (.forceSpeed p n) s = .next (answeredOk p .forceSpeed
      (b1 (clampTo n 1 4) ++ speedFields (setForced (some (clampTo n 1 4)) (frameDone p s)))
      (driveLines (setForced (some (clampTo n 1 4)) (frameDone p s)))) :=
  congrArg Host.Outcome.next (respond_driven_ok h _ _ (holderOnly_of_holder (s := frameDone p s) hholder _))

/-- RELEASE_SPEED by the holder (R115). -/
theorem exec_releaseSpeed {p : Port} {s : State} (h : Reaches p .releaseSpeed s) (hholder : s.sup.holder = some p) :
    exec (.releaseSpeed p) s = .next (answeredOk p .releaseSpeed (speedFields (setForced none (frameDone p s)))
      (driveLines (setForced none (frameDone p s)))) :=
  congrArg Host.Outcome.next (respond_driven_ok h _ _ (holderOnly_of_holder (s := frameDone p s) hholder _))

/-- The answer carries the class and the output that the end of the event drives (R113 to R115). -/
theorem speedFields_driven (s : State) :
    speedFields s = b1 (driveLines s).pace.resolved ++ b2 (driveLines s).out.speed := rfl

/-- Settles O48: the two requests, and the resolved class as the least of the queue's classes and 4. -/
theorem forcedClassDrivesTheConveyor : Obligations.ForcedClassDrivesTheConveyor := by
  refine ⟨fun p n s h hholder => ⟨_, _, rfl, rfl, rfl, ?_⟩, fun p s h hholder => ⟨_, rfl, rfl, ?_⟩,
    fun s => ⟨resolvedClass_empty, resolvedClass_le_four s, fun _ => resolvedClass_le_cls, resolvedClass_attained s⟩⟩
  · rw [exec_forceSpeed h hholder, speedFields_driven, ← List.append_assoc]
    rfl
  · rw [exec_releaseSpeed h hholder, speedFields_driven]
    rfl

end Sys2Proof.Machine
end

