-- ==== Sys2Proof/Proofs/LoopAndWindows.lean ====
section
/-! The E-stop loop, the start timer, the gate window and the seconds counter (R116 to R118, R125, R126, R143, R152,
R154). -/

namespace Sys2Proof.Machine

/-! ### The E-stop loop -/

theorem exec_estopLoopOpen {s : State} (hrun : s.held = false) (hclosed : s.inputs.estopClosed = true) :
    exec .estopLoopOpen s = .next (driveLines (raiseEstop (setLoopClosed false s))) :=
  congrArg Host.Outcome.next (lineEdge_running (by simp [hclosed]) (setLoopClosed false) raiseEstop s hrun)

theorem exec_estopLoopClose {s : State} (hrun : s.held = false) (hopen : s.inputs.estopClosed = false) :
    exec .estopLoopClose s = .next (driveLines (setLoopClosed true s)) :=
  congrArg Host.Outcome.next (lineEdge_running (by simp [hopen]) (setLoopClosed true) id s hrun)

/-! ### Timers -/

theorem exec_startTimerExpiry {s : State} (hrun : s.held = false) :
    exec .startTimerExpiry s = .next (driveLines (startExpired s)) :=
  congrArg Host.Outcome.next (event_running startExpired s hrun)

/-- The end of the start warning (R143). -/
theorem startExpired_starting {s : State} {n : Nat} {m : TargetMode} (htimer : s.sup.startTimer = some n)
    (h : s.sup.tunnel = .starting m) :
    startExpired s = changeTunnel (startedState m s.trk.queue.isEmpty) .startTimer s := by
  simp only [startExpired, htimer, h]

theorem startExpired_stopped {s : State} (h : s.sup.startTimer = none) : startExpired s = s := by
  simp only [startExpired, h]

theorem grantExpired_stopped {s : State} (h : s.ent.grantTimer = none) : grantExpired s = s := by
  simp only [grantExpired, h]

theorem exitBlockExpired_stopped {s : State} (h : s.trk.exitTimer = none) : exitBlockExpired s = s := by
  simp only [exitBlockExpired, h]

/-! ### The gate window -/

/-- The stall count is left where the tunnel does not run (R125). -/
theorem stallCount_stopped {tunnel : Tunnel} (h : tunnel.runs = false) (v count : Nat) :
    stallCount tunnel v count = count := by simp [stallCount, h]

/-- A window with pulses ends a row of empty ones (R125). -/
theorem stallCount_pulses {tunnel : Tunnel} {v : Nat} (hrun : tunnel.runs = true) (hv : v ≠ 0) (count : Nat) :
    stallCount tunnel v count = 0 := by simp [stallCount, hrun, hv]

/-- An empty window of a running tunnel is counted (R125). -/
theorem stallCount_empty {tunnel : Tunnel} {count : Nat} (hrun : tunnel.runs = true) (hcount : count + 1 ≤ 100) :
    stallCount tunnel 0 count = count + 1 := by simpa [stallCount, hrun, satAdd] using hcount

/-- A count that does not rise to STALL_WINDOWS raises nothing (R126). -/
theorem stallWatch_quiet {s : State} {n : Nat} (hn : stallCount s.sup.tunnel s.pace.v s.pace.stall = n)
    (h : ¬(s.pace.stall < n ∧ n = s.sup.consts.stallWindows)) : stallWatch s = { s with pace.stall := n } := by
  subst hn
  exact if_neg fun hraise => h hraise.2.2

/-- A count that rises to STALL_WINDOWS raises CONVEYOR_STALL (R126). -/
theorem stallWatch_raises {s : State} {n : Nat} (hn : stallCount s.sup.tunnel s.pace.v s.pace.stall = n)
    (hrun : s.sup.tunnel.runs = true) (hv : s.pace.v = 0) (hrise : s.pace.stall < n)
    (hwindows : n = s.sup.consts.stallWindows) :
    stallWatch s = raiseIncident (plainRaise .conveyorStall) { s with pace.stall := n } := by
  subst hn
  exact if_pos ⟨hrun, hv, hrise, hwindows⟩

theorem exec_gateWindowEnd {s : State} (hrun : s.held = false) :
    exec .gateWindowEnd s = .next (driveLines (stallWatch (closeWindow s))) :=
  congrArg Host.Outcome.next (event_running windowEnd s hrun)

/-- Settles O60: the edges of the loop, what is no event, the start timer, the window with its stall watch, and the
seconds. -/
theorem loopTimersAndWindows : Obligations.LoopTimersAndWindows := by
  refine ⟨fun s hrun => ⟨exec_estopLoopOpen hrun, exec_estopLoopClose hrun⟩, fun s => ⟨fun h => ?_, fun h => ?_⟩,
    fun n s hrun htimer => ⟨fun h => ?_, fun h hcars => ?_, fun h hempty => ?_⟩,
    fun s hlines => ⟨fun h => ?_, fun h => ?_, fun h => ?_⟩,
    fun s hrun => ⟨_, closeWindow s, rfl, rfl, fun hstop => ?_, fun hruns hgate => ?_,
      fun hruns hgate hcount => ⟨fun hwindows => ?_, fun hwindows => ?_⟩⟩,
    fun acc gate hacc hgate => by omega, fun s hrun => ?_⟩
  · exact congrArg Host.Outcome.next (lineEdge_same h _ _ s)
  · exact congrArg Host.Outcome.next (lineEdge_same h _ _ s)
  · rw [exec_startTimerExpiry hrun, startExpired_starting htimer h]
    rfl
  · rw [exec_startTimerExpiry hrun, startExpired_starting htimer h, List.isEmpty_eq_false_iff.mpr hcars]
    rfl
  · rw [exec_startTimerExpiry hrun, startExpired_starting htimer h, hempty]
    rfl
  · exact congrArg Host.Outcome.next (event_stays hlines (startExpired_stopped h))
  · exact congrArg Host.Outcome.next (event_stays hlines (grantExpired_stopped h))
  · exact congrArg Host.Outcome.next (event_stays hlines (exitBlockExpired_stopped h))
  · have hn := stallCount_stopped hstop s.pace.gate s.pace.stall
    rw [exec_gateWindowEnd hrun, stallWatch_quiet (s := closeWindow s) hn fun h => Nat.lt_irrefl _ h.1]
    rfl
  · have hn := stallCount_pulses hruns hgate s.pace.stall
    rw [exec_gateWindowEnd hrun, stallWatch_quiet (s := closeWindow s) hn fun h => Nat.not_lt_zero _ h.1]
  · have hn : stallCount s.sup.tunnel s.pace.gate s.pace.stall = s.pace.stall + 1 :=
      hgate ▸ stallCount_empty hruns hcount
    rw [exec_gateWindowEnd hrun, stallWatch_quiet (s := closeWindow s) hn fun h => hwindows h.2]
  · have hn : stallCount s.sup.tunnel s.pace.gate s.pace.stall = s.pace.stall + 1 :=
      hgate ▸ stallCount_empty hruns hcount
    rw [exec_gateWindowEnd hrun,
      stallWatch_raises (s := closeWindow s) hn hruns hgate (Nat.lt_succ_self s.pace.stall) hwindows]
    rfl
  · exact congrArg Host.Outcome.next (event_running tickSeconds s hrun)

end Sys2Proof.Machine
end

