-- ==== Sys2Proof/Proofs/Collisions.lean ====
section
/-! The current scan (R127, R129 to R131, R133), the collision test (R135, R136) and the switch edges (R137, R138). -/

namespace Sys2Proof.Machine

/-! ### The qualifier -/

/-- Some signal is enabled (R136). -/
theorem anyEnabled_iff (x : Signals) :
    (x.current || x.bumper || x.overtravel) = true ↔ x ≠ ⟨false, false, false⟩ := by
  obtain ⟨current, bumper, overtravel⟩ := x
  simp only [ne_eq, Signals.mk.injEq, ← Bool.not_eq_true, Bool.or_eq_true]
  tauto

theorem qualifies_any_iff (enabled present : Signals) : qualifies .any enabled present = true ↔
    (enabled.current = true ∧ present.current = true) ∨ (enabled.bumper = true ∧ present.bumper = true) ∨
      (enabled.overtravel = true ∧ present.overtravel = true) := by
  simp only [qualifies, Bool.or_eq_true, Bool.and_eq_true, or_assoc]

theorem qualifies_all_iff (enabled present : Signals) : qualifies .all enabled present = true ↔
    enabled ≠ ⟨false, false, false⟩ ∧ (enabled.current = true → present.current = true) ∧
      (enabled.bumper = true → present.bumper = true) ∧ (enabled.overtravel = true → present.overtravel = true) := by
  have himp : ∀ a b : Bool, (!a || b) = true ↔ (a = true → b = true) := by decide
  simp only [qualifies, Bool.and_eq_true, anyEnabled_iff, himp, and_assoc]

/-- Settles O32: the two modes as propositions; the empty set and each single signal by the formulas of R136. -/
theorem qualifierDecidesCollision : Obligations.QualifierDecidesCollision := by
  refine fun enabled present =>
    ⟨qualifies_any_iff enabled present, qualifies_all_iff enabled present, fun q => ?_, fun hsingle => ?_⟩
  · cases q <;> rfl
  · obtain rfl | rfl | rfl := hsingle <;> simp [qualifies]

/-! ### The sample of a slot -/

section
variable {overAt underAt jamN slackN sample : Nat} {running : Bool} {x : Slot}

theorem jamWatch_below (h : sample < overAt) : jamWatch overAt jamN sample x = { x with jam := 0 } :=
  if_neg (Nat.not_le.mpr h)

theorem jamWatch_over (h : overAt ≤ sample) : jamWatch overAt jamN sample x =
    { x with jam := min 15 (x.jam + 1), latch := x.latch || decide (jamN ≤ min 15 (x.jam + 1)) } := if_pos h

theorem blankOrJam_blanked (h : 0 < x.blank) :
    blankOrJam overAt jamN sample x = { x with blank := x.blank - 1 } := if_pos h

theorem blankOrJam_watched (h : x.blank = 0) : blankOrJam overAt jamN sample x = jamWatch overAt jamN sample x :=
  if_neg (by simp [h])

/-- Blanking lowers the blank count; the jam watch leaves it at 0, and neither touches the sample or the slack count
(R129, R131). -/
theorem blankOrJam_keeps : (blankOrJam overAt jamN sample x).sample = x.sample ∧
    (blankOrJam overAt jamN sample x).blank = x.blank - 1 ∧ (blankOrJam overAt jamN sample x).slack = x.slack := by
  obtain hblank | hblank := Nat.eq_zero_or_pos x.blank
  · rw [blankOrJam_watched hblank]
    obtain h | h := Nat.lt_or_ge sample overAt
    · simp [jamWatch_below h, hblank]
    · simp [jamWatch_over h, hblank]
  · simp [blankOrJam_blanked hblank]

/-- Without a FIRING station with ACTIVE entries, or above the threshold, the slack count is 0 (R133). -/
theorem slackWatch_clears (h : running = false ∨ underAt < sample) :
    slackWatch running underAt slackN sample x = ({ x with slack := 0 }, false) := by
  refine if_neg fun hdue => ?_
  obtain ⟨hrun, hle⟩ := Bool.and_eq_true_iff.mp hdue
  obtain h | h := h
  · simp [h] at hrun
  · exact absurd (of_decide_eq_true hle) (Nat.not_le.mpr h)

theorem slackWatch_counts (hrun : running = true) (h : sample ≤ underAt) (hcount : x.slack + 1 < slackN) :
    slackWatch running underAt slackN sample x = ({ x with slack := x.slack + 1 }, false) :=
  (if_pos (by simp [hrun, h])).trans (if_neg (Nat.not_le.mpr hcount))

theorem slackWatch_fills (hrun : running = true) (h : sample ≤ underAt) (hcount : slackN ≤ x.slack + 1) :
    slackWatch running underAt slackN sample x = ({ x with slack := 0 }, true) :=
  (if_pos (by simp [hrun, h])).trans (if_pos hcount)

/-- The slack watch writes the slack count alone (R133). -/
theorem slackWatch_keeps : ∃ n, (slackWatch running underAt slackN sample x).1 = { x with slack := n } := by
  unfold slackWatch
  split
  · split <;> exact ⟨_, rfl⟩
  · exact ⟨_, rfl⟩

end

theorem slackRuns_iff (s : State) (i : Fin 16) (b : BrushRec) : slackRuns s i b = true ↔
    (tabGet s.seq.units i).state = .firing ∧ 0 < activeCount s i ∧ b.slackMargin ≠ 0 := by
  simp [slackRuns, and_assoc]

/-! ### The scan of a slot -/

section
variable {s : State} {k : Fin 6} {i : Fin 16} {b : BrushRec}

/-- A slot without a station, or whose station is in no watched state, has its blank count lowered and no watch made
(R128, R130). -/
theorem scanSlot_unwatched (h : brushOfSlot s k = none ∨
    ∃ i b, brushOfSlot s k = some (i, b) ∧ (tabGet s.seq.units i).state ∉ [.arming, .ready, .firing]) (x : Slot) :
    scanSlot s k x = ({ x with blank := x.blank - 1 }, false) := by
  obtain h | ⟨i, b, h, hstate⟩ := h
  · simp only [scanSlot, h]
  · rw [← watchedState_iff] at hstate
    simp only [scanSlot, h, if_neg hstate]

theorem scanSlot_watched (h : brushOfSlot s k = some (i, b))
    (hstate : (tabGet s.seq.units i).state ∈ [.arming, .ready, .firing]) (x : Slot) :
    scanSlot s k x = slackWatch (slackRuns s i b) (thresholdsOf s i).2 b.slackN x.sample
      (blankOrJam (thresholdsOf s i).1 b.jamN x.sample x) := by
  rw [← watchedState_iff] at hstate
  simp only [scanSlot, h, if_pos hstate]

/-- A slot is watched, with its station, or it is not (R128). -/
theorem watched_or_unwatched (s : State) (k : Fin 6) :
    (∃ i b, brushOfSlot s k = some (i, b) ∧ (tabGet s.seq.units i).state ∈ [.arming, .ready, .firing]) ∨
    (brushOfSlot s k = none ∨
      ∃ i b, brushOfSlot s k = some (i, b) ∧ (tabGet s.seq.units i).state ∉ [.arming, .ready, .firing]) := by
  cases h : brushOfSlot s k with
  | none => exact .inr (.inl rfl)
  | some ib =>
    obtain hstate | hstate := Classical.em ((tabGet s.seq.units ib.1).state ∈ [.arming, .ready, .firing])
    · exact .inl ⟨ib.1, ib.2, rfl, hstate⟩
    · exact .inr (.inr ⟨ib.1, ib.2, rfl, hstate⟩)

/-- A slot that holds the sample of a scan, before its watches (R127). -/
def sampledSlot (samples : Tab 6 (BitVec 12)) (s : State) (k : Fin 6) : Slot :=
  withSample (tabGet samples k) (tabGet s.mon k)

theorem tabGet_scanSlots (samples : Tab 6 (BitVec 12)) (s : State) (k : Fin 6) :
    tabGet (scanSlots samples s) k = scanSlot s k (sampledSlot samples s k) := tabGet_tabOf _ k

/-- Every slot keeps the sample it holds and lowers its blank count (R127, R129). -/
theorem scanSlot_keeps (s : State) (k : Fin 6) (x : Slot) :
    (scanSlot s k x).1.sample = x.sample ∧ (scanSlot s k x).1.blank = x.blank - 1 := by
  obtain ⟨i, b, h, hstate⟩ | h := watched_or_unwatched s k
  · rw [scanSlot_watched h hstate]
    obtain ⟨n, hslack⟩ := slackWatch_keeps
    obtain ⟨hsample, hblank, -⟩ := blankOrJam_keeps
    rw [hslack]
    exact ⟨hsample, hblank⟩
  · rw [scanSlot_unwatched h]
    exact ⟨rfl, rfl⟩

section
variable (hslot : brushOfSlot s k = some (i, b))
  (hstate : (tabGet s.seq.units i).state ∈ [.arming, .ready, .firing]) (x : Slot)
include hslot hstate

/-- The slack watch leaves the jam count and the latch that blanking and the jam watch give (R130). -/
theorem scanSlot_jam : (scanSlot s k x).1.jam = (blankOrJam (thresholdsOf s i).1 b.jamN x.sample x).jam ∧
    (scanSlot s k x).1.latch = (blankOrJam (thresholdsOf s i).1 b.jamN x.sample x).latch := by
  rw [scanSlot_watched hslot hstate]
  obtain ⟨n, hslack⟩ := slackWatch_keeps
  rw [hslack]
  exact ⟨rfl, rfl⟩

theorem scanSlot_jam_blanked (hblank : 0 < x.blank) :
    (scanSlot s k x).1.jam = x.jam ∧ (scanSlot s k x).1.latch = x.latch := by
  simpa only [blankOrJam_blanked hblank] using scanSlot_jam hslot hstate x

theorem scanSlot_jam_below (hblank : x.blank = 0) (h : x.sample < (thresholdsOf s i).1) :
    (scanSlot s k x).1.jam = 0 ∧ (scanSlot s k x).1.latch = x.latch := by
  simpa only [blankOrJam_watched hblank, jamWatch_below h] using scanSlot_jam hslot hstate x

theorem scanSlot_jam_over (hblank : x.blank = 0) (h : (thresholdsOf s i).1 ≤ x.sample) :
    (scanSlot s k x).1.jam = min 15 (x.jam + 1) ∧
      ((scanSlot s k x).1.latch = true ↔ x.latch = true ∨ b.jamN ≤ (scanSlot s k x).1.jam) := by
  obtain ⟨hjam, hlatch⟩ := scanSlot_jam hslot hstate x
  rw [blankOrJam_watched hblank, jamWatch_over h] at hjam hlatch
  refine ⟨hjam, ?_⟩
  rw [hjam, hlatch, Bool.or_eq_true, decide_eq_true_iff]

theorem scanSlot_slack_clears (h : (tabGet s.seq.units i).state ≠ .firing ∨ activeCount s i = 0 ∨ b.slackMargin = 0 ∨
    (thresholdsOf s i).2 < x.sample) : (scanSlot s k x).1.slack = 0 ∧ (scanSlot s k x).2 = false := by
  have hquiet : slackRuns s i b = false ∨ (thresholdsOf s i).2 < x.sample := by
    rw [← Bool.not_eq_true, slackRuns_iff]
    rcases h with h | h | h | h
    · exact .inl fun hruns => h hruns.1
    · exact .inl fun hruns => hruns.2.1.ne' h
    · exact .inl fun hruns => hruns.2.2 h
    · exact .inr h
  rw [scanSlot_watched hslot hstate, slackWatch_clears hquiet]
  exact ⟨rfl, rfl⟩

theorem scanSlot_slack_low (hrun : slackRuns s i b = true) (h : x.sample ≤ (thresholdsOf s i).2) :
    (x.slack + 1 < b.slackN → (scanSlot s k x).1.slack = x.slack + 1 ∧ (scanSlot s k x).2 = false) ∧
    (b.slackN ≤ x.slack + 1 → (scanSlot s k x).1.slack = 0 ∧ (scanSlot s k x).2 = true) := by
  obtain ⟨-, -, hslack⟩ := blankOrJam_keeps (overAt := (thresholdsOf s i).1) (jamN := b.jamN) (sample := x.sample) (x := x)
  rw [scanSlot_watched hslot hstate, ← hslack]
  refine ⟨fun hcount => ?_, fun hcount => ?_⟩
  · rw [slackWatch_counts hrun h hcount]
    exact ⟨rfl, rfl⟩
  · rw [slackWatch_fills hrun h hcount]
    exact ⟨rfl, rfl⟩

end
end

/-! ### The slack marks of a scan -/

/-- An entry after slack marks on the stations of a set (R103, R133). -/
def slackMarked (marked : Fin 16 → Bool) (e : Entry) : Entry :=
  if e.state = .active ∧ e.mark = none ∧ marked e.station = true then { e with mark := some .slack } else e

theorem slackMarked_none (e : Entry) : slackMarked (fun _ => false) e = e := if_neg (by simp)

/-- A mark stays: marks on one set and then on another are marks on both together. -/
theorem slackMarked_slackMarked (p q : Fin 16 → Bool) (e : Entry) :
    slackMarked q (slackMarked p e) = slackMarked (fun i => p i || q i) e := by
  unfold slackMarked
  by_cases hopen : e.state = .active ∧ e.mark = none
  · cases hp : p e.station <;> simp [hopen, hp]
  · have hclosed : ∀ c : Prop, ¬(e.state = .active ∧ e.mark = none ∧ c) := fun _ h => hopen ⟨h.1, h.2.1⟩
    simp only [if_neg (hclosed _)]

/-- The station of a slot whose slack mark is due (R133). -/
def markDue (r : Tab 6 (Slot × Bool)) (s : State) (k : Fin 6) (i : Fin 16) : Bool :=
  (tabGet r k).2 && (brushOfSlot s k).map Prod.fst == some i

/-- Changes of every entry one after another. -/
theorem mapQueue_mapEntries_comp (f g : Entry → Entry) (s : State) :
    mapQueue (mapEntries g) (mapQueue (mapEntries f) s) = mapQueue (mapEntries fun e => g (f e)) s := by
  simp [mapQueue, mapEntries, Function.comp_def]

theorem mapQueue_mapEntries_id (s : State) : mapQueue (mapEntries fun e => e) s = s := by
  have hcar : mapEntries (fun e => e) = id := funext fun car => by simp [mapEntries]
  simp [mapQueue, hcar]

/-- The mark of one slot, due or not, as a change of every entry (R133). -/
theorem slackMark_eq (r : Tab 6 (Slot × Bool)) (s : State) (k : Fin 6) :
    (if (tabGet r k).2 then slackMark s k else s) = mapQueue (mapEntries (slackMarked (markDue r s k))) s := by
  have hnone : (markDue r s k = fun _ => false) →
      s = mapQueue (mapEntries (slackMarked (markDue r s k))) s := fun h => by
    rw [h, funext slackMarked_none, mapQueue_mapEntries_id]
  split
  next hdue =>
    unfold slackMark
    split
    next hslot => exact hnone (funext fun j => by simp [markDue, hslot])
    next i b hslot =>
      rw [markEntries_active]
      congr 2
      funext e
      simp only [slackMarked, markDue, hdue, hslot, Option.map_some, Bool.true_and, beq_iff_eq, Option.some.injEq]
      exact if_congr (by tauto) rfl rfl
  next hdue => exact hnone (funext fun j => by simp [markDue, hdue])

/-- The slack marks of a list of slots are one change of every entry (R133). -/
theorem foldl_slackMark (r : Tab 6 (Slot × Bool)) (l : List (Fin 6)) : ∀ s : State,
    l.foldl (fun s k => if (tabGet r k).2 then slackMark s k else s) s =
      mapQueue (mapEntries (slackMarked fun i => l.any fun k => markDue r s k i)) s := by
  induction l with
  | nil =>
    intro s
    exact ((congrArg (fun f => mapQueue (mapEntries f) s) (funext slackMarked_none)).trans
      (mapQueue_mapEntries_id s)).symm
  | cons k l ih =>
    intro s
    rw [List.foldl_cons, slackMark_eq, ih, mapQueue_mapEntries_comp]
    simp only [slackMarked_slackMarked]
    rfl

/-- The state between the slots and marks of a scan and its collision tests (R130). -/
def scanned (samples : Tab 6 (BitVec 12)) (s : State) : State :=
  { s with
    mon := tabOf fun k => (tabGet (scanSlots samples s) k).1
    trk.queue := s.trk.queue.map (mapEntries (slackMarked fun i =>
      allSlots.any fun k => markDue (scanSlots samples s) s k i)) }

theorem scan_eq (samples : Tab 6 (BitVec 12)) (s : State) : scan samples s =
    raiseEach (allSlots.filterMap (collisionOf (scanned samples s))) (scanned samples s) := by
  unfold scan
  simp only [foldl_slackMark]
  rfl

theorem exec_scanComplete {s : State} (hrun : s.held = false) (samples : Tab 6 (BitVec 12)) :
    exec (.scanComplete samples) s = .next (driveLines
      (raiseEach (allSlots.filterMap (collisionOf (scanned samples s))) (scanned samples s))) :=
  scan_eq samples s ▸ congrArg Host.Outcome.next (event_running (scan samples) s hrun)

/-! ### The collision test -/

theorem brush?_eq_some (g : Gear) (b : BrushRec) : g.brush? = some b ↔ g = .brush b := by
  cases g <;> simp [Gear.brush?]

/-- What the search for the station of a slot finds at one station (R127). -/
theorem brushAt_eq_some {s : State} {k : Fin 6} {j i : Fin 16} {b : BrushRec} :
    ((tabGet s.seq.table j).gear.brush?.bind fun r => if r.slot = k then some (j, r) else none) = some (i, b) ↔
      j = i ∧ (tabGet s.seq.table j).gear = .brush b ∧ b.slot = k := by
  simp only [Option.bind_eq_some_iff, brush?_eq_some, Option.ite_none_right_eq_some, Option.some.injEq, Prod.mk.injEq]
  constructor
  · rintro ⟨r, hgear, hslot, rfl, rfl⟩
    exact ⟨rfl, hgear, hslot⟩
  · rintro ⟨rfl, hgear, hslot⟩
    exact ⟨b, hgear, hslot, rfl, rfl⟩

theorem brushOfSlot_spec {s : State} {k : Fin 6} {i : Fin 16} {b : BrushRec} (h : brushOfSlot s k = some (i, b)) :
    (tabGet s.seq.table i).gear = .brush b ∧ b.slot = k := by
  obtain ⟨j, -, hj⟩ := List.exists_of_findSome?_eq_some h
  obtain ⟨rfl, hbrush⟩ := brushAt_eq_some.mp hj
  exact hbrush

theorem brushOfSlot_eq_none_iff (s : State) (k : Fin 6) : brushOfSlot s k = none ↔
    ∀ (i : Fin 16) (b : BrushRec), (tabGet s.seq.table i).gear = .brush b → b.slot ≠ k := by
  simp only [brushOfSlot, List.findSome?_eq_none_iff, mem_allStations, true_implies]
  refine forall_congr' fun i => ⟨fun h b hgear hslot => ?_, fun h => ?_⟩
  · exact absurd (brushAt_eq_some.mpr ⟨rfl, hgear, hslot⟩) (by simp [h])
  · rw [Option.eq_none_iff_forall_ne_some]
    rintro ⟨j, b⟩ hfound
    obtain ⟨-, hgear, hslot⟩ := brushAt_eq_some.mp hfound
    exact h b hgear hslot

section
variable {s : State} {k : Fin 6} {i : Fin 16} {b : BrushRec} (hslot : brushOfSlot s k = some (i, b))
include hslot

theorem collisionOf_passes (hstate : (tabGet s.seq.units i).state ∈ [.arming, .ready, .firing])
    (h : qualifies b.qualifier b.signals (signalsOf s k) = true) : collisionOf s k =
      some ⟨.brushCollision, some i, none, frontmostActive s i, none, some (signalsOf s k)⟩ := by
  simp only [collisionOf, hslot, (watchedState_iff _).mpr hstate, h, Bool.and_self, if_true]

theorem collisionOf_fails (h : (tabGet s.seq.units i).state ∉ [.arming, .ready, .firing] ∨
    qualifies b.qualifier b.signals (signalsOf s k) = false) : collisionOf s k = none := by
  rw [← watchedState_iff, Bool.not_eq_true, ← Bool.and_eq_false_iff] at h
  simp only [collisionOf, hslot, h, Bool.false_eq_true, if_false]

end

/-! ### The switch edges -/

theorem exec_switchEdge_same {s : State} {k : Fin 6} {line : Switch} {active : Bool}
    (h : switchLevel s k line = active) : exec (.bumperOvertravelEdge k line active) s = .next s :=
  congrArg Host.Outcome.next (lineEdge_same h _ _ s)

theorem exec_switchEdge {s : State} {k : Fin 6} {line : Switch} {active : Bool} (hrun : s.held = false)
    (h : switchLevel s k line ≠ active) : exec (.bumperOvertravelEdge k line active) s =
      .next (driveLines (raiseEach (collisionOf (setSwitch k line active s) k).toList (setSwitch k line active s))) :=
  congrArg Host.Outcome.next (lineEdge_running h (setSwitch k line active) (switchEdge k) s
    ((congrArg State.held (setSwitch_lineOnly k line active s)).trans hrun))

/-- Settles O59: the scan as one state with its raises, the scan of each slot, the collision test, and the edges. -/
theorem scansAndSwitchesFindCollisions : Obligations.ScansAndSwitchesFindCollisions := by
  refine ⟨fun samples s hrun => ⟨scanned samples s, rfl, exec_scanComplete hrun samples⟩, fun samples s k => ?_,
    fun s k => ⟨brushOfSlot_eq_none_iff s k, fun i b hslot => ?_⟩,
    fun k line active s hrun => ⟨setSwitch k line active s, fun h => ?_, fun h => ?_, exec_switchEdge_same,
      fun hedge => ⟨fun q hq => ?_, fun hnone => ?_⟩⟩⟩
  · obtain ⟨hsample, hblank⟩ := scanSlot_keeps s k (sampledSlot samples s k)
    refine ⟨_, (scanSlot s k (sampledSlot samples s k)).1, (scanSlot s k (sampledSlot samples s k)).2, rfl,
      tabGet_scanSlots samples s k, hsample, hblank, fun h => ?_, fun i b hslot hstate => ?_⟩
    · rw [scanSlot_unwatched h]
      exact ⟨rfl, rfl, rfl, rfl⟩
    · rw [hsample]
      exact ⟨scanSlot_jam_blanked hslot hstate (sampledSlot samples s k),
        scanSlot_jam_below hslot hstate (sampledSlot samples s k),
        scanSlot_jam_over hslot hstate (sampledSlot samples s k),
        scanSlot_slack_clears hslot hstate (sampledSlot samples s k), fun hfiring hactive hmargin =>
          scanSlot_slack_low hslot hstate (sampledSlot samples s k)
            ((slackRuns_iff s i b).mpr ⟨hfiring, hactive, hmargin⟩)⟩
  · obtain ⟨hgear, hk⟩ := brushOfSlot_spec hslot
    exact ⟨hgear, hk, signalsOf s k, rfl, rfl, rfl, collisionOf_passes hslot, collisionOf_fails hslot⟩
  · subst h
    rfl
  · subst h
    rfl
  · rw [exec_switchEdge hrun hedge, hq]
    rfl
  · rw [exec_switchEdge hrun hedge, hnone]
    rfl

end Sys2Proof.Machine
end

