-- ==== Sys2Proof/Proofs/Raises.lean ====
section
/-! Raises (R155, R156, R157): a raise merges into the record of its subject, joins the tail of a list with room, or is
discarded, displaces a record or merges into the newest of a class where the list is full. -/

namespace Sys2Proof.Machine

/-! ### The first and the last element that pass a test -/

section
variable {α : Type} {p : α → Bool} {before behind : List α} {r : α}

theorem updateFirst_split (f : α → α) (hbefore : ∀ x ∈ before, p x = false) (hr : p r = true) :
    updateFirst p f (before ++ r :: behind) = before ++ f r :: behind := by
  induction before with
  | nil => simp [updateFirst, hr]
  | cons x xs ih =>
    obtain ⟨hx, hxs⟩ := List.forall_mem_cons.mp hbefore
    simp [updateFirst, hx, ih hxs]

theorem updateLast_split (f : α → α) (hr : p r = true) (hbehind : ∀ x ∈ behind, p x = false) :
    updateLast p f (before ++ r :: behind) = before ++ f r :: behind := by
  have hreverse : (before ++ r :: behind).reverse = behind.reverse ++ r :: before.reverse := by simp
  rw [updateLast, hreverse, updateFirst_split f (fun x hx => hbehind x (List.mem_reverse.mp hx)) hr]
  simp

theorem find?_split (hbefore : ∀ x ∈ before, p x = false) (hr : p r = true) :
    (before ++ r :: behind).find? p = some r :=
  List.find?_eq_some_iff_append.mpr ⟨hr, before, behind, rfl, fun x hx => by simp [hbefore x hx]⟩

theorem eraseP_split (hbefore : ∀ x ∈ before, p x = false) (hr : p r = true) :
    (before ++ r :: behind).eraseP p = before ++ behind := by
  rw [List.eraseP_append_right _ fun x hx => by simp [hbefore x hx], List.eraseP_cons_of_pos hr]

theorem filter_getLast?_split (hr : p r = true) (hbehind : ∀ x ∈ behind, p x = false) :
    ((before ++ r :: behind).filter p).getLast? = some r := by
  have hnone : behind.filter p = [] := List.filter_eq_nil_iff.mpr fun x hx => by simp [hbehind x hx]
  simp [List.filter_append, hr, hnone]

end

theorem mem_updateFirst {α : Type} {p : α → Bool} {f : α → α} {l : List α} {x : α} (h : x ∈ updateFirst p f l) :
    x ∈ l ∨ ∃ y ∈ l, x = f y := by
  induction l with
  | nil => exact absurd h List.not_mem_nil
  | cons y ys ih =>
    unfold updateFirst at h
    split at h
    · obtain rfl | hx := List.mem_cons.mp h
      · exact .inr ⟨y, List.mem_cons_self, rfl⟩
      · exact .inl (List.mem_cons_of_mem y hx)
    · obtain rfl | hx := List.mem_cons.mp h
      · exact .inl List.mem_cons_self
      · exact (ih hx).imp (List.mem_cons_of_mem y) fun ⟨z, hz, hxz⟩ => ⟨z, List.mem_cons_of_mem y hz, hxz⟩

theorem mem_updateLast {α : Type} {p : α → Bool} {f : α → α} {l : List α} {x : α} (h : x ∈ updateLast p f l) :
    x ∈ l ∨ ∃ y ∈ l, x = f y := by
  simpa using mem_updateFirst (List.mem_reverse.mp h)

/-! ### Which way a raise goes -/

theorem sameSubject_iff (q : Raise) (r : Incident) :
    sameSubject q r = true ↔ r.kind = q.kind ∧ r.station = q.station ∧ r.eye = q.eye ∧ r.lane = q.lane := by
  simp [sameSubject, and_assoc]

theorem sameSubject_eq_false {q : Raise} {r : Incident}
    (h : ¬(r.kind = q.kind ∧ r.station = q.station ∧ r.eye = q.eye ∧ r.lane = q.lane)) : sameSubject q r = false :=
  Bool.eq_false_of_not_eq_true fun hsame => h ((sameSubject_iff q r).mp hsame)

section
variable {q : Raise} {s : State}

/-- The oldest record of the subject takes the raise (R155). -/
theorem raiseIncident_of_subject {before behind : List Incident} {r : Incident}
    (hlist : s.sup.incidents = before ++ r :: behind) (hbefore : ∀ x ∈ before, sameSubject q x = false)
    (hr : sameSubject q r = true) : raiseIncident q s = mergeInto q (s.sup.response.get q.kind) r s := by
  simp only [raiseIncident, hlist, find?_split hbefore hr]

theorem mergeInto_split {before behind : List Incident} {r : Incident} (hlist : s.sup.incidents = before ++ r :: behind)
    (hbefore : ∀ x ∈ before, sameSubject q x = false) (hr : sameSubject q r = true) (c : IncidentClass) :
    mergeInto q c r s = classEffect c r.number
      (notifyBoth (.incident .repeated q.kind (mergeSubject q c s.sup.seconds r))
        (setIncidents (before ++ mergeSubject q c s.sup.seconds r :: behind) s)) := by
  rw [mergeInto, hlist, updateFirst_split _ hbefore hr]

theorem raiseIncident_of_room (hnone : ∀ x ∈ s.sup.incidents, sameSubject q x = false)
    (hroom : s.sup.incidents.length < 8) : raiseIncident q s = listNew q (s.sup.response.get q.kind) s := by
  have hfind : s.sup.incidents.find? (sameSubject q) = none :=
    List.find?_eq_none.mpr fun x hx => by simp [hnone x hx]
  simp only [raiseIncident, hfind]
  exact if_pos hroom

theorem raiseIncident_of_full (hnone : ∀ x ∈ s.sup.incidents, sameSubject q x = false)
    (hfull : s.sup.incidents.length = 8) :
    raiseIncident q s = raiseOverflow q (s.sup.response.get q.kind) s := by
  have hfind : s.sup.incidents.find? (sameSubject q) = none :=
    List.find?_eq_none.mpr fun x hx => by simp [hnone x hx]
  simp only [raiseIncident, hfind]
  exact if_neg (hfull.not_lt)

/-! ### A full list -/

theorem listsClass_iff (k : IncidentClass) (s : State) :
    listsClass k s = true ↔ ∃ r ∈ s.sup.incidents, r.cls = k := by
  simp [listsClass]

theorem listsClass_eq_false {k : IncidentClass} {s : State} (h : ∀ r ∈ s.sup.incidents, r.cls ≠ k) :
    listsClass k s = false :=
  Bool.eq_false_of_not_eq_true fun hlists => by
    obtain ⟨r, hr, hk⟩ := (listsClass_iff k s).mp hlists
    exact h r hr hk

/-- The record that a DISCARDED notice describes: no number, and two free values (R157, log entry 1). -/
def discardedRecord (q : Raise) (s : State) : Incident :=
  { number := 0, kind := q.kind, cls := .notice, station := q.station, eye := q.eye, tag := q.tag, lane := q.lane,
    signals := q.signals, repeats := (Config.discardedRepeat s.free).toNat,
    time := (Config.discardedTime s.free).toNat }

/-- A NOTICE is discarded, and the list keeps every record (R156). -/
theorem raiseOverflow_discards (q : Raise) (s : State) :
    raiseOverflow q .notice s =
      notifyBoth (.incident .discarded q.kind (discardedRecord q s)) { s with free := s.free + 1 } := rfl

/-- A listed NOTICE yields to a stronger raise (R156). -/
theorem raiseOverflow_displaces_notice {c : IncidentClass} (hc : c ≠ .notice) (h : listsClass .notice s = true) :
    raiseOverflow q c s = displace .notice c q s := by
  cases c with
  | notice => exact absurd rfl hc
  | pause | halt => exact if_pos h

/-- Without a NOTICE a raise merges into the newest record of its own class (R156). -/
theorem raiseOverflow_merges_own {c : IncidentClass} (hc : c ≠ .notice) (hnotice : listsClass .notice s = false)
    (hown : listsClass c s = true) : raiseOverflow q c s = mergeNewest c c q s := by
  cases c with
  | notice => exact absurd rfl hc
  | pause | halt => simp only [raiseOverflow, hnotice, hown, Bool.false_eq_true, if_false, if_true]

/-- A HALT among PAUSE records alone displaces one of them (R156). -/
theorem raiseOverflow_displaces_pause (hnotice : listsClass .notice s = false) (hhalt : listsClass .halt s = false) :
    raiseOverflow q .halt s = displace .pause .halt q s := by
  simp only [raiseOverflow, hnotice, hhalt, Bool.false_eq_true, if_false]

/-- A PAUSE among HALT records alone merges into the newest (R156). -/
theorem raiseOverflow_merges_halt (hnotice : listsClass .notice s = false) (hpause : listsClass .pause s = false) :
    raiseOverflow q .pause s = mergeNewest .halt .pause q s := by
  simp only [raiseOverflow, hnotice, hpause, Bool.false_eq_true, if_false]

/-- The oldest record of a class leaves (R156, R157). -/
theorem displace_split {k : IncidentClass} {before behind : List Incident} {r : Incident}
    (hlist : s.sup.incidents = before ++ r :: behind) (hbefore : ∀ x ∈ before, x.cls ≠ k) (hr : r.cls = k)
    (c : IncidentClass) : displace k c q s =
      listNew q c (notifyBoth (.incident .removed r.kind r) (setIncidents (before ++ behind) s)) := by
  have hothers : ∀ x ∈ before, (x.cls == k) = false := fun x hx => by simpa using hbefore x hx
  have hfirst : (r.cls == k) = true := by simpa using hr
  simp only [displace, hlist, find?_split (p := fun x : Incident => x.cls == k) hothers hfirst,
    eraseP_split (p := fun x : Incident => x.cls == k) hothers hfirst]

/-- The newest record of a class takes the raise (R156). -/
theorem mergeNewest_split {k : IncidentClass} {before behind : List Incident} {r : Incident}
    (hlist : s.sup.incidents = before ++ r :: behind) (hr : r.cls = k) (hbehind : ∀ x ∈ behind, x.cls ≠ k)
    (c : IncidentClass) : mergeNewest k c q s =
      classEffect c r.number (notifyBoth (.incident .repeated q.kind (mergeOverflow s.sup.seconds r))
        (setIncidents (before ++ mergeOverflow s.sup.seconds r :: behind) s)) := by
  have hothers : ∀ x ∈ behind, (x.cls == k) = false := fun x hx => by simpa using hbehind x hx
  have hlast : (r.cls == k) = true := by simpa using hr
  simp only [mergeNewest, hlist, filter_getLast?_split (p := fun x : Incident => x.cls == k) hlast hothers,
    updateLast_split (p := fun x : Incident => x.cls == k) _ hlast hothers]

end

/-! ### The statements -/

/-- Settles O25: a merge at the place of the subject's record, or a new record at the tail. -/
theorem raiseMergesOrJoinsTheTail : Obligations.RaiseMergesOrJoinsTheTail := by
  refine ⟨fun q s before behind r hlist hbefore hkind hstation heye hlane => ⟨_, rfl, ?_⟩,
    fun q s hroom hnone => ⟨_, rfl, ?_⟩⟩
  · have hothers : ∀ x ∈ before, sameSubject q x = false := fun x hx => sameSubject_eq_false (hbefore x hx)
    have hsame : sameSubject q r = true := (sameSubject_iff q r).mpr ⟨hkind, hstation, heye, hlane⟩
    rw [raiseIncident_of_subject hlist hothers hsame, mergeInto_split hlist hothers hsame]
    rfl
  · rw [raiseIncident_of_room (fun x hx => sameSubject_eq_false (hnone x hx)) hroom]
    rfl

/-- Settles O26: one row of R156 for each class of the raise and of the records that it finds. -/
theorem fullListYieldsToStrongerClass : Obligations.FullListYieldsToStrongerClass := by
  intro q s hfull hnone
  rw [raiseIncident_of_full (fun x hx => sameSubject_eq_false (hnone x hx)) hfull]
  refine ⟨fun hc => ⟨discardedRecord q s, rfl, rfl, rfl, rfl, rfl, rfl, rfl, rfl, ?_⟩,
    fun before behind r hc hlist hbefore hr => ?_,
    fun before behind r hc hnotice hlist hr hbehind => ⟨_, rfl, ?_⟩, fun r behind hc hall hlist => ?_,
    fun r before hc hall hlist => ⟨_, rfl, ?_⟩⟩
  · rw [hc, raiseOverflow_discards]
  · have hlisted : listsClass .notice s = true := (listsClass_iff _ s).mpr ⟨r, by simp [hlist], hr⟩
    rw [raiseOverflow_displaces_notice hc hlisted, displace_split hlist hbefore hr]
    rfl
  · have hown : listsClass r.cls s = true := (listsClass_iff _ s).mpr ⟨r, by simp [hlist], rfl⟩
    rw [← hr] at hc ⊢
    rw [raiseOverflow_merges_own hc (listsClass_eq_false hnotice) hown, mergeNewest_split hlist rfl hbehind]
    rfl
  · have hother : ∀ k, k ≠ .pause → listsClass k s = false := fun k hk =>
      listsClass_eq_false fun x hx hcls => hk (hcls.symm.trans (hall x hx))
    rw [hc, raiseOverflow_displaces_pause (hother _ nofun) (hother _ nofun),
      displace_split (before := []) hlist (fun x hx => absurd hx List.not_mem_nil) (hall r (by simp [hlist]))]
    rfl
  · have hother : ∀ k, k ≠ .halt → listsClass k s = false := fun k hk =>
      listsClass_eq_false fun x hx hcls => hk (hcls.symm.trans (hall x hx))
    rw [hc, raiseOverflow_merges_halt (hother _ nofun) (hother _ nofun),
      mergeNewest_split hlist (hall r (by simp [hlist])) fun x hx => absurd hx List.not_mem_nil]
    rfl

end Sys2Proof.Machine
end

