-- ==== Sys2Proof/Proofs/Halts.lean ====
section
/-! Halts (R140, R150, R152, R153): outside HALTED no HALT-class record is listed and the E-stop loop is closed. Only a
raise lists a HALT-class record, and it leaves the tunnel HALTED; only STOP and RESTART leave HALTED, and they test for
such a record and for the loop; the loop opens with a raise of ESTOP, whose class is HALT in every legal response
table. -/

namespace Sys2Proof.Machine

/-! ### What stands against leaving HALTED -/

theorem haltStands_eq_false_iff (s : State) :
    haltStands s = false ↔ (∀ r ∈ s.sup.incidents, r.cls ≠ .halt) ∧ s.inputs.estopClosed = true := by
  simp [haltStands, haltListed]

theorem haltStands_eq_true_iff (s : State) :
    haltStands s = true ↔ (∃ r ∈ s.sup.incidents, r.cls = .halt) ∨ s.inputs.estopClosed = false := by
  simp [haltStands, haltListed]

theorem ChangeFrame.haltStands {s t : State} (h : ChangeFrame s t) : haltStands t = haltStands s := by
  rw [h.1]
  rfl

/-- Outside HALTED no HALT-class record is listed and the loop is closed (R140, R150, R152). -/
def HaltGuarded (s : State) : Prop := s.sup.tunnel.isHalted = false → haltStands s = false

theorem HaltGuarded.of_halted {s : State} (h : s.sup.tunnel.isHalted = true) : HaltGuarded s := fun hnot => by
  rw [h] at hnot
  exact absurd hnot nofun

/-- A change of records that lists no further HALT-class record and leaves the tunnel state and the loop. -/
theorem HaltGuarded.of_no_new_halt {s t : State} (hs : HaltGuarded s) (htunnel : t.sup.tunnel = s.sup.tunnel)
    (hloop : t.inputs.estopClosed = s.inputs.estopClosed)
    (hlist : ∀ r ∈ t.sup.incidents, r.cls = .halt → ∃ x ∈ s.sup.incidents, x.cls = .halt) : HaltGuarded t := by
  intro hnot
  rw [htunnel] at hnot
  obtain ⟨hnone, hclosed⟩ := (haltStands_eq_false_iff s).mp (hs hnot)
  refine (haltStands_eq_false_iff t).mpr ⟨fun r hr hhalt => ?_, hloop.trans hclosed⟩
  obtain ⟨x, hx, hxhalt⟩ := hlist r hr hhalt
  exact hnone x hx hxhalt

theorem HaltGuarded.of_same {s t : State} (hs : HaltGuarded s) (htunnel : t.sup.tunnel = s.sup.tunnel)
    (hloop : t.inputs.estopClosed = s.inputs.estopClosed) (hlist : t.sup.incidents = s.sup.incidents) :
    HaltGuarded t :=
  hs.of_no_new_halt htunnel hloop fun r hr hhalt => ⟨r, hlist ▸ hr, hhalt⟩

/-! ### Changes of tunnel state -/

/-- Any state may follow where nothing stands against it. -/
theorem changeTunnel_guarded (new : Tunnel) (cause : Cause) {s : State} (h : haltStands s = false) :
    HaltGuarded (changeTunnel new cause s) := fun _ => (changeTunnel_frame new cause s).haltStands.trans h

/-- Any state may follow one outside HALTED. -/
theorem HaltGuarded.changed {s : State} (hs : HaltGuarded s) (hnot : s.sup.tunnel.isHalted = false) (new : Tunnel)
    (cause : Cause) : HaltGuarded (changeTunnel new cause s) :=
  changeTunnel_guarded new cause (hs hnot)

theorem HaltGuarded.paused {s : State} (hs : HaltGuarded s) (cause : Cause) : HaltGuarded (pauseTunnel cause s) := by
  unfold pauseTunnel
  split
  · next h => exact hs.changed (congrArg Tunnel.isHalted h) _ _
  · next h => exact hs.changed (congrArg Tunnel.isHalted h) _ _
  · next h => exact hs.changed (congrArg Tunnel.isHalted h) _ _
  all_goals exact hs

/-- A HALT-class effect leaves the tunnel HALTED, whatever stood before (R150). -/
theorem classEffect_guarded {c : IncidentClass} {s : State} (hs : c ≠ .halt → HaltGuarded s) (number : Nat) :
    HaltGuarded (classEffect c number s) := by
  cases c with
  | notice => exact hs nofun
  | pause => exact (hs nofun).paused _
  | halt => exact .of_halted (haltTunnel_halted _ s)

/-! ### Raises -/

theorem strongerClass_eq_halt_iff (a b : IncidentClass) : strongerClass a b = .halt ↔ a = .halt ∨ b = .halt := by
  cases a <;> cases b <;> decide

theorem HaltGuarded.listed {s : State} (hs : HaltGuarded s) (q : Raise) (c : IncidentClass) :
    HaltGuarded (listNew q c s) := by
  refine classEffect_guarded (fun hc => ?_) _
  refine hs.of_no_new_halt rfl rfl fun r hr hhalt => ?_
  obtain hold | hnew := List.mem_append.mp hr
  · exact ⟨r, hold, hhalt⟩
  · rw [List.mem_singleton.mp hnew] at hhalt
    exact absurd hhalt hc

theorem HaltGuarded.merged {s : State} (hs : HaltGuarded s) (q : Raise) (c : IncidentClass) (r : Incident) :
    HaltGuarded (mergeInto q c r s) := by
  refine classEffect_guarded (fun hc => ?_) _
  refine hs.of_no_new_halt rfl rfl fun x hx hhalt => ?_
  obtain hold | ⟨y, hy, rfl⟩ := mem_updateFirst hx
  · exact ⟨x, hold, hhalt⟩
  · exact ⟨y, hy, ((strongerClass_eq_halt_iff y.cls c).mp hhalt).resolve_right hc⟩

theorem HaltGuarded.newestMerged {s : State} (hs : HaltGuarded s) (k c : IncidentClass) (q : Raise) :
    HaltGuarded (mergeNewest k c q s) := by
  unfold mergeNewest
  split
  · exact hs
  · refine classEffect_guarded (fun _ => ?_) _
    refine hs.of_no_new_halt rfl rfl fun x hx hhalt => ?_
    obtain hold | ⟨y, hy, rfl⟩ := mem_updateLast hx
    · exact ⟨x, hold, hhalt⟩
    · exact ⟨y, hy, hhalt⟩

theorem HaltGuarded.displaced {s : State} (hs : HaltGuarded s) (k c : IncidentClass) (q : Raise) :
    HaltGuarded (displace k c q s) := by
  unfold displace
  split
  · exact hs
  · next r _ =>
    have hrest : HaltGuarded (notifyBoth (.incident .removed r.kind r)
        (setIncidents (s.sup.incidents.eraseP fun r => r.cls == k) s)) :=
      hs.of_no_new_halt rfl rfl fun x hx hhalt => ⟨x, List.eraseP_subset hx, hhalt⟩
    exact hrest.listed q c

/-- A raise lists a HALT-class record only where its effect leaves the tunnel HALTED (R150, R155, R156). -/
theorem HaltGuarded.raised {s : State} (hs : HaltGuarded s) (q : Raise) : HaltGuarded (raiseIncident q s) := by
  unfold raiseIncident
  dsimp only
  split
  · exact hs.merged q _ _
  · split
    · exact hs.listed q _
    · unfold raiseOverflow
      split
      · exact hs.of_same rfl rfl rfl
      · split
        · exact hs.displaced _ _ q
        · split <;> exact hs.newestMerged _ _ q
      · split
        · exact hs.displaced _ _ q
        · split
          · exact hs.newestMerged _ _ q
          · exact hs.displaced _ _ q

theorem displace_halts {k : IncidentClass} {s : State} (h : listsClass k s = true) (q : Raise) :
    (displace k .halt q s).sup.tunnel.isHalted = true := by
  unfold displace
  split
  · next hnone =>
    obtain ⟨r, hr, hk⟩ := (listsClass_iff k s).mp h
    exact absurd (beq_iff_eq.mpr hk) (List.find?_eq_none.mp hnone r hr)
  · exact haltTunnel_halted _ _

theorem mergeNewest_halts {k : IncidentClass} {s : State} (h : listsClass k s = true) (q : Raise) :
    (mergeNewest k .halt q s).sup.tunnel.isHalted = true := by
  unfold mergeNewest
  split
  · next hnone =>
    obtain ⟨r, hr, hk⟩ := (listsClass_iff k s).mp h
    have hempty := List.filter_eq_nil_iff.mp (List.getLast?_eq_none_iff.mp hnone)
    exact absurd (beq_iff_eq.mpr hk) (hempty r hr)
  · exact haltTunnel_halted _ _

/-- A list that holds a record and neither a NOTICE nor a HALT holds a PAUSE. -/
theorem listsClass_pause {s : State} (hlen : 0 < s.sup.incidents.length) (hnotice : ¬listsClass .notice s = true)
    (hhalt : ¬listsClass .halt s = true) : listsClass .pause s = true := by
  obtain ⟨r, hr⟩ := List.exists_mem_of_length_pos hlen
  have hother : ∀ k, r.cls = k → listsClass k s = true := fun k hk => (listsClass_iff k s).mpr ⟨r, hr, hk⟩
  cases hc : r.cls with
  | notice => exact absurd (hother _ hc) hnotice
  | pause => exact hother _ hc
  | halt => exact absurd (hother _ hc) hhalt

/-- A raise of class HALT leaves the tunnel HALTED, also where the list is full (R150, R155, R156). -/
theorem raiseIncident_halts {q : Raise} {s : State} (h : s.sup.response.get q.kind = .halt) :
    (raiseIncident q s).sup.tunnel.isHalted = true := by
  unfold raiseIncident
  rw [h]
  dsimp only
  split
  · exact haltTunnel_halted _ _
  · split
    · exact haltTunnel_halted _ _
    · next hfull =>
      unfold raiseOverflow
      dsimp only
      split
      · next hnotice => exact displace_halts hnotice q
      · next hnotice =>
        split
        · next hhalt => exact mergeNewest_halts hhalt q
        · next hhalt =>
          have hlen : 0 < s.sup.incidents.length := Nat.lt_of_lt_of_le (by decide) (Nat.le_of_not_lt hfull)
          exact displace_halts (listsClass_pause hlen hnotice hhalt) q

/-! ### The events of the tunnel -/

/-- The part is held or runs as before, and the guard is kept. -/
structure HaltKept (s t : State) : Prop where
  held : t.held = s.held
  guarded : HaltGuarded s → HaltGuarded t

theorem HaltKept.refl (s : State) : HaltKept s s := ⟨rfl, id⟩

theorem HaltKept.trans {a b c : State} (h : HaltKept a b) (k : HaltKept b c) : HaltKept a c :=
  ⟨k.held.trans h.held, fun hs => k.guarded (h.guarded hs)⟩

theorem HaltKept.pair_ite {s : State} {α : Type} {a b : State × α} {p : Prop} [Decidable p]
    (ha : p → HaltKept s a.1) (hb : ¬p → HaltKept s b.1) : HaltKept s (if p then a else b).1 := by
  split
  · next h => exact ha h
  · next h => exact hb h

/-- The guard speaks of the tunnel state, the incidents and the loop alone. -/
theorem HaltKept.of_eq {s t : State} (hheld : t.held = s.held := by rfl)
    (htunnel : t.sup.tunnel = s.sup.tunnel := by rfl)
    (hloop : t.inputs.estopClosed = s.inputs.estopClosed := by rfl)
    (hlist : t.sup.incidents = s.sup.incidents := by rfl) : HaltKept s t :=
  ⟨hheld, fun hs => hs.of_same htunnel hloop hlist⟩

theorem HaltKept.ofPorts {s t : State} (h : PortsOnly s t) : HaltKept s t := by
  rw [h]
  exact .of_eq

theorem HaltKept.ofGrant {s t : State} (h : GrantOnly s t) : HaltKept s t := by
  rw [h]
  exact .of_eq

theorem Unlined.haltKept {s t : State} (h : Unlined s t) : HaltKept s t := by
  rw [h]
  exact .of_eq

/-- A move from a state outside HALTED to any other state. -/
theorem changeTunnel_haltKept {s : State} (hnot : s.sup.tunnel.isHalted = false) (new : Tunnel) (cause : Cause) :
    HaltKept s (changeTunnel new cause s) :=
  ⟨(Kept.ofChange _ _ (changeTunnel_frame new cause s)).held, fun hs => hs.changed hnot new cause⟩

/-- A move from a state with nothing that stands against it. -/
theorem changeTunnel_haltKept_of_clear {s : State} (h : haltStands s = false) (new : Tunnel) (cause : Cause) :
    HaltKept s (changeTunnel new cause s) :=
  ⟨(Kept.ofChange _ _ (changeTunnel_frame new cause s)).held, fun _ => changeTunnel_guarded new cause h⟩

theorem raiseIncident_haltKept (q : Raise) (s : State) : HaltKept s (raiseIncident q s) :=
  ⟨(raiseIncident_kept q s).held, fun hs => hs.raised q⟩

/-- A removal lists nothing, and leads out of PAUSED alone (R157, R160). -/
theorem removeIncidents_haltKept (p : Incident → Bool) (s : State) : HaltKept s (removeIncidents p s) := by
  have hset : HaltKept s (setIncidents (s.sup.incidents.filter fun r => !p r) s) :=
    ⟨rfl, fun hs => hs.of_no_new_halt rfl rfl fun r hr hhalt => ⟨r, List.mem_of_mem_filter hr, hhalt⟩⟩
  have hafter : ∀ gone u, HaltKept u (afterRemoval gone u) := fun gone u => by
    unfold afterRemoval
    split
    · next h =>
      split
      · exact .refl u
      · exact changeTunnel_haltKept (congrArg Tunnel.isHalted h) _ _
    · exact .refl u
  exact (hset.trans (.ofPorts (tellRemoved_portsOnly _ _))).trans (hafter _ _)

theorem drainIfEmpty_haltKept (s : State) : HaltKept s (drainIfEmpty s) := by
  unfold drainIfEmpty
  split
  · next h => exact changeTunnel_haltKept (congrArg Tunnel.isHalted h.2) _ _
  · exact .refl s

theorem Move.haltKept {s t : State} (h : Move s t) : HaltKept s t := by
  cases h with
  | quiet h => exact .of_eq h.held h.tunnel (congrArg Inputs.estopClosed h.inputs) h.incidents
  | notify p n => exact .ofPorts (notify_portsOnly p n s)
  | arbitrate => exact .ofGrant (arbitrate_grantOnly s)
  | withdraw r => exact .ofGrant (withdrawGrant_grantOnly r s)
  | consume => exact .of_eq
  | raise q => exact raiseIncident_haltKept q s
  | remove p => exact removeIncidents_haltKept p s
  | drain => exact drainIfEmpty_haltKept s

theorem Evolves.haltKept {s t : State} (h : Evolves s t) : HaltKept s t :=
  h.keeps (P := HaltKept s) (fun _ _ hmove hs => hs.trans hmove.haltKept) (.refl s)

theorem startExpired_haltKept (s : State) : HaltKept s (startExpired s) := by
  unfold startExpired
  split
  · next h => exact changeTunnel_haltKept (congrArg Tunnel.isHalted h) _ _
  · exact .refl s

/-! ### The requests that change the tunnel state -/

theorem setManual_haltKept (x : Bool) (s : State) : HaltKept s (setManual x s) := .of_eq

/-- Another target mode outside HALTED (R142, R144). -/
theorem setTunnel_haltKept (t : Tunnel) {s : State} (h : s.sup.tunnel.isHalted = false) :
    HaltKept s (setTunnel t s) :=
  ⟨rfl, fun hs _ => hs h⟩

theorem ownOpen_haltKept (s : State) : HaltKept s (ownOpen s).1 := by
  unfold ownOpen okTunnel
  split
  · next h =>
    exact .pair_ite (fun _ => .refl s) fun _ =>
      .pair_ite (fun _ => changeTunnel_haltKept (congrArg Tunnel.isHalted h) _ _) fun _ => .refl s
  · next h => exact setTunnel_haltKept _ (congrArg Tunnel.isHalted h)
  · next h => exact setTunnel_haltKept _ (congrArg Tunnel.isHalted h)
  · next h => exact changeTunnel_haltKept (congrArg Tunnel.isHalted h) .running (.request .openTunnel)
  all_goals exact .refl s

theorem ownDrain_haltKept (s : State) : HaltKept s (ownDrain s).1 := by
  unfold ownDrain okTunnel
  split
  · next h => exact changeTunnel_haltKept (congrArg Tunnel.isHalted h) _ _
  · next h => exact setTunnel_haltKept _ (congrArg Tunnel.isHalted h)
  · next h => exact setTunnel_haltKept _ (congrArg Tunnel.isHalted h)
  all_goals exact .refl s

/-- STOP past its tests: outside HALTED, or with nothing that stands against leaving it (R146). -/
theorem stopIfEmpty_haltKept {s : State} (h : s.sup.tunnel.isHalted = false ∨ haltStands s = false) :
    HaltKept s (stopIfEmpty s).1 := by
  unfold stopIfEmpty
  have hchange : HaltKept (setManual false s) (changeTunnel .stopped (.request .stop) (setManual false s)) := by
    obtain hnot | hclear := h
    · exact changeTunnel_haltKept (s := setManual false s) hnot _ _
    · exact changeTunnel_haltKept_of_clear (s := setManual false s) hclear _ _
  refine .pair_ite (fun _ => ?_) fun _ => .refl s
  dsimp only
  exact (setManual_haltKept false s).trans hchange

theorem ownStop_haltKept (s : State) : HaltKept s (ownStop s).1 := by
  unfold ownStop
  split
  · exact .refl s
  · exact .pair_ite (fun _ => .refl s) fun h => stopIfEmpty_haltKept (.inr (Bool.eq_false_of_not_eq_true h))
  · next h => exact stopIfEmpty_haltKept (.inl (congrArg Tunnel.isHalted h))
  · next h => exact stopIfEmpty_haltKept (.inl (congrArg Tunnel.isHalted h))
  · next h => exact stopIfEmpty_haltKept (.inl (congrArg Tunnel.isHalted h))
  · next h => exact stopIfEmpty_haltKept (.inl (congrArg Tunnel.isHalted h))

theorem ownPause_haltKept (s : State) : HaltKept s (ownPause s).1 := by
  have hpause : HaltKept s (pauseTunnel (.request .pause) (setManual true s)) :=
    (setManual_haltKept true s).trans
      ⟨(Kept.ofChange _ _ (pauseTunnel_frame _ _)).held, fun hs => hs.paused _⟩
  unfold ownPause okPause
  split
  · exact hpause
  · exact hpause
  · exact hpause
  · exact setManual_haltKept _ s
  all_goals exact .refl s

theorem ownResume_haltKept (s : State) : HaltKept s (ownResume s).1 := by
  unfold ownResume okPause
  split
  · next m h =>
    have hnot : (setManual false s).sup.tunnel.isHalted = false := congrArg Tunnel.isHalted h
    exact .pair_ite (fun _ => setManual_haltKept _ s) fun _ =>
      (setManual_haltKept false s).trans (changeTunnel_haltKept hnot (.starting m) (.request .resume))
  all_goals exact .refl s

theorem ownRestart_haltKept (s : State) : HaltKept s (ownRestart s).1 := by
  unfold ownRestart okTunnel
  split
  · exact .pair_ite (fun _ => .refl s) fun h =>
      changeTunnel_haltKept_of_clear (Bool.eq_false_of_not_eq_true h) _ _
  all_goals exact .refl s

theorem holderOnly_haltKept {owner : State → State × Answer} (ho : ∀ s, HaltKept s (owner s).1) (p : Port)
    (s : State) : HaltKept s (holderOnly p owner s).1 :=
  .pair_ite (fun _ => ho s) fun _ => .refl s

theorem holderOrConsole_haltKept {owner : State → State × Answer} (ho : ∀ s, HaltKept s (owner s).1) (p : Port)
    (s : State) : HaltKept s (holderOrConsole p owner s).1 :=
  .pair_ite (fun _ => ho s) fun _ => .refl s

end Sys2Proof.Machine
end

