-- ==== Sys2Proof/Proofs/HaltsEveryCommand.lean ====
section
/-! Every command keeps the guard of HALTED and the legality of the response tables (R140, R150, R152, R153, R189): the
requests and events that are sequences of moves, the two requests that write a response table, the Settings Store, the
E-stop loop and the start-up event. -/

namespace Sys2Proof.Machine

/-! ### Every command -/

/-- A running part has its guard (R140, R150, R152). -/
def HaltsGuarded (s : State) : Prop := s.held = false → HaltGuarded s

theorem HaltKept.runs {s t : State} (h : HaltKept s t) (hs : HaltsGuarded s) : HaltsGuarded t :=
  fun hrun => h.guarded (hs (h.held.symm.trans hrun))

theorem HaltsGuarded.of_held {s : State} (h : s.held = true) : HaltsGuarded s := fun hrun => by
  rw [h] at hrun
  exact absurd hrun nofun

theorem driveLines_haltKept (s : State) : HaltKept s (driveLines s) := .of_eq

theorem event_haltKept {f : State → State} (hf : ∀ s, HaltKept s (f s)) (s : State) : HaltKept s (event f s) := by
  unfold event
  split
  · exact .refl s
  · exact (hf s).trans (driveLines_haltKept _)

/-- An edge of a line other than the loop. -/
theorem lineEdge_haltKept {setLine f : State → State} (hf : ∀ s, HaltKept s (f s)) (now level : Bool) (s : State)
    (hset : ∀ s, HaltKept s (setLine s) := by intro _; exact .of_eq) :
    HaltKept s (lineEdge now level setLine f s) := by
  unfold lineEdge
  split
  · exact .refl s
  · exact (hset s).trans (event_haltKept hf _)

theorem portEvent_haltKept {f : State → State} (hf : ∀ s, HaltKept s (f s)) (s : State) :
    HaltKept s (portEvent f s) := by
  unfold portEvent
  split
  · exact .refl s
  · exact hf s

/-- A request keeps the guard where its owner does. -/
theorem respond_haltKept {owner : State → State × Answer} (ho : ∀ s, HaltKept s (owner s).1) (p : Port)
    (k : ReqKind) (form : Bool) (s : State) : HaltKept s (respond p k form owner s) := by
  obtain h | ⟨-, -, -, -, h⟩ := respond_cases p k form owner s
  · exact .ofPorts h
  · rw [h]
    exact ((HaltKept.ofPorts (frameDone_portsOnly p s)).trans (ho _)).trans (.ofPorts (sendAnswer_portsOnly _ _ _ _))

theorem respond_driven_haltKept {owner : State → State × Answer} (ho : ∀ s, HaltKept s (owner s).1) (p : Port)
    (k : ReqKind) (form : Bool) (s : State) : HaltKept s (respond p k form (driven owner) s) :=
  respond_haltKept (owner := driven owner) (fun u => (ho u).trans (driveLines_haltKept _)) p k form s

/-- A request whose owner writes no record that a line depends on. -/
theorem respond_unlined_haltKept {owner : State → State × Answer} (ho : ∀ s, Unlined s (owner s).1) (p : Port)
    (k : ReqKind) (form : Bool) (s : State) : HaltKept s (respond p k form owner s) :=
  respond_haltKept (fun u => (ho u).haltKept) p k form s

/-- A request whose owner is a sequence of moves. -/
theorem respond_evolves_haltKept {owner : State → State × Answer} (ho : ∀ s, Evolves s (owner s).1) (p : Port)
    (k : ReqKind) (form : Bool) (s : State) : HaltKept s (respond p k form (driven owner) s) :=
  respond_driven_haltKept (fun u => (ho u).haltKept) p k form s

theorem runRequest_haltKept (c : Instr) (s : State) : HaltKept s (runRequest c s) := by
  cases c with
  | tunnelStatus p => exact respond_unlined_haltKept (owner := ownTunnelStatus p) (fun _ => rfl) _ _ _ s
  | carList | incidentList | creditList | stationStatus | planListSummary | planListPlan | planListService | quote =>
    exact respond_haltKept (fun u => .refl u) _ _ _ s
  | laneStatus p lane => exact respond_unlined_haltKept (ownLaneStatus_unlined p lane) _ _ _ s
  | tallyRead p part take clear => exact respond_unlined_haltKept (ownTallyRead_unlined p part take clear) _ _ _ s
  | sell p lane buy ref => exact respond_evolves_haltKept (ownSell_evolves p lane buy ref) _ _ _ s
  | void p sale => exact respond_evolves_haltKept (ownVoid_evolves p sale) _ _ _ s
  | addService p sale code level => exact respond_evolves_haltKept (ownAddService_evolves p sale code level) _ _ _ s
  | attachLane p tag lane => exact respond_evolves_haltKept (ownAttachLane_evolves tag lane) _ _ _ s
  | attachNewSale p tag buy ref => exact respond_evolves_haltKept (ownAttachNewSale_evolves tag buy ref) _ _ _ s
  | ackIncident p n => exact respond_evolves_haltKept (ownAckIncident_evolves n) _ _ _ s
  | ackIncidentAll p =>
    exact respond_driven_haltKept (owner := ownAckAll) (fun u => removeIncidents_haltKept _ u) _ _ _ s
  | restart p => exact respond_driven_haltKept ownRestart_haltKept _ _ _ s
  | laneReset p l => exact respond_evolves_haltKept (ownLaneReset_evolves l) _ _ _ s
  | laneEnable p l => exact respond_evolves_haltKept (ownLaneEnable_evolves l) _ _ _ s
  | laneDisable p l => exact respond_evolves_haltKept (ownLaneDisable_evolves l) _ _ _ s
  | tunnelClear p => exact respond_evolves_haltKept ownTunnelClear_evolves _ _ _ s
  | stationOff p i => exact respond_evolves_haltKept (ownStationOff_evolves i) _ _ _ s
  | stationOn p i => exact respond_evolves_haltKept (ownStationOn_evolves i) _ _ _ s
  | stationReset p i => exact respond_evolves_haltKept (ownStationReset_evolves i) _ _ _ s
  | claim p => exact respond_unlined_haltKept (ownClaim_unlined p) _ _ _ s
  | yield p => exact respond_unlined_haltKept (ownYield_unlined p) _ _ _ s
  | openTunnel p => exact respond_driven_haltKept (holderOnly_haltKept ownOpen_haltKept p) _ _ _ s
  | drain p => exact respond_driven_haltKept (holderOnly_haltKept ownDrain_haltKept p) _ _ _ s
  | stop p => exact respond_driven_haltKept (holderOnly_haltKept ownStop_haltKept p) _ _ _ s
  | pause p => exact respond_driven_haltKept (holderOrConsole_haltKept ownPause_haltKept p) _ _ _ s
  | resume p => exact respond_driven_haltKept (holderOrConsole_haltKept ownResume_haltKept p) _ _ _ s
  | forceSpeed p cls =>
    exact respond_driven_haltKept (holderOnly_haltKept (owner := ownForceSpeed cls) (fun _ => .of_eq) p) _ _ _ s
  | releaseSpeed p =>
    exact respond_driven_haltKept (holderOnly_haltKept (owner := ownReleaseSpeed) (fun _ => .of_eq) p) _ _ _ s
  | definePlan p plan name price cls list =>
    exact respond_unlined_haltKept (ownDefinePlan_unlined plan name price cls list) _ _ _ s
  | erasePlan p n => exact respond_unlined_haltKept (ownErasePlan_unlined n) _ _ _ s
  | publish p n => exact respond_unlined_haltKept (ownPublish_unlined n) _ _ _ s
  | withdraw p n => exact respond_unlined_haltKept (ownWithdraw_unlined n) _ _ _ s
  | setService p code presence price limit =>
    exact respond_unlined_haltKept (ownSetService_unlined code presence price limit) _ _ _ s
  | setStation p i r => exact respond_evolves_haltKept (ownSetStation_evolves i r) _ _ _ s
  | setConstants p k => exact respond_evolves_haltKept (ownSetConstants_evolves k) _ _ _ s
  | setResponse p kind cls => exact respond_unlined_haltKept (ownSetResponse_unlined kind cls) _ _ _ s
  | issueCredit p value plan => exact respond_unlined_haltKept (ownIssueCredit_unlined value plan) _ _ _ s
  | save p => exact respond_unlined_haltKept ownSave_unlined _ _ _ s
  | _ => exact .refl s

/-- What a completed frame does: nothing outside the ports, or the request that it spells (R180). -/
theorem handleFrame_cases (p : Port) (kind : Nat) (payload : List Byte) (s : State) :
    PortsOnly s (handleFrame p kind payload s) ∨ ∃ c, handleFrame p kind payload s = runRequest c s := by
  unfold handleFrame
  split
  · exact .inl (frameDone_portsOnly p s)
  · split
    · exact .inl (handleUnknownKind_portsOnly p kind s)
    · next k _ =>
      split
      · obtain h | ⟨-, -, -, hform, -⟩ := respond_cases p k false (refuse .badValue) s
        · exact .inl h
        · exact absurd hform nofun
      · next c _ => exact .inr ⟨c, rfl⟩

/-- What a byte received does: nothing outside the ports, or the request whose frame it completes (R175, R180). -/
theorem receive_cases (p : Port) (byte : Byte) (s : State) :
    PortsOnly s (receive p byte s) ∨ ∃ c, receive p byte s = runRequest c s := by
  unfold receive completeFrame
  dsimp only
  split
  · left; split <;> rfl
  · left; split <;> rfl
  · exact .inl rfl
  · split
    · split
      · exact .inl (frameDone_portsOnly p s)
      · exact handleFrame_cases _ _ _ s
    · exact .inl (frameDone_portsOnly p s)

theorem receive_haltKept (p : Port) (byte : Byte) (s : State) : HaltKept s (receive p byte s) := by
  obtain h | ⟨c, h⟩ := receive_cases p byte s
  · exact .ofPorts h
  · rw [h]
    exact runRequest_haltKept c s

/-! ### The response tables -/

/-- The live response table and those of the images are legal (R153, R189). -/
def ResponsesLegal (s : State) : Prop :=
  ResponseLegal s.sup.response ∧ ∀ m ∈ imagesOf s, ResponseLegal m.response

theorem standard_legal : ResponseLegal Response.standard := by unfold ResponseLegal; decide

/-- A class that its kind allows keeps the table legal (R153). -/
theorem ResponseLegal.set {r : Response} (hr : ResponseLegal r) {k : IncidentKind} {c : IncidentClass}
    (h : allowedClass k c = true) : ResponseLegal (r.set k c) := by
  intro j hj
  by_cases hkj : k = j
  · subst hkj
    rw [Response.get_set_same]
    exact h
  · rw [Response.get_set_ne _ _ _ _ hkj]
    exact hr j hj

/-- ESTOP is of class HALT in a legal table (R153). -/
theorem ResponseLegal.estop {r : Response} (hr : ResponseLegal r) : r.get .estop = .halt := by
  have h := hr .estop (by decide)
  cases hc : r.get .estop with
  | halt => rfl
  | notice | pause => rw [hc] at h; exact absurd h nofun

theorem ResponsesLegal.of_same {s t : State} (hs : ResponsesLegal s) (hresponse : t.sup.response = s.sup.response)
    (hsettings : t.store = s.store) : ResponsesLegal t := by
  unfold ResponsesLegal imagesOf
  rw [hresponse, hsettings]
  exact hs

theorem ResponsesLegal.ofPorts {s t : State} (hs : ResponsesLegal s) (h : PortsOnly s t) : ResponsesLegal t :=
  hs.of_same (by rw [h]) (by rw [h])

/-- No image is left where the marker is cleared and no write is in progress (R192, R195). -/
theorem ResponsesLegal.of_no_image {s t : State} (hs : ResponsesLegal s) (hresponse : t.sup.response = s.sup.response)
    (hmarker : t.store.marker = false) (hwriting : t.store.writing = none) : ResponsesLegal t := by
  refine ⟨hresponse ▸ hs.1, fun m hm => ?_⟩
  rw [mem_imagesOf, hmarker, hwriting] at hm
  simp at hm

/-- A request keeps the tables legal where its owner does. -/
theorem respond_responsesLegal {owner : State → State × Answer}
    (ho : ∀ s, ResponsesLegal s → ResponsesLegal (owner s).1) (p : Port) (k : ReqKind) (form : Bool) {s : State}
    (hs : ResponsesLegal s) : ResponsesLegal (respond p k form owner s) := by
  obtain h | ⟨-, -, -, -, h⟩ := respond_cases p k form owner s
  · exact hs.ofPorts h
  · rw [h]
    exact (ho _ (hs.ofPorts (frameDone_portsOnly p s))).ofPorts (sendAnswer_portsOnly _ _ _ _)

/-- SET_RESPONSE tests that the kind allows the class (R153). -/
theorem ownSetResponse_responsesLegal (kind cls : Nat) (s : State) (hs : ResponsesLegal s) :
    ResponsesLegal (ownSetResponse kind cls s).1 := by
  unfold ownSetResponse
  split
  · exact hs
  · split
    · split
      · next h => exact ⟨hs.1.set h, hs.2⟩
      · exact hs
    · exact hs

/-- SAVE takes the live table into the snapshot (R189, R190). -/
theorem ownSave_responsesLegal (s : State) (hs : ResponsesLegal s) : ResponsesLegal (ownSave s).1 := by
  unfold ownSave
  split
  · exact hs
  · refine ⟨hs.1, fun m hm => ?_⟩
    obtain ⟨hmarker, -⟩ | hsnapshot := (mem_imagesOf _ m).mp hm
    · exact absurd hmarker nofun
    · obtain rfl : imageOf s = m := Option.some.inj hsnapshot
      exact hs.1

/-- A verified completion makes the snapshot the image, a failed one leaves none (R192). -/
theorem finishWrite_responsesLegal (verified : Bool) {s : State} (hs : ResponsesLegal s) :
    ResponsesLegal (finishWrite verified s) := by
  unfold finishWrite
  split
  · exact hs
  · next image hwriting =>
    split
    · refine ⟨hs.1, fun m hm => ?_⟩
      obtain ⟨-, hm⟩ | hm := (mem_imagesOf _ m).mp hm
      · obtain rfl : m = image := hm
        exact hs.2 m ((mem_imagesOf s m).mpr (.inr hwriting))
      · exact absurd hm nofun
    · exact hs.of_no_image rfl rfl rfl

/-- A reset cuts a write short (R195). -/
theorem holdReset_responsesLegal {s : State} (hs : ResponsesLegal s) : ResponsesLegal (holdReset s) := by
  have hcut : ResponsesLegal (cutWrite s) := by
    unfold cutWrite
    split
    · exact hs.of_no_image rfl rfl rfl
    · exact hs
  exact hcut.of_same rfl rfl

/-- The start-up event loads the table of a valid image, or the defaults (R193). -/
theorem loadRecords_responsesLegal (cause : ResetCause) {s : State} (hs : ResponsesLegal s) :
    ResponsesLegal (loadRecords cause s) := by
  refine ⟨?_, fun m hm => ?_⟩
  · change ResponseLegal (loadedImage s).response
    unfold loadedImage
    split
    · next hmarker => exact hs.2 _ ((mem_imagesOf s _).mpr (.inl ⟨hmarker, rfl⟩))
    · exact standard_legal
  · obtain himage | hwriting := (mem_imagesOf _ m).mp hm
    · exact hs.2 m ((mem_imagesOf s m).mpr (.inl himage))
    · exact absurd hwriting nofun

theorem startUp_responsesLegal (cause : ResetCause) {s : State} (hs : ResponsesLegal s) :
    ResponsesLegal (startUp cause s) := by
  have hload := loadRecords_responsesLegal cause hs
  have hraise : Kept (loadRecords cause s) (raiseEstop (loadRecords cause s)) := raiseIncident_kept _ _
  unfold startUp
  split
  · dsimp only
    split
    · exact hload.of_same rfl rfl
    · exact hload.of_same hraise.response hraise.settings
  · exact hs

/-- Two requests write a response table: SET_RESPONSE the live one, SAVE the snapshot's (R153, R190). -/
theorem runRequest_responsesLegal (c : Instr) {s : State} (hs : ResponsesLegal s) :
    ResponsesLegal (runRequest c s) := by
  by_cases hresponse : kindOf c = some .setResponse
  · cases c with
    | setResponse p kind cls => exact respond_responsesLegal (ownSetResponse_responsesLegal kind cls) _ _ _ hs
    | carList p form => simp at hresponse
    | stationStatus p station => simp at hresponse
    | _ => simp [kindOf, encodeRequest] at hresponse
  · by_cases hsettings : Setting.settings.NamedBy c
    · obtain hsave | ⟨v, rfl⟩ | rfl := hsettings
      · cases c with
        | save p => exact respond_responsesLegal ownSave_responsesLegal _ _ _ hs
        | carList p form => simp at hsave
        | stationStatus p station => simp at hsave
        | _ => simp [kindOf, encodeRequest] at hsave
      · exact hs
      · exact hs
    · exact hs.of_same (runRequest_abides c s .response hresponse) (runRequest_abides c s .settings hsettings)

theorem receive_responsesLegal (p : Port) (byte : Byte) {s : State} (hs : ResponsesLegal s) :
    ResponsesLegal (receive p byte s) := by
  obtain h | ⟨c, h⟩ := receive_cases p byte s
  · exact hs.ofPorts h
  · rw [h]
    exact runRequest_responsesLegal c hs

/-- Every command keeps the tables legal. -/
theorem after_responsesLegal (c : Instr) {s : State} (hs : ResponsesLegal s) : ResponsesLegal (after c s) := by
  cases hp : requestPort c with
  | some p =>
    rw [after_request c p hp]
    exact runRequest_responsesLegal c hs
  | none =>
    have hkind := kindOf_of_no_port hp
    have habides := fun hcarries => after_abides c hcarries s
    cases c with
    | startUp cause => exact startUp_responsesLegal cause hs
    | reset => exact holdReset_responsesLegal hs
    | saveComplete verified =>
      change ResponsesLegal (event (finishWrite verified) s)
      unfold event
      split
      · exact hs
      · exact (finishWrite_responsesLegal verified hs).of_same rfl rfl
    | byteReceived p byte =>
      change ResponsesLegal (portEvent (receive p byte) s)
      unfold portEvent
      split
      · exact hs
      · exact receive_responsesLegal p byte hs
    | _ =>
      exact hs.of_same (habides rfl .response (by simp [Setting.NamedBy, hkind]))
        (habides rfl .settings (by simp [Setting.NamedBy, hkind]))

/-! ### The loop and the start-up event -/

/-- ESTOP halts the tunnel under a legal response table (R152, R153). -/
theorem raiseEstop_halts {s : State} (h : ResponseLegal s.sup.response) :
    (raiseEstop s).sup.tunnel.isHalted = true := raiseIncident_halts h.estop

/-- The loop opens with a raise of ESTOP (R152). -/
theorem loopOpens_guarded {s : State} (hlegal : ResponseLegal s.sup.response) (hs : HaltsGuarded s) :
    HaltsGuarded (lineEdge s.inputs.estopClosed false (setLoopClosed false) raiseEstop s) := by
  unfold lineEdge
  split
  · exact hs
  · unfold event
    split
    · next h => exact .of_held h
    · exact fun _ => .of_halted (raiseEstop_halts (s := setLoopClosed false s) hlegal)

/-- A loop that closes takes away what stood (R152). -/
theorem setLoopClosed_haltKept (s : State) : HaltKept s (setLoopClosed true s) :=
  ⟨rfl, fun hs hnot =>
    (haltStands_eq_false_iff _).mpr ⟨((haltStands_eq_false_iff s).mp (hs hnot)).1, rfl⟩⟩

/-- The start-up event lists nothing, and raises ESTOP where it finds the loop open (R194). -/
theorem startUp_guarded (cause : ResetCause) {s : State} (hlegal : ResponsesLegal s) (hs : HaltsGuarded s) :
    HaltsGuarded (startUp cause s) := by
  have hload : ResponseLegal (loadRecords cause s).sup.response := (loadRecords_responsesLegal cause hlegal).1
  unfold startUp
  split
  · dsimp only
    split
    · next hclosed =>
      exact fun _ _ => (haltStands_eq_false_iff _).mpr ⟨fun r hr => absurd hr List.not_mem_nil, hclosed⟩
    · exact fun _ => .of_halted (raiseEstop_halts hload)
  · exact hs

/-- Every command keeps the guard, given legal response tables. -/
theorem after_guarded (c : Instr) {s : State} (hlegal : ResponsesLegal s) (hs : HaltsGuarded s) :
    HaltsGuarded (after c s) := by
  cases hp : requestPort c with
  | some p =>
    rw [after_request c p hp]
    exact (runRequest_haltKept c s).runs hs
  | none =>
    cases c with
    | estopLoopOpen => exact loopOpens_guarded hlegal.1 hs
    | startUp cause => exact startUp_guarded cause hlegal hs
    | reset => exact .of_held rfl
    | estopLoopClose =>
      exact (lineEdge_haltKept .refl s.inputs.estopClosed true s setLoopClosed_haltKept).runs hs
    | unknownKind p kind => exact (HaltKept.ofPorts (handleUnknownKind_portsOnly p kind s)).runs hs
    | frameDiscarded p cause =>
      exact (portEvent_haltKept (fun u => .ofPorts (discardFrame_portsOnly p cause u)) s).runs hs
    | gapTimerExpiry p => exact (portEvent_haltKept (fun u => .ofPorts (gapExpired_portsOnly p u)) s).runs hs
    | txStart p => exact (portEvent_haltKept (fun u => .ofPorts (updatePort_portsOnly p startFrame u)) s).runs hs
    | txFrameSent p => exact (portEvent_haltKept (fun u => .ofPorts (updatePort_portsOnly p endFrame u)) s).runs hs
    | byteReceived p byte => exact (portEvent_haltKept (receive_haltKept p byte) s).runs hs
    | encoderPulse => exact (event_haltKept (fun u => (pulse_evolves u).haltKept) s).runs hs
    | checkEyeBlockingEdge k => exact (lineEdge_haltKept (fun u => (eyeBlocked_evolves _ u).haltKept) _ _ s).runs hs
    | checkEyeClearEdge k => exact (lineEdge_haltKept (fun u => (eyeCleared_evolves _ u).haltKept) _ _ s).runs hs
    | exitEyeBlockingEdge => exact (lineEdge_haltKept (fun u => (exitBlocked_evolves u).haltKept) _ _ s).runs hs
    | exitEyeClearEdge => exact (lineEdge_haltKept (fun u => (exitCleared_evolves u).haltKept) _ _ s).runs hs
    | entranceEyeBlockingEdge =>
      exact (lineEdge_haltKept (fun u => (entranceBlocked_evolves u).haltKept) _ _ s).runs hs
    | entranceEyeClearEdge =>
      exact (lineEdge_haltKept (fun u => (entranceCleared_evolves u).haltKept) _ _ s).runs hs
    | loopOccupied l => exact (lineEdge_haltKept (fun u => (arbitrate_evolves u).haltKept) _ _ s).runs hs
    | loopVacant l => exact (lineEdge_haltKept .refl _ _ s).runs hs
    | proofAssert i => exact (lineEdge_haltKept (fun u => (proofOn_evolves i u).haltKept) _ _ s).runs hs
    | proofDeassert i => exact (lineEdge_haltKept (fun u => (proofOff_evolves i u).haltKept) _ _ s).runs hs
    | bumperOvertravelEdge slot line active =>
      exact (lineEdge_haltKept (fun u => (raiseEach_evolves _ u).haltKept) _ _ s
        fun u => by cases line <;> exact .of_eq).runs hs
    | grantTimerExpiry => exact (event_haltKept (fun u => (grantExpired_evolves u).haltKept) s).runs hs
    | startTimerExpiry => exact (event_haltKept startExpired_haltKept s).runs hs
    | exitBlockTimerExpiry => exact (event_haltKept (fun u => (exitBlockExpired_evolves u).haltKept) s).runs hs
    | proofTimerExpiry i => exact (event_haltKept (fun u => (proofExpired_evolves i u).haltKept) s).runs hs
    | retryTimerExpiry i => exact (event_haltKept (fun u => (retryExpired_evolves i u).haltKept) s).runs hs
    | gateWindowEnd => exact (event_haltKept (fun u => (windowEnd_evolves u).haltKept) s).runs hs
    | scanComplete samples => exact (event_haltKept (fun u => (scan_evolves samples u).haltKept) s).runs hs
    | secondsTick => exact (event_haltKept (f := tickSeconds) (fun _ => .of_eq) s).runs hs
    | saveComplete verified => exact (event_haltKept (fun u => (finishWrite_unlined verified u).haltKept) s).runs hs
    | _ => exact absurd hp nofun

/-! ### Every step -/

theorem haltsHold_iff (s : State) : HaltsHold s ↔ HaltsGuarded s ∧ ResponsesLegal s := by
  simp [HaltsHold, HaltsGuarded, HaltGuarded, ResponsesLegal, haltStands]

theorem after_haltsHold (c : Instr) {s : State} (hs : HaltsHold s) : HaltsHold (after c s) := by
  obtain ⟨hguarded, hlegal⟩ := (haltsHold_iff s).mp hs
  exact (haltsHold_iff _).mpr ⟨after_guarded c hlegal hguarded, after_responsesLegal c hlegal⟩

/-- Settles O8: every command keeps the guard and the response tables, and the waiting queue that a step takes its
command from is none of them. -/
theorem haltsHoldOutsideHalted : Obligations.HaltsHoldOutsideHalted := by
  intro s t hs hstep
  unfold step at hstep
  split at hstep
  · obtain rfl := Host.Outcome.next.inj hstep
    exact hs
  · next c rest _ =>
    rw [exec_eq_after] at hstep
    obtain rfl := Host.Outcome.next.inj hstep
    exact after_haltsHold c (s := { s with pending := rest }) hs

end Sys2Proof.Machine
end

