-- ==== Sys2Proof/Proofs/TunnelControl.lean ====
section
/-! Tunnel control (R161, R162): CLAIM and YIELD move it, and the requests reserved to its holder are refused
elsewhere. -/

namespace Sys2Proof.Machine

/-! ### CLAIM and YIELD -/

theorem ownClaim_console_unheld {s : State} (h : s.sup.holder ≠ some .p4) :
    ownClaim .p0 s = (setHolder (some .p0) s, answerOk (b1 0)) := by
  simp only [ownClaim, if_true, h, if_false]
  rfl

theorem ownClaim_console_takes {s : State} (h : s.sup.holder = some .p4) :
    ownClaim .p0 s = (setHolder (some .p0) (notify .p4 (.controlLost .p0) s), answerOk (b1 0)) := by
  simp only [ownClaim, if_true, h]
  rfl

theorem ownClaim_office {s : State} (h : s.sup.holder ≠ some .p0) :
    ownClaim .p4 s = (setHolder (some .p4) s, answerOk (b1 4)) := by
  simp only [ownClaim, reduceCtorEq, h, if_false]
  rfl

theorem ownClaim_office_busy {s : State} (h : s.sup.holder = some .p0) : ownClaim .p4 s = refuse .busy s := by
  simp only [ownClaim, reduceCtorEq, h, if_false, if_true]

/-! ### Who may use a request -/

/-- The test for control stops a request from elsewhere (R162). -/
theorem holderOnly_refuses {p : Port} {s : State} (h : s.sup.holder ≠ some p) (owner : State → State × Answer) :
    holderOnly p owner s = refuse .noControl s := if_neg fun hholds => h (of_decide_eq_true hholds)

/-- The office needs control for PAUSE and RESUME (R147, R149). -/
theorem holderOrConsole_refuses {s : State} (h : s.sup.holder ≠ some .p4) (owner : State → State × Answer) :
    holderOrConsole .p4 owner s = refuse .noControl s := by
  refine if_neg ?_
  rintro (hconsole | hholds)
  · exact absurd hconsole nofun
  · exact h (of_decide_eq_true hholds)

/-- The console and the holder may use PAUSE and RESUME (R147, R149). -/
theorem holderOrConsole_passes {p : Port} {s : State} (h : p = .p0 ∨ s.sup.holder = some p)
    (owner : State → State × Answer) : holderOrConsole p owner s = owner s :=
  if_pos (h.imp_right decide_eq_true)

/-- A request reserved to the holder changes nothing from a port without control (R162). -/
theorem reserved_refused {c : Instr} {p : Port} {k : ReqKind} {s : State} (hport : requestPort c = some p)
    (hkind : kindOf c = some k) (hreserved : reservedToHolder p k = true) (h : Reaches p k s) (hlines : LinesFollow s)
    (hholder : s.sup.holder ≠ some p) : after c s = refusedWith p k .noControl s := by
  have honly : ∀ owner, respond p k true (driven (holderOnly p owner)) s = refusedWith p k .noControl s :=
    fun owner => respond_driven_refuse h hlines _ _ (holderOnly_refuses (s := frameDone p s) hholder owner)
  have hoffice : ∀ owner, p = .p4 →
      respond p k true (driven (holderOrConsole p owner)) s = refusedWith p k .noControl s := by
    rintro owner rfl
    exact respond_driven_refuse h hlines _ _ (holderOrConsole_refuses (s := frameDone .p4 s) hholder owner)
  cases c with
  | yield q =>
    obtain rfl := Option.some.inj hport
    obtain rfl := Option.some.inj hkind
    exact respond_refuse h (holderOnly_refuses (s := frameDone q s) hholder ownYield)
  | openTunnel q | drain q | stop q | forceSpeed q n | releaseSpeed q =>
    obtain rfl := Option.some.inj hport
    obtain rfl := Option.some.inj hkind
    exact honly _
  | pause q | resume q =>
    obtain rfl := Option.some.inj hport
    obtain rfl := Option.some.inj hkind
    exact hoffice _ (by simpa [reservedToHolder] using hreserved)
  | carList | stationStatus =>
    obtain rfl : _ = k := by simpa using hkind
    exact absurd hreserved nofun
  | _ => simp [kindOf, encodeRequest] at hkind <;> (subst hkind; exact absurd hreserved nofun)

/-- Settles O15: CLAIM from each port, YIELD, and the reserved requests. -/
theorem controlIsHeldByOnePort : Obligations.ControlIsHeldByOnePort := by
  refine ⟨fun s h hholder => ?_, fun s h hholder => ?_, fun s h hholder => ?_, fun s h hholder => ?_,
    fun p s h hholder => ?_, fun c p k s hport hkind hreserved h hlines hholder => ?_⟩
  · exact congrArg Host.Outcome.next (respond_ok h (ownClaim_console_unheld (s := frameDone .p0 s) hholder))
  · exact congrArg Host.Outcome.next (respond_ok h (ownClaim_console_takes (s := frameDone .p0 s) hholder))
  · exact congrArg Host.Outcome.next (respond_ok h (ownClaim_office (s := frameDone .p4 s) hholder))
  · exact congrArg Host.Outcome.next (respond_refuse h (ownClaim_office_busy (s := frameDone .p4 s) hholder))
  · exact congrArg Host.Outcome.next (respond_ok h (holderOnly_of_holder (s := frameDone p s) hholder ownYield))
  · rw [exec_eq_after, reserved_refused hport hkind hreserved h hlines hholder]

end Sys2Proof.Machine
end

