-- ==== Sys2Proof/Proofs/Acknowledgement.lean ====
section
/-! ACK_INCIDENT (R157 to R160): the record of a number, every record that may go, and the effect of a removal on a
PAUSED tunnel. -/

namespace Sys2Proof.Machine

/-! ### The only element that passes a test -/

section
variable {α : Type} {p : α → Bool} {before behind : List α} {r : α} (hbefore : ∀ x ∈ before, p x = false)
  (hr : p r = true) (hbehind : ∀ x ∈ behind, p x = false)
include hbefore hr hbehind

theorem filter_split_only : (before ++ r :: behind).filter p = [r] := by
  have hfirst : before.filter p = [] := List.filter_eq_nil_iff.mpr fun x hx => by simp [hbefore x hx]
  have hlast : behind.filter p = [] := List.filter_eq_nil_iff.mpr fun x hx => by simp [hbehind x hx]
  simp [List.filter_append, hr, hfirst, hlast]

theorem filter_not_split : (before ++ r :: behind).filter (fun x => !p x) = before ++ behind := by
  have hfirst : before.filter (fun x => !p x) = before := List.filter_eq_self.mpr fun x hx => by simp [hbefore x hx]
  have hlast : behind.filter (fun x => !p x) = behind := List.filter_eq_self.mpr fun x hx => by simp [hbehind x hx]
  simp [List.filter_append, hr, hfirst, hlast]

end

/-! ### One record -/

theorem ackBarred_iff (s : State) (r : Incident) : ackBarred s r = true ↔
    (r.kind = .estop ∧ s.inputs.estopClosed = false) ∨ (r.kind = .exitBlocked ∧ s.inputs.eyes.exit = true) := by
  simp [ackBarred]

theorem ownAckIncident_missing {s : State} {n : Nat} (h : ∀ x ∈ s.sup.incidents, x.number ≠ n) :
    ownAckIncident n s = refuse .notFound s := by
  have hfind : s.sup.incidents.find? (fun r => r.number == n) = none :=
    List.find?_eq_none.mpr fun x hx => by simpa using h x hx
  simp only [ownAckIncident, hfind]

section
variable {s : State} {before behind : List Incident} {r : Incident}
  (hlist : s.sup.incidents = before ++ r :: behind) (hbefore : ∀ x ∈ before, x.number ≠ r.number)
include hlist hbefore

theorem ownAckIncident_listed : ownAckIncident r.number s =
    if ackBarred s r then refuse .state s
    else (removeIncidents (fun x => x.number == r.number) s, answerOk (b1 r.number)) := by
  have hothers : ∀ x ∈ before, (x.number == r.number) = false := fun x hx => by simpa using hbefore x hx
  have hfind : (before ++ r :: behind).find? (fun x => x.number == r.number) = some r :=
    find?_split hothers (beq_self_eq_true _)
  simp only [ownAckIncident, hlist, hfind]

/-- A record whose number no other record carries leaves alone (R157, R158). -/
theorem removeIncidents_number (hbehind : ∀ x ∈ behind, x.number ≠ r.number) :
    removeIncidents (fun x => x.number == r.number) s =
      afterRemoval [r] (notifyBoth (.incident .removed r.kind r) (setIncidents (before ++ behind) s)) := by
  have hfirst : ∀ x ∈ before, (x.number == r.number) = false := fun x hx => by simpa using hbefore x hx
  have hlast : ∀ x ∈ behind, (x.number == r.number) = false := fun x hx => by simpa using hbehind x hx
  have hgone := filter_split_only hfirst (beq_self_eq_true r.number) hlast
  have hkept := filter_not_split hfirst (beq_self_eq_true r.number) hlast
  rw [removeIncidents, hlist, hgone, hkept]
  rfl

end

/-! ### Every record that may go -/

/-- ALL removes what is not barred, and counts what goes and what stays (R159). -/
theorem ownAckAll_eq (s : State) : ownAckAll s =
    (afterRemoval (s.sup.incidents.filter fun r => !ackBarred s r)
        (tellRemoved (s.sup.incidents.filter fun r => !ackBarred s r)
          (setIncidents (s.sup.incidents.filter (ackBarred s)) s)),
      answerOk (b1 (s.sup.incidents.filter fun r => !ackBarred s r).length ++
        b1 (s.sup.incidents.filter (ackBarred s)).length)) := by
  simp only [ownAckAll, removeIncidents, Bool.not_not]

/-! ### The effect on a PAUSED tunnel -/

section
variable {front rest : List Incident} {r : Incident} (hr : r.cls = .pause) (hrest : ∀ x ∈ rest, x.cls ≠ .pause)
include hr hrest

theorem last_pause_removed : ((front ++ r :: rest).filter fun x => x.cls == .pause).getLast? = some r :=
  filter_getLast?_split (by simpa using hr) fun x hx => by simpa using hrest x hx

theorem afterRemoval_of_paused {s : State} {m : TargetMode} (h : s.sup.tunnel = .paused m) :
    afterRemoval (front ++ r :: rest) s =
      if pauseListed s || s.sup.manual then s else changeTunnel (.starting m) (.incident r.number) s := by
  simp only [afterRemoval, last_pause_removed hr hrest, h]

end

theorem afterRemoval_of_not_paused {s : State} (h : ∀ m, s.sup.tunnel ≠ .paused m) (gone : List Incident) :
    afterRemoval gone s = s := by
  unfold afterRemoval
  split
  · next hpaused => exact absurd hpaused (h _)
  · rfl

/-- Settles O41: one record, no record, every record, and the tunnel after a removal. -/
theorem acknowledgementRemovesRecords : Obligations.AcknowledgementRemovesRecords := by
  refine ⟨fun s before behind r h hlist hbefore hbehind => ⟨fun hbarred hlines => ?_, fun hestop hexit => ?_⟩,
    fun s n h hlines hmissing => ?_, fun s h => ⟨_, _, rfl, rfl, fun r _ => ackBarred_iff s r, ?_⟩,
    fun s gone front r rest hgone hr hrest => ⟨fun m hpaused hnone hmanual => ?_, fun hstays => ?_⟩⟩
  · refine congrArg Host.Outcome.next (respond_driven_refuse h hlines _ .state ?_)
    rw [ownAckIncident_listed (s := frameDone .p0 s) hlist hbefore]
    exact if_pos ((ackBarred_iff s r).mpr hbarred)
  · have hmay : ¬ ackBarred s r = true := by
      rw [ackBarred_iff]
      rintro (⟨hkind, hopen⟩ | ⟨hkind, hblocked⟩)
      · simp [hestop hkind] at hopen
      · simp [hexit hkind] at hblocked
    refine congrArg Host.Outcome.next (respond_driven_ok h _ _ ?_)
    rw [ownAckIncident_listed (s := frameDone .p0 s) hlist hbefore,
      removeIncidents_number (s := frameDone .p0 s) hlist hbefore hbehind]
    exact if_neg hmay
  · exact congrArg Host.Outcome.next
      (respond_driven_refuse h hlines _ .notFound (ownAckIncident_missing (s := frameDone .p0 s) hmissing))
  · exact congrArg Host.Outcome.next (respond_driven_ok h _ _ (ownAckAll_eq (frameDone .p0 s)))
  · rw [hgone, afterRemoval_of_paused hr hrest hpaused, hnone, hmanual]
    rfl
  · by_cases hpaused : ∃ m, s.sup.tunnel = .paused m
    · obtain ⟨m, hm⟩ := hpaused
      have hstands : (pauseListed s || s.sup.manual) = true := by
        obtain hlisted | hmanual | hnot := hstays
        · simp [hlisted]
        · simp [hmanual]
        · exact absurd hm (hnot m)
      rw [hgone, afterRemoval_of_paused hr hrest hm, if_pos hstands]
    · exact afterRemoval_of_not_paused (fun m hm => hpaused ⟨m, hm⟩) gone

end Sys2Proof.Machine
end

