-- ==== Sys2Proof/Proofs/TunnelRequests.lean ====
section
/-! OPEN, DRAIN, STOP, RESTART, PAUSE and RESUME in every tunnel state (R142, R144, R146, R147, R149, R151): one lemma
for each row of an owner's table, and the answer of the state that it leaves. -/

namespace Sys2Proof.Machine

/-! ### Requests of the holder and of the console -/

section
variable {p : Port} {k : ReqKind} {s : State} (h : Reaches p k s) {owner : State → State × Answer}
include h

theorem respond_holder_ok (hholder : s.sup.holder = some p) {t : State} {fields : List Byte}
    (ho : owner (frameDone p s) = (t, answerOk fields)) :
    respond p k true (driven (holderOnly p owner)) s = answeredOk p k fields (driveLines t) :=
  respond_driven_ok h _ _ ((holderOnly_of_holder (s := frameDone p s) hholder owner).trans ho)

theorem respond_holder_refuse (hholder : s.sup.holder = some p) (hlines : LinesFollow s) {r : Result}
    (ho : owner (frameDone p s) = refuse r (frameDone p s)) :
    respond p k true (driven (holderOnly p owner)) s = refusedWith p k r s :=
  respond_driven_refuse h hlines _ r ((holderOnly_of_holder (s := frameDone p s) hholder owner).trans ho)

theorem respond_allowed_ok (hallowed : p = .p0 ∨ s.sup.holder = some p) {t : State} {fields : List Byte}
    (ho : owner (frameDone p s) = (t, answerOk fields)) :
    respond p k true (driven (holderOrConsole p owner)) s = answeredOk p k fields (driveLines t) :=
  respond_driven_ok h _ _ ((holderOrConsole_passes (s := frameDone p s) hallowed owner).trans ho)

theorem respond_allowed_refuse (hallowed : p = .p0 ∨ s.sup.holder = some p) (hlines : LinesFollow s) {r : Result}
    (ho : owner (frameDone p s) = refuse r (frameDone p s)) :
    respond p k true (driven (holderOrConsole p owner)) s = refusedWith p k r s :=
  respond_driven_refuse h hlines _ r ((holderOrConsole_passes (s := frameDone p s) hallowed owner).trans ho)

end

/-! ### Answers -/

@[simp] theorem pauseListed_frameDone (p : Port) (s : State) : pauseListed (frameDone p s) = pauseListed s := rfl

@[simp] theorem pauseListed_setManual (x : Bool) (s : State) : pauseListed (setManual x s) = pauseListed s := rfl

/-- The state and the target byte of a tunnel state that OPEN, DRAIN or RESTART leaves (log entry 10). -/
theorem okTunnel_of {s : State} {t : Tunnel} (h : s.sup.tunnel = t) :
    okTunnel s = (s, answerOk (b1 (tunnelCode t) ++ b1 (targetByte t))) := by
  rw [okTunnel, tunnelFields, h]

theorem okTunnel_change (new : Tunnel) (cause : Cause) (s : State) : okTunnel (changeTunnel new cause s) =
    (changeTunnel new cause s, answerOk (b1 (tunnelCode new) ++ b1 (targetByte new))) :=
  okTunnel_of (changeTunnel_tunnel new cause s)

/-- The state and the pause reasons that PAUSE or RESUME leaves (log entry 10). -/
theorem okPause_of {s : State} {t : Tunnel} {manual : Bool} (h : s.sup.tunnel = t) (hmanual : s.sup.manual = manual) :
    okPause s = (s, answerOk (b1 (tunnelCode t) ++ b1 (reasonFlags manual (pauseListed s)))) := by
  rw [okPause, pauseFields, h, hmanual]

theorem okPause_change (new : Tunnel) (cause : Cause) (s : State) : okPause (changeTunnel new cause s) =
    (changeTunnel new cause s, answerOk (b1 (tunnelCode new) ++ b1 (reasonFlags s.sup.manual (pauseListed s)))) := by
  obtain ⟨hmanual, hincidents, -⟩ := changeTunnel_keeps new cause s
  rw [okPause_of (changeTunnel_tunnel new cause s) hmanual, pauseListed, hincidents, pauseListed]

theorem isHalted_iff (t : Tunnel) : t.isHalted = true ↔ ∃ pre, t = .halted pre := by
  cases t <;> simp [Tunnel.isHalted]

/-! ### OPEN -/

theorem eyeInputBlocked_iff (s : State) (k : Eye) :
    eyeInputBlocked s k = true ↔ s.inputs.eyes.get k = true ∧ eyePosition s.sup.consts k ≠ none := by
  simp [eyeInputBlocked, Option.isSome_iff_ne_none, and_comm]

/-- The entrance eye, the exit eye or a fitted check eye is blocked (R142). -/
theorem anyEyeBlocked_iff (s : State) : anyEyeBlocked s = true ↔
    s.inputs.entrance = true ∨ s.inputs.eyes.exit = true ∨ (s.inputs.eyes.ce1 = true ∧ s.sup.consts.ce1 ≠ 0) ∨
      (s.inputs.eyes.ce2 = true ∧ s.sup.consts.ce2 ≠ 0) ∨ (s.inputs.eyes.ce3 = true ∧ s.sup.consts.ce3 ≠ 0) ∨
      (s.inputs.eyes.ce4 = true ∧ s.sup.consts.ce4 ≠ 0) := by
  have hexit : eyeInputBlocked s .exit = true ↔ s.inputs.eyes.exit = true := by
    simp [eyeInputBlocked_iff, eyePosition, PerEye.get]
  simp only [anyEyeBlocked, allEyes, List.any_cons, List.any_nil, Bool.or_eq_true, Bool.or_false, hexit,
    eyeInputBlocked_iff, eyePosition, PerEye.get, ne_eq, ite_eq_left_iff, reduceCtorEq, imp_false, not_not]
  tauto

section
variable {s : State}

theorem ownOpen_occupied (h : s.sup.tunnel = .stopped) (heye : anyEyeBlocked s = true) :
    ownOpen s = refuse .occupied s := by
  simp only [ownOpen, h, heye, if_true]

theorem ownOpen_stopped (h : s.sup.tunnel = .stopped) (heye : ¬ anyEyeBlocked s = true)
    (hclosed : s.inputs.estopClosed = true) : ownOpen s = okTunnel (openStopped s) := by
  simp only [ownOpen, h, if_neg heye, hclosed, if_true]

theorem ownOpen_open_loop (h : s.sup.tunnel = .stopped) (heye : ¬ anyEyeBlocked s = true)
    (hopen : s.inputs.estopClosed = false) : ownOpen s = refuse .state s := by
  simp only [ownOpen, h, if_neg heye, hopen, Bool.false_eq_true, if_false]

theorem ownOpen_starting {m : TargetMode} (h : s.sup.tunnel = .starting m) :
    ownOpen s = okTunnel (setTunnel (.starting .running) s) := by simp only [ownOpen, h]

theorem ownOpen_paused {m : TargetMode} (h : s.sup.tunnel = .paused m) :
    ownOpen s = okTunnel (setTunnel (.paused .running) s) := by simp only [ownOpen, h]

theorem ownOpen_draining (h : s.sup.tunnel = .draining) :
    ownOpen s = okTunnel (changeTunnel .running (.request .openTunnel) s) := by simp only [ownOpen, h]

theorem ownOpen_running (h : s.sup.tunnel = .running) : ownOpen s = okTunnel s := by simp only [ownOpen, h]

theorem ownOpen_halted (h : s.sup.tunnel.isHalted = true) : ownOpen s = refuse .state s := by
  obtain ⟨pre, hpre⟩ := (isHalted_iff _).mp h
  simp only [ownOpen, hpre]

end

/-- Settles O45: one row of R142 for each clause. -/
theorem openFollowsItsTable : Obligations.OpenFollowsItsTable := by
  intro p s h hholder
  have haccepted : ∀ {t fields}, ownOpen (frameDone p s) = (t, answerOk fields) →
      exec (.openTunnel p) s = .next (answeredOk p .openTunnel fields (driveLines t)) :=
    fun ho => congrArg Host.Outcome.next (respond_holder_ok h hholder ho)
  have hrefused : ∀ {r}, LinesFollow s → ownOpen (frameDone p s) = refuse r (frameDone p s) →
      exec (.openTunnel p) s = .next (refusedWith p .openTunnel r s) :=
    fun hlines ho => congrArg Host.Outcome.next (respond_holder_refuse h hholder hlines ho)
  have hclear : s.inputs.entrance = false → s.inputs.eyes.exit = false →
      (s.inputs.eyes.ce1 = true → s.sup.consts.ce1 = 0) → (s.inputs.eyes.ce2 = true → s.sup.consts.ce2 = 0) →
      (s.inputs.eyes.ce3 = true → s.sup.consts.ce3 = 0) → (s.inputs.eyes.ce4 = true → s.sup.consts.ce4 = 0) →
        ¬ anyEyeBlocked s = true := by
    intro hentrance hexit h1 h2 h3 h4 hblocked
    rw [anyEyeBlocked_iff, hentrance, hexit] at hblocked
    tauto
  refine ⟨fun ht hlines heyes => ?_, fun ht hclosed hentrance hexit h1 h2 h3 h4 => ⟨fun hpause => ?_, fun hpause => ?_⟩,
    fun ht hlines hopen hentrance hexit h1 h2 h3 h4 => ?_, fun m ht => ?_, fun m ht => ?_, fun ht => ?_, fun ht => ?_,
    fun ht hlines => ?_⟩
  · exact hrefused hlines (ownOpen_occupied (s := frameDone p s) ht ((anyEyeBlocked_iff s).mpr heyes))
  · refine haccepted ?_
    rw [ownOpen_stopped (s := frameDone p s) ht (hclear hentrance hexit h1 h2 h3 h4) hclosed, openStopped,
      pauseListed_frameDone, hpause, if_pos rfl, okTunnel_change]
    rfl
  · refine haccepted ?_
    rw [ownOpen_stopped (s := frameDone p s) ht (hclear hentrance hexit h1 h2 h3 h4) hclosed, openStopped,
      pauseListed_frameDone, hpause, if_neg Bool.false_ne_true, okTunnel_change]
    rfl
  · exact hrefused hlines (ownOpen_open_loop (s := frameDone p s) ht (hclear hentrance hexit h1 h2 h3 h4) hopen)
  · exact haccepted (ownOpen_starting (s := frameDone p s) ht)
  · exact haccepted (ownOpen_paused (s := frameDone p s) ht)
  · exact haccepted ((ownOpen_draining (s := frameDone p s) ht).trans (okTunnel_change _ _ _))
  · exact haccepted ((ownOpen_running (s := frameDone p s) ht).trans (okTunnel_of (s := frameDone p s) ht))
  · exact hrefused hlines (ownOpen_halted (s := frameDone p s) ht)

/-! ### DRAIN -/

section
variable {s : State}

theorem ownDrain_running_cars (h : s.sup.tunnel = .running) (hcars : s.trk.queue ≠ []) :
    ownDrain s = okTunnel (changeTunnel .draining (.request .drain) s) := by
  simp only [ownDrain, h, List.isEmpty_eq_false_iff.mpr hcars, Bool.false_eq_true, if_false]

theorem ownDrain_running_empty (h : s.sup.tunnel = .running) (hempty : s.trk.queue = []) :
    ownDrain s = okTunnel (changeTunnel .stopped (.request .drain) s) := by
  simp only [ownDrain, h, hempty, List.isEmpty_nil, if_true]

theorem ownDrain_starting {m : TargetMode} (h : s.sup.tunnel = .starting m) :
    ownDrain s = okTunnel (setTunnel (.starting .draining) s) := by simp only [ownDrain, h]

theorem ownDrain_paused {m : TargetMode} (h : s.sup.tunnel = .paused m) :
    ownDrain s = okTunnel (setTunnel (.paused .draining) s) := by simp only [ownDrain, h]

theorem ownDrain_draining (h : s.sup.tunnel = .draining) : ownDrain s = okTunnel s := by simp only [ownDrain, h]

theorem ownDrain_refuses (h : s.sup.tunnel = .stopped ∨ s.sup.tunnel.isHalted = true) :
    ownDrain s = refuse .state s := by
  obtain hstopped | hhalted := h
  · simp only [ownDrain, hstopped]
  · obtain ⟨pre, hpre⟩ := (isHalted_iff _).mp hhalted
    simp only [ownDrain, hpre]

/-! ### STOP -/

theorem ownStop_stopped (h : s.sup.tunnel = .stopped) : ownStop s = (s, answerOk []) := by simp only [ownStop, h]

theorem ownStop_halt_stands (h : s.sup.tunnel.isHalted = true) (hstands : haltStands s = true) :
    ownStop s = refuse .state s := by
  obtain ⟨pre, hpre⟩ := (isHalted_iff _).mp h
  simp only [ownStop, hpre, hstands, if_true]

/-- Past the test of HALTED only the queue decides (R146). -/
theorem ownStop_tests_queue (h : s.sup.tunnel ≠ .stopped)
    (hclear : s.sup.tunnel.isHalted = true → haltStands s = false) : ownStop s = stopIfEmpty s := by
  cases ht : s.sup.tunnel with
  | stopped => exact absurd ht h
  | halted pre =>
    have hstands := hclear ((isHalted_iff _).mpr ⟨pre, ht⟩)
    simp only [ownStop, ht, hstands, Bool.false_eq_true, if_false]
  | starting | running | draining | paused => simp only [ownStop, ht]

theorem stopIfEmpty_occupied (h : s.trk.queue ≠ []) : stopIfEmpty s = refuse .occupied s := by
  simp only [stopIfEmpty, List.isEmpty_eq_false_iff.mpr h, Bool.false_eq_true, if_false]

theorem stopIfEmpty_empty (h : s.trk.queue = []) :
    stopIfEmpty s = (changeTunnel .stopped (.request .stop) (setManual false s), answerOk []) := by
  simp only [stopIfEmpty, h, List.isEmpty_nil, if_true]

/-! ### RESTART -/

theorem ownRestart_not_halted (h : s.sup.tunnel.isHalted = false) : ownRestart s = refuse .state s := by
  cases ht : s.sup.tunnel with
  | halted pre => rw [ht] at h; exact absurd h nofun
  | stopped | starting | running | draining | paused => simp only [ownRestart, ht]

theorem ownRestart_halt_stands (h : s.sup.tunnel.isHalted = true) (hstands : haltStands s = true) :
    ownRestart s = refuse .state s := by
  obtain ⟨pre, hpre⟩ := (isHalted_iff _).mp h
  simp only [ownRestart, hpre, hstands, if_true]

theorem ownRestart_halted {pre : PreHalt} (h : s.sup.tunnel = .halted pre) (hclear : haltStands s = false) :
    ownRestart s = okTunnel (changeTunnel (restartState pre (pauseListed s)) (.request .restart) s) := by
  simp only [ownRestart, h, hclear, Bool.false_eq_true, if_false]

end

/-- The state that a restart of a running or draining tunnel leads to (R151). -/
theorem restartState_of_mode {pre : PreHalt} {m : TargetMode}
    (h : (pre = .running ∧ m = .running) ∨ (pre = .draining ∧ m = .draining)) (paused : Bool) :
    restartState pre paused = if paused then .paused m else .starting m := by
  obtain ⟨rfl, rfl⟩ | ⟨rfl, rfl⟩ := h <;> rfl

/-- Settles O46: the rows of DRAIN, the tests of STOP in their order, and the table of RESTART. -/
theorem drainStopAndRestart : Obligations.DrainStopAndRestart := by
  refine ⟨fun p s h hholder => ?_, fun p s h hholder => ?_, fun s h => ?_⟩
  · have haccepted : ∀ {t fields}, ownDrain (frameDone p s) = (t, answerOk fields) →
        exec (.drain p) s = .next (answeredOk p .drain fields (driveLines t)) :=
      fun ho => congrArg Host.Outcome.next (respond_holder_ok h hholder ho)
    refine ⟨fun ht hcars => ?_, fun ht hempty => ?_, fun m ht => ?_, fun m ht => ?_, fun ht => ?_, fun ht hlines => ?_⟩
    · exact haccepted ((ownDrain_running_cars (s := frameDone p s) ht hcars).trans (okTunnel_change _ _ _))
    · exact haccepted ((ownDrain_running_empty (s := frameDone p s) ht hempty).trans (okTunnel_change _ _ _))
    · exact haccepted (ownDrain_starting (s := frameDone p s) ht)
    · exact haccepted (ownDrain_paused (s := frameDone p s) ht)
    · exact haccepted ((ownDrain_draining (s := frameDone p s) ht).trans (okTunnel_of (s := frameDone p s) ht))
    · exact congrArg Host.Outcome.next
        (respond_holder_refuse h hholder hlines (ownDrain_refuses (s := frameDone p s) ht))
  · have haccepted : ∀ {t fields}, ownStop (frameDone p s) = (t, answerOk fields) →
        exec (.stop p) s = .next (answeredOk p .stop fields (driveLines t)) :=
      fun ho => congrArg Host.Outcome.next (respond_holder_ok h hholder ho)
    have hrefused : ∀ {r}, LinesFollow s → ownStop (frameDone p s) = refuse r (frameDone p s) →
        exec (.stop p) s = .next (refusedWith p .stop r s) :=
      fun hlines ho => congrArg Host.Outcome.next (respond_holder_refuse h hholder hlines ho)
    refine ⟨fun ht => haccepted (ownStop_stopped (s := frameDone p s) ht), fun hhalted hlines hstands => ?_,
      fun ht hclear => ?_⟩
    · exact hrefused hlines
        (ownStop_halt_stands (s := frameDone p s) hhalted ((haltStands_eq_true_iff s).mpr hstands))
    · have hqueue := ownStop_tests_queue (s := frameDone p s) ht
        fun hhalted => (haltStands_eq_false_iff s).mpr (hclear hhalted)
      exact ⟨fun hcars hlines =>
          hrefused hlines (hqueue.trans (stopIfEmpty_occupied (s := frameDone p s) hcars)),
        fun hempty => haccepted (hqueue.trans (stopIfEmpty_empty (s := frameDone p s) hempty))⟩
  · have haccepted : ∀ {t fields}, ownRestart (frameDone .p0 s) = (t, answerOk fields) →
        exec (.restart .p0) s = .next (answeredOk .p0 .restart fields (driveLines t)) :=
      fun ho => congrArg Host.Outcome.next (respond_driven_ok h _ _ ho)
    have hrefused : LinesFollow s → ownRestart (frameDone .p0 s) = refuse .state (frameDone .p0 s) →
        exec (.restart .p0) s = .next (refusedWith .p0 .restart .state s) :=
      fun hlines ho => congrArg Host.Outcome.next (respond_driven_refuse h hlines _ _ ho)
    refine ⟨fun hnot hlines => hrefused hlines (ownRestart_not_halted (s := frameDone .p0 s) hnot),
      fun hhalted hlines hstands => ?_, fun hnone hclosed => ?_⟩
    · exact hrefused hlines
        (ownRestart_halt_stands (s := frameDone .p0 s) hhalted ((haltStands_eq_true_iff s).mpr hstands))
    · have hrestart : ∀ {pre}, s.sup.tunnel = .halted pre → _ := fun {pre} ht =>
        ownRestart_halted (s := frameDone .p0 s) (pre := pre) ht ((haltStands_eq_false_iff s).mpr ⟨hnone, hclosed⟩)
      refine ⟨fun ht => haccepted ((hrestart ht).trans (okTunnel_change _ _ _)), fun pre m ht hmode =>
        ⟨fun hpause => haccepted ?_, fun hpause => haccepted ?_⟩⟩
      · rw [hrestart ht, restartState_of_mode hmode, pauseListed_frameDone, hpause, if_pos rfl, okTunnel_change]
        rfl
      · rw [hrestart ht, restartState_of_mode hmode, pauseListed_frameDone, hpause, if_neg Bool.false_ne_true,
          okTunnel_change]
        rfl

/-! ### PAUSE and RESUME -/

/-- The three states that PAUSE takes to PAUSED, with the target mode that is kept (R147). -/
def Tunnel.HeadsFor (t : Tunnel) (m : TargetMode) : Prop :=
  (t = .running ∧ m = .running) ∨ (t = .draining ∧ m = .draining) ∨ t = .starting m

section
variable {s : State} {m : TargetMode}

theorem pauseTunnel_moves (cause : Cause) (h : s.sup.tunnel.HeadsFor m) :
    pauseTunnel cause s = changeTunnel (.paused m) cause s := by
  obtain ⟨ht, rfl⟩ | ⟨ht, rfl⟩ | ht := h <;> simp only [pauseTunnel, ht]

theorem ownPause_moves (h : s.sup.tunnel.HeadsFor m) :
    ownPause s = okPause (changeTunnel (.paused m) (.request .pause) (setManual true s)) := by
  rw [← pauseTunnel_moves (s := setManual true s) (.request .pause) h]
  obtain ⟨ht, -⟩ | ⟨ht, -⟩ | ht := h <;> simp only [ownPause, ht]

theorem ownPause_paused (h : s.sup.tunnel = .paused m) : ownPause s = okPause (setManual true s) := by
  simp only [ownPause, h]

theorem ownPause_refuses (h : s.sup.tunnel = .stopped ∨ s.sup.tunnel.isHalted = true) :
    ownPause s = refuse .state s := by
  obtain hstopped | hhalted := h
  · simp only [ownPause, hstopped]
  · obtain ⟨pre, hpre⟩ := (isHalted_iff _).mp hhalted
    simp only [ownPause, hpre]

theorem ownResume_leaves (h : s.sup.tunnel = .paused m) (hnone : pauseListed s = false) :
    ownResume s = okPause (changeTunnel (.starting m) (.request .resume) (setManual false s)) := by
  simp only [ownResume, h, hnone, Bool.false_eq_true, if_false]

theorem ownResume_stays (h : s.sup.tunnel = .paused m) (hlisted : pauseListed s = true) :
    ownResume s = okPause (setManual false s) := by
  simp only [ownResume, h, hlisted, if_true]

theorem ownResume_refuses (h : ∀ m, s.sup.tunnel ≠ .paused m) : ownResume s = refuse .state s := by
  cases ht : s.sup.tunnel with
  | paused m => exact absurd ht (h m)
  | stopped | starting | running | draining | halted => simp only [ownResume, ht]

end

/-- Settles O47: PAUSE and RESUME from the states that they move, from PAUSED, and elsewhere. -/
theorem pauseAndResumeKeepTheTarget : Obligations.PauseAndResumeKeepTheTarget := by
  refine ⟨fun p s h hallowed => ?_, fun p s h hallowed => ?_⟩
  · have haccepted : ∀ {t fields}, ownPause (frameDone p s) = (t, answerOk fields) →
        exec (.pause p) s = .next (answeredOk p .pause fields (driveLines t)) :=
      fun ho => congrArg Host.Outcome.next (respond_allowed_ok h hallowed ho)
    refine ⟨fun m ht => ?_, fun m ht => ?_, fun ht hlines => ?_⟩
    · exact haccepted ((ownPause_moves (s := frameDone p s) ht).trans (okPause_change _ _ _))
    · exact haccepted ((ownPause_paused (s := frameDone p s) ht).trans
        (okPause_of (s := setManual true (frameDone p s)) ht rfl))
    · exact congrArg Host.Outcome.next
        (respond_allowed_refuse h hallowed hlines (ownPause_refuses (s := frameDone p s) ht))
  · have haccepted : ∀ {t fields}, ownResume (frameDone p s) = (t, answerOk fields) →
        exec (.resume p) s = .next (answeredOk p .resume fields (driveLines t)) :=
      fun ho => congrArg Host.Outcome.next (respond_allowed_ok h hallowed ho)
    refine ⟨fun m ht hnone => haccepted ?_, fun m ht hlisted => haccepted ?_, fun ht hlines => ?_⟩
    · rw [ownResume_leaves (s := frameDone p s) ht hnone, okPause_change, pauseListed_setManual,
        pauseListed_frameDone, hnone]
      rfl
    · rw [ownResume_stays (s := frameDone p s) ht hlisted, okPause_of (s := setManual false (frameDone p s)) ht rfl,
        pauseListed_setManual, pauseListed_frameDone, hlisted]
      rfl
    · exact congrArg Host.Outcome.next
        (respond_allowed_refuse h hallowed hlines (ownResume_refuses (s := frameDone p s) ht))

end Sys2Proof.Machine
end

