-- ==== Sys2Proof/Proofs/TallyRead.lean ====
section
/-! TALLY_READ (R171 to R173): the state that a take leaves, one lemma for each test and each outcome of the owner, and
the answer of each. -/

namespace Sys2Proof.Machine

/-! ### The copy that a take makes -/

/-- The console's copy under its number, which advances (R171). -/
theorem takeCopy_console (s : State) : takeCopy .p0 s =
    { s with sales.consoleCopy :=
        ⟨some (s.sales.consoleCopy.counter, s.sales.tally), nextCount 255 s.sales.consoleCopy.counter⟩ } := rfl

/-- The office's copy under its number, which advances (R171). -/
theorem takeCopy_office (s : State) : takeCopy .p4 s =
    { s with sales.officeCopy :=
        ⟨some (s.sales.officeCopy.counter, s.sales.tally), nextCount 255 s.sales.officeCopy.counter⟩ } := rfl

/-- The read copies stand apart from the port that the frame came on. -/
@[simp] theorem copyUnit_frameDone (p q : Port) (s : State) : copyUnit p (frameDone q s) = copyUnit p s := rfl

/-! ### The owner's tests in order, then a take or a read -/

section
variable {p : Port} {part : Nat} {take clear : Bool} {s : State}

theorem ownTallyRead_bad (hbad : part = 0 ∨ 3 < part ∨ (clear = true ∧ take = false)) :
    ownTallyRead p part take clear s = refuse .badValue s :=
  if_pos (hbad.imp_left fun hzero => by omega)

section
variable (hlow : 1 ≤ part) (hhigh : part ≤ 3)
include hlow hhigh

/-- A part of the three, and no clear without a take: the operands pass the first test (R171, R172). -/
theorem tallyRead_operands_pass (htake : clear = true → take = true) :
    ¬(part < 1 ∨ 3 < part ∨ (clear = true ∧ take = false)) := by
  rintro (hzero | hmore | ⟨hclear, hread⟩)
  · omega
  · omega
  · exact absurd ((htake hclear).symm.trans hread) nofun

theorem ownTallyRead_console_clear : ownTallyRead .p0 part true true s = refuse .notPermitted s :=
  (if_neg (tallyRead_operands_pass hlow hhigh fun _ => rfl)).trans (if_pos ⟨rfl, rfl⟩)

theorem ownTallyRead_take (hperm : clear = true → p ≠ .p0) : ownTallyRead p part true clear s =
    (if clear then updateTally (fun _ => Tally.zero) (takeCopy p s) else takeCopy p s,
      tallyPart part ((copyUnit p s).counter, s.sales.tally)) := by
  have hpass := tallyRead_operands_pass (clear := clear) hlow hhigh fun _ => rfl
  have hallowed : ¬(clear = true ∧ p = .p0) := fun ⟨hclear, hp⟩ => hperm hclear hp
  rw [ownTallyRead, if_neg hpass, if_neg hallowed, if_pos rfl]

/-- A read is of the copy that the port holds, or finds none (R171, R172). -/
theorem ownTallyRead_read : ownTallyRead p part false false s =
    (copyUnit p s).copy.elim (refuse .notFound s) fun copy => (s, tallyPart part copy) := by
  have hpass := tallyRead_operands_pass (clear := false) (take := false) hlow hhigh nofun
  rw [ownTallyRead, if_neg hpass, if_neg (by simp), if_neg Bool.false_ne_true]
  cases (copyUnit p s).copy <;> rfl

theorem ownTallyRead_read_some {copy : Nat × Tally} (hcopy : (copyUnit p s).copy = some copy) :
    ownTallyRead p part false false s = (s, tallyPart part copy) := by
  rw [ownTallyRead_read hlow hhigh, hcopy, Option.elim]

theorem ownTallyRead_read_none (hcopy : (copyUnit p s).copy = none) :
    ownTallyRead p part false false s = refuse .notFound s := by
  rw [ownTallyRead_read hlow hhigh, hcopy, Option.elim]

end

end

/-! ### The request -/

section
variable {p : Port} {part : Nat} {take clear : Bool} {s : State} (h : Reaches p .tallyRead s)
include h

theorem tallyRead_answers {t : State} {fields : List Byte}
    (ho : ownTallyRead p part take clear (frameDone p s) = (t, answerOk fields)) :
    exec (.tallyRead p part take clear) s = .next (answeredOk p .tallyRead fields t) :=
  congrArg Host.Outcome.next (respond_ok h ho)

theorem tallyRead_refuses {r : Result}
    (ho : ownTallyRead p part take clear (frameDone p s) = refuse r (frameDone p s)) :
    exec (.tallyRead p part take clear) s = .next (refusedWith p .tallyRead r s) :=
  congrArg Host.Outcome.next (respond_refuse h ho)

end

/-- Settles O35: a take from the console and from the office, a read of the copy, and the refusals in their order. -/
theorem tallyReadTakesAndClears : Obligations.TallyReadTakesAndClears := by
  refine ⟨fun part s h hlow hhigh => ?_, fun part clear s h hlow hhigh => ?_,
    fun p part n t s h hlow hhigh hcopy => ?_, fun p part take clear s h hbad => ?_,
    fun part s h hlow hhigh => ?_, fun p part s h hlow hhigh hcopy => ?_⟩
  · have howner := ownTallyRead_take (p := .p0) (clear := false) (s := frameDone .p0 s) hlow hhigh nofun
    rw [takeCopy_console] at howner
    exact tallyRead_answers h howner
  · have howner := ownTallyRead_take (p := .p4) (clear := clear) (s := frameDone .p4 s) hlow hhigh nofun
    rw [takeCopy_office] at howner
    cases clear <;> exact tallyRead_answers h howner
  · rw [← copyUnit_frameDone p p] at hcopy
    exact tallyRead_answers h (ownTallyRead_read_some hlow hhigh hcopy)
  · exact tallyRead_refuses h (ownTallyRead_bad hbad)
  · exact tallyRead_refuses h (ownTallyRead_console_clear hlow hhigh)
  · rw [← copyUnit_frameDone p p] at hcopy
    exact tallyRead_refuses h (ownTallyRead_read_none hlow hhigh hcopy)

end Sys2Proof.Machine
end

