-- ==== Sys2Proof/Proofs/TransmitQueues.lean ====
section
/-! The transmit queue of one port (R177 to R179): what a notice, an answer and the transmitter do to it, when an answer
has a place, and the bounds that each of them keeps. -/

namespace Sys2Proof.Machine

/-! ### Displacing a notice -/

theorem dropFirstNotice_append {pre : List Frame} (hpre : ∀ g ∈ pre, g.isNotice = false) {n : Frame}
    (hn : n.isNotice = true) (post : List Frame) : dropFirstNotice (pre ++ n :: post) = some (pre ++ post) := by
  induction pre with
  | nil => simp [dropFirstNotice, hn]
  | cons g pre ih =>
    rw [List.forall_mem_cons] at hpre
    simp [dropFirstNotice, hpre.1, ih hpre.2]

/-- The frames without their first notice are those before it and those after it. -/
theorem dropFirstNotice_eq_some {l r : List Frame} (h : dropFirstNotice l = some r) :
    ∃ pre n post, l = pre ++ n :: post ∧ n.isNotice = true ∧ r = pre ++ post := by
  induction l generalizing r with
  | nil => exact absurd h nofun
  | cons g l ih =>
    unfold dropFirstNotice at h
    split at h
    · next hg => exact ⟨[], g, l, rfl, hg, (Option.some.inj h).symm⟩
    · obtain ⟨r', hr', rfl⟩ := Option.map_eq_some_iff.mp h
      obtain ⟨pre, n, post, rfl, hn, rfl⟩ := ih hr'
      exact ⟨g :: pre, n, post, rfl, hn, rfl⟩

theorem dropFirstNotice_isSome_iff (l : List Frame) :
    (dropFirstNotice l).isSome = true ↔ ∃ n ∈ l, n.isNotice = true := by
  induction l with
  | nil => simp [dropFirstNotice]
  | cons g l ih => cases hg : g.isNotice <;> simp [dropFirstNotice, hg, ih]

/-- A displaced notice is a notice of the queue, and not the frame in transmission (R179). -/
theorem displaceNotice_eq_some {u : PortUnit} {r : List Frame} (h : displaceNotice u = some r) :
    ∃ pre n post, u.tx = pre ++ n :: post ∧ n.isNotice = true ∧ r = pre ++ post ∧ (u.sending = true → pre ≠ []) := by
  unfold displaceNotice at h
  split at h
  · split at h
    · exact absurd h nofun
    · next f rest htx =>
      obtain ⟨r', hr', rfl⟩ := Option.map_eq_some_iff.mp h
      obtain ⟨pre, n, post, rfl, hn, rfl⟩ := dropFirstNotice_eq_some hr'
      exact ⟨f :: pre, n, post, htx, hn, rfl, fun _ => List.cons_ne_nil _ _⟩
  · next hidle =>
    obtain ⟨pre, n, post, htx, hn, hr⟩ := dropFirstNotice_eq_some h
    exact ⟨pre, n, post, htx, hn, hr, fun hsending => absurd hsending hidle⟩

/-- The oldest notice that is not in transmission is displaced (R179). -/
theorem displaceNotice_append {u : PortUnit} {pre post : List Frame} {n : Frame} (htx : u.tx = pre ++ n :: post)
    (hn : n.isNotice = true) (hhead : u.sending = true → pre ≠ [])
    (hpre : ∀ g ∈ (if u.sending then pre.tail else pre), g.isNotice = false) :
    displaceNotice u = some (pre ++ post) := by
  unfold displaceNotice
  cases hsending : u.sending with
  | false =>
    rw [hsending] at hpre
    rw [if_neg Bool.false_ne_true, htx]
    exact dropFirstNotice_append hpre hn post
  | true =>
    obtain ⟨f, pre, rfl⟩ := List.exists_cons_of_ne_nil (hhead hsending)
    rw [hsending] at hpre
    rw [if_pos rfl, htx]
    exact congrArg (Option.map (f :: ·)) (dropFirstNotice_append hpre hn post)

theorem displaceNotice_isSome_iff (u : PortUnit) :
    (displaceNotice u).isSome = true ↔ ∃ n ∈ (if u.sending then u.tx.tail else u.tx), n.isNotice = true := by
  unfold displaceNotice
  cases u.sending with
  | false => exact dropFirstNotice_isSome_iff u.tx
  | true => cases u.tx <;> simp [dropFirstNotice_isSome_iff]

/-! ### Notices -/

theorem noticeFrame_isNotice (n : Notice) : (noticeFrame n).isNotice = true := by cases n <;> rfl

theorem enqueueNotice_of_room (f : Frame) {u : PortUnit} (hlen : u.tx.length < 8)
    (hnotices : (u.tx.filter Frame.isNotice).length < 7) : enqueueNotice f u = { u with tx := u.tx ++ [f] } :=
  if_pos ⟨hlen, hnotices⟩

theorem enqueueNotice_of_full (f : Frame) {u : PortUnit}
    (h : 8 ≤ u.tx.length ∨ 7 ≤ (u.tx.filter Frame.isNotice).length) :
    enqueueNotice f u = { u with overflow := true } :=
  if_neg fun ⟨hlen, hnotices⟩ => h.elim (Nat.not_le_of_lt hlen) (Nat.not_le_of_lt hnotices)

/-! ### Answers -/

/-- No answer to a request kind or to an unknown kind below 0x70 is of a notice's kind (R181, R200). -/
theorem answerFrame_isNotice {kind : Nat} (h : kind ≤ 0x6F) (a : Answer) : (answerFrame kind a).isNotice = false := by
  simp only [answerFrame, Frame.isNotice, BitVec.toNat_ofNat, decide_eq_false_iff_not]
  omega

theorem kindByte_le (k : ReqKind) : kindByte k ≤ 0x6F := by cases k <;> decide

theorem roomForAnswer_iff (u : PortUnit) : roomForAnswer u = true ↔
    u.tx.length < 8 ∨ ∃ n ∈ (if u.sending then u.tx.tail else u.tx), n.isNotice = true := by
  rw [roomForAnswer, Bool.or_eq_true, decide_eq_true_iff, displaceNotice_isSome_iff]
  rfl

theorem enqueueAnswer_of_room (f : Frame) {u : PortUnit} (h : u.tx.length < 8) :
    enqueueAnswer f u = { u with tx := u.tx ++ [f] } := if_pos h

theorem enqueueAnswer_displaces (f : Frame) {u : PortUnit} {r : List Frame} (hfull : 8 ≤ u.tx.length)
    (h : displaceNotice u = some r) : enqueueAnswer f u = { u with tx := r ++ [f], overflow := true } := by
  have hroom : ¬u.tx.length < Config.txMax := Nat.not_lt_of_le hfull
  rw [enqueueAnswer, if_neg hroom, h]

theorem enqueueAnswer_no_room (f : Frame) {u : PortUnit} (hfull : 8 ≤ u.tx.length) (h : displaceNotice u = none) :
    enqueueAnswer f u = u := by
  have hroom : ¬u.tx.length < Config.txMax := Nat.not_lt_of_le hfull
  rw [enqueueAnswer, if_neg hroom, h]

/-- An answer with a place is the last frame of its queue, and sets the flag exactly where it displaces a notice
(R179). -/
theorem enqueueAnswer_at_tail (f : Frame) {u : PortUnit} (h : roomForAnswer u = true) :
    ∃ rest, (enqueueAnswer f u).tx = rest ++ [f] ∧
      (enqueueAnswer f u).overflow = if u.tx.length < 8 then u.overflow else true := by
  by_cases hlen : u.tx.length < 8
  · rw [enqueueAnswer_of_room f hlen, if_pos hlen]
    exact ⟨u.tx, rfl, rfl⟩
  · have hsome : (displaceNotice u).isSome = true := by
      rw [roomForAnswer_iff, or_iff_right hlen] at h
      exact (displaceNotice_isSome_iff u).mpr h
    obtain ⟨r, hr⟩ := Option.isSome_iff_exists.mp hsome
    rw [enqueueAnswer_displaces f (Nat.le_of_not_lt hlen) hr, if_neg hlen]
    exact ⟨r, rfl, rfl⟩

/-! ### The bounds of a queue -/

/-- A change of a port's unit that keeps the bounds of its queue and the place of an answer. -/
structure UnitKept (u v : PortUnit) : Prop where
  bounded : PortBounded u → PortBounded v
  room : roomForAnswer u = true → roomForAnswer v = true

theorem UnitKept.refl (u : PortUnit) : UnitKept u u := ⟨id, id⟩

theorem UnitKept.trans {u v w : PortUnit} (h : UnitKept u v) (k : UnitKept v w) : UnitKept u w :=
  ⟨fun hu => k.bounded (h.bounded hu), fun hu => k.room (h.room hu)⟩

/-- The bounds and the place speak of the queue and the transmitter alone. -/
theorem UnitKept.of_eq {u v : PortUnit} (htx : v.tx = u.tx := by rfl) (hsending : v.sending = u.sending := by rfl) :
    UnitKept u v := by
  refine ⟨fun h => ?_, fun h => ?_⟩
  · rw [PortBounded, htx, hsending]
    exact h
  · rw [roomForAnswer_iff, htx, hsending]
    exact (roomForAnswer_iff u).mp h

theorem enqueueNotice_bounded (f : Frame) {u : PortUnit} (hu : PortBounded u) : PortBounded (enqueueNotice f u) := by
  obtain ⟨hlen, hnotices, hsending⟩ := hu
  unfold enqueueNotice
  split
  · next h =>
    have hone : ([f].filter Frame.isNotice).length ≤ 1 := List.length_filter_le _ _
    have hroom : u.tx.length < 8 ∧ (u.tx.filter Frame.isNotice).length < 7 := h
    refine ⟨?_, ?_, fun _ => by simp⟩
    · rw [List.length_append, List.length_singleton]
      omega
    · rw [List.filter_append, List.length_append]
      omega
  · exact ⟨hlen, hnotices, hsending⟩

/-- A notice that joins a queue leaves a place for an answer: it can be displaced itself (R178, R179). -/
theorem enqueueNotice_room {f : Frame} (hf : f.isNotice = true) {u : PortUnit} (hu : roomForAnswer u = true) :
    roomForAnswer (enqueueNotice f u) = true := by
  rw [roomForAnswer_iff] at hu ⊢
  unfold enqueueNotice
  split
  · by_cases hempty : u.tx = []
    · left
      simp [hempty]
    · right
      refine ⟨f, ?_, hf⟩
      dsimp only
      split
      · rw [List.tail_append_of_ne_nil hempty]
        simp
      · simp
  · exact hu

theorem enqueueNotice_kept {f : Frame} (hf : f.isNotice = true) (u : PortUnit) : UnitKept u (enqueueNotice f u) :=
  ⟨enqueueNotice_bounded f, enqueueNotice_room hf⟩

/-- An answer takes the place of a notice in a full queue, so neither count rises above its bound (R177 to R179). -/
theorem enqueueAnswer_bounded {f : Frame} (hf : f.isNotice = false) {u : PortUnit} (hu : PortBounded u) :
    PortBounded (enqueueAnswer f u) := by
  obtain ⟨hlen, hnotices, hsending⟩ := hu
  by_cases hroom : u.tx.length < 8
  · rw [enqueueAnswer_of_room f hroom]
    refine ⟨?_, ?_, fun _ => by simp⟩
    · rw [List.length_append, List.length_singleton]
      omega
    · simpa [hf] using hnotices
  · cases hdisplaced : displaceNotice u with
    | none => rw [enqueueAnswer_no_room f (Nat.le_of_not_lt hroom) hdisplaced]; exact ⟨hlen, hnotices, hsending⟩
    | some r =>
      obtain ⟨pre, n, post, htx, hn, rfl, -⟩ := displaceNotice_eq_some hdisplaced
      rw [htx] at hlen hnotices
      rw [enqueueAnswer_displaces f (Nat.le_of_not_lt hroom) hdisplaced]
      refine ⟨?_, ?_, fun _ => by simp⟩
      · simp only [List.length_append, List.length_cons, List.length_nil] at hlen ⊢
        omega
      · simp only [List.filter_append, List.filter_cons, hn, hf, if_true, List.filter_nil, List.length_append,
          List.length_cons, Bool.false_eq_true, if_false, List.append_nil] at hnotices ⊢
        omega

theorem startFrame_bounded {u : PortUnit} (hu : PortBounded u) : PortBounded (startFrame u) := by
  obtain ⟨hlen, hnotices, hsending⟩ := hu
  unfold startFrame
  split
  · next h => exact ⟨hlen, hnotices, fun _ => h.2⟩
  · exact ⟨hlen, hnotices, hsending⟩

/-- A sent frame leaves, and the transmitter takes the next head where there is one (R177). -/
theorem endFrame_bounded {u : PortUnit} (hu : PortBounded u) : PortBounded (endFrame u) := by
  obtain ⟨hlen, hnotices, hsending⟩ := hu
  unfold endFrame
  split
  · refine ⟨(List.tail_sublist u.tx).length_le.trans hlen,
      ((List.tail_sublist u.tx).filter _).length_le.trans hnotices, fun h => ?_⟩
    simpa using h
  · exact ⟨hlen, hnotices, hsending⟩

theorem idle_bounded : PortBounded PortUnit.idle := by unfold PortBounded; decide

end Sys2Proof.Machine
end

