-- ==== Sys2Proof/Proofs/PortsKept.lean ====
section
/-! What every command does to the five ports (R177 to R180). The shared operations, the events and the owners of
requests only queue notices, which keeps the bounds of each transmit queue and the place of an answer (`PortsKept`). A request is
`respond` around such an owner (`runRequest_responds`), so the answer that follows finds its place. -/

namespace Sys2Proof.Machine

/-! ### Changes of the ports -/

/-- At every port the bounds of the queue and the place of an answer are kept. -/
def PortsKept (s t : State) : Prop := ∀ p, UnitKept (s.ports.get p) (t.ports.get p)

theorem PortsKept.refl (s : State) : PortsKept s s := fun _ => .refl _

theorem PortsKept.trans {a b c : State} (h : PortsKept a b) (k : PortsKept b c) : PortsKept a c :=
  fun p => (h p).trans (k p)

theorem PortsKept.ite {s a b : State} {p : Prop} [Decidable p] (ha : PortsKept s a) (hb : PortsKept s b) :
    PortsKept s (if p then a else b) := by
  split <;> assumption

theorem PortsKept.pair_ite {s : State} {α : Type} {a b : State × α} {p : Prop} [Decidable p] (ha : PortsKept s a.1)
    (hb : PortsKept s b.1) : PortsKept s (if p then a else b).1 := by
  split <;> assumption

/-- A change of records outside the ports. -/
theorem PortsKept.of_eq {s t : State} (h : t.ports = s.ports := by rfl) : PortsKept s t := fun p => by
  rw [h]
  exact .refl _

theorem PortsKept.ofSeq {s t : State} (h : SeqOnly s t) : PortsKept s t := .of_eq (by rw [h.1])

/-- A change of one port. -/
theorem updatePort_portsKept {f : PortUnit → PortUnit} (hf : ∀ u, UnitKept u (f u)) (p : Port) (s : State) :
    PortsKept s (updatePort p f s) := by
  intro q
  by_cases hpq : p = q
  · subst hpq
    simpa using hf _
  · simpa [PerPort.get_set_ne _ _ _ _ hpq] using UnitKept.refl _

theorem foldl_portsKept {α : Type} (f : State → α → State) (hf : ∀ s x, PortsKept s (f s x)) (l : List α) (s : State) :
    PortsKept s (l.foldl f s) :=
  foldl_keeps PortsKept .refl (fun _ _ _ => .trans) f hf l s

theorem notify_portsKept (p : Port) (n : Notice) (s : State) : PortsKept s (notify p n s) :=
  updatePort_portsKept (enqueueNotice_kept (noticeFrame_isNotice n)) p s

theorem notifyBoth_portsKept (n : Notice) (s : State) : PortsKept s (notifyBoth n s) :=
  (notify_portsKept .p0 n s).trans (notify_portsKept .p4 n _)

/-! ### The shared operations queue notices alone -/

theorem arbitrate_portsKept (s : State) : PortsKept s (arbitrate s) := by
  obtain hstays | ⟨l, t, -, -, hgrants⟩ := arbitrate_cases s
  · rw [hstays]
    exact .refl s
  · rw [hgrants]
    exact (PortsKept.of_eq).trans (notify_portsKept _ _ _)

theorem withdrawGrant_portsKept (r : WithdrawReason) (s : State) : PortsKept s (withdrawGrant r s) := by
  have hclear : PortsKept s (clearGrant s) := .of_eq
  unfold withdrawGrant
  split
  · exact .refl s
  · exact (hclear.trans (notify_portsKept _ _ _)).trans (arbitrate_portsKept _)

theorem changeTunnel_portsKept (new : Tunnel) (cause : Cause) (s : State) : PortsKept s (changeTunnel new cause s) := by
  have hannounced : PortsKept s (announced new cause s) := (PortsKept.of_eq).trans (notifyBoth_portsKept _ _)
  rw [changeTunnel_eq]
  exact (hannounced.trans (.ofSeq (sequencerAt_seqOnly _ _ _))).trans
    (.ite (arbitrate_portsKept _) (withdrawGrant_portsKept _ _))

theorem pauseTunnel_portsKept (cause : Cause) (s : State) : PortsKept s (pauseTunnel cause s) := by
  unfold pauseTunnel
  split
  · exact changeTunnel_portsKept _ _ s
  · exact changeTunnel_portsKept _ _ s
  · exact changeTunnel_portsKept _ _ s
  all_goals exact .refl s

theorem haltTunnel_portsKept (cause : Cause) (s : State) : PortsKept s (haltTunnel cause s) := by
  cases h : s.sup.tunnel.isHalted with
  | true => rw [haltTunnel_of_halted cause h]; exact .refl s
  | false =>
    rw [haltTunnel_of_not_halted cause h]
    exact (PortsKept.of_eq (t := countHalt s)).trans (changeTunnel_portsKept _ _ _)

theorem classEffect_portsKept (c : IncidentClass) (number : Nat) (s : State) :
    PortsKept s (classEffect c number s) := by
  cases c with
  | notice => exact .refl s
  | pause => exact pauseTunnel_portsKept _ s
  | halt => exact haltTunnel_portsKept _ s

/-- A change of the incident list, its notice and the effect of the class (R155 to R157). -/
theorem listed_portsKept {s t : State} (c : IncidentClass) (number : Nat) (n : Notice)
    (h : t.ports = s.ports := by rfl) : PortsKept s (classEffect c number (notifyBoth n t)) :=
  ((PortsKept.of_eq h).trans (notifyBoth_portsKept n t)).trans (classEffect_portsKept c number _)

theorem mergeNewest_portsKept (k c : IncidentClass) (q : Raise) (s : State) : PortsKept s (mergeNewest k c q s) := by
  unfold mergeNewest
  split
  · exact .refl s
  · exact listed_portsKept _ _ _

theorem listNew_portsKept (q : Raise) (c : IncidentClass) (s : State) : PortsKept s (listNew q c s) :=
  listed_portsKept _ _ _

theorem displace_portsKept (k c : IncidentClass) (q : Raise) (s : State) : PortsKept s (displace k c q s) := by
  have hset : ∀ l, PortsKept s (setIncidents l s) := fun _ => .of_eq
  unfold displace
  split
  · exact .refl s
  · exact ((hset _).trans (notifyBoth_portsKept _ _)).trans (listNew_portsKept _ _ _)

theorem raiseOverflow_portsKept (q : Raise) (c : IncidentClass) (s : State) : PortsKept s (raiseOverflow q c s) := by
  have hcount : PortsKept s { s with free := s.free + 1 } := .of_eq
  cases c with
  | notice => exact hcount.trans (notifyBoth_portsKept _ _)
  | pause =>
    exact .ite (displace_portsKept _ _ _ s) (.ite (mergeNewest_portsKept _ _ _ s) (mergeNewest_portsKept _ _ _ s))
  | halt =>
    exact .ite (displace_portsKept _ _ _ s) (.ite (mergeNewest_portsKept _ _ _ s) (displace_portsKept _ _ _ s))

theorem raiseIncident_portsKept (q : Raise) (s : State) : PortsKept s (raiseIncident q s) := by
  unfold raiseIncident
  dsimp only
  split
  · exact listed_portsKept _ _ _
  · exact .ite (listNew_portsKept _ _ s) (raiseOverflow_portsKept _ _ s)

theorem removeIncidents_portsKept (p : Incident → Bool) (s : State) : PortsKept s (removeIncidents p s) := by
  have hset : ∀ l, PortsKept s (setIncidents l s) := fun _ => .of_eq
  have htell : ∀ gone u, PortsKept u (tellRemoved gone u) :=
    fun gone u => foldl_portsKept _ (fun _ _ => notifyBoth_portsKept _ _) gone u
  have hafter : ∀ gone u, PortsKept u (afterRemoval gone u) := fun gone u => by
    unfold afterRemoval
    split
    · exact .ite (.refl u) (changeTunnel_portsKept _ _ u)
    · exact .refl u
  exact ((hset _).trans (htell _ _)).trans (hafter _ _)

theorem Move.portsKept {s t : State} (h : Move s t) : PortsKept s t := by
  cases h with
  | quiet h => exact .of_eq h.ports
  | notify p n => exact notify_portsKept p n s
  | arbitrate => exact arbitrate_portsKept s
  | withdraw r => exact withdrawGrant_portsKept r s
  | consume => exact .of_eq
  | raise q => exact raiseIncident_portsKept q s
  | remove p => exact removeIncidents_portsKept p s
  | drain => exact .ite (changeTunnel_portsKept _ _ s) (.refl s)

/-- The events of the tunnel, and the requests that are sequences of moves, queue notices alone. -/
theorem Evolves.portsKept {s t : State} (h : Evolves s t) : PortsKept s t :=
  h.keeps (P := PortsKept s) (fun _ _ hmove hs => hs.trans hmove.portsKept) (.refl s)

theorem startExpired_portsKept (s : State) : PortsKept s (startExpired s) := by
  unfold startExpired
  split
  · exact changeTunnel_portsKept _ _ s
  · exact .refl s

theorem finishWrite_portsKept (verified : Bool) (s : State) : PortsKept s (finishWrite verified s) := by
  unfold finishWrite
  split
  · exact .refl s
  · exact .ite ((PortsKept.of_eq).trans (notify_portsKept _ _ _)) ((PortsKept.of_eq).trans (notify_portsKept _ _ _))

/-! ### The owners of requests -/

theorem ownTunnelStatus_portsKept (p : Port) (s : State) : PortsKept s (ownTunnelStatus p s).1 :=
  updatePort_portsKept (fun _ => .of_eq) p s

theorem ownLaneStatus_portsKept (p : Port) (lane : Option Nat) (s : State) :
    PortsKept s (ownLaneStatus p lane s).1 := by
  unfold ownLaneStatus
  split
  · exact .refl s
  · exact .of_eq

theorem ownTallyRead_portsKept (p : Port) (part : Nat) (take clear : Bool) (s : State) :
    PortsKept s (ownTallyRead p part take clear s).1 := by
  have htake : PortsKept s (takeCopy p s) := .ite .of_eq .of_eq
  have hclear : ∀ u, PortsKept u (updateTally (fun _ => Tally.zero) u) := fun _ => .of_eq
  unfold ownTallyRead
  refine .pair_ite (.refl s) (.pair_ite (.refl s) (.pair_ite (.ite (htake.trans (hclear _)) htake) ?_))
  split <;> exact .refl s

theorem ownRestart_portsKept (s : State) : PortsKept s (ownRestart s).1 := by
  unfold ownRestart okTunnel
  split
  · exact .pair_ite (.refl s) (changeTunnel_portsKept _ _ s)
  all_goals exact .refl s

theorem ownClaim_portsKept (p : Port) (s : State) : PortsKept s (ownClaim p s).1 := by
  have htell : PortsKept s (if s.sup.holder = some .p4 then notify .p4 (.controlLost .p0) s else s) :=
    .ite (notify_portsKept _ _ s) (.refl s)
  have hhold : ∀ h u, PortsKept u (setHolder h u) := fun _ _ => .of_eq
  exact .pair_ite (htell.trans (hhold _ _)) (.pair_ite (.refl s) (hhold _ s))

theorem setTunnel_portsKept (t : Tunnel) (s : State) : PortsKept s (setTunnel t s) := .of_eq

theorem setManual_portsKept (x : Bool) (s : State) : PortsKept s (setManual x s) := .of_eq

theorem ownOpen_portsKept (s : State) : PortsKept s (ownOpen s).1 := by
  unfold ownOpen okTunnel
  split
  · exact .pair_ite (.refl s) (.pair_ite (changeTunnel_portsKept _ _ s) (.refl s))
  · exact setTunnel_portsKept _ s
  · exact setTunnel_portsKept _ s
  · exact changeTunnel_portsKept .running (.request .openTunnel) s
  all_goals exact .refl s

theorem ownDrain_portsKept (s : State) : PortsKept s (ownDrain s).1 := by
  unfold ownDrain okTunnel
  split
  · exact changeTunnel_portsKept _ _ s
  · exact setTunnel_portsKept _ s
  · exact setTunnel_portsKept _ s
  all_goals exact .refl s

theorem ownStop_portsKept (s : State) : PortsKept s (ownStop s).1 := by
  have hchange : PortsKept s (changeTunnel .stopped (.request .stop) (setManual false s)) :=
    (setManual_portsKept _ s).trans (changeTunnel_portsKept _ _ _)
  have hstop : PortsKept s (stopIfEmpty s).1 := by
    unfold stopIfEmpty
    split
    · dsimp only
      exact hchange
    · exact .refl s
  unfold ownStop
  split
  · exact .refl s
  · exact .pair_ite (.refl s) hstop
  all_goals exact hstop

theorem ownPause_portsKept (s : State) : PortsKept s (ownPause s).1 := by
  have hpause : PortsKept s (pauseTunnel (.request .pause) (setManual true s)) :=
    (setManual_portsKept _ s).trans (pauseTunnel_portsKept _ _)
  unfold ownPause okPause
  split
  · exact hpause
  · exact hpause
  · exact hpause
  · exact setManual_portsKept _ s
  all_goals exact .refl s

theorem ownResume_portsKept (s : State) : PortsKept s (ownResume s).1 := by
  unfold ownResume okPause
  split
  · exact .pair_ite (setManual_portsKept _ s)
      ((setManual_portsKept false s).trans (changeTunnel_portsKept (.starting _) (.request .resume) _))
  all_goals exact .refl s

theorem ownDefinePlan_portsKept (plan : Nat) (name : List Nat) (price cls : Nat) (list : List RawPair) (s : State) :
    PortsKept s (ownDefinePlan plan name price cls list s).1 := by
  have hstore : ∀ i q l, PortsKept s (storePlan i q l s) := fun _ _ _ => .of_eq
  unfold ownDefinePlan
  refine .pair_ite (.refl s) ?_
  split
  · exact .refl s
  · exact .pair_ite (.refl s) (.pair_ite (.refl s) (.pair_ite (.refl s) (.pair_ite (.refl s) (hstore _ _ _))))

theorem ownErasePlan_portsKept (plan : Nat) (s : State) : PortsKept s (ownErasePlan plan s).1 := by
  unfold ownErasePlan
  refine .pair_ite (.refl s) ?_
  split
  · exact .refl s
  · split <;> exact .of_eq

theorem ownPublish_portsKept (plan : Nat) (s : State) : PortsKept s (ownPublish plan s).1 := by
  unfold ownPublish
  refine .pair_ite (.refl s) ?_
  split
  · exact .refl s
  · split <;> exact .of_eq

theorem ownWithdraw_portsKept (plan : Nat) (s : State) : PortsKept s (ownWithdraw plan s).1 := by
  unfold ownWithdraw
  refine .pair_ite (.refl s) ?_
  split
  · exact .refl s
  · split <;> exact .of_eq

theorem ownSetService_portsKept (code presence price limit : Nat) (s : State) :
    PortsKept s (ownSetService code presence price limit s).1 := by
  unfold ownSetService
  refine .pair_ite (.refl s) ?_
  split <;> exact .of_eq

theorem ownSetResponse_portsKept (kind cls : Nat) (s : State) : PortsKept s (ownSetResponse kind cls s).1 := by
  unfold ownSetResponse
  refine .pair_ite (.refl s) ?_
  split
  · exact .pair_ite .of_eq (.refl s)
  · exact .refl s

theorem ownIssueCredit_portsKept (value plan : Nat) (s : State) : PortsKept s (ownIssueCredit value plan s).1 := by
  unfold ownIssueCredit
  exact .pair_ite (.refl s) .of_eq

theorem ownSave_portsKept (s : State) : PortsKept s (ownSave s).1 := .pair_ite (.refl s) .of_eq

/-! ### A request is `respond` around its owner -/

/-- A command that is a request is handled on its port by an owner that queues notices alone (R180). -/
def Responds (c : Instr) : Prop :=
  ∀ p, requestPort c = some p → ∃ (k : ReqKind) (owner : State → State × Answer), kindOf c = some k ∧
    (∀ s, PortsKept s (owner s).1) ∧ ∀ s, runRequest c s = respond p k (formFits c) owner s

section
variable {c : Instr} {p : Port} {k : ReqKind} {owner : State → State × Answer}

theorem Responds.of_owner (ho : ∀ s, PortsKept s (owner s).1)
    (hrun : ∀ s, runRequest c s = respond p k (formFits c) owner s := by intro _; rfl)
    (hkind : kindOf c = some k := by rfl) (hport : requestPort c = some p := by rfl) : Responds c := by
  intro q hq
  obtain rfl := Option.some.inj (hport.symm.trans hq)
  exact ⟨k, owner, hkind, ho, hrun⟩

/-- An owner that reads and changes nothing. -/
theorem Responds.of_reading {f : State → Answer}
    (hrun : ∀ s, runRequest c s = respond p k (formFits c) (reading f) s := by intro _; rfl)
    (hkind : kindOf c = some k := by rfl) (hport : requestPort c = some p := by rfl) : Responds c :=
  .of_owner .refl hrun hkind hport

/-- An owner whose effect ends with the output lines following the state. -/
theorem Responds.of_driven (ho : ∀ s, PortsKept s (owner s).1)
    (hrun : ∀ s, runRequest c s = respond p k (formFits c) (driven owner) s := by intro _; rfl)
    (hkind : kindOf c = some k := by rfl) (hport : requestPort c = some p := by rfl) : Responds c :=
  .of_owner (fun s => (ho s).trans .of_eq) hrun hkind hport

/-- An owner that is a sequence of moves. -/
theorem Responds.of_evolves (ho : ∀ s, Evolves s (owner s).1)
    (hrun : ∀ s, runRequest c s = respond p k (formFits c) (driven owner) s := by intro _; rfl)
    (hkind : kindOf c = some k := by rfl) (hport : requestPort c = some p := by rfl) : Responds c :=
  .of_driven (fun s => (ho s).portsKept) hrun hkind hport

/-- An owner that only the control holder reaches (R162). -/
theorem Responds.of_holder (ho : ∀ s, PortsKept s (owner s).1)
    (hrun : ∀ s, runRequest c s = respond p k (formFits c) (driven (holderOnly p owner)) s := by intro _; rfl)
    (hkind : kindOf c = some k := by rfl) (hport : requestPort c = some p := by rfl) : Responds c :=
  .of_driven (fun s => .pair_ite (ho s) (.refl s)) hrun hkind hport

/-- An owner that the console and the control holder reach (R147, R149). -/
theorem Responds.of_holder_or_console (ho : ∀ s, PortsKept s (owner s).1)
    (hrun : ∀ s, runRequest c s = respond p k (formFits c) (driven (holderOrConsole p owner)) s := by intro _; rfl)
    (hkind : kindOf c = some k := by rfl) (hport : requestPort c = some p := by rfl) : Responds c :=
  .of_driven (fun s => .pair_ite (ho s) (.refl s)) hrun hkind hport

end

theorem runRequest_responds (c : Instr) : Responds c := by
  cases c with
  | tunnelStatus q => exact .of_owner (ownTunnelStatus_portsKept q)
  | carList q form => exact .of_reading (hkind := kindOf_carList q form)
  | stationStatus q station => exact .of_reading (hkind := kindOf_stationStatus q station)
  | incidentList | creditList | planListSummary | planListPlan | planListService | quote => exact .of_reading
  | laneStatus q lane => exact .of_owner (ownLaneStatus_portsKept q lane)
  | tallyRead q part take clear => exact .of_owner (ownTallyRead_portsKept q part take clear)
  | sell q lane buy ref => exact .of_evolves (ownSell_evolves q lane buy ref)
  | void q sale => exact .of_evolves (ownVoid_evolves q sale)
  | addService q sale code level => exact .of_evolves (ownAddService_evolves q sale code level)
  | attachLane q tag lane => exact .of_evolves (ownAttachLane_evolves tag lane)
  | attachNewSale q tag buy ref => exact .of_evolves (ownAttachNewSale_evolves tag buy ref)
  | ackIncident q n => exact .of_evolves (ownAckIncident_evolves n)
  | ackIncidentAll q => exact .of_evolves (owner := ownAckAll) fun s => removeIncidents_evolves _ s
  | restart q => exact .of_driven ownRestart_portsKept
  | laneReset q l => exact .of_evolves (ownLaneReset_evolves l)
  | laneEnable q l => exact .of_evolves (ownLaneEnable_evolves l)
  | laneDisable q l => exact .of_evolves (ownLaneDisable_evolves l)
  | tunnelClear q => exact .of_evolves ownTunnelClear_evolves
  | stationOff q i => exact .of_evolves (ownStationOff_evolves i)
  | stationOn q i => exact .of_evolves (ownStationOn_evolves i)
  | stationReset q i => exact .of_evolves (ownStationReset_evolves i)
  | claim q => exact .of_owner (ownClaim_portsKept q)
  | yield q => exact .of_owner (owner := holderOnly q ownYield) fun s => .pair_ite .of_eq (.refl s)
  | openTunnel q => exact .of_holder ownOpen_portsKept
  | drain q => exact .of_holder ownDrain_portsKept
  | stop q => exact .of_holder ownStop_portsKept
  | pause q => exact .of_holder_or_console ownPause_portsKept
  | resume q => exact .of_holder_or_console ownResume_portsKept
  | forceSpeed q cls => exact .of_holder (owner := ownForceSpeed cls) fun _ => .of_eq
  | releaseSpeed q => exact .of_holder (owner := ownReleaseSpeed) fun _ => .of_eq
  | definePlan q plan name price cls list => exact .of_owner (ownDefinePlan_portsKept plan name price cls list)
  | erasePlan q n => exact .of_owner (ownErasePlan_portsKept n)
  | publish q n => exact .of_owner (ownPublish_portsKept n)
  | withdraw q n => exact .of_owner (ownWithdraw_portsKept n)
  | setService q code presence price limit => exact .of_owner (ownSetService_portsKept code presence price limit)
  | setStation q i r => exact .of_evolves (ownSetStation_evolves i r)
  | setConstants q k => exact .of_evolves (ownSetConstants_evolves k)
  | setResponse q kind cls => exact .of_owner (ownSetResponse_portsKept kind cls)
  | issueCredit q value plan => exact .of_owner (ownIssueCredit_portsKept value plan)
  | save q => exact .of_owner ownSave_portsKept
  | _ => exact fun _ hport => absurd hport nofun

end Sys2Proof.Machine
end

