-- ==== Sys2Proof/Proofs/TransmitBounds.lean ====
section
/-! The bounds of the transmit queues under every command (R177 to R179), and the answer of a request: without a place
the frame is discarded unhandled, with one it is answered at the tail of its queue. -/

namespace Sys2Proof.Machine

/-! ### The outcomes of a request -/

section
variable {p : Port} {k : ReqKind} {form : Bool} {owner : State → State × Answer} {s : State}

theorem respond_held (h : s.held = true) : respond p k form owner s = s := by simp [respond, h]

/-- Without a place for its answer a request is discarded (R179). -/
theorem respond_no_room (hrun : s.held = false) (hroom : roomForAnswer (s.ports.get p) = false) :
    respond p k form owner s = frameDone p s := by
  simp [respond, hrun, hroom]

/-- A kind that the role forbids is refused before its form is read (R180, R182). -/
theorem respond_not_permitted (hrun : s.held = false) (hroom : roomForAnswer (s.ports.get p) = true)
    (hperm : permitted k p = false) : respond p k form owner s = refusedWith p k .notPermitted s := by
  simp [respond, hrun, hroom, hperm, refusedWith]

/-- A payload that fits no form is refused (R180). -/
theorem respond_bad_form (h : Reaches p k s) : respond p k false owner s = refusedWith p k .badValue s := by
  obtain ⟨hrun, hroom, hperm⟩ := h
  simp [respond, hrun, hroom, hperm, refusedWith]

theorem frameDone_portsKept (p : Port) (s : State) : PortsKept s (frameDone p s) :=
  updatePort_portsKept (fun _ => .of_eq) p s

/-- With a place for its answer a request is answered, after what its handling queues (R179, R180). -/
theorem respond_sends (ho : ∀ s, PortsKept s (owner s).1) (hrun : s.held = false)
    (hroom : roomForAnswer (s.ports.get p) = true) :
    ∃ (t : State) (a : Answer), PortsKept s t ∧ respond p k form owner s = sendAnswer p (kindByte k) a t := by
  have hdone := frameDone_portsKept p s
  cases hperm : permitted k p with
  | false => exact ⟨_, _, hdone, respond_not_permitted hrun hroom hperm⟩
  | true =>
    have hreaches : Reaches p k s := ⟨hrun, hroom, hperm⟩
    cases form with
    | false => exact ⟨_, _, hdone, respond_bad_form hreaches⟩
    | true => exact ⟨_, _, hdone.trans (ho _), respond_of_reaches hreaches owner⟩

end

/-! ### The bounds under every command -/

theorem txBounded_iff (s : State) : TxBounded s ↔ ∀ p, PortBounded (s.ports.get p) :=
  ⟨fun h p => h p (by cases p <;> decide), fun h p _ => h p⟩

/-- The bounds of every transmit queue are kept (R177 to R179). -/
def BoundsKept (s t : State) : Prop := TxBounded s → TxBounded t

theorem BoundsKept.ite {s a b : State} {p : Prop} [Decidable p] (ha : BoundsKept s a) (hb : BoundsKept s b) :
    BoundsKept s (if p then a else b) := by
  split <;> assumption

theorem PortsKept.bounds {s t : State} (h : PortsKept s t) : BoundsKept s t := fun hs =>
  (txBounded_iff t).mpr fun p => (h p).bounded ((txBounded_iff s).mp hs p)

/-- A change of one port that keeps the bounds of its queue. -/
theorem updatePort_boundsKept {f : PortUnit → PortUnit} (hf : ∀ u, PortBounded u → PortBounded (f u)) (p : Port)
    (s : State) : BoundsKept s (updatePort p f s) := by
  intro hs
  rw [txBounded_iff] at hs ⊢
  intro q
  by_cases hpq : p = q
  · subst hpq
    simpa using hf _ (hs p)
  · simpa [PerPort.get_set_ne _ _ _ _ hpq] using hs q

theorem sendAnswer_boundsKept {kind : Nat} (hkind : kind ≤ 0x6F) (p : Port) (a : Answer) (s : State) :
    BoundsKept s (sendAnswer p kind a s) :=
  updatePort_boundsKept (fun _ => enqueueAnswer_bounded (answerFrame_isNotice hkind a)) p s

theorem respond_boundsKept {owner : State → State × Answer} (ho : ∀ s, PortsKept s (owner s).1) (p : Port)
    (k : ReqKind) (form : Bool) (s : State) : BoundsKept s (respond p k form owner s) := by
  cases hheld : s.held with
  | true => rw [respond_held hheld]; exact id
  | false =>
    cases hroom : roomForAnswer (s.ports.get p) with
    | false => rw [respond_no_room hheld hroom]; exact (frameDone_portsKept p s).bounds
    | true =>
      obtain ⟨t, a, ht, hsent⟩ := respond_sends (k := k) (form := form) ho hheld hroom
      rw [hsent]
      exact fun hs => sendAnswer_boundsKept (kindByte_le k) p a t (ht.bounds hs)

theorem runRequest_boundsKept (c : Instr) (s : State) : BoundsKept s (runRequest c s) := by
  cases hport : requestPort c with
  | some p =>
    obtain ⟨k, owner, -, ho, hrun⟩ := runRequest_responds c p hport
    rw [hrun]
    exact respond_boundsKept ho p k _ s
  | none => cases c <;> first | exact id | exact absurd hport nofun

theorem handleUnknownKind_boundsKept (p : Port) (kind : Nat) (s : State) :
    BoundsKept s (handleUnknownKind p kind s) := by
  have hdone := (frameDone_portsKept p s).bounds
  unfold handleUnknownKind
  refine .ite id ?_
  split
  · next h => exact .ite (fun hs => sendAnswer_boundsKept h.1 p _ _ (hdone hs)) hdone
  · exact id

theorem handleFrame_boundsKept (p : Port) (kind : Nat) (payload : List Byte) (s : State) :
    BoundsKept s (handleFrame p kind payload s) := by
  unfold handleFrame
  refine .ite (frameDone_portsKept p s).bounds ?_
  split
  · exact handleUnknownKind_boundsKept p kind s
  · split
    · exact respond_boundsKept (fun u => .refl u) _ _ _ s
    · exact runRequest_boundsKept _ s

theorem receive_boundsKept (p : Port) (byte : Byte) (s : State) : BoundsKept s (receive p byte s) := by
  have hrx : ∀ x, BoundsKept s (setRx p x s) := fun x => (updatePort_portsKept (fun _ => .of_eq) p s).bounds
  have hdone := (frameDone_portsKept p s).bounds
  unfold receive completeFrame
  dsimp only
  split
  · exact .ite (hrx _) id
  · exact .ite (hrx _) hdone
  · exact hrx _
  · refine .ite ?_ hdone
    split
    · exact hdone
    · exact handleFrame_boundsKept _ _ _ s

theorem portEvent_boundsKept {f : State → State} (hf : ∀ s, BoundsKept s (f s)) (s : State) :
    BoundsKept s (portEvent f s) :=
  .ite id (hf s)

theorem event_boundsKept {f : State → State} (hf : ∀ s, PortsKept s (f s)) (s : State) : BoundsKept s (event f s) :=
  .ite id ((hf s).trans .of_eq).bounds

theorem lineEdge_boundsKept {setLine f : State → State} (hf : ∀ s, PortsKept s (f s)) (now level : Bool) (s : State)
    (hset : ∀ s, LineOnly s (setLine s) := by intro _; rfl) : BoundsKept s (lineEdge now level setLine f s) := by
  have hline : PortsKept s (setLine s) := .of_eq (by rw [hset s])
  exact .ite id fun hs => event_boundsKept hf _ (hline.bounds hs)

theorem discardFrame_boundsKept (p : Port) (cause : DiscardCause) (s : State) :
    BoundsKept s (discardFrame p cause s) :=
  .ite (frameDone_portsKept p s).bounds id

theorem gapExpired_boundsKept (p : Port) (s : State) : BoundsKept s (gapExpired p s) := by
  unfold gapExpired
  split
  · exact id
  · exact (frameDone_portsKept p s).bounds

theorem idlePorts_get (p : Port) : idlePorts.get p = PortUnit.idle := by cases p <;> rfl

/-- A state whose ports are those of the start-up event (R175, R177). -/
theorem txBounded_of_idle {s : State} (h : s.ports = idlePorts) : TxBounded s :=
  (txBounded_iff s).mpr fun p => by rw [h, idlePorts_get]; exact idle_bounded

theorem startUp_boundsKept (cause : ResetCause) (s : State) : BoundsKept s (startUp cause s) := by
  have hloaded : TxBounded (loadRecords cause s) := txBounded_of_idle rfl
  have hraised : PortsKept (loadRecords cause s)
      (if (loadRecords cause s).inputs.estopClosed then loadRecords cause s else raiseEstop (loadRecords cause s)) :=
    .ite (.refl _) (raiseIncident_portsKept _ _)
  exact .ite (fun _ => (hraised.trans .of_eq).bounds hloaded) id

/-- Every command keeps the bounds. -/
theorem after_boundsKept (c : Instr) (s : State) : BoundsKept s (after c s) := by
  cases hport : requestPort c with
  | some p =>
    rw [after_request c p hport]
    exact runRequest_boundsKept c s
  | none =>
    cases c with
    | unknownKind p kind => exact handleUnknownKind_boundsKept p kind s
    | frameDiscarded p cause => exact portEvent_boundsKept (discardFrame_boundsKept p cause) s
    | gapTimerExpiry p => exact portEvent_boundsKept (gapExpired_boundsKept p) s
    | txStart p => exact portEvent_boundsKept (updatePort_boundsKept (fun _ => startFrame_bounded) p) s
    | txFrameSent p => exact portEvent_boundsKept (updatePort_boundsKept (fun _ => endFrame_bounded) p) s
    | byteReceived p byte => exact portEvent_boundsKept (receive_boundsKept p byte) s
    | encoderPulse => exact event_boundsKept (fun u => (pulse_evolves u).portsKept) s
    | checkEyeBlockingEdge k => exact lineEdge_boundsKept (fun u => (eyeBlocked_evolves _ u).portsKept) _ _ s
    | checkEyeClearEdge k => exact lineEdge_boundsKept (fun u => (eyeCleared_evolves _ u).portsKept) _ _ s
    | exitEyeBlockingEdge => exact lineEdge_boundsKept (fun u => (exitBlocked_evolves u).portsKept) _ _ s
    | exitEyeClearEdge => exact lineEdge_boundsKept (fun u => (exitCleared_evolves u).portsKept) _ _ s
    | entranceEyeBlockingEdge => exact lineEdge_boundsKept (fun u => (entranceBlocked_evolves u).portsKept) _ _ s
    | entranceEyeClearEdge => exact lineEdge_boundsKept (fun u => (entranceCleared_evolves u).portsKept) _ _ s
    | loopOccupied l => exact lineEdge_boundsKept arbitrate_portsKept _ _ s
    | loopVacant l => exact lineEdge_boundsKept .refl _ _ s
    | proofAssert i => exact lineEdge_boundsKept (fun u => (proofOn_evolves i u).portsKept) _ _ s
    | proofDeassert i => exact lineEdge_boundsKept (fun u => (proofOff_evolves i u).portsKept) _ _ s
    | bumperOvertravelEdge slot line active =>
      exact lineEdge_boundsKept (fun u => (raiseEach_evolves _ u).portsKept) _ _ s (setSwitch_lineOnly slot line active)
    | estopLoopOpen => exact lineEdge_boundsKept (raiseIncident_portsKept _) _ _ s
    | estopLoopClose => exact lineEdge_boundsKept .refl _ _ s
    | reset => exact fun _ => txBounded_of_idle rfl
    | startUp cause => exact startUp_boundsKept cause s
    | grantTimerExpiry => exact event_boundsKept (fun u => (grantExpired_evolves u).portsKept) s
    | startTimerExpiry => exact event_boundsKept startExpired_portsKept s
    | exitBlockTimerExpiry => exact event_boundsKept (fun u => (exitBlockExpired_evolves u).portsKept) s
    | proofTimerExpiry i => exact event_boundsKept (fun u => (proofExpired_evolves i u).portsKept) s
    | retryTimerExpiry i => exact event_boundsKept (fun u => (retryExpired_evolves i u).portsKept) s
    | gateWindowEnd => exact event_boundsKept (fun u => (windowEnd_evolves u).portsKept) s
    | scanComplete samples => exact event_boundsKept (fun u => (scan_evolves samples u).portsKept) s
    | secondsTick => exact event_boundsKept (f := tickSeconds) (fun _ => .of_eq) s
    | saveComplete verified => exact event_boundsKept (finishWrite_portsKept verified) s
    | _ => exact absurd hport nofun

/-- Settles O6: every command keeps the bounds, and the waiting queue that a step takes its command from is no port. -/
theorem transmitQueuesStayBounded : Obligations.TransmitQueuesStayBounded := by
  intro s t hs hstep
  unfold step at hstep
  split at hstep
  · obtain rfl := Host.Outcome.next.inj hstep
    exact hs
  · next c rest _ =>
    rw [exec_eq_after] at hstep
    obtain rfl := Host.Outcome.next.inj hstep
    exact after_boundsKept c { s with pending := rest } hs

/-! ### The place of an answer -/

/-- The answer to a request that passes the room test is the last frame of its queue (R179). -/
theorem sendAnswer_at_tail {s t : State} (h : PortsKept s t) {p : Port} (hroom : roomForAnswer (s.ports.get p) = true)
    (kind : Nat) (a : Answer) :
    ∃ rest, ((sendAnswer p kind a t).ports.get p).tx = rest ++ [answerFrame kind a] := by
  obtain ⟨rest, htx, -⟩ := enqueueAnswer_at_tail (answerFrame kind a) ((h p).room hroom)
  exact ⟨rest, by simpa [sendAnswer] using htx⟩

/-- Settles O20: the two places of an answer, the room test before a request, and the answer after it. -/
theorem answersFindTheirPlace : Obligations.AnswersFindTheirPlace := by
  refine ⟨fun f u h => enqueueAnswer_of_room f h, fun f n u pre post hfull htx hn hhead hpre => ?_,
    fun c p s hport hrun hroom => ?_, fun c p k s t hport hkind hrun hroom hexec => ?_, roomForAnswer_iff,
    fun n u => enqueueNotice_room (noticeFrame_isNotice n)⟩
  · exact enqueueAnswer_displaces f hfull (displaceNotice_append htx hn hhead hpre)
  · obtain ⟨k, owner, -, -, hresponds⟩ := runRequest_responds c p hport
    rw [exec_eq_after, after_request c p hport, hresponds, respond_no_room hrun hroom]
  · obtain ⟨k', owner, hkind', ho, hresponds⟩ := runRequest_responds c p hport
    obtain rfl := Option.some.inj (hkind.symm.trans hkind')
    rw [exec_eq_after, after_request c p hport, hresponds] at hexec
    obtain ⟨u, a, hu, hsent⟩ := respond_sends (k := k) (form := formFits c) ho hrun hroom
    obtain rfl := (Host.Outcome.next.inj hexec).symm.trans hsent
    obtain ⟨rest, htx⟩ := sendAnswer_at_tail hu hroom (kindByte k) a
    exact ⟨rest, a, htx⟩

end Sys2Proof.Machine
end

