-- ==== Sys2Proof/Proofs/PortTests.lean ====
section
/-! The tests that stand before an owner (R180, R182, R190, R191), TUNNEL_STATUS with the overflow flag that it reports
and clears (R184), and the flag itself (R178). -/

namespace Sys2Proof.Machine

/-! ### The role test and the test for a write in progress -/

/-- A request that the role forbids is refused whatever its owner would have found (R180, R182). -/
theorem request_not_permitted {c : Instr} {p : Port} {k : ReqKind} {s : State} (hport : requestPort c = some p)
    (hkind : kindOf c = some k) (hrun : s.held = false) (hroom : roomForAnswer (s.ports.get p) = true)
    (hperm : permitted k p = false) : after c s = refusedWith p k .notPermitted s := by
  obtain ⟨k', owner, hkind', -, hresponds⟩ := runRequest_responds c p hport
  obtain rfl := Option.some.inj (hkind.symm.trans hkind')
  rw [after_request c p hport, hresponds, respond_not_permitted hrun hroom hperm]

/-- The first test of every owner that would change a setting, and of SAVE (R190, R191). -/
theorem owner_busy {s : State} (hsaving : saving s = true) (rest : State × Answer) :
    (if saving s then refuse .busy s else rest) = refuse .busy s := if_pos hsaving

/-- What a write in progress bars is refused BUSY, and no line changes at the end of the event (R190, R191). -/
theorem barred_refused {c : Instr} {p : Port} {k : ReqKind} {s : State} (hport : requestPort c = some p)
    (hkind : kindOf c = some k) (hbarred : barredBySave k = true) (hform : formFits c = true) (h : Reaches p k s)
    (hlines : LinesFollow s) (hwriting : s.store.writing.isSome = true) : after c s = refusedWith p k .busy s := by
  have hsaving : saving (frameDone p s) = true := hwriting
  cases c with
  | definePlan q | erasePlan q | publish q | withdraw q | setService q | setResponse q | save q =>
    obtain rfl := Option.some.inj hport
    obtain rfl := Option.some.inj hkind
    exact respond_refuse h (owner_busy hsaving _)
  | setConstants q =>
    obtain rfl := Option.some.inj hport
    obtain rfl := Option.some.inj hkind
    exact respond_driven_refuse h hlines _ _ (owner_busy hsaving _)
  | setStation q station raw =>
    obtain rfl := Option.some.inj hport
    obtain rfl := Option.some.inj hkind
    have hfits : stationForm raw = true := hform
    have hrefused := respond_driven_refuse h hlines (ownSetStation station raw) _ (owner_busy hsaving _)
    rw [← hfits] at hrefused
    exact hrefused
  | carList | stationStatus =>
    obtain rfl : _ = k := by simpa using hkind
    exact absurd hbarred nofun
  | _ => simp [kindOf, encodeRequest] at hkind <;> (subst hkind; exact absurd hbarred nofun)

/-- Settles O14: the role test, and the first test of the barred owners. -/
theorem roleAndSaveTestsRefuse : Obligations.RoleAndSaveTestsRefuse := by
  refine ⟨fun c p k s hport hkind hrun hroom hperm => ?_,
    fun c p k s hport hkind hbarred hform h hlines hwriting => ?_⟩
  · rw [exec_eq_after, request_not_permitted hport hkind hrun hroom hperm]
  · rw [exec_eq_after, barred_refused hport hkind hbarred hform h hlines hwriting]

/-! ### TUNNEL_STATUS -/

theorem updatePort_updatePort (p : Port) (f g : PortUnit → PortUnit) (s : State) :
    updatePort p f (updatePort p g s) = updatePort p (fun u => f (g u)) s := by
  simp [updatePort]

/-- The flags byte is the same before and after the frame's end. -/
theorem statusFields_frameDone (p : Port) (s : State) : statusFields p (frameDone p s) = statusFields p s := by
  have hflag : ((frameDone p s).ports.get p).overflow = (s.ports.get p).overflow := by simp [frameDone]
  unfold statusFields statusFlags
  rw [hflag]
  rfl

/-- The items as they stand, and the flag cleared in the same event (R184). -/
theorem tunnelStatus_answers {p : Port} {s : State} (h : Reaches p .tunnelStatus s) :
    exec (.tunnelStatus p) s = .next (answeredOk p .tunnelStatus (statusFields p s)
      (updatePort p (fun u => { u with rx := RxPath.idle, overflow := false }) s)) := by
  refine congrArg Host.Outcome.next (respond_ok h ?_)
  rw [ownTunnelStatus, statusFields_frameDone, frameDone, updatePort_updatePort]

/-- Settles O33. -/
theorem tunnelStatusReportsAndClearsFlag : Obligations.TunnelStatusReportsAndClearsFlag :=
  fun _ _ h => tunnelStatus_answers h

/-! ### The overflow flag -/

/-- The flag is bit 5 of the flags byte (R202). -/
theorem flags_bit5 : ∀ a b c d e f : Bool,
    (BitVec.ofNat 8 (flagBit 0 a + flagBit 1 b + flagBit 2 c + flagBit 3 d + flagBit 4 e + flagBit 5 f)).getLsbD 5 =
      f := by
  decide

theorem statusFields_starts (p : Port) (s : State) : ∃ rest, statusFields p s =
    b1 (tunnelCode s.sup.tunnel) ++ b1 (targetByte s.sup.tunnel) ++ b1 (preHaltByte s.sup.tunnel) ++
      b1 (statusFlags p s) ++ rest := by
  unfold statusFields
  simp only [List.append_assoc]
  exact ⟨_, rfl⟩

/-- The fifth byte of the TUNNEL_STATUS answer, after the result code and three items, reports the flag (R184, R202). -/
theorem statusAnswer_reports_overflow (kind : Nat) (p : Port) (s : State) :
    (answerFrame kind (answerOk (statusFields p s))).payload[4]?.map (fun b => b.getLsbD 5) =
      some (s.ports.get p).overflow := by
  have hbit := flags_bit5 s.sup.manual (pauseListed s) s.inputs.estopClosed (saving s) s.store.defaulted
    (s.ports.get p).overflow
  obtain ⟨rest, hrest⟩ := statusFields_starts p s
  rw [hrest]
  exact congrArg some hbit

/-- The answer is the last frame of its queue, and sets the flag again where it displaces a notice (R179, R184). -/
theorem statusAnswer_at_tail {p : Port} {s : State} (h : Reaches p .tunnelStatus s) {fields : List Byte} :
    ∃ rest, ((answeredOk p .tunnelStatus fields
        (updatePort p (fun u => { u with rx := RxPath.idle, overflow := false }) s)).ports.get p).tx =
          rest ++ [answerFrame (kindByte .tunnelStatus) (answerOk fields)] ∧
      ((answeredOk p .tunnelStatus fields
        (updatePort p (fun u => { u with rx := RxPath.idle, overflow := false }) s)).ports.get p).overflow =
          if (s.ports.get p).tx.length < 8 then false else true := by
  have hroom : roomForAnswer { s.ports.get p with rx := RxPath.idle, overflow := false } = true :=
    (UnitKept.of_eq).room h.2.1
  simpa [answeredOk, sendAnswer] using enqueueAnswer_at_tail (answerFrame _ (answerOk fields)) hroom

/-- No flag is set and no queue holds more than a number of frames. -/
def FewFrames (n : Nat) (s : State) : Prop :=
  ∀ p, (s.ports.get p).overflow = false ∧ (s.ports.get p).tx.length ≤ n

theorem enqueueNotice_few {n : Nat} (hn : n < 7) (f : Frame) {u : PortUnit} (hflag : u.overflow = false)
    (hlen : u.tx.length ≤ n) : (enqueueNotice f u).overflow = false ∧ (enqueueNotice f u).tx.length ≤ n + 1 := by
  have hnotices : (u.tx.filter Frame.isNotice).length ≤ u.tx.length := List.length_filter_le _ _
  rw [enqueueNotice_of_room f (by omega) (by omega)]
  exact ⟨hflag, by simpa using hlen⟩

theorem notify_few {n : Nat} (hn : n < 7) {s : State} (hs : FewFrames n s) (p : Port) (m : Notice) :
    FewFrames (n + 1) (notify p m s) := by
  intro q
  obtain ⟨hflag, hlen⟩ := hs q
  by_cases hpq : p = q
  · subst hpq
    simpa [notify] using enqueueNotice_few hn (noticeFrame m) hflag hlen
  · simpa [notify, PerPort.get_set_ne _ _ _ _ hpq] using And.intro hflag (Nat.le_succ_of_le hlen)

theorem notifyBoth_few {n : Nat} (hn : n < 6) {s : State} (hs : FewFrames n s) (m : Notice) :
    FewFrames (n + 2) (notifyBoth m s) :=
  notify_few (Nat.succ_lt_succ hn) (notify_few (Nat.lt_succ_of_lt hn) hs .p0 m) .p4 m

/-- From a state without a grant and out of RUNNING a change of tunnel state sends its own notice alone (R141). -/
theorem changeTunnel_few {n : Nat} (hn : n < 6) {s : State} (hs : FewFrames n s) {new : Tunnel}
    (hnew : new ≠ .running) (hgrant : s.ent.grant = none) (cause : Cause) :
    FewFrames (n + 2) (changeTunnel new cause s) := by
  have hannounced : FewFrames (n + 2) (announced new cause s) := notifyBoth_few hn hs _
  have hseq := (sequencerAt_seqOnly s.sup.tunnel new (announced new cause s)).1
  have hnone : (sequencerAt s.sup.tunnel new (announced new cause s)).ent.grant = none := by rw [hseq]; exact hgrant
  rw [changeTunnel_eq, entranceAt, if_neg hnew, withdrawGrant, hnone, hseq]
  exact hannounced

theorem FewFrames.mono {m n : Nat} (hmn : m ≤ n) {s : State} (hs : FewFrames m s) : FewFrames n s :=
  fun p => ⟨(hs p).1, (hs p).2.trans hmn⟩

/-- A class takes effect on a stopped tunnel by a change to HALTED, or by nothing (R148, R150). -/
theorem classEffect_few {n : Nat} (hn : n < 6) {s : State} (hs : FewFrames n s) (htunnel : s.sup.tunnel = .stopped)
    (hgrant : s.ent.grant = none) (c : IncidentClass) (number : Nat) : FewFrames (n + 2) (classEffect c number s) := by
  cases c with
  | notice => exact hs.mono (Nat.le_add_right n 2)
  | pause =>
    rw [classEffect, pauseTunnel, htunnel]
    exact hs.mono (Nat.le_add_right n 2)
  | halt =>
    have hcounted : FewFrames n (countHalt s) := hs
    rw [classEffect, haltTunnel_of_not_halted _ (by rw [htunnel]; rfl)]
    exact changeTunnel_few hn hcounted (by simp) hgrant _

/-- The start-up event finds idle ports, and sends at most the notices of an open E-stop loop (R178, R194). -/
theorem startUp_few (cause : ResetCause) {s : State} (h : s.held = true) : FewFrames 4 (startUp cause s) := by
  have hloaded : FewFrames 0 (loadRecords cause s) := fun p => by
    change (idlePorts.get p).overflow = false ∧ (idlePorts.get p).tx.length ≤ 0
    rw [idlePorts_get]
    exact ⟨rfl, Nat.le_refl 0⟩
  have hraised : FewFrames 4 (raiseEstop (loadRecords cause s)) := by
    rw [raiseEstop, raiseIncident_of_room (s := loadRecords cause s) (fun _ hr => absurd hr List.not_mem_nil)
      (Nat.succ_pos 7)]
    refine classEffect_few (n := 2) (by decide) (notifyBoth_few (n := 0) (by decide) ?_ _) rfl rfl _ _
    exact hloaded
  unfold startUp
  rw [if_pos h]
  dsimp only
  split
  · exact hloaded.mono (by decide)
  · exact hraised

/-- Settles O19: the two cases of a notice, where the flag is clear, and what TUNNEL_STATUS does with it. -/
theorem noticesNeedRoom : Obligations.NoticesNeedRoom := by
  refine ⟨fun f u => enqueueNotice_of_room f, fun f u => enqueueNotice_of_full f, fun p => by cases p <;> rfl,
    fun p cause s h => (startUp_few cause h p).1, fun u hu hall => ?_, fun p s h => ?_, fun n s => rfl⟩
  · obtain ⟨-, hnotices, -⟩ := hu
    rw [List.filter_eq_self.mpr hall] at hnotices
    exact Nat.lt_succ_of_le hnotices
  · obtain ⟨rest, htx, hflag⟩ := statusAnswer_at_tail h
    exact ⟨_, rest, answerFrame (kindByte .tunnelStatus) (answerOk (statusFields p s)), tunnelStatus_answers h, htx,
      statusAnswer_reports_overflow (kindByte .tunnelStatus) p s, fun hlen => hflag.trans (if_pos hlen),
      fun hlen => hflag.trans (if_neg (Nat.not_lt_of_le hlen))⟩

end Sys2Proof.Machine
end

