-- ==== Sys2Proof/Proofs/PortEvents.lean ====
section
/-! The events of the Port Unit (R175 to R177, R180, R181): what a byte does in each state of its path, what a frame
that has passed its sum test does, and the discards, the gap timer and the transmitter. -/

namespace Sys2Proof.Machine

/-! ### The request that a payload spells -/

theorem kindOfByte_kindByte (k : ReqKind) : kindOfByte (kindByte k) = some k := by cases k <;> rfl

theorem kindByte_of_kindOfByte {n : Nat} {k : ReqKind} (h : kindOfByte n = some k) : kindByte k = n := by
  unfold kindOfByte at h
  split at h <;> first | (obtain rfl := Option.some.inj h; rfl) | exact absurd h nofun

/-- A KIND byte names no request exactly where it is that of none (R200). -/
theorem kindOfByte_eq_none_iff (n : Nat) : kindOfByte n = none ↔ ∀ k, kindByte k ≠ n := by
  refine ⟨fun h k hk => ?_, fun h => ?_⟩
  · rw [← hk, kindOfByte_kindByte] at h
    exact absurd h nofun
  · cases hk : kindOfByte n with
    | none => rfl
    | some k => exact absurd (kindByte_of_kindOfByte hk) (h k)

/-- A reading that spells, where it succeeds, a request on a port. -/
def Spells (p : Port) (x : Option Instr) : Prop := ∀ c, x = some c → requestPort c = some p

theorem Spells.bind {p : Port} {α : Type} {x : Option α} {f : α → Option Instr} (h : ∀ a, Spells p (f a)) :
    Spells p (x >>= f) := fun c hc => by
  obtain ⟨a, -, ha⟩ := Option.bind_eq_some_iff.mp hc
  exact h a c ha

theorem Spells.ends {p : Port} {c : Instr} {r : List Byte} (h : requestPort c = some p := by rfl) :
    Spells p (rdEnd c r) := fun d hd => by
  cases r with
  | nil => rw [← Option.some.inj hd]; exact h
  | cons => exact absurd hd nofun

theorem Spells.fails {p : Port} : Spells p none := nofun

theorem Spells.ite {p : Port} {q : Prop} [Decidable q] {x y : Option Instr} (hx : Spells p x) (hy : Spells p y) :
    Spells p (if q then x else y) := by
  split <;> assumption

theorem Spells.one {p : Port} {f : Nat → Instr} {r : List Byte}
    (h : ∀ n, requestPort (f n) = some p := by intro _; rfl) : Spells p (rdOne f r) :=
  .bind fun _ => .ends (h _)

theorem rdCarList_spells (p : Port) (r : List Byte) : Spells p (rdCarList p r) := by
  refine .bind fun ⟨selector, r⟩ => ?_
  dsimp only
  split
  · exact .ends
  · exact .bind fun _ => .bind fun _ => .ends
  · exact .fails

theorem rdStationStatus_spells (p : Port) (r : List Byte) : Spells p (rdStationStatus p r) := by
  refine .bind fun ⟨selector, r⟩ => ?_
  dsimp only
  split
  · exact .ends
  · exact .one
  · exact .fails

theorem rdPlanList_spells (p : Port) (r : List Byte) : Spells p (rdPlanList p r) := by
  refine .bind fun ⟨selector, r⟩ => ?_
  dsimp only
  split
  · exact .ends
  · exact .one
  · exact .one
  · exact .fails

theorem rdAttach_spells (p : Port) (r : List Byte) : Spells p (rdAttach p r) := by
  refine .bind fun _ => .bind fun ⟨selector, r⟩ => ?_
  dsimp only
  split
  · exact .one
  · exact .bind fun _ => .bind fun _ => .ends
  · exact .fails

theorem rdAck_spells (p : Port) (r : List Byte) : Spells p (rdAck p r) :=
  .bind fun _ => .ends (by split <;> rfl)

theorem rdStation_spells (p : Port) (r : List Byte) : Spells p (rdStation p r) := by
  refine .bind fun _ => .bind fun _ => .bind fun _ => .bind fun _ => .bind fun _ => .bind fun _ => .bind fun _ =>
    .bind fun _ => .bind fun _ => ?_
  exact .ite (.bind fun _ => .ends) (.bind fun _ => .ends)

theorem rdConstants_spells (p : Port) (r : List Byte) : Spells p (rdConstants p r) :=
  .bind fun _ => .bind fun _ => .bind fun _ => .bind fun _ => .bind fun _ => .bind fun _ => .bind fun _ =>
    .bind fun _ => .bind fun _ => .bind fun _ => .bind fun _ => .bind fun _ => .bind fun _ => .bind fun _ =>
    .bind fun _ => .bind fun _ => .bind fun _ => .ends

theorem rdDefine_spells (p : Port) (r : List Byte) : Spells p (rdDefine p r) :=
  .bind fun _ => .bind fun _ => .bind fun _ => .bind fun _ => .bind fun _ => .bind fun _ => .bind fun _ => .ends

/-- A payload that fits a form of its kind spells a request on its own port (R180, R201). -/
theorem decodeRequest_spells (p : Port) (k : ReqKind) (r : List Byte) : Spells p (decodeRequest p k r) := by
  cases k with
  | carList => exact rdCarList_spells p r
  | stationStatus => exact rdStationStatus_spells p r
  | planList => exact rdPlanList_spells p r
  | attach => exact rdAttach_spells p r
  | ackIncident => exact rdAck_spells p r
  | setStation => exact rdStation_spells p r
  | setConstants => exact rdConstants_spells p r
  | definePlan => exact rdDefine_spells p r
  | laneStatus => exact .ite .ends .one
  | sell => exact .bind fun _ => .bind fun _ => .bind fun _ => .ends
  | quote | void => exact .bind fun _ => .ends
  | tallyRead | setResponse | issueCredit => exact .bind fun _ => .bind fun _ => .ends
  | addService => exact .bind fun _ => .bind fun _ => .bind fun _ => .ends
  | setService => exact .bind fun _ => .bind fun _ => .bind fun _ => .bind fun _ => .ends
  | incidentList | creditList | laneReset | laneEnable | laneDisable | stationOff | stationOn | stationReset
  | forceSpeed | erasePlan | publish | withdraw => exact .one
  | tunnelStatus | restart | tunnelClear | claim | yield | openTunnel | drain | stop | pause | resume | releaseSpeed
  | save => exact .ends

/-! ### A frame that has passed its sum test -/

section
variable {p : Port} {kind : Nat} {payload : List Byte} {s : State}

/-- A frame of a notice's or an answer's kind is discarded (R180). -/
theorem handleFrame_of_high (h : 0x70 ≤ kind) : handleFrame p kind payload s = frameDone p s := if_pos h

theorem handleFrame_of_unknown (h : kind < 0x70) (hnone : ∀ k, kindByte k ≠ kind) :
    handleFrame p kind payload s = handleUnknownKind p kind s := by
  rw [handleFrame, if_neg (by omega), (kindOfByte_eq_none_iff kind).mpr hnone]

theorem handleFrame_of_kind (k : ReqKind) : handleFrame p (kindByte k) payload s =
    (decodeRequest p k payload).elim (respond p k false (refuse .badValue) s) fun c => runRequest c s := by
  rw [handleFrame, if_neg (Nat.not_lt_of_le (kindByte_le k)), kindOfByte_kindByte]
  dsimp only
  cases decodeRequest p k payload <;> rfl

/-- The request that the payload spells is handled as its own command (R180; log entry 15). -/
theorem handleFrame_of_request {k : ReqKind} {c : Instr} (h : decodeRequest p k payload = some c) :
    handleFrame p (kindByte k) payload s = after c s := by
  rw [handleFrame_of_kind, h, Option.elim, after_request c p (decodeRequest_spells p k payload c h)]

theorem handleFrame_of_bad_form {k : ReqKind} (h : decodeRequest p k payload = none) :
    handleFrame p (kindByte k) payload s = respond p k false (refuse .badValue) s := by
  rw [handleFrame_of_kind, h, Option.elim]

end

/-- A frame of an unknown kind below 0x70 is answered UNKNOWN_KIND where the answer has a place (R180, R181). -/
theorem handleUnknownKind_of_unknown {p : Port} {kind : Nat} {s : State} (hrun : s.held = false)
    (hnone : ∀ k, kindByte k ≠ kind) (h : kind < 0x70) :
    handleUnknownKind p kind s = if roomForAnswer (s.ports.get p) then
      sendAnswer p kind (refusal .unknownKind) (frameDone p s) else frameDone p s := by
  have hkind : kind ≤ 0x6F ∧ kindOfByte kind = none := ⟨by omega, (kindOfByte_eq_none_iff kind).mpr hnone⟩
  rw [handleUnknownKind, hrun, if_neg Bool.false_ne_true, if_pos hkind]

/-- The event of an unknown kind is none for a known kind, nor for one of 0x70 or above (log entry 5). -/
theorem handleUnknownKind_of_known {p : Port} {kind : Nat} {s : State}
    (h : (∃ k, kindByte k = kind) ∨ 0x70 ≤ kind) : handleUnknownKind p kind s = s := by
  have hkind : ¬(kind ≤ 0x6F ∧ kindOfByte kind = none) := by
    rintro ⟨hlow, hnone⟩
    obtain ⟨k, hk⟩ | hhigh := h
    · exact (kindOfByte_eq_none_iff kind).mp hnone k hk
    · omega
  rw [handleUnknownKind, if_neg hkind, ite_self]

/-! ### A byte in each state of its path -/

theorem portEvent_running {f : State → State} {s : State} (h : s.held = false) : portEvent f s = f s := by
  simp [portEvent, h]

section
variable {p : Port} {byte : Byte} {s : State}

theorem receive_hunt (h : (s.ports.get p).rx.state = .hunt) :
    receive p byte s = if byte = 0xC5 then setRx p ⟨.length, 0, 0, [], some 20⟩ s else s := by
  rw [receive, h]
  rfl

theorem receive_length (h : (s.ports.get p).rx.state = .length) :
    receive p byte s = if 1 ≤ byte.toNat ∧ byte.toNat ≤ 64 then
      setRx p ⟨.body, byte.toNat, byte.toNat, [], some 20⟩ s else frameDone p s := by
  rw [receive, h]
  rfl

theorem receive_body (h : (s.ports.get p).rx.state = .body) :
    receive p byte s = setRx p ⟨if (s.ports.get p).rx.expected ≤ 1 then .check else .body, (s.ports.get p).rx.len,
      (s.ports.get p).rx.expected - 1, (s.ports.get p).rx.buf ++ [byte], some 20⟩ s := by
  rw [receive, h]
  rfl

theorem receive_check (h : (s.ports.get p).rx.state = .check) :
    receive p byte s = if sumPasses (s.ports.get p).rx.len (s.ports.get p).rx.buf byte then
      completeFrame p (s.ports.get p).rx.buf s else frameDone p s := by
  rw [receive, h]

theorem sumPasses_iff (len : Nat) (body : List Byte) (check : Byte) :
    sumPasses len body check = true ↔ (len + (body.map BitVec.toNat).sum + check.toNat) % 256 = 0 := beq_iff_eq

theorem receive_check_fails (h : (s.ports.get p).rx.state = .check)
    (hsum : ((s.ports.get p).rx.len + ((s.ports.get p).rx.buf.map BitVec.toNat).sum + byte.toNat) % 256 ≠ 0) :
    receive p byte s = frameDone p s := by
  rw [receive_check h, if_neg (mt (sumPasses_iff _ _ _).mp hsum)]

theorem receive_check_passes {kind : Byte} {payload : List Byte} (h : (s.ports.get p).rx.state = .check)
    (hbuf : (s.ports.get p).rx.buf = kind :: payload)
    (hsum : ((s.ports.get p).rx.len + ((s.ports.get p).rx.buf.map BitVec.toNat).sum + byte.toNat) % 256 = 0) :
    receive p byte s = handleFrame p kind.toNat payload s := by
  rw [receive_check h, if_pos ((sumPasses_iff _ _ _).mpr hsum), hbuf]
  rfl

end

/-! ### Discards, the gap timer and the transmitter -/

/-- The discards that R175, R176 and R180 name. -/
theorem discardable_iff (cause : DiscardCause) (st : RxState) : discardable cause st = true ↔
    (cause = .badLength ∧ st = .length) ∨ (cause = .badSum ∧ st = .check) ∨ (cause = .kindNotRequest ∧ st = .check) ∨
      (cause = .framing ∧ st ≠ .hunt) := by
  cases cause <;> cases st <;> decide

/-- A cause that the state of the path does not allow (log entry 5). -/
theorem discardable_eq_false_iff (cause : DiscardCause) (st : RxState) : discardable cause st = false ↔
    (cause = .badLength ∧ st ≠ .length) ∨ (cause = .badSum ∧ st ≠ .check) ∨ (cause = .kindNotRequest ∧ st ≠ .check) ∨
      (cause = .framing ∧ st = .hunt) := by
  cases cause <;> cases st <;> decide

section
variable {p : Port} {s : State}

theorem discardFrame_of_discardable {cause : DiscardCause}
    (h : discardable cause (s.ports.get p).rx.state = true) : discardFrame p cause s = frameDone p s := if_pos h

theorem discardFrame_of_not_discardable {cause : DiscardCause}
    (h : discardable cause (s.ports.get p).rx.state = false) : discardFrame p cause s = s := by
  rw [discardFrame, h, if_neg Bool.false_ne_true]

theorem gapExpired_of_running {n : Nat} (h : (s.ports.get p).rx.gap = some n) : gapExpired p s = frameDone p s := by
  rw [gapExpired, h]

theorem gapExpired_of_stopped (h : (s.ports.get p).rx.gap = none) : gapExpired p s = s := by
  rw [gapExpired, h]

/-- A change of a port reads the unit that the port has. -/
theorem updatePort_congr {f g : PortUnit → PortUnit} (h : f (s.ports.get p) = g (s.ports.get p)) :
    updatePort p f s = updatePort p g s := by
  rw [updatePort, updatePort, h]

theorem updatePort_eq_self {f : PortUnit → PortUnit} (h : f (s.ports.get p) = s.ports.get p) :
    updatePort p f s = s := by
  have hset : s.ports.set p (s.ports.get p) = s.ports := by cases p <;> rfl
  rw [updatePort, h, hset]

end

section
variable {u : PortUnit}

theorem startFrame_of_free (hfree : u.sending = false) (htx : u.tx ≠ []) :
    startFrame u = { u with sending := true } := if_pos ⟨hfree, htx⟩

theorem startFrame_of_none (h : u.sending = true ∨ u.tx = []) : startFrame u = u := by
  refine if_neg fun ⟨hfree, htx⟩ => h.elim (fun hsending => ?_) htx
  rw [hfree] at hsending
  exact absurd hsending nofun

theorem endFrame_of_head {f : Frame} {rest : List Frame} (hsending : u.sending = true) (htx : u.tx = f :: rest) :
    endFrame u = { u with tx := rest, sending := if rest = [] then false else true } := by
  have htake : u.sending = true ∧ u.tx ≠ [] := ⟨hsending, by simp [htx]⟩
  rw [endFrame, if_pos htake, htx]
  cases rest <;> rfl

theorem endFrame_of_none (h : u.sending = false ∨ u.tx = []) : endFrame u = u := by
  refine if_neg fun ⟨hsending, htx⟩ => h.elim (fun hfree => ?_) htx
  rw [hfree] at hsending
  exact absurd hsending nofun

end

/-! ### The rules of the port events -/

theorem unknownKind_rules (p : Port) (kind : Nat) (s : State) (hrun : s.held = false) :
    ((∀ k, kindByte k ≠ kind) → kind < 0x70 →
        (roomForAnswer (s.ports.get p) = true →
          exec (.unknownKind p kind) s = .next (sendAnswer p kind (refusal .unknownKind) (frameDone p s))) ∧
        (roomForAnswer (s.ports.get p) = false → exec (.unknownKind p kind) s = .next (frameDone p s))) ∧
      ((∃ k, kindByte k = kind) ∨ 0x70 ≤ kind → exec (.unknownKind p kind) s = .next s) := by
  refine ⟨fun hnone hlow => ⟨fun hroom => ?_, fun hroom => ?_⟩, fun h => ?_⟩
  · exact congrArg Host.Outcome.next ((handleUnknownKind_of_unknown hrun hnone hlow).trans (if_pos hroom))
  · refine congrArg Host.Outcome.next ((handleUnknownKind_of_unknown hrun hnone hlow).trans (if_neg ?_))
    rw [hroom]
    exact Bool.false_ne_true
  · exact congrArg Host.Outcome.next (handleUnknownKind_of_known h)

section
variable {p : Port} {s : State} (hrun : s.held = false)
include hrun

theorem exec_frameDiscarded (cause : DiscardCause) :
    exec (.frameDiscarded p cause) s = .next (discardFrame p cause s) :=
  congrArg Host.Outcome.next (portEvent_running hrun)

theorem exec_gapTimerExpiry : exec (.gapTimerExpiry p) s = .next (gapExpired p s) :=
  congrArg Host.Outcome.next (portEvent_running hrun)

theorem exec_txStart : exec (.txStart p) s = .next (updatePort p startFrame s) :=
  congrArg Host.Outcome.next (portEvent_running hrun)

theorem exec_txFrameSent : exec (.txFrameSent p) s = .next (updatePort p endFrame s) :=
  congrArg Host.Outcome.next (portEvent_running hrun)

theorem exec_byteReceived (byte : Byte) : exec (.byteReceived p byte) s = .next (receive p byte s) :=
  congrArg Host.Outcome.next (portEvent_running hrun)

/-- A free transmitter takes the head frame, and a frame sent leaves its queue (R177). -/
theorem transmitter_rules :
    ((s.ports.get p).sending = false → (s.ports.get p).tx ≠ [] →
        exec (.txStart p) s = .next (updatePort p (fun u => { u with sending := true }) s)) ∧
      ((s.ports.get p).sending = true ∨ (s.ports.get p).tx = [] → exec (.txStart p) s = .next s) ∧
      (∀ (f : Frame) (rest : List Frame), (s.ports.get p).sending = true → (s.ports.get p).tx = f :: rest →
        exec (.txFrameSent p) s =
          .next (updatePort p (fun u => { u with tx := rest, sending := if rest = [] then false else true }) s)) ∧
      ((s.ports.get p).sending = false ∨ (s.ports.get p).tx = [] → exec (.txFrameSent p) s = .next s) := by
  rw [exec_txStart hrun, exec_txFrameSent hrun]
  refine ⟨fun hfree htx => congrArg _ ?_, fun h => congrArg _ ?_, fun f rest hsending htx => congrArg _ ?_,
    fun h => congrArg _ ?_⟩
  · exact updatePort_congr (startFrame_of_free hfree htx)
  · exact updatePort_eq_self (startFrame_of_none h)
  · exact updatePort_congr (endFrame_of_head hsending htx)
  · exact updatePort_eq_self (endFrame_of_none h)

/-- The byte that completes a frame whose sum is good (R175, R180, R181). -/
theorem completing_byte_rules {byte kind : Byte} {payload : List Byte}
    (hreceive : receive p byte s = handleFrame p kind.toNat payload s) :
    (0x70 ≤ kind.toNat → exec (.byteReceived p byte) s = .next (frameDone p s)) ∧
      (kind.toNat < 0x70 → (∀ k, kindByte k ≠ kind.toNat) →
        exec (.byteReceived p byte) s = exec (.unknownKind p kind.toNat) s) ∧
      ∀ k : ReqKind, kindByte k = kind.toNat →
        (∀ c, decodeRequest p k payload = some c → exec (.byteReceived p byte) s = exec c s) ∧
        (decodeRequest p k payload = none →
          (Reaches p k s → exec (.byteReceived p byte) s = .next (refusedWith p k .badValue s)) ∧
          (roomForAnswer (s.ports.get p) = true → permitted k p = false →
            exec (.byteReceived p byte) s = .next (refusedWith p k .notPermitted s)) ∧
          (roomForAnswer (s.ports.get p) = false → exec (.byteReceived p byte) s = .next (frameDone p s))) := by
  rw [exec_byteReceived hrun, hreceive]
  refine ⟨fun hhigh => ?_, fun hlow hnone => ?_, fun k hk => ⟨fun c hc => ?_, fun hnone => ?_⟩⟩
  · rw [handleFrame_of_high hhigh]
  · rw [handleFrame_of_unknown hlow hnone]
    rfl
  · rw [← hk, handleFrame_of_request hc, exec_eq_after]
  · rw [← hk, handleFrame_of_bad_form hnone]
    refine ⟨fun h => congrArg _ ?_, fun hroom hperm => congrArg _ ?_, fun hroom => congrArg _ ?_⟩
    · exact respond_bad_form h
    · exact respond_not_permitted hrun hroom hperm
    · exact respond_no_room hrun hroom

end

/-- Settles O54: an unknown kind, a discard, the gap timer, the transmitter, and a byte in each state of its path. -/
theorem portEventsFollowTheirRules : Obligations.PortEventsFollowTheirRules := by
  refine ⟨unknownKind_rules, fun p cause s hrun => ?_, fun p s hrun => ?_, fun p s hrun => transmitter_rules hrun,
    fun p byte x s hrun hx => ?_⟩
  · rw [exec_frameDiscarded hrun]
    refine ⟨fun h => ?_, fun h => ?_⟩
    · rw [discardFrame_of_discardable ((discardable_iff _ _).mpr h)]
    · rw [discardFrame_of_not_discardable ((discardable_eq_false_iff _ _).mpr h)]
  · rw [exec_gapTimerExpiry hrun]
    exact ⟨fun n h => by rw [gapExpired_of_running h], fun h => by rw [gapExpired_of_stopped h]⟩
  · subst hx
    refine ⟨fun hst hstart => ?_, fun hst hother => ?_, fun hst hlow hhigh => ?_, fun hst hbad => ?_, fun hst => ?_,
      fun hst hsum => ?_, fun kind payload hst hbuf hsum =>
        completing_byte_rules hrun (receive_check_passes hst hbuf hsum)⟩
    all_goals rw [exec_byteReceived hrun]
    · rw [receive_hunt hst, if_pos hstart, setRx]
    · rw [receive_hunt hst, if_neg hother]
    · rw [receive_length hst, if_pos ⟨hlow, hhigh⟩, setRx]
    · rw [receive_length hst, if_neg (by omega)]
    · rw [receive_body hst, setRx]
    · rw [receive_check_fails hst hsum]

end Sys2Proof.Machine
end

