-- ==== Sys2Proof/Proofs/RequestFrames.lean ====
section
/-! The payload of a request (R199, R201): each reader gives back what its writer wrote, so the payload of a request
that can arrive spells the request, and it holds at most 63 bytes. -/

namespace Sys2Proof.Machine

/-! ### Reading back each field, first in a payload and last -/

theorem fits1_iff (n : Nat) : fits1 n = true ↔ n < 256 := decide_eq_true_iff

theorem fits2_iff (n : Nat) : fits2 n = true ↔ n < 65536 := decide_eq_true_iff

theorem rd1_b1 {n : Nat} (h : fits1 n = true) (r : List Byte) : rd1 (b1 n ++ r) = some (n, r) := by
  rw [fits1_iff] at h
  simp [rd1, b1, Nat.mod_eq_of_lt h]

theorem rd2_b2 {n : Nat} (h : fits2 n = true) (r : List Byte) : rd2 (b2 n ++ r) = some (n, r) := by
  rw [fits2_iff] at h
  have hvalue : n / 256 % 256 * 256 + n % 256 = n := by omega
  simp [rd2, b2, hvalue]

section
variable {α : Type} {n : Nat} (f : Nat × List Byte → Option α)

/-- A reading that goes on after a one-byte field. -/
theorem rd1_then (h : fits1 n = true) (r : List Byte) : (rd1 (b1 n ++ r) >>= f) = f (n, r) := by
  rw [rd1_b1 h]
  rfl

theorem rd1_then_end (h : fits1 n = true) : (rd1 (b1 n) >>= f) = f (n, []) := rd1_then f h []

/-- A reading that goes on after a two-byte field. -/
theorem rd2_then (h : fits2 n = true) (r : List Byte) : (rd2 (b2 n ++ r) >>= f) = f (n, r) := by
  rw [rd2_b2 h]
  rfl

theorem rd2_then_end (h : fits2 n = true) : (rd2 (b2 n) >>= f) = f (n, []) := rd2_then f h []

end

theorem rdOne_b1 {n : Nat} (h : fits1 n = true) (f : Nat → Instr) : rdOne f (b1 n) = some (f n) :=
  rd1_then_end _ h

/-! ### Reading back lists and records -/

theorem rdBytes_flatMap {l : List Nat} (h : l.all fits1 = true) (r : List Byte) :
    rdBytes l.length (l.flatMap b1 ++ r) = some (l, r) := by
  induction l with
  | nil => rfl
  | cons n l ih =>
    rw [List.all_cons, Bool.and_eq_true] at h
    rw [List.flatMap_cons, List.append_assoc, List.length_cons, rdBytes, rd1_then _ h.1]
    dsimp only
    rw [ih h.2]
    rfl

theorem rdPairs_pairBytes {l : List RawPair} (h : pairsFit l = true) (r : List Byte) :
    rdPairs l.length (pairBytes l ++ r) = some (l, r) := by
  induction l with
  | nil => rfl
  | cons q l ih =>
    simp only [pairsFit, List.all_cons, Bool.and_eq_true] at h
    obtain ⟨⟨hcode, hlevel⟩, hrest⟩ := h
    have hbytes : pairBytes (q :: l) ++ r = b1 q.code ++ (b1 q.level ++ (pairBytes l ++ r)) := rfl
    rw [hbytes, List.length_cons, rdPairs, rd1_then _ hcode]
    dsimp only
    rw [rd1_then _ hlevel]
    dsimp only
    rw [ih hrest]
    rfl

section
variable {α : Type}

theorem rdBytes_then {l : List Nat} (f : List Nat × List Byte → Option α) (h : l.all fits1 = true) (r : List Byte) :
    (rdBytes l.length (l.flatMap b1 ++ r) >>= f) = f (l, r) := by
  rw [rdBytes_flatMap h]
  rfl

theorem rdPairs_then {l : List RawPair} (f : List RawPair × List Byte → Option α) (h : pairsFit l = true)
    (r : List Byte) : (rdPairs l.length (pairBytes l ++ r) >>= f) = f (l, r) := by
  rw [rdPairs_pairBytes h]
  rfl

theorem rdPairs_then_end {l : List RawPair} (f : List RawPair × List Byte → Option α) (h : pairsFit l = true) :
    (rdPairs l.length (pairBytes l) >>= f) = f (l, []) := by
  simpa only [List.append_nil] using rdPairs_then f h []

/-- Plan, add-ons and credit (R201). -/
theorem rdPurchase_then {q : Purchase} (f : Purchase × List Byte → Option α) (h : purchaseFits q = true)
    (hlen : fits1 q.addOns.length = true) (r : List Byte) : (rdPurchase (purchaseBytes q ++ r) >>= f) = f (q, r) := by
  simp only [purchaseFits, Bool.and_eq_true] at h
  simp only [purchaseBytes, List.append_assoc]
  unfold rdPurchase
  simp only [↓rd1_then, ↓rd2_then, ↓rdPairs_then, h, hlen]
  rfl

theorem rdPurchase_then_end {q : Purchase} (f : Purchase × List Byte → Option α) (h : purchaseFits q = true)
    (hlen : fits1 q.addOns.length = true) : (rdPurchase (purchaseBytes q) >>= f) = f (q, []) := by
  simpa only [List.append_nil] using rdPurchase_then f h hlen []

/-- A level table or SPEED_TABLE (R201). -/
theorem rdFour_then_end {t : ByFour Nat} (f : ByFour Nat × List Byte → Option α) (h : fourFit t = true) :
    (rdFour (fourBytes t) >>= f) = f (t, []) := by
  simp only [fourFit, Bool.and_eq_true] at h
  simp only [fourBytes, List.append_assoc]
  unfold rdFour
  simp only [↓rd2_then, ↓rd2_then_end, h]
  rfl

/-- The brush fields (R201). -/
theorem rdBrush_then_end {b : RawBrush} (f : RawBrush × List Byte → Option α) (h : brushFits b = true) :
    (rdBrush (brushBytes b) >>= f) = f (b, []) := by
  simp only [brushFits, Bool.and_eq_true] at h
  simp only [brushBytes, List.append_assoc]
  unfold rdBrush
  simp only [↓rd1_then, ↓rd1_then_end, ↓rd2_then, h]
  rfl

end

theorem rdConstants_constantBytes {c : Constants} (h : constantsFit c = true) (p : Port) :
    rdConstants p (constantBytes c) = some (.setConstants p c) := by
  simp only [constantsFit, Bool.and_eq_true] at h
  simp only [constantBytes, List.append_assoc]
  unfold rdConstants
  simp only [↓rd1_then, ↓rd2_then, ↓rdFour_then_end, h]
  rfl

/-- The length tells the two forms of SET_STATION apart (R201). -/
theorem stationBytes_length (i : Nat) (r : RawStation) : (b1 i ++ stationBytes r).length =
    match r.gear with
    | .levels _ => 21
    | .brush _ => 33 := by
  cases hgear : r.gear <;> simp [stationBytes, geometryBytes, gearBytes, fourBytes, brushBytes, b1, b2, hgear]

theorem rdStation_stationBytes {i : Nat} {r : RawStation} (hi : fits1 i = true) (h : stationFits r = true) (p : Port) :
    rdStation p (b1 i ++ stationBytes r) = some (.setStation p i r) := by
  have hlen := stationBytes_length i r
  obtain ⟨code, kind, sp, pre, post, mode, proofWait, retries, gear⟩ := r
  simp only [stationFits, Bool.and_eq_true] at h
  unfold rdStation
  cases gear with
  | levels t =>
    rw [hlen]
    simp only [gearFits] at h
    simp only [stationBytes, geometryBytes, gearBytes, List.append_assoc]
    simp only [↓rd1_then, ↓rd2_then, ↓rdFour_then_end, ↓if_true, hi, h]
    rfl
  | brush b =>
    have hlong : ¬(33 : Nat) = 21 := by decide
    rw [hlen]
    simp only [gearFits] at h
    simp only [stationBytes, geometryBytes, gearBytes, List.append_assoc]
    simp only [↓rd1_then, ↓rd2_then, ↓rdBrush_then_end, hlong, hi, h]
    rfl

/-! ### The payload of each request -/

section
variable {p : Port}

theorem decode_laneStatus {lane : Option Nat} (h : laneFormFits p lane = true) :
    decodeRequest p .laneStatus (laneBytes lane) = some (.laneStatus p lane) := by
  cases lane with
  | none => exact if_pos h
  | some l =>
    simp only [laneFormFits, Bool.and_eq_true, Bool.not_eq_true'] at h
    obtain ⟨hlane, hl⟩ := h
    rw [decodeRequest, rdLaneStatus, hlane, if_neg Bool.false_ne_true]
    exact rdOne_b1 hl _

theorem decode_sell {lane : Option Nat} {buy : Purchase} {ref : Nat} (hlane : laneFormFits p lane = true)
    (hbuy : purchaseFits buy = true) (hlen : fits1 buy.addOns.length = true) (href : fits2 ref = true) :
    decodeRequest p .sell (laneBytes lane ++ purchaseBytes buy ++ b2 ref) = some (.sell p lane buy ref) := by
  rw [decodeRequest, rdSell]
  cases lane with
  | none =>
    have hport : p.isLane = true := hlane
    simp only [laneBytes, List.nil_append, hport, if_true, Option.bind_eq_bind, Option.bind_some]
    simp only [← Option.bind_eq_bind, ↓rdPurchase_then, ↓rd2_then_end, hbuy, hlen, href]
    rfl
  | some l =>
    simp only [laneFormFits, Bool.and_eq_true, Bool.not_eq_true'] at hlane
    obtain ⟨hport, hl⟩ := hlane
    simp only [laneBytes, List.append_assoc, hport, Bool.false_eq_true, if_false, rd1_b1 hl, Option.map_some,
      Option.bind_eq_bind, Option.bind_some]
    simp only [← Option.bind_eq_bind, ↓rdPurchase_then, ↓rd2_then_end, hbuy, hlen, href]
    rfl

theorem decode_tallyRead {part : Nat} (take clear : Bool) (h : fits1 part = true) :
    decodeRequest p .tallyRead (b1 part ++ b1 (tallyFlags take clear)) = some (.tallyRead p part take clear) := by
  have hflags : fits1 (tallyFlags take clear) = true := by cases take <;> cases clear <;> rfl
  have hbits : (tallyFlags take clear).testBit 0 = take ∧ (tallyFlags take clear).testBit 1 = clear := by
    cases take <;> cases clear <;> decide
  rw [decodeRequest, rdTally]
  simp only [↓rd1_then, ↓rd1_then_end, h, hflags, hbits]
  rfl

theorem decode_definePlan {plan price cls : Nat} {name : List Nat} {list : List RawPair}
    (hplan : fits1 plan = true) (hname : name.all fits1 = true) (hprice : fits2 price = true)
    (hcls : fits1 cls = true) (hlist : pairsFit list = true) (hnames : fits1 name.length = true)
    (hlen : fits1 list.length = true) :
    decodeRequest p .definePlan (b1 plan ++ b1 name.length ++ name.flatMap b1 ++ b2 price ++ b1 cls ++
      b1 list.length ++ pairBytes list) = some (.definePlan p plan name price cls list) := by
  rw [decodeRequest, rdDefine]
  simp only [List.append_assoc]
  simp only [↓rd1_then, ↓rd2_then, ↓rdBytes_then, ↓rdPairs_then_end, hplan, hname, hprice, hcls, hlist, hnames, hlen]
  rfl

theorem decode_attachNewSale {tag ref : Nat} {buy : Purchase} (htag : fits1 tag = true)
    (hbuy : purchaseFits buy = true) (hlen : fits1 buy.addOns.length = true) (href : fits2 ref = true) :
    decodeRequest p .attach (b1 tag ++ b1 1 ++ purchaseBytes buy ++ b2 ref) = some (.attachNewSale p tag buy ref) := by
  have hselector : fits1 1 = true := rfl
  rw [decodeRequest, rdAttach]
  simp only [List.append_assoc]
  simp only [↓rd1_then, ↓rdPurchase_then, ↓rd2_then_end, htag, hselector, hbuy, hlen, href]
  rfl

end

/-- The payload of a request spells the request, with every field, and fits a frame (R175, R199, R201). -/
def RoundTrips (c : Instr) : Prop :=
  ∀ (p : Port) (k : ReqKind) (payload : List Byte), requestPort c = some p → encodeRequest c = some (k, payload) →
    decodeRequest p k payload = some c ∧ payload.length ≤ 63

theorem RoundTrips.of {c : Instr} {p : Port} {k : ReqKind} {payload : List Byte} (hport : requestPort c = some p)
    (hencode : encodeRequest c = some (k, payload)) (hdecode : decodeRequest p k payload = some c)
    (hlen : payload.length ≤ 63) : RoundTrips c := by
  intro q k' payload' hq hencode'
  obtain rfl := Option.some.inj (hport.symm.trans hq)
  obtain ⟨rfl, rfl⟩ := Prod.mk.inj (Option.some.inj (hencode.symm.trans hencode'))
  exact ⟨hdecode, hlen⟩

/-- A payload of fields alone, without a list: its length is a number. -/
theorem RoundTrips.of_fields {c : Instr} {p : Port} {k : ReqKind} {payload : List Byte}
    (hport : requestPort c = some p) (hencode : encodeRequest c = some (k, payload))
    (hdecode : decodeRequest p k payload = some c) (hlen : Nat.ble payload.length 63 = true) : RoundTrips c :=
  .of hport hencode hdecode (Nat.le_of_ble_eq_true hlen)

theorem pairBytes_length (l : List RawPair) : (pairBytes l).length = 2 * l.length := by
  simp [pairBytes, b1, Nat.mul_comm]

theorem purchaseBytes_length (q : Purchase) : (purchaseBytes q).length = 4 + 2 * q.addOns.length := by
  simp only [purchaseBytes, List.length_append, pairBytes_length, b1, b2, List.length_cons, List.length_nil]
  omega

theorem constantBytes_length (c : Constants) : (constantBytes c).length = 36 := by
  simp [constantBytes, fourBytes, b1, b2]

/-- A list whose pairs fit a frame has a count of one byte. -/
theorem fits1_of_le {n m : Nat} (h : n ≤ m) (hm : m < 256) : fits1 n = true := (fits1_iff n).mpr (h.trans_lt hm)

theorem roundTrips (c : Instr) (hfits : wellFormed c = true) : RoundTrips c := by
  have hselector : fits1 0 = true ∧ fits1 1 = true ∧ fits1 2 = true := by decide
  obtain ⟨hzero, hone, htwo⟩ := hselector
  cases c with
  | tunnelStatus | restart | tunnelClear | claim | yield | openTunnel | drain | stop | pause | resume | releaseSpeed
  | save | planListSummary | ackIncidentAll => exact .of_fields rfl rfl rfl rfl
  | incidentList _ n | creditList _ n | laneReset _ n | laneEnable _ n | laneDisable _ n | stationOff _ n
  | stationOn _ n | stationReset _ n | forceSpeed _ n | erasePlan _ n | publish _ n | withdraw _ n =>
    exact .of_fields rfl rfl (rdOne_b1 hfits _) rfl
  | carList p form =>
    cases form with
    | summary => exact .of_fields rfl rfl rfl rfl
    | record tag part =>
      obtain ⟨htag, hpart⟩ := (Bool.and_eq_true _ _).mp hfits
      exact .of_fields rfl rfl ((rd1_then _ hone _).trans ((rd1_then _ htag _).trans (rd1_then_end _ hpart))) rfl
  | stationStatus p station =>
    cases station with
    | none => exact .of_fields rfl rfl rfl rfl
    | some i => exact .of_fields rfl rfl ((rd1_then _ hone _).trans (rdOne_b1 hfits _)) rfl
  | planListPlan p n => exact .of_fields rfl rfl ((rd1_then _ hone _).trans (rdOne_b1 hfits _)) rfl
  | planListService p n => exact .of_fields rfl rfl ((rd1_then _ htwo _).trans (rdOne_b1 hfits _)) rfl
  | laneStatus p lane => exact .of rfl rfl (decode_laneStatus hfits) (by cases lane <;> simp [laneBytes, b1])
  | tallyRead p part take clear => exact .of_fields rfl rfl (decode_tallyRead take clear hfits) rfl
  | quote p buy =>
    simp only [wellFormed, Bool.and_eq_true, decide_eq_true_eq] at hfits
    obtain ⟨hbuy, hlen⟩ := hfits
    refine .of rfl rfl (rdPurchase_then_end _ hbuy (fits1_of_le (m := 63) (by omega) (by decide))) ?_
    rwa [purchaseBytes_length]
  | sell p lane buy ref =>
    simp only [wellFormed, Bool.and_eq_true, decide_eq_true_eq] at hfits
    obtain ⟨⟨⟨hlane, hbuy⟩, href⟩, hlen⟩ := hfits
    refine .of rfl rfl (decode_sell hlane hbuy (fits1_of_le (m := 63) (by omega) (by decide)) href) ?_
    have hlanes : (laneBytes lane).length = lane.toList.length := by cases lane <;> rfl
    simp only [List.length_append, purchaseBytes_length, hlanes, b2, List.length_cons, List.length_nil]
    omega
  | void p sale => exact .of_fields rfl rfl (rd2_then_end _ hfits) rfl
  | addService p sale code level =>
    simp only [wellFormed, Bool.and_eq_true] at hfits
    obtain ⟨⟨hsale, hcode⟩, hlevel⟩ := hfits
    exact .of_fields rfl rfl ((rd2_then _ hsale _).trans ((rd1_then _ hcode _).trans (rd1_then_end _ hlevel))) rfl
  | attachLane p tag lane =>
    obtain ⟨htag, hlane⟩ := (Bool.and_eq_true _ _).mp hfits
    exact .of_fields rfl rfl ((rd1_then _ htag _).trans ((rd1_then _ hzero _).trans (rdOne_b1 hlane _))) rfl
  | attachNewSale p tag buy ref =>
    simp only [wellFormed, Bool.and_eq_true, decide_eq_true_eq] at hfits
    obtain ⟨⟨⟨htag, hbuy⟩, href⟩, hlen⟩ := hfits
    refine .of rfl rfl (decode_attachNewSale htag hbuy (fits1_of_le (m := 63) (by omega) (by decide)) href) ?_
    simp only [List.length_append, purchaseBytes_length, b1, b2, List.length_cons, List.length_nil]
    omega
  | ackIncident p n =>
    simp only [wellFormed, Bool.and_eq_true, bne_iff_ne] at hfits
    obtain ⟨hn, hnonzero⟩ := hfits
    exact .of_fields rfl rfl ((rd1_then_end _ hn).trans (congrArg some (if_neg hnonzero))) rfl
  | definePlan p plan name price cls list =>
    simp only [wellFormed, Bool.and_eq_true, decide_eq_true_eq] at hfits
    obtain ⟨⟨⟨⟨⟨hplan, hname⟩, hprice⟩, hcls⟩, hlist⟩, hlen⟩ := hfits
    refine .of rfl rfl (decode_definePlan hplan hname hprice hcls hlist
      (fits1_of_le (m := 63) (by omega) (by decide)) (fits1_of_le (m := 63) (by omega) (by decide))) ?_
    have hnames : (name.flatMap b1).length = name.length := by simp [b1]
    simp only [List.length_append, pairBytes_length, hnames, b1, b2, List.length_cons, List.length_nil]
    omega
  | setService p code presence price limit =>
    simp only [wellFormed, Bool.and_eq_true] at hfits
    obtain ⟨⟨⟨hcode, hpresence⟩, hprice⟩, hlimit⟩ := hfits
    exact .of_fields rfl rfl ((rd1_then _ hcode _).trans ((rd1_then _ hpresence _).trans
      ((rd2_then _ hprice _).trans (rd1_then_end _ hlimit)))) rfl
  | setStation p i r =>
    obtain ⟨hi, hr⟩ := (Bool.and_eq_true _ _).mp hfits
    refine .of rfl rfl (rdStation_stationBytes hi hr p) ?_
    rw [stationBytes_length]
    split <;> decide
  | setConstants p k =>
    refine .of rfl rfl (rdConstants_constantBytes hfits p) ?_
    rw [constantBytes_length]
    decide
  | setResponse p kind cls =>
    obtain ⟨hkind, hcls⟩ := (Bool.and_eq_true _ _).mp hfits
    exact .of_fields rfl rfl ((rd1_then _ hkind _).trans (rd1_then_end _ hcls)) rfl
  | issueCredit p value plan =>
    obtain ⟨hvalue, hplan⟩ := (Bool.and_eq_true _ _).mp hfits
    exact .of_fields rfl rfl ((rd2_then _ hvalue _).trans (rd1_then_end _ hplan)) rfl
  | _ => exact fun _ _ _ hport => absurd hport nofun

end Sys2Proof.Machine
end

