-- ==== Sys2Proof/Proofs/FrameBytes.lean ====
section
/-! The bytes of a request's frame, received one by one (R175, R177, R180): from HUNT the path assembles the body, the
sum test passes, and the request that the payload spells is handled. -/

namespace Sys2Proof.Machine

/-! ### A path that receives -/

section
variable (p : Port) (x y : RxPath) (s : State)

@[simp] theorem setRx_rx : ((setRx p x s).ports.get p).rx = x := by simp [setRx]

@[simp] theorem setRx_setRx : setRx p y (setRx p x s) = setRx p y s := updatePort_updatePort p _ _ s

@[simp] theorem frameDone_setRx : frameDone p (setRx p x s) = frameDone p s := updatePort_updatePort p _ _ s

theorem roomForAnswer_setRx : roomForAnswer ((setRx p x s).ports.get p) = roomForAnswer (s.ports.get p) := by
  rw [setRx, (updatePort_fields p _ s).1, PerPort.get_set_same]
  rfl

/-- A request does not read the path that its frame came on (log entry 15). -/
theorem respond_setRx (hrun : s.held = false) (k : ReqKind) (form : Bool) (owner : State → State × Answer) :
    respond p k form owner (setRx p x s) = respond p k form owner s := by
  simp [respond, hrun, roomForAnswer_setRx]

end

theorem after_setRx {c : Instr} {p : Port} (hport : requestPort c = some p) (x : RxPath) {s : State}
    (hrun : s.held = false) : after c (setRx p x s) = after c s := by
  obtain ⟨k, owner, -, -, hresponds⟩ := runRequest_responds c p hport
  rw [after_request c p hport, after_request c p hport, hresponds, hresponds, respond_setRx p x s hrun]

/-! ### Byte after byte -/

theorem after_byteReceived {p : Port} {byte : Byte} {s : State} (hrun : s.held = false) :
    after (.byteReceived p byte) s = receive p byte s := portEvent_running hrun

theorem receiveAll_cons {p : Port} {byte : Byte} {bytes : List Byte} {s : State} (hrun : s.held = false) :
    receiveAll p (byte :: bytes) s = receiveAll p bytes (receive p byte s) := by
  rw [← after_byteReceived hrun]
  rfl

theorem receiveAll_cons_setRx {p : Port} {byte : Byte} {bytes : List Byte} {x : RxPath} {s : State}
    (hrun : s.held = false) :
    receiveAll p (byte :: bytes) (setRx p x s) = receiveAll p bytes (receive p byte (setRx p x s)) :=
  receiveAll_cons hrun

theorem receiveAll_append (p : Port) (l m : List Byte) (s : State) :
    receiveAll p (l ++ m) s = receiveAll p m (receiveAll p l s) := List.foldl_append

/-- The body's bytes go into the buffer, and the last of them leads to CHECK (R175). -/
theorem receiveAll_body {p : Port} {s : State} (hrun : s.held = false) (len : Nat) (body : List Byte) :
    ∀ buf, body ≠ [] → receiveAll p body (setRx p ⟨.body, len, body.length, buf, some 20⟩ s) =
      setRx p ⟨.check, len, 0, buf ++ body, some 20⟩ s := by
  induction body with
  | nil => exact fun _ h => absurd rfl h
  | cons byte body ih =>
    intro buf _
    rw [receiveAll_cons_setRx hrun, receive_body (by simp), setRx_rx, setRx_setRx]
    cases body with
    | nil => rfl
    | cons next rest =>
      have hmore : ¬(byte :: next :: rest).length ≤ 1 := by simp
      have hjoin : buf ++ [byte] ++ next :: rest = buf ++ byte :: next :: rest := by simp
      rw [if_neg hmore, ← hjoin]
      exact ih (buf ++ [byte]) (List.cons_ne_nil _ _)

/-- LEN, the body and CHECK add up to a multiple of 256 (R175, R177). -/
theorem checkByte_sums (body : List Byte) :
    (body.length + (body.map BitVec.toNat).sum + (checkByte body).toNat) % 256 = 0 := by
  rw [checkByte, byteSum, BitVec.toNat_ofNat]
  omega

/-- The frame of a body of 1 to 64 bytes leads from HUNT to the handling of what the body holds (R175, R180). -/
theorem receiveAll_frameBytes {p : Port} {s : State} (hrun : s.held = false)
    (hhunt : (s.ports.get p).rx.state = .hunt) {kind : Byte} {payload : List Byte} (hlen : payload.length ≤ 63) :
    receiveAll p (frameBytes (kind :: payload)) s = handleFrame p kind.toNat payload
      (setRx p ⟨.check, (kind :: payload).length, 0, kind :: payload, some 20⟩ s) := by
  have hlength : (BitVec.ofNat 8 (kind :: payload).length).toNat = (kind :: payload).length := by
    rw [BitVec.toNat_ofNat, List.length_cons]
    omega
  have hrange : 1 ≤ (kind :: payload).length ∧ (kind :: payload).length ≤ 64 := by
    rw [List.length_cons]
    omega
  have hlength_byte : ∀ x : RxPath, x.state = .length →
      receive p (BitVec.ofNat 8 (kind :: payload).length) (setRx p x s) =
        setRx p ⟨.body, (kind :: payload).length, (kind :: payload).length, [], some 20⟩ s := fun x hx => by
    rw [receive_length (by simpa using hx), hlength, if_pos hrange, setRx_setRx]
  rw [frameBytes, receiveAll_cons hrun, receive_hunt hhunt, if_pos (by rfl), receiveAll_cons_setRx hrun,
    hlength_byte _ rfl, receiveAll_append, receiveAll_body hrun _ _ _ (List.cons_ne_nil _ _), receiveAll_cons_setRx hrun,
    List.nil_append]
  refine receive_check_passes (by simp) (by simp) ?_
  rw [setRx_rx]
  exact checkByte_sums (kind :: payload)

/-- Settles O5: the frame leads to the handling of its payload, which spells the request, and a request does not read
the path it came on. -/
theorem frameBytesRunTheirRequest : Obligations.FrameBytesRunTheirRequest := by
  intro c p k payload s hfits hport hencode hrun hhunt
  obtain ⟨hdecode, hlen⟩ := roundTrips c hfits p k payload hport hencode
  have hkind : (BitVec.ofNat 8 (kindByte k)).toNat = kindByte k := by
    have hle := kindByte_le k
    rw [BitVec.toNat_ofNat]
    omega
  rw [receiveAll_frameBytes hrun hhunt hlen, hkind, handleFrame_of_request hdecode, after_setRx hport _ hrun]

end Sys2Proof.Machine
end

