-- ==== Sys2Proof/Proofs/HeldPart.lean ====
section
/-! A part held in reset (R193): it takes no event, so every command but the reset and the start-up event leaves all its
records as they are, and an edge moves its input line alone (log entry 17). -/

namespace Sys2Proof.Machine

section
variable {s : State}

theorem portEvent_held (f : State → State) (h : s.held = true) : portEvent f s = s := if_pos h

theorem handleUnknownKind_held (p : Port) (kind : Nat) (h : s.held = true) : handleUnknownKind p kind s = s := if_pos h

/-- A request is lost: nothing answers it (R193). -/
theorem runRequest_held {c : Instr} {p : Port} (hport : requestPort c = some p) (h : s.held = true) :
    runRequest c s = s := by
  obtain ⟨k, owner, -, -, hresponds⟩ := runRequest_responds c p hport
  rw [hresponds, respond_held h]

theorem LineOnly.of_eq {t : State} (h : t = s) : LineOnly s t := by
  rw [h]
  rfl

theorem event_lineOnly (f : State → State) (h : s.held = true) : LineOnly s (event f s) := .of_eq (event_held f s h)

theorem portEvent_lineOnly (f : State → State) (h : s.held = true) : LineOnly s (portEvent f s) :=
  .of_eq (portEvent_held f h)

/-- The input line takes its new level, and the edge has no effect (R193, R194). -/
theorem lineEdge_lineOnly {setLine : State → State} (f : State → State) (now level : Bool) (h : s.held = true)
    (hset : LineOnly s (setLine s) := by rfl) : LineOnly s (lineEdge now level setLine f s) := by
  have hheld : (setLine s).held = true := by rw [hset]; exact h
  unfold lineEdge
  split
  · exact .of_eq rfl
  · rw [event_held f _ hheld]
    exact hset

/-- Every command but the reset and the start-up event. -/
theorem after_held (c : Instr) (h : s.held = true) (hreset : c ≠ .reset) (hstart : ∀ cause, c ≠ .startUp cause) :
    LineOnly s (after c s) := by
  cases hport : requestPort c with
  | some p =>
    rw [after_request c p hport]
    exact .of_eq (runRequest_held hport h)
  | none =>
    cases c with
    | reset => exact absurd rfl hreset
    | startUp cause => exact absurd rfl (hstart cause)
    | unknownKind p kind => exact .of_eq (handleUnknownKind_held p kind h)
    | frameDiscarded | gapTimerExpiry | txStart | txFrameSent | byteReceived => exact portEvent_lineOnly _ h
    | encoderPulse | grantTimerExpiry | startTimerExpiry | exitBlockTimerExpiry | proofTimerExpiry | retryTimerExpiry
    | gateWindowEnd | scanComplete | secondsTick | saveComplete => exact event_lineOnly _ h
    | checkEyeBlockingEdge | checkEyeClearEdge | exitEyeBlockingEdge | exitEyeClearEdge | entranceEyeBlockingEdge
    | entranceEyeClearEdge | loopOccupied | loopVacant | proofAssert | proofDeassert | estopLoopOpen | estopLoopClose =>
      exact lineEdge_lineOnly _ _ _ h
    | bumperOvertravelEdge slot line active => exact lineEdge_lineOnly _ _ _ h (setSwitch_lineOnly slot line active s)
    | _ => exact absurd hport nofun

end

/-- Settles O3: a request, an event of the ports, an event of the tunnel and an edge, each on a held part. -/
theorem heldPartTakesNoEvent : Obligations.HeldPartTakesNoEvent := by
  intro c s t hheld hreset hstart hexec
  rw [exec_eq_after] at hexec
  obtain rfl := Host.Outcome.next.inj hexec
  exact after_held c hheld hreset hstart

end Sys2Proof.Machine
end

