-- ==== Sys2Proof/Proofs/SaveAndStartUp.lean ====
section
/-! SAVE and its completion (R189, R190, R192), the reset (R193, R195), the start-up event (R193, R194), and the
invariants right after the start-up of a power-on. -/

namespace Sys2Proof.Machine

/-! ### SAVE and its completion -/

section
variable {s : State}

theorem saving_eq_true (h : s.store.writing ≠ none) : saving s = true := Option.isSome_iff_ne_none.mpr h

theorem ownSave_starts (h : s.store.writing = none) :
    ownSave s = (startWrite s, answerOk (b1 (outcomeCode s.store.lastOutcome))) := by
  simp [ownSave, saving_eq_false h]

/-- SAVE is answered with the last outcome once the snapshot is taken (R190). -/
theorem exec_save (hreach : Reaches .p4 .save s) (h : s.store.writing = none) : exec (.save .p4) s =
    .next (answeredOk .p4 .save (b1 (outcomeCode s.store.lastOutcome)) (startWrite (frameDone .p4 s))) :=
  congrArg Host.Outcome.next (respond_ok hreach (ownSave_starts (s := frameDone .p4 s) h))

/-- Without a write there is nothing to complete (log entry 5). -/
theorem finishWrite_idle (verified : Bool) (h : s.store.writing = none) : finishWrite verified s = s := by
  simp only [finishWrite, h]

/-- A verified snapshot is the stored image (R192). -/
theorem finishWrite_verified {m : Image} (h : s.store.writing = some m) : finishWrite true s =
    notify .p4 .saveDone { s with store := { s.store with
      image := m, marker := true, writing := none, lastOutcome := .done, defaulted := false } } := by
  simp only [finishWrite, h, if_true]

/-- A write that does not verify leaves no valid image (R192). -/
theorem finishWrite_failed {m : Image} (h : s.store.writing = some m) :
    finishWrite false s = notify .p4 .saveFailed { spoilImage s with store.lastOutcome := .failed } := by
  simp only [finishWrite, h, Bool.false_eq_true, if_false]

theorem exec_saveComplete (verified : Bool) (hrun : s.held = false) :
    exec (.saveComplete verified) s = .next (driveLines (finishWrite verified s)) :=
  congrArg Host.Outcome.next (event_running (finishWrite verified) s hrun)

/-! ### The reset -/

theorem cutWrite_idle (h : s.store.writing = none) : cutWrite s = s := by simp [cutWrite, saving_eq_false h]

theorem cutWrite_spoils (h : s.store.writing ≠ none) : cutWrite s = spoilImage s := if_pos (saving_eq_true h)

/-- A reset with no write in progress (R193). -/
theorem exec_reset_idle (h : s.store.writing = none) :
    exec .reset s = .next { s with held := true, out := Outputs.off, ports := idlePorts } := by
  change Host.Outcome.next (holdReset s) = _
  rw [holdReset, cutWrite_idle h]

/-- A reset cuts a write short (R195). -/
theorem exec_reset_saving (h : s.store.writing ≠ none) :
    exec .reset s = .next { spoilImage s with held := true, out := Outputs.off, ports := idlePorts } := by
  change Host.Outcome.next (holdReset s) = _
  rw [holdReset, cutWrite_spoils h]

/-! ### The start-up event -/

/-- A part that is not held in reset does not start up (log entry 5). -/
theorem startUp_running (cause : ResetCause) (h : s.held = false) : startUp cause s = s := by simp [startUp, h]

theorem startUp_loop_closed (cause : ResetCause) (hheld : s.held = true) (hloop : s.inputs.estopClosed = true) :
    startUp cause s = driveLines (loadRecords cause s) :=
  (if_pos hheld).trans (congrArg driveLines (if_pos hloop))

/-- An open loop raises ESTOP (R194, step 5). -/
theorem startUp_loop_open (cause : ResetCause) (hheld : s.held = true) (hloop : s.inputs.estopClosed = false) :
    startUp cause s = driveLines (raiseEstop (loadRecords cause s)) :=
  (if_pos hheld).trans (congrArg driveLines (if_neg (Bool.eq_false_iff.mp hloop)))

theorem loadedImage_marked (h : s.store.marker = true) : loadedImage s = s.store.image := if_pos h

theorem loadedImage_unmarked (h : s.store.marker = false) : loadedImage s = Image.defaults :=
  if_neg (Bool.eq_false_iff.mp h)

/-- At start-up a fitted eye takes its state from its input, and no other eye has one (R7, R10). -/
theorem trackingAtStart_eyes (c : Constants) (inputs : Inputs) (j : Eye) :
    (trackingAtStart c inputs).eyes.get j = (eyePosition c j).map fun _ => eyeFromInput (inputs.eyes.get j) := by
  have hnone : (⟨none, none, none, none, none⟩ : PerEye (Option Debounce)).get j = none := by cases j <;> rfl
  change (refitEyes c inputs.eyes ⟨none, none, none, none, none⟩).get j = _
  rw [refitEyes_get]
  cases hpos : eyePosition c j with
  | none => exact refitEye_unfitted hpos _ _
  | some pos =>
    rw [refitEye_fitted hpos, hnone]
    rfl

theorem loadRecords_defaulted (cause : ResetCause) (s : State) :
    (loadRecords cause s).store.defaulted = true ↔ s.store.marker = false := by
  change (!s.store.marker) = true ↔ _
  rw [Bool.not_eq_true']

end

/-- Settles O53: SAVE, its completion, the reset with and without a write, and the start-up event, whose records are
those that `loadRecords` gives. -/
theorem settingsSurviveAReset : Obligations.SettingsSurviveAReset := by
  refine ⟨fun s hreach hidle => exec_save hreach hidle, fun m s hrun hwriting => ⟨?_, Config.spoiledImage s.free, ?_⟩,
    fun v s hlines hidle => congrArg Host.Outcome.next (event_stays hlines (finishWrite_idle v hidle)),
    fun s => ⟨exec_reset_idle, fun hwriting => ⟨Config.spoiledImage s.free, exec_reset_saving hwriting⟩⟩,
    fun cause s hrun => congrArg Host.Outcome.next (startUp_running cause hrun),
    fun cause s hheld => ⟨loadedImage s, loadRecords cause s, loadedImage_marked, loadedImage_unmarked,
      rfl, rfl, rfl, rfl, rfl, rfl, rfl, rfl, rfl, rfl, rfl, trackingAtStart_eyes (loadedImage s).consts s.inputs,
      rfl, rfl, rfl, rfl, ⟨rfl, rfl, rfl, rfl, rfl, loadRecords_defaulted cause s⟩,
      fun hloop => congrArg Host.Outcome.next (startUp_loop_closed cause hheld hloop),
      fun hloop => congrArg Host.Outcome.next (startUp_loop_open cause hheld hloop)⟩⟩
  · rw [exec_saveComplete true hrun, finishWrite_verified hwriting]
  · rw [exec_saveComplete false hrun, finishWrite_failed hwriting]
    rfl

/-! ### The invariants after a power-on -/

/-- The state after a power-on is what the start-up event makes of a held part with no valid image and a closed loop
(R193, R194; log entries 2 and 3). -/
theorem reset_eq_startUp : State.reset = startUp .powerOn (holdReset State.reset) := by
  rw [startUp_loop_closed _ rfl rfl]
  rfl

/-- No write has made an image valid (log entry 3). -/
theorem reset_has_no_image (P : Image → Prop) : ∀ m ∈ imagesOf State.reset, P m := List.forall_mem_nil P

/-- Settles O13: the queues and the lines as at every start-up with the loop closed, the rest by the start-up values. -/
theorem invariantsHoldAtReset : Obligations.InvariantsHoldAtReset := by
  have hloaded : State.reset = driveLines (loadRecords .powerOn (holdReset State.reset)) :=
    reset_eq_startUp.trans (startUp_loop_closed _ rfl rfl)
  have hqueues : QueuesBounded State.reset := by
    rw [hloaded]
    exact (driveLines_shrinks _).bounded (loadRecords_bounded _ _)
  have hlines : LinesFollow State.reset := by
    rw [hloaded]
    exact driveLines_linesFollow rfl
  have hincidents : IncidentsSound State.reset :=
    ⟨Nat.zero_le _, List.nodup_nil, fun _ hr => absurd hr List.not_mem_nil, Nat.le_refl 1, (by decide : 1 ≤ 255)⟩
  exact ⟨txBounded_of_idle rfl, ⟨nofun, rfl⟩,
    ⟨fun _ _ => ⟨rfl, rfl⟩, standard_legal, reset_has_no_image _⟩, hlines, hqueues, hincidents,
    ⟨defaults_creditsSound, reset_has_no_image _⟩,
    ⟨defaults_packed, reset_has_no_image _⟩⟩

end Sys2Proof.Machine
end

