-- ==== Sys2Proof/Proofs/WaitingCommands.lean ====
section
/-! The queue of waiting commands (section 5.6 of the scope file, log entry 8): the step alone takes a command out of it.
No event and no owner of a request writes it, so every command answers a next state with the same commands waiting. -/

namespace Sys2Proof.Machine

/-- The same commands wait. -/
def SameWaiting (s t : State) : Prop := t.pending = s.pending

section
variable {s t : State}

theorem SameWaiting.refl (s : State) : SameWaiting s s := rfl

theorem SameWaiting.trans {u : State} (h : SameWaiting s t) (k : SameWaiting t u) : SameWaiting s u := Eq.trans k h

theorem SameWaiting.ite {a b : State} {p : Prop} [Decidable p] (ha : SameWaiting s a) (hb : SameWaiting s b) :
    SameWaiting s (if p then a else b) := by
  split <;> assumption

theorem SameWaiting.pair_ite {α : Type} {a b : State × α} {p : Prop} [Decidable p] (ha : SameWaiting s a.1)
    (hb : SameWaiting s b.1) : SameWaiting s (if p then a else b).1 := by
  split <;> assumption

theorem SameWaiting.ofKept (h : Kept s t) : SameWaiting s t := h.pending

theorem SameWaiting.ofSeq (h : SeqOnly s t) : SameWaiting s t := .ofKept (.ofSeq s t h)

theorem SameWaiting.ofPorts (h : PortsOnly s t) : SameWaiting s t := .ofKept (.ofPorts s t h)

theorem SameWaiting.ofLine (h : LineOnly s t) : SameWaiting s t := by
  rw [h]
  rfl

theorem arbitrate_waiting (s : State) : SameWaiting s (arbitrate s) := .ofKept (arbitrate_kept s)

theorem changeTunnel_waiting (new : Tunnel) (cause : Cause) (s : State) : SameWaiting s (changeTunnel new cause s) :=
  .ofKept (.ofChange _ _ (changeTunnel_frame new cause s))

theorem driveLines_waiting (s : State) : SameWaiting s (driveLines s) := rfl

/-! ### How a command is put together -/

theorem event_waiting {f : State → State} (hf : ∀ u, SameWaiting u (f u)) (s : State) : SameWaiting s (event f s) :=
  .ite (.refl s) ((hf s).trans (driveLines_waiting _))

theorem lineEdge_waiting {setLine f : State → State} (hf : ∀ u, Kept u (f u)) (now level : Bool) (s : State)
    (hset : LineOnly s (setLine s) := by rfl) : SameWaiting s (lineEdge now level setLine f s) :=
  .ite (.refl s) ((SameWaiting.ofLine hset).trans (event_waiting (fun u => .ofKept (hf u)) _))

theorem portEvent_waiting {f : State → State} (hf : ∀ u, SameWaiting u (f u)) (s : State) :
    SameWaiting s (portEvent f s) :=
  .ite (.refl s) (hf s)

theorem respond_waiting {owner : State → State × Answer} (ho : ∀ u, SameWaiting u (owner u).1) (p : Port)
    (k : ReqKind) (form : Bool) (s : State) : SameWaiting s (respond p k form owner s) := by
  obtain h | ⟨-, -, -, -, h⟩ := respond_cases p k form owner s
  · exact .ofPorts h
  · rw [h]
    exact ((SameWaiting.ofPorts (frameDone_portsOnly p s)).trans (ho _)).trans (.ofPorts (sendAnswer_portsOnly _ _ _ _))

theorem respond_driven_waiting {owner : State → State × Answer} (ho : ∀ u, SameWaiting u (owner u).1) (p : Port)
    (k : ReqKind) (form : Bool) (s : State) : SameWaiting s (respond p k form (driven owner) s) :=
  respond_waiting (owner := driven owner) (fun u => (ho u).trans (driveLines_waiting _)) p k form s

theorem holderOnly_waiting {owner : State → State × Answer} (ho : ∀ u, SameWaiting u (owner u).1) (p : Port)
    (s : State) : SameWaiting s (holderOnly p owner s).1 :=
  .pair_ite (ho s) (.refl s)

theorem holderOrConsole_waiting {owner : State → State × Answer} (ho : ∀ u, SameWaiting u (owner u).1) (p : Port)
    (s : State) : SameWaiting s (holderOrConsole p owner s).1 :=
  .pair_ite (ho s) (.refl s)

end

/-! ### Owners of the reads and of the sales requests -/

theorem ownLaneStatus_waiting (p : Port) (lane : Option Nat) (s : State) :
    SameWaiting s (ownLaneStatus p lane s).1 := by
  unfold ownLaneStatus
  split <;> rfl

theorem ownTallyRead_waiting (p : Port) (part : Nat) (take clear : Bool) (s : State) :
    SameWaiting s (ownTallyRead p part take clear s).1 := by
  have htake : SameWaiting s (takeCopy p s) := .ite rfl rfl
  unfold ownTallyRead
  refine .pair_ite (.refl s) (.pair_ite (.refl s) (.pair_ite ?_ ?_))
  · exact .ite (htake.trans (.ofKept (updateTally_kept _ _))) htake
  · split <;> rfl

theorem ownSell_waiting (p : Port) (lane : Option Nat) (buy : Purchase) (ref : Nat) (s : State) :
    SameWaiting s (ownSell p lane buy ref s).1 := by
  have hsell : ∀ l q, SameWaiting s (acceptSale l buy q ref s) := fun _ _ => arbitrate_waiting _
  unfold ownSell
  split
  · exact .refl s
  · split
    · exact .refl s
    · exact .pair_ite (.refl s) (hsell _ _)

theorem ownVoid_waiting (p : Port) (sale : Nat) (s : State) : SameWaiting s (ownVoid p sale s).1 := by
  unfold ownVoid
  split
  · exact .refl s
  · split
    · exact .refl s
    · exact .ofKept ((updateTally_kept _ s).trans _ _ _ (takeTicket_kept _ _ _))

theorem ownAddService_waiting (p : Port) (sale code level : Nat) (s : State) :
    SameWaiting s (ownAddService p sale code level s).1 := by
  unfold ownAddService acceptAddOn
  split
  · exact .refl s
  · split
    · exact .refl s
    · refine .pair_ite (.refl s) (.pair_ite (.refl s) ?_)
      split
      · exact .refl s
      · exact .ofKept ((updateTally_kept _ s).trans _ _ _ (placeTicket_kept _ _ _ _ _))

theorem ownAttachLane_waiting (tag lane : Nat) (s : State) : SameWaiting s (ownAttachLane tag lane s).1 := by
  unfold ownAttachLane
  split
  · exact .refl s
  · split
    · exact .refl s
    · split
      · exact .refl s
      · dsimp only
        exact .ofKept (((setLane_kept _ _ s).trans _ _ _ (bindTicket_kept _ _ _)).trans _ _ _ (withdrawLane_kept _ _ _))

theorem ownAttachNewSale_waiting (tag : Nat) (buy : Purchase) (ref : Nat) (s : State) :
    SameWaiting s (ownAttachNewSale tag buy ref s).1 := by
  have hsell : ∀ q, SameWaiting s (sellTicket .console buy q s) := fun _ => rfl
  unfold ownAttachNewSale
  split
  · exact .refl s
  · split
    · exact .refl s
    · dsimp only
      exact (hsell _).trans (.ofKept (bindTicket_kept _ _ _))

/-! ### Owners of the console's requests and of the tunnel control -/

theorem ownAckIncident_waiting (number : Nat) (s : State) : SameWaiting s (ownAckIncident number s).1 := by
  unfold ownAckIncident
  split
  · exact .refl s
  · exact .pair_ite (.refl s) (.ofKept (removeIncidents_kept _ s))

theorem ownAckAll_waiting (s : State) : SameWaiting s (ownAckAll s).1 := .ofKept (removeIncidents_kept _ s)

theorem ownLaneReset_waiting (lane : Nat) (s : State) : SameWaiting s (ownLaneReset lane s).1 := by
  unfold ownLaneReset
  split
  · exact .refl s
  · exact .ofKept (((updateTally_kept _ s).trans _ _ _ (setLane_kept _ _ _)).trans _ _ _ (withdrawLane_kept _ _ _))

theorem ownLaneEnable_waiting (lane : Nat) (s : State) : SameWaiting s (ownLaneEnable lane s).1 := by
  unfold ownLaneEnable
  split
  · exact .refl s
  · exact arbitrate_waiting (setEnabled _ true s)

theorem ownLaneDisable_waiting (lane : Nat) (s : State) : SameWaiting s (ownLaneDisable lane s).1 := by
  unfold ownLaneDisable
  split
  · exact .refl s
  · exact (withdrawLane_kept _ _ (setEnabled _ false s)).pending

theorem ownTunnelClear_waiting (s : State) : SameWaiting s (ownTunnelClear s).1 := by
  have hclear : ∀ l : List Car, SameWaiting s (l.foldl (fun u car => clearRecord car u) s) :=
    fun l => .ofKept (foldl_kept _ (fun u car => clearRecord_kept car u) l s)
  unfold ownTunnelClear
  split
  · exact hclear _
  · exact hclear _
  all_goals exact .refl s

theorem ownStationOff_waiting (station : Nat) (s : State) : SameWaiting s (ownStationOff station s).1 := by
  unfold ownStationOff okStation
  split
  · exact .refl s
  · exact .pair_ite (.refl s) (.ofSeq ((moveStation_seqOnly _ _ s).trans _ _ _ (markEntries_seqOnly _ _ _ _)))

theorem ownStationOn_waiting (station : Nat) (s : State) : SameWaiting s (ownStationOn station s).1 := by
  unfold ownStationOn okStation
  split
  · exact .refl s
  · exact .pair_ite (.ofSeq (returnStation_seqOnly _ s)) (.refl s)

theorem ownStationReset_waiting (station : Nat) (s : State) : SameWaiting s (ownStationReset station s).1 := by
  unfold ownStationReset okStation
  split
  · exact .refl s
  · exact .pair_ite (.ofSeq (returnStation_seqOnly _ s)) (.refl s)

theorem ownRestart_waiting (s : State) : SameWaiting s (ownRestart s).1 := by
  unfold ownRestart okTunnel
  split
  · exact .pair_ite (.refl s) (changeTunnel_waiting _ _ s)
  all_goals exact .refl s

theorem ownClaim_waiting (p : Port) (s : State) : SameWaiting s (ownClaim p s).1 := by
  have htell : SameWaiting s (if s.sup.holder = some .p4 then notify .p4 (.controlLost .p0) s else s) :=
    .ite (.ofPorts (notify_portsOnly _ _ s)) (.refl s)
  exact .pair_ite (htell.trans rfl) (.pair_ite (.refl s) rfl)

theorem ownOpen_waiting (s : State) : SameWaiting s (ownOpen s).1 := by
  unfold ownOpen okTunnel
  split
  · exact .pair_ite (.refl s) (.pair_ite (changeTunnel_waiting _ _ s) (.refl s))
  · rfl
  · rfl
  · exact changeTunnel_waiting .running (.request .openTunnel) s
  all_goals exact .refl s

theorem ownDrain_waiting (s : State) : SameWaiting s (ownDrain s).1 := by
  unfold ownDrain okTunnel
  split
  · exact changeTunnel_waiting _ _ s
  all_goals rfl

theorem ownStop_waiting (s : State) : SameWaiting s (ownStop s).1 := by
  have hstop : SameWaiting s (stopIfEmpty s).1 := by
    unfold stopIfEmpty
    split
    · exact changeTunnel_waiting .stopped (.request .stop) (setManual false s)
    · exact .refl s
  unfold ownStop
  split
  · exact .refl s
  · exact .pair_ite (.refl s) hstop
  all_goals exact hstop

theorem ownPause_waiting (s : State) : SameWaiting s (ownPause s).1 := by
  have hpause : SameWaiting s (pauseTunnel (.request .pause) (setManual true s)) :=
    (Kept.ofChange _ _ (pauseTunnel_frame _ (setManual true s))).pending
  unfold ownPause okPause
  split
  · exact hpause
  · exact hpause
  · exact hpause
  all_goals rfl

theorem ownResume_waiting (s : State) : SameWaiting s (ownResume s).1 := by
  unfold ownResume okPause
  split
  · exact .pair_ite rfl (changeTunnel_waiting (.starting _) (.request .resume) (setManual false s))
  all_goals exact .refl s

/-! ### Owners of the settings -/

theorem ownDefinePlan_waiting (plan : Nat) (name : List Nat) (price cls : Nat) (list : List RawPair) (s : State) :
    SameWaiting s (ownDefinePlan plan name price cls list s).1 := by
  unfold ownDefinePlan
  refine .pair_ite (.refl s) ?_
  split
  · exact .refl s
  · exact .pair_ite (.refl s) (.pair_ite (.refl s) (.pair_ite (.refl s) (.pair_ite (.refl s) rfl)))

theorem ownErasePlan_waiting (plan : Nat) (s : State) : SameWaiting s (ownErasePlan plan s).1 := by
  unfold ownErasePlan
  refine .pair_ite (.refl s) ?_
  split
  · exact .refl s
  · split <;> rfl

theorem ownPublish_waiting (plan : Nat) (s : State) : SameWaiting s (ownPublish plan s).1 := by
  unfold ownPublish
  refine .pair_ite (.refl s) ?_
  split
  · exact .refl s
  · split <;> rfl

theorem ownWithdraw_waiting (plan : Nat) (s : State) : SameWaiting s (ownWithdraw plan s).1 := by
  unfold ownWithdraw
  refine .pair_ite (.refl s) ?_
  split
  · exact .refl s
  · split <;> rfl

theorem ownSetService_waiting (code presence price limit : Nat) (s : State) :
    SameWaiting s (ownSetService code presence price limit s).1 := by
  unfold ownSetService
  refine .pair_ite (.refl s) ?_
  split <;> rfl

theorem ownSetStation_waiting (station : Nat) (raw : RawStation) (s : State) :
    SameWaiting s (ownSetStation station raw s).1 := by
  unfold ownSetStation storeStation
  refine .pair_ite (.refl s) ?_
  split
  · exact .pair_ite (.refl s) (.pair_ite (.refl s) (.pair_ite (.refl s) (.ite rfl rfl)))
  · exact .refl s

theorem ownSetConstants_waiting (c : Constants) (s : State) : SameWaiting s (ownSetConstants c s).1 := by
  have hset : ∀ k e d, SameWaiting s { s with sup.consts := k, trk.eyes := e, ent.eye := d } := fun _ _ _ => rfl
  have hreclamp : ∀ before new u, SameWaiting u (reclampStations before new u) := fun _ _ _ => .ite rfl rfl
  unfold ownSetConstants
  exact .pair_ite (.refl s) (.pair_ite (.refl s) (((hset _ _ _).trans (hreclamp _ _ _)).trans
    (.ite (.ofKept (tailgateTest_kept _)) (.refl _))))

theorem ownSetResponse_waiting (kind cls : Nat) (s : State) : SameWaiting s (ownSetResponse kind cls s).1 := by
  unfold ownSetResponse
  refine .pair_ite (.refl s) ?_
  split
  · exact .pair_ite rfl (.refl s)
  · exact .refl s

theorem ownIssueCredit_waiting (value plan : Nat) (s : State) : SameWaiting s (ownIssueCredit value plan s).1 := by
  unfold ownIssueCredit
  exact .pair_ite (.refl s) (.ofKept (issueCredit_kept _ _ _ s))

theorem ownSave_waiting (s : State) : SameWaiting s (ownSave s).1 := .pair_ite (.refl s) rfl

/-! ### Every request -/

/-- A request leaves the waiting commands as its owner does. -/
theorem runRequest_waiting (c : Instr) (s : State) : SameWaiting s (runRequest c s) := by
  cases c with
  | tunnelStatus p => exact respond_waiting (owner := ownTunnelStatus p) (fun _ => rfl) _ _ _ s
  | carList | incidentList | creditList | stationStatus | planListSummary | planListPlan | planListService | quote =>
    exact respond_waiting (fun u => .refl u) _ _ _ s
  | laneStatus p lane => exact respond_waiting (ownLaneStatus_waiting p lane) _ _ _ s
  | tallyRead p part take clear => exact respond_waiting (ownTallyRead_waiting p part take clear) _ _ _ s
  | sell p lane buy ref => exact respond_driven_waiting (ownSell_waiting p lane buy ref) _ _ _ s
  | void p sale => exact respond_driven_waiting (ownVoid_waiting p sale) _ _ _ s
  | addService p sale code level => exact respond_driven_waiting (ownAddService_waiting p sale code level) _ _ _ s
  | attachLane p tag lane => exact respond_driven_waiting (ownAttachLane_waiting tag lane) _ _ _ s
  | attachNewSale p tag buy ref => exact respond_driven_waiting (ownAttachNewSale_waiting tag buy ref) _ _ _ s
  | ackIncident p n => exact respond_driven_waiting (ownAckIncident_waiting n) _ _ _ s
  | ackIncidentAll p => exact respond_driven_waiting ownAckAll_waiting _ _ _ s
  | restart p => exact respond_driven_waiting ownRestart_waiting _ _ _ s
  | laneReset p l => exact respond_driven_waiting (ownLaneReset_waiting l) _ _ _ s
  | laneEnable p l => exact respond_driven_waiting (ownLaneEnable_waiting l) _ _ _ s
  | laneDisable p l => exact respond_driven_waiting (ownLaneDisable_waiting l) _ _ _ s
  | tunnelClear p => exact respond_driven_waiting ownTunnelClear_waiting _ _ _ s
  | stationOff p i => exact respond_driven_waiting (ownStationOff_waiting i) _ _ _ s
  | stationOn p i => exact respond_driven_waiting (ownStationOn_waiting i) _ _ _ s
  | stationReset p i => exact respond_driven_waiting (ownStationReset_waiting i) _ _ _ s
  | claim p => exact respond_waiting (ownClaim_waiting p) _ _ _ s
  | yield p => exact respond_waiting (holderOnly_waiting (owner := ownYield) (fun _ => rfl) p) _ _ _ s
  | openTunnel p => exact respond_driven_waiting (holderOnly_waiting ownOpen_waiting p) _ _ _ s
  | drain p => exact respond_driven_waiting (holderOnly_waiting ownDrain_waiting p) _ _ _ s
  | stop p => exact respond_driven_waiting (holderOnly_waiting ownStop_waiting p) _ _ _ s
  | pause p => exact respond_driven_waiting (holderOrConsole_waiting ownPause_waiting p) _ _ _ s
  | resume p => exact respond_driven_waiting (holderOrConsole_waiting ownResume_waiting p) _ _ _ s
  | forceSpeed p cls =>
    exact respond_driven_waiting (holderOnly_waiting (owner := ownForceSpeed cls) (fun _ => rfl) p) _ _ _ s
  | releaseSpeed p =>
    exact respond_driven_waiting (holderOnly_waiting (owner := ownReleaseSpeed) (fun _ => rfl) p) _ _ _ s
  | definePlan p plan name price cls list =>
    exact respond_waiting (ownDefinePlan_waiting plan name price cls list) _ _ _ s
  | erasePlan p n => exact respond_waiting (ownErasePlan_waiting n) _ _ _ s
  | publish p n => exact respond_waiting (ownPublish_waiting n) _ _ _ s
  | withdraw p n => exact respond_waiting (ownWithdraw_waiting n) _ _ _ s
  | setService p code presence price limit =>
    exact respond_waiting (ownSetService_waiting code presence price limit) _ _ _ s
  | setStation p i r => exact respond_driven_waiting (ownSetStation_waiting i r) _ _ _ s
  | setConstants p k => exact respond_driven_waiting (ownSetConstants_waiting k) _ _ _ s
  | setResponse p kind cls => exact respond_waiting (ownSetResponse_waiting kind cls) _ _ _ s
  | issueCredit p value plan => exact respond_waiting (ownIssueCredit_waiting value plan) _ _ _ s
  | save p => exact respond_waiting ownSave_waiting _ _ _ s
  | _ => exact .refl s

/-! ### Received bytes, the Settings Store, the start-up -/

theorem handleFrame_waiting (p : Port) (kind : Nat) (payload : List Byte) (s : State) :
    SameWaiting s (handleFrame p kind payload s) := by
  obtain h | ⟨c, h⟩ := handleFrame_cases p kind payload s
  · exact .ofPorts h
  · rw [h]
    exact runRequest_waiting c s

theorem receive_waiting (p : Port) (byte : Byte) (s : State) : SameWaiting s (receive p byte s) := by
  have hcomplete : ∀ body, SameWaiting s (completeFrame p body s) := fun body => by
    cases body with
    | nil => exact .ofPorts (frameDone_portsOnly p s)
    | cons kind payload => exact handleFrame_waiting p _ payload s
  unfold receive
  dsimp only
  split
  · exact .ite rfl (.refl s)
  · exact .ite rfl rfl
  · rfl
  · exact .ite (hcomplete _) rfl

theorem finishWrite_waiting (verified : Bool) (s : State) : SameWaiting s (finishWrite verified s) := by
  unfold finishWrite
  split
  · exact .refl s
  · exact .ite rfl rfl

theorem holdReset_waiting (s : State) : SameWaiting s (holdReset s) := by
  have hcut : SameWaiting s (cutWrite s) := .ite rfl (.refl s)
  exact hcut

theorem startUp_waiting (cause : ResetCause) (s : State) : SameWaiting s (startUp cause s) := by
  have hestop : SameWaiting s (raiseEstop (loadRecords cause s)) :=
    (raiseIncident_kept _ (loadRecords cause s)).pending
  have hloaded : SameWaiting s (loadRecords cause s) := rfl
  exact .ite ((SameWaiting.ite hloaded hestop).trans (driveLines_waiting _)) (.refl s)

/-! ### Every command -/

/-- No command writes the queue of waiting commands. -/
theorem after_waiting (c : Instr) (s : State) : SameWaiting s (after c s) := by
  cases hp : requestPort c with
  | some p =>
    rw [after_request c p hp]
    exact runRequest_waiting c s
  | none =>
    cases c with
    | unknownKind p kind => exact .ofPorts (handleUnknownKind_portsOnly p kind s)
    | frameDiscarded p cause => exact portEvent_waiting (fun u => .ofPorts (discardFrame_portsOnly p cause u)) s
    | gapTimerExpiry p => exact portEvent_waiting (fun u => .ofPorts (gapExpired_portsOnly p u)) s
    | txStart p => exact portEvent_waiting (fun u => .ofPorts (updatePort_portsOnly p startFrame u)) s
    | txFrameSent p => exact portEvent_waiting (fun u => .ofPorts (updatePort_portsOnly p endFrame u)) s
    | byteReceived p byte => exact portEvent_waiting (receive_waiting p byte) s
    | encoderPulse => exact event_waiting (fun u => .ofKept (pulse_kept u)) s
    | checkEyeBlockingEdge k => exact lineEdge_waiting (eyeBlocked_kept _) _ _ s
    | checkEyeClearEdge k => exact lineEdge_waiting (eyeCleared_kept _) _ _ s
    | exitEyeBlockingEdge => exact lineEdge_waiting exitBlocked_kept _ _ s
    | exitEyeClearEdge => exact lineEdge_waiting exitCleared_kept _ _ s
    | entranceEyeBlockingEdge => exact lineEdge_waiting entranceBlocked_kept _ _ s
    | entranceEyeClearEdge => exact lineEdge_waiting entranceCleared_kept _ _ s
    | loopOccupied l => exact lineEdge_waiting arbitrate_kept _ _ s
    | loopVacant l => exact lineEdge_waiting Kept.refl _ _ s
    | proofAssert i => exact lineEdge_waiting (proofOn_kept i) _ _ s
    | proofDeassert i => exact lineEdge_waiting (proofOff_kept i) _ _ s
    | bumperOvertravelEdge slot line active =>
      exact lineEdge_waiting (switchEdge_kept slot) _ _ s (setSwitch_lineOnly slot line active s)
    | estopLoopOpen => exact lineEdge_waiting (raiseIncident_kept _) _ _ s
    | estopLoopClose => exact lineEdge_waiting Kept.refl _ _ s
    | reset => exact holdReset_waiting s
    | startUp cause => exact startUp_waiting cause s
    | grantTimerExpiry => exact event_waiting (fun u => .ofKept (grantExpired_kept u)) s
    | startTimerExpiry => exact event_waiting (fun u => .ofKept (startExpired_kept u)) s
    | exitBlockTimerExpiry => exact event_waiting (fun u => .ofKept (exitBlockExpired_kept u)) s
    | proofTimerExpiry i => exact event_waiting (fun u => .ofKept (proofExpired_kept i u)) s
    | retryTimerExpiry i => exact event_waiting (fun u => .ofKept (retryExpired_kept i u)) s
    | gateWindowEnd => exact event_waiting (fun u => .ofKept (windowEnd_kept u)) s
    | scanComplete samples => exact event_waiting (fun u => .ofKept (scan_kept samples u)) s
    | secondsTick => exact event_waiting (f := tickSeconds) (fun _ => rfl) s
    | saveComplete verified => exact event_waiting (finishWrite_waiting verified) s
    | _ => exact absurd hp nofun

/-- Settles O2: every arm of `exec` answers a next state, and no command writes the queue. -/
theorem everyCommandAnswersNext : Obligations.EveryCommandAnswersNext := fun c s =>
  ⟨after c s, exec_eq_after c s, after_waiting c s⟩

/-! ### The step -/

theorem step_of_cons {c : Instr} {rest : List Instr} {s : State} (h : s.pending = c :: rest) :
    step s = exec c { s with pending := rest } := by
  rw [step, h]

theorem step_of_nil {s : State} (h : s.pending = []) : step s = .next s := by
  rw [step, h]

/-- Settles O1, by the two forms of the queue. -/
theorem stepRunsFrontCommand : Obligations.StepRunsFrontCommand :=
  ⟨fun _ _ _ h => step_of_cons h, fun _ h => step_of_nil h⟩

end Sys2Proof.Machine
end

