-- ==== Sys2Proof/Proofs/RequestRoundTrip.lean ====
section
/-! A request's payload read on the port it came from gives the request back (R199 to R201; log entry 25). -/

namespace Sys2Proof.Machine

/-- Settles O4: the KIND byte by `kindOfByte_kindByte`, the payload and its length by `roundTrips`. -/
theorem requestFramesRoundTrip : Obligations.RequestFramesRoundTrip := by
  intro c p k payload hfits hport hencode
  obtain ⟨hdecode, hlen⟩ := roundTrips c hfits p k payload hport hencode
  exact ⟨hlen, kindOfByte_kindByte k, hdecode⟩

end Sys2Proof.Machine
end
